-- ==== Sys2Proof/Word.lean ====
section
/-! DEFINITION. The widths the manual gives its values (00_scope, Conventions). -/

namespace Sys2Proof

/-- The unit of carriage memory. -/
abbrev Byte := BitVec 8

/-- A carriage memory address: 36 bits, 64 GiB (00_scope, Addresses). -/
abbrev Addr := BitVec 36

/-- A slot sequence number, modulo 2^32 (00_scope, R12). -/
abbrev SSN := BitVec 32

/-- The low 12 bits of a tag field (R3). -/
abbrev Tag := BitVec 12

/-- A zone set: bit z stands for zone z (chapter 12). -/
abbrev ZoneSet := BitVec 32

end Sys2Proof
end

