-- ==== Sys2Proof/Syntax.lean ====
section
/-! DEFINITION. The commands of the block: one constructor per row of spec/opcode_table.json. -/

namespace Sys2Proof

/-- Direction of a request (section 2.1). -/
inductive Direction where
  | read
  | write
  deriving DecidableEq, Repr

/-- A contribution path of a region (00_scope, Terms). -/
inductive Path where
  | a
  | b
  deriving DecidableEq, Repr

/-- The memory port's answer to an access (R24). -/
inductive MemAnswer where
  | okay
  | error
  deriving DecidableEq, Repr

/-- The 29 steps of the part, in the table's order.
The completion rows say how the access in progress at the memory port is answered; the rows that
are always completions with OKAY (SUBMIT to BAD_COMMAND) have no operand, since their
arguments stand in the write that completes (R55, R68). -/
inductive Instr where
  /-- RESET_N_ASSERT (R36). -/
  | resetNAssert
  /-- RESET_N_RELEASE (R38): `planSel` is the level of the straps at the release. -/
  | resetNRelease (planSel : BitVec 4)
  /-- LANE_REQUEST (R18): a master presents a request at its lane port. -/
  | laneRequest (lane : Fin 8) (dir : Direction) (addr : Addr) (length : Nat) (link : Bool)
      (data : List Byte)
  /-- PLAIN_ACCESS_COMPLETE (R33, R34). -/
  | plainAccessComplete (answer : MemAnswer)
  /-- PLAN_WRITE_COMPLETE (R55, R56). -/
  | planWriteComplete (answer : MemAnswer)
  /-- SUBMIT (R72). -/
  | submit
  /-- COMMIT (R60). -/
  | commit
  /-- STOP (R64). -/
  | stop
  /-- CANCEL (R69, R114). -/
  | cancel
  /-- HOLD (R70, R116). -/
  | hold
  /-- RELEASE (R70, R118). -/
  | release
  /-- ATTACH (R71, R147). -/
  | attach
  /-- DETACH (R71, R149). -/
  | detach
  /-- BAD_COMMAND (R67). -/
  | badCommand
  /-- READ_INDEX_WRITE (R192). -/
  | readIndexWrite (answer : MemAnswer)
  /-- RING_WRITE_COMPLETE (R87). -/
  | ringWriteComplete (answer : MemAnswer)
  /-- VIEW_READ_COMPLETE (R161 to R163). -/
  | viewReadComplete (answer : MemAnswer)
  /-- TICK (R180). -/
  | tick
  /-- LINK_WAIT_EXPIRY (R29). -/
  | linkWaitExpiry
  /-- SILENCE_LIMIT_EXPIRY (R95) of one regional path. -/
  | silenceLimitExpiry (region : Fin 12) (path : Path)
  /-- HOLD_LIMIT_EXPIRY (R174) of the held write of one lane. -/
  | holdLimitExpiry (lane : Fin 8)
  /-- PULSE_TIMEOUT_EXPIRY (R182). -/
  | pulseTimeoutExpiry
  /-- REF_PULSE (R183): a rising edge. -/
  | refPulse
  /-- HOLD_REQ_ASSERT (R117): the level goes high. -/
  | holdReqAssert
  /-- HOLD_REQ_DEASSERT (R117): the level goes low. -/
  | holdReqDeassert
  /-- DRAIN_END (R65). -/
  | drainEnd
  /-- REPORT_TAKE (R189, R191). -/
  | reportTake
  /-- RECORD_WRITE_COMPLETE (R189 to R191). -/
  | recordWriteComplete (answer : MemAnswer)
  /-- WRITE_INDEX_WORD_COMPLETE (R189, R190). -/
  | writeIndexWordComplete (answer : MemAnswer)
  deriving DecidableEq, Repr

end Sys2Proof
end

