-- ==== Sys2Proof/Config.lean ====
section
/-! DEFINITION. What the implementation fixes (capacities) and the free values. -/

namespace Sys2Proof.Config

/-- A byte whose value the manual leaves open: what memory holds where a write was answered
ERROR (R34) or abandoned by RESET_N (R36). No body: no proof can see its value (log 5). -/
opaque freeByte : Nat → Byte

/-- Records the report queue holds (R187). -/
def queueCapacity : Nat := 16

/-- Runs a decision log holds (R124). -/
def logCapacity : Nat := 32

/-- Accesses a linked sequence holds (R32). -/
def sequenceCap : Nat := 8

/-- Lane, region, zone and window fields that name none (R195, R196). -/
def noneCode : Nat := 0xFF

end Sys2Proof.Config
end

