-- ==== Sys2Proof/Machine/State.lean ====
section
/-! DEFINITION. The state of the part, block by block, as plain data, and its value after reset.
Each structure names the block that owns it (00_scope, Block overview). -/

namespace Sys2Proof.Machine

/-- No command of the block ends in a fault: what the manual calls FAULT is a response (R34). -/
inductive Fault where
  deriving DecidableEq, Repr

/-- Why a command has no meaning. -/
inductive Refusal where
  /-- Raised by an arm of `exec` that has no meaning yet; no arm uses it. Safe. -/
  | notModelled (mnemonic : String)
  deriving DecidableEq, Repr

/-- Sparse data by key, keys strictly rising. Carriage memory is one: (address, byte) pairs, a byte
that is not listed reads as 0 and no listed byte is 0 (log 4). -/
abbrev Memory := List Host.Cell

/-! ## Setup (section 12.4) -/

/-- Lane classes (section 3.4). -/
inductive LaneClass where
  | none
  | control
  | ingest
  | emission
  deriving DecidableEq, Repr

/-- Grant modes of a group (section 2.4). -/
inductive GroupMode where
  | fixed
  | rotating
  deriving DecidableEq, Repr

/-- One entry of the lane table, the class as its code. -/
structure LaneCfg where
  cls : Nat
  urgent : Bool
  deriving DecidableEq, Repr

/-- One entry of the region table. -/
structure RegionCfg where
  enabled : Bool
  laneA : Nat
  laneB : Nat
  profile : Nat
  deriving DecidableEq, Repr

/-- One entry of the zone table; `region` is 0 … 11, or 0xFF for none. -/
structure ZoneCfg where
  enabled : Bool
  region : Nat
  deriving DecidableEq, Repr

/-- One entry of the feed table; `lane` is 0 … 7, or 0xFF for none. -/
structure FeedCfg where
  enabled : Bool
  zone : Nat
  lane : Nat
  deriving DecidableEq, Repr

/-- A health profile (R93). -/
structure Profile where
  badWeight : Nat
  gapWeight : Nat
  degradeAt : Nat
  recoverAt : Nat
  silenceLimit : Nat
  deriving DecidableEq, Repr

/-- The fields of the setup block, decoded but not validated: enumerated fields are their codes,
base fields have their low eight bits taken as zero (R195). -/
structure Setup where
  natBase : Nat
  regBase : Nat
  viewBase : Nat
  reportBase : Nat
  nr : Nat
  rs : Nat
  reportSize : Nat
  tickDiv : Nat
  spreadMax : Nat
  armLead : Nat
  entryGrace : Nat
  returnGrace : Nat
  holdLimit : Nat
  pulseTimeout : Nat
  jumpMax : Nat
  linkWait : Nat
  stallPulses : Nat
  pulseReport : Bool
  urgentOrder : Nat
  normalOrder : Nat
  natLane : Nat
  lanes : Vector LaneCfg 8
  regions : Vector RegionCfg 12
  zones : Vector ZoneCfg 24
  feeds : Vector FeedCfg 32
  profiles : Vector Profile 4
  deriving DecidableEq, Repr

/-- The run state (R59), with the setup in force in RUNNING and STOPPING. The Area Classifier's map,
lane table and assignments in force (R40) are those of this setup. -/
inductive RunState where
  | config
  | running (su : Setup)
  | stopping (su : Setup)
  deriving DecidableEq, Repr

/-! ## Lane Arbiter (chapter 2) -/

/-- A ring of cells: the national ring or regional ring (r,p). -/
inductive RingId where
  | national
  | regional (region : Fin 12) (path : Path)
  deriving DecidableEq, Repr

/-- What an access does: read so many bytes, or write these. -/
inductive Body where
  | read (length : Nat)
  | write (data : List Byte)
  deriving DecidableEq, Repr

/-- A request as a lane made it (section 2.1). -/
structure Request where
  addr : Addr
  body : Body
  link : Bool
  deriving DecidableEq, Repr

/-- The block that owns an access at the memory port (R33). -/
inductive AccessKind where
  /-- A plain access: it completes straight to the lane. -/
  | plain
  /-- A plan-area write; `readIndex` when the Report Writer took it as a read index write (R192). -/
  | plan (readIndex : Bool)
  /-- A ring write the Ingest Checker accepted (R85). -/
  | ring (ring : RingId) (slot : Nat)
  /-- A held write released in STOPPING, presented without acceptance (R86). -/
  | released
  /-- The redirected view read of a feed (R159). -/
  | view (feed : Fin 32)
  /-- A record written into the report ring (R189). -/
  | record
  /-- A record written to the standby record (R191). -/
  | standby
  /-- The write of the write index word (R189). -/
  | indexWord
  deriving DecidableEq, Repr

/-- An access presented at the memory port: the request as presented, and its owner. -/
structure Access where
  req : Request
  kind : AccessKind
  deriving DecidableEq, Repr

/-- Where a lane's request is (section 2.3). -/
inductive LaneState where
  | idle
  | taken (r : Request)
  | held (r : Request)
  | waiting (a : Access)
  | active (a : Access)
  deriving DecidableEq, Repr

/-- Statuses of a response (section 2.1). -/
inductive Status where
  | okay
  | refused
  | fault
  deriving DecidableEq, Repr

/-- A response: a status and, for a READ, data. -/
structure Response where
  status : Status
  data : List Byte
  deriving DecidableEq, Repr

/-- The reservation record (section 2.5). -/
structure Reservation where
  lane : Fin 9
  urgent : Bool
  wait : Nat
  count : Nat
  deriving DecidableEq, Repr

/-- The access in progress: its lane, and the LINK attribute and sequence count kept from the grant
(R27). -/
structure Grant where
  lane : Fin 9
  link : Bool
  count : Nat
  deriving DecidableEq, Repr

/-- States of the memory port (section 2.4). -/
inductive Port where
  | free
  | busy (g : Grant)
  | reserved (r : Reservation)
  deriving DecidableEq, Repr

/-- The Lane Arbiter. Lanes 0 … 7 are the external ports, lane 8 the report lane. -/
structure LaneArbiter where
  lanes : Vector LaneState 9
  kept : Vector (List Request) 8
  responses : Vector (Option Response) 8
  port : Port
  urgentPtr : Fin 9
  normalPtr : Fin 9
  deriving DecidableEq, Repr

/-! ## Area Classifier (chapter 3) -/

/-- The Area Classifier: the sampled straps (R38). -/
structure AreaClassifier where
  planSel : BitVec 4
  deriving DecidableEq, Repr

/-- The areas of carriage memory (R41, R43). -/
inductive Area where
  | plan
  | report
  | national
  | regional (region : Fin 12) (path : Path)
  | view (feed : Fin 32)
  | plain
  deriving DecidableEq, Repr

/-! ## Plan Shadow (chapter 4) -/

/-- The Plan Shadow (R53). The setup copy, the window copies and the command copy are one sparse
memory by plan offset: 0x0000 … 0x0FFF, 0x1000 … 0x1FFF and 0x2000 … 0x201F. -/
structure PlanShadow where
  run : RunState
  planCopy : Memory
  unknown : List Nat
  drainFlag : Bool
  stopTicket : BitVec 16
  deriving DecidableEq, Repr

/-! ## Ingest Checker (chapter 5) -/

/-- Whether the check computed from the write data equalled the check field (R77). -/
inductive Verdict where
  | matching
  | mismatch
  deriving DecidableEq, Repr

/-- Directory entry states other than EMPTY, which is the absence of an entry (R78). -/
inductive EntryState where
  | arriving (verdict : Verdict) (gap : Bool)
  | good
  | bad
  deriving DecidableEq, Repr

/-- A directory entry that holds an SSN (R77). -/
structure Entry where
  state : EntryState
  ssn : SSN
  tag : Tag
  splice : Bool
  late : ZoneSet
  deriving DecidableEq, Repr

/-- Health of a regional path (section 5.6). -/
inductive Health where
  | unseen
  | live
  | degraded
  | silent
  deriving DecidableEq, Repr

/-- What is kept for one regional path: the ring's head (R91), fault score, health and silence timer
(section 5.6); `timer` is `none` while stopped. -/
structure PathState where
  head : Option SSN
  score : Nat
  health : Health
  timer : Option Nat
  deriving DecidableEq, Repr

/-- The slot directory: entries by `dirKey` (ring and slot), absent when EMPTY. -/
abbrev Directory := List (Nat × Entry)

/-- The Ingest Checker. `paths` is indexed by 2r + p. -/
structure IngestChecker where
  dir : Directory
  natHead : Option SSN
  paths : Vector PathState 24
  deriving DecidableEq, Repr

/-! ## Zone Scheduler (chapters 6 and 7) -/

/-- Window states (R99). -/
inductive WindowStatus where
  | empty
  | pending
  | live
  | closed
  | rejected
  deriving DecidableEq, Repr

/-- Zone outcomes (R100). -/
inductive ZoneOutcome where
  | completed
  | missed
  | declined
  | aborted
  | cancelled
  | heldOff
  | unattended
  deriving DecidableEq, Repr

/-- A window: its state and each zone's outcome. Its fields are in the window copy (R75). -/
structure Window where
  status : WindowStatus
  outcomes : Vector (Option ZoneOutcome) 24
  deriving DecidableEq, Repr

/-- Why a zone is returning (R102). -/
inductive ReturnCause where
  | windowEnd
  | cancel
  | hold
  deriving DecidableEq, Repr

/-- Zone states with the fields present in each (R102). -/
inductive ZoneStatus where
  | national
  | armed (window : Fin 64)
  | regional (window : Fin 64)
  | returning (window : Fin 64) (cause : ReturnCause) (hard : Bool)
  deriving DecidableEq, Repr

/-- Kinds of hold (section 6.8). -/
inductive HoldKind where
  | hard
  | soft
  deriving DecidableEq, Repr

/-- Sources of a run (R123). -/
inductive RunSource where
  | national
  | regional (path : Path)
  | conceal
  deriving DecidableEq, Repr

/-- Causes of a run (R123). -/
inductive RunCause where
  | attach
  | entry
  | pathChange
  | conceal
  | resume
  | endReturn
  | graceReturn
  | cancelReturn
  | holdReturn
  | hold
  | forcedReturn
  deriving DecidableEq, Repr

/-- A run's window with the copies it keeps: the counted tag pairs (national, regional) and whether
the conceal mode is NATIONAL; and the break list, one entry per pair (R123). -/
structure RunWindow where
  window : Fin 64
  pairs : List (Tag × Tag)
  concealNational : Bool
  breaks : List (Option SSN)
  deriving DecidableEq, Repr

/-- One run of a decision log (R123). -/
structure Run where
  first : SSN
  source : RunSource
  cause : RunCause
  window : Option RunWindow
  deriving DecidableEq, Repr

/-- What a zone with a set horizon holds (R125): horizon, trail, log (oldest first), episode. -/
structure Timeline where
  horizon : SSN
  trail : SSN
  log : List Run
  logFull : Bool
  deriving DecidableEq, Repr

/-- One zone (R102, R125); `timeline` is `none` while the zone is unset. -/
structure Zone where
  status : ZoneStatus
  commandHold : Option HoldKind
  pinHold : Bool
  conceal : Nat
  timeline : Option Timeline
  deriving DecidableEq, Repr

/-- The Zone Scheduler. -/
structure ZoneScheduler where
  windows : Vector Window 64
  zones : Vector Zone 24
  deriving DecidableEq, Repr

/-! ## View Resolver (chapter 8) -/

/-- What a feed record holds in ATTACHED (R145). -/
structure Position where
  next : SSN
  last : SSN
  readDone : Bool
  readSincePulse : Bool
  stall : Nat
  deriving DecidableEq, Repr

/-- Feed states (R146). -/
inductive FeedStatus where
  | detached
  | attached (p : Position)
  | slipped
  deriving DecidableEq, Repr

/-- An in-flight read (R159). -/
structure InFlight where
  ssn : SSN
  ring : RingId
  addr : Addr
  patchTag : Option Tag
  setBreak : Bool
  counting : Bool
  deriving DecidableEq, Repr

/-- One feed record (R145). -/
structure Feed where
  status : FeedStatus
  inFlight : Option InFlight
  deriving DecidableEq, Repr

/-- The View Resolver. -/
structure ViewResolver where
  feeds : Vector Feed 32
  deriving DecidableEq, Repr

/-! ## Ring Guard (chapter 9) -/

/-- A held write (R170). -/
structure HeldWrite where
  lane : Fin 8
  ring : RingId
  slot : Nat
  old : SSN
  new : SSN
  req : Request
  timer : Nat
  expiries : Nat
  deriving DecidableEq, Repr

/-- The Ring Guard: the held list, oldest first. -/
structure RingGuard where
  held : List HeldWrite
  deriving DecidableEq, Repr

/-! ## Timebase (chapter 10) -/

/-- Reference states (R182). -/
inductive RefState where
  | waiting
  | locked
  | lost
  deriving DecidableEq, Repr

/-- The Timebase (R179); `pulseTimeout` is `none` while stopped. The prescaler runs exactly in RUNNING
and STOPPING. -/
structure Timebase where
  prescaler : Nat
  tickCount : BitVec 32
  pulseCount : BitVec 32
  refState : RefState
  pulseTimeout : Option Nat
  captureTick : BitVec 32
  captureHead : Option SSN
  deriving DecidableEq, Repr

/-! ## Report Writer (chapter 11) -/

/-- SETUP_RESULT results (section 12.9). -/
inductive SetupResult where
  | ok
  | unsettled
  | areaRange
  | areaOverlap
  | ringSize
  | laneRole
  | regionDef
  | zoneDef
  | feedDef
  | profileDef
  | timingDef
  deriving DecidableEq, Repr

/-- Command results (R67). -/
inductive CommandResult where
  | accepted
  | wrongState
  | badCommand
  | badArgument
  | noWindow
  | tooLate
  | attachRange
  deriving DecidableEq, Repr

/-- Window states as reports carry them: R99's, and CANCELLED at STOP. -/
inductive WindowNews where
  | pending
  | live
  | closed
  | rejected
  | cancelled
  deriving DecidableEq, Repr

/-- Rejection reasons of a submit (R72, R73). -/
inductive RejectReason where
  | notRunning
  | unsettled
  | region
  | tags
  | span
  | tooLate
  | overlap
  | mode
  deriving DecidableEq, Repr

/-- The sixteen refusal reasons (section 3.6). -/
inductive RefusalReason where
  | form
  | laneOff
  | rights
  | locked
  | range
  | partialCell
  | malformed
  | misplaced
  | stale
  | rewrite
  | viewForm
  | feedDetached
  | feedSlipped
  | sequence
  | jump
  | stopping
  deriving DecidableEq, Repr

/-- Feed states as reports name them. -/
inductive FeedNews where
  | detached
  | attached
  | slipped
  deriving DecidableEq, Repr

/-- FEED_STATE reasons (R164). -/
inductive FeedReason where
  | attach
  | detach
  | spread
  | holdExpired
  | stall
  | stop
  deriving DecidableEq, Repr

/-- Sources of a hold (R119). -/
inductive HoldSource where
  | command
  | pin
  deriving DecidableEq, Repr

/-- The sixteen report kinds with what each carries (section 11.7); the tick is the record's. Region
fields that are copied from a record or may name none are their byte. -/
inductive Report where
  | setupResult (ticket : BitVec 16) (result : SetupResult) (offset : Nat)
  | stopped (ticket : BitVec 16) (overrun : Bool)
  | commandResult (code : Byte) (ticket : BitVec 16) (arg1 : BitVec 32) (ssn : SSN)
      (result : CommandResult)
  | windowState (window : Fin 64) (region : Byte) (start : SSN) (news : WindowNews)
      (reason : Option RejectReason)
  | zoneOutcome (window : Fin 64) (region : Byte) (zone : Fin 24) (ssn : SSN)
      (outcome : ZoneOutcome)
  | switch (zone : Fin 24) (region : Byte) (window : Option (Fin 64)) (first : SSN)
      (source previous : RunSource) (cause : RunCause) (runs : Nat)
  | logFull (zone : Fin 24) (ssn : SSN) (source : RunSource) (cause : RunCause)
      (openSource : RunSource) (trail : SSN)
  | pathState (region : Fin 12) (path : Path) (head : Option SSN) (before after : Health)
      (score : Nat)
  | lateCell (ring : RingId) (slot : Nat) (ssn : SSN) (good : Bool) (zones : ZoneSet)
  | accessRefused (lane : Fin 8) (dir : Direction) (addr : Addr) (reason : RefusalReason)
      (ssn : SSN)
  | memoryFault (lane : Fin 8) (dir : Direction) (addr : Addr)
  | feedState (feed : Fin 32) (zone lane : Byte) (ssn : SSN) (before after : FeedNews)
      (reason : FeedReason) (attached : Nat)
  | holdExpired (lane : Fin 8) (ring : RingId) (slot : Nat) (old new : SSN) (slipped expiries : Nat)
  | holdState (zones : ZoneSet) (on : Bool) (source : HoldSource) (kind : Option HoldKind)
  | pulse (count tick : BitVec 32) (head : Option SSN) (state : RefState)
  | reference (count tick : BitVec 32) (head : Option SSN) (before after : RefState)
  deriving DecidableEq, Repr

/-- A report record: the tick at the handing (R181) and the report. -/
structure Record where
  tick : BitVec 32
  report : Report
  deriving DecidableEq, Repr

/-- Whether a read index write is outstanding (R187), and whether the part has entered CONFIG since
it was taken, after which its completion moves nothing (R192). -/
inductive ReadWrite where
  | none
  | outstanding
  | overtaken
  deriving DecidableEq, Repr

/-- The Report Writer (R187). -/
structure ReportWriter where
  queue : List Record
  hand : Option Record
  writeIndex : Nat
  readIndex : Nat
  overrun : Bool
  readWrite : ReadWrite
  discardSince : Bool
  deriving DecidableEq, Repr

/-! ## The whole part -/

/-- The state of the part, the carriage memory behind its one port, the levels of its input lines,
and the queue of commands that wait. -/
structure State where
  pending : List Instr
  la : LaneArbiter
  ac : AreaClassifier
  ps : PlanShadow
  ic : IngestChecker
  zs : ZoneScheduler
  vr : ViewResolver
  rg : RingGuard
  tb : Timebase
  rw : ReportWriter
  mem : Memory
  resetAsserted : Bool
  holdReq : Bool
  freeCount : Nat
  deriving DecidableEq, Repr

/-! ## Reset -/

/-- The Lane Arbiter after RESET_N (R36). -/
def LaneArbiter.reset : LaneArbiter :=
  { lanes := Vector.replicate 9 .idle
    kept := Vector.replicate 8 []
    responses := Vector.replicate 8 none
    port := .free
    urgentPtr := 0
    normalPtr := 0 }

/-- The Plan Shadow after RESET_N (R53): copies zero, every word of them unknown. -/
def PlanShadow.reset : PlanShadow :=
  { run := .config, planCopy := [], unknown := List.range 1024, drainFlag := false, stopTicket := 0 }

/-- A path after RESET_N, at COMMIT and at entry to CONFIG (section 5.6, R91). -/
def PathState.reset : PathState := { head := none, score := 0, health := .unseen, timer := none }

/-- The Ingest Checker after RESET_N, at COMMIT and at entry to CONFIG (R97). -/
def IngestChecker.reset : IngestChecker :=
  { dir := [], natHead := none, paths := Vector.replicate 24 PathState.reset }

/-- A window that is EMPTY: no outcome (R99). -/
def Window.reset : Window := { status := .empty, outcomes := Vector.replicate 24 none }

/-- A zone after RESET_N (R102, R125). -/
def Zone.reset : Zone :=
  { status := .national, commandHold := none, pinHold := false, conceal := 0, timeline := none }

/-- The Zone Scheduler after RESET_N (R99, R102, R125). -/
def ZoneScheduler.reset : ZoneScheduler :=
  { windows := Vector.replicate 64 Window.reset, zones := Vector.replicate 24 Zone.reset }

/-- The View Resolver after RESET_N (R145). -/
def ViewResolver.reset : ViewResolver :=
  { feeds := Vector.replicate 32 { status := .detached, inFlight := none } }

/-- The Timebase after RESET_N (R179). -/
def Timebase.reset : Timebase :=
  { prescaler := 0, tickCount := 0, pulseCount := 0, refState := .waiting, pulseTimeout := none
    captureTick := 0, captureHead := none }

/-- The Report Writer after RESET_N (R187). -/
def ReportWriter.reset : ReportWriter :=
  { queue := [], hand := none, writeIndex := 0, readIndex := 0, overrun := false, readWrite := .none
    discardSince := false }

/-- The part right after a release of RESET_N with the straps at 0. DESIGN CHOICE: the straps, the
level of HOLD_REQ and the contents of carriage memory are the board's (log 4, log 6); the free
counter is the model's own (log 5). -/
def State.reset : State :=
  { pending := []
    la := LaneArbiter.reset
    ac := { planSel := 0 }
    ps := PlanShadow.reset
    ic := IngestChecker.reset
    zs := ZoneScheduler.reset
    vr := ViewResolver.reset
    rg := { held := [] }
    tb := Timebase.reset
    rw := ReportWriter.reset
    mem := []
    resetAsserted := false
    holdReq := false
    freeCount := 0 }

end Sys2Proof.Machine
end

