-- ==== Sys2Proof/Machine/Ops.lean ====
section
/-! DEFINITION. The named operations the blocks share: serial order of SSNs, sparse data and carriage
memory, access to one lane, zone, window, feed and path, the setup in force. -/

namespace Sys2Proof.Machine

/-! ## Serial order (R12, R13) -/

/-- The distance from `a` to `b` (R13). -/
def distance (a b : SSN) : Nat := (b - a).toNat

/-- `a` precedes `b`, `b` is after `a` (R12). -/
def precedes (a b : SSN) : Bool := decide (1 ≤ distance a b ∧ distance a b < 2 ^ 31)

/-- `a` is at or before `b` (R12). -/
def atOrBefore (a b : SSN) : Bool := a == b || precedes a b

/-- Neither precedes the other and they differ: 2^31 apart (R12). -/
def unordered (a b : SSN) : Bool := distance a b == 2 ^ 31

/-- `a ≤ e ≤ b`: `e` lies between `a` and `b` (R13). -/
def between (a e b : SSN) : Bool := atOrBefore a b && decide (distance a e ≤ distance a b)

/-- The lesser of two SSNs, the first where neither precedes. -/
def lesser (a b : SSN) : SSN := if precedes b a then b else a

/-- The least of a set of SSNs that lie within a span of less than 2^31 (R13). -/
def least : List SSN → Option SSN
  | [] => none
  | x :: xs => some (xs.foldl lesser x)

/-- An SSN `k` slots after `n`, modulo 2^32. -/
def ssnAdd (n : SSN) (k : Nat) : SSN := n + BitVec.ofNat 32 k

/-- An SSN `k` slots before `n`, modulo 2^32. -/
def ssnSub (n : SSN) (k : Nat) : SSN := n - BitVec.ofNat 32 k

/-! ## Sparse data -/

/-- The value kept at a key. -/
def lookup {β : Type} : List (Nat × β) → Nat → Option β
  | [], _ => none
  | (k, v) :: m, a => if k = a then some v else lookup m a

/-- Put a value at a key, keeping the keys rising. -/
def insertAt {β : Type} : List (Nat × β) → Nat → β → List (Nat × β)
  | [], a, x => [(a, x)]
  | (k, v) :: m, a, x =>
    if a < k then (a, x) :: (k, v) :: m
    else if a = k then (a, x) :: m
    else (k, v) :: insertAt m a x

/-- Take a key out. -/
def eraseAt {β : Type} : List (Nat × β) → Nat → List (Nat × β)
  | [], _ => []
  | (k, v) :: m, a => if a = k then m else (k, v) :: eraseAt m a

/-- The keys strictly rise. -/
abbrev RisingKeys {β : Type} (m : List (Nat × β)) : Prop := m.Pairwise (fun x y => x.1 < y.1)

/-! ## Carriage memory -/

/-- What a byte that nothing has written reads as. DESIGN CHOICE (log 4). -/
def unwrittenByte : Byte := 0

/-- The canonical form: rising addresses, no listed byte equal to an unlisted one. -/
def Memory.wf (m : Memory) : Bool :=
  decide (RisingKeys m) && m.all (fun c => c.2 != unwrittenByte)

/-- One byte of memory. -/
def readByte (m : Memory) (a : Nat) : Byte := (lookup m a).getD unwrittenByte

/-- Memory with one byte written. -/
def writeByte (m : Memory) (a : Nat) (b : Byte) : Memory :=
  if b = unwrittenByte then eraseAt m a else insertAt m a b

/-- `n` bytes from address `a`, in address order. -/
def readBytes (m : Memory) (a n : Nat) : List Byte := (List.range n).map (fun i => readByte m (a + i))

/-- Memory with bytes written from address `a` on, in address order. -/
def writeBytes (m : Memory) (a : Nat) : List Byte → Memory
  | [] => m
  | b :: bs => writeBytes (writeByte m a b) (a + 1) bs

/-- The big-endian number a list of bytes holds (00_scope, Byte order). -/
def beNat (bs : List Byte) : Nat := bs.foldl (fun acc b => acc * 256 + b.toNat) 0

/-- The `n` big-endian bytes of a number, modulo 256^n (R196). -/
def beBytes : Nat → Nat → List Byte
  | 0, _ => []
  | n + 1, v => BitVec.ofNat 8 (v / 256 ^ n) :: beBytes n v

/-- The big-endian field of `n` bytes at `a`. -/
def fieldAt (m : Memory) (a n : Nat) : Nat := beNat (readBytes m a n)

/-- `n` free bytes, the first being free byte number `k`. -/
def freeBytes (k n : Nat) : List Byte := (List.range n).map (fun i => Config.freeByte (k + i))

/-! ## Requests and accesses -/

/-- The direction of a body. -/
def Body.dir : Body → Direction
  | .read _ => .read
  | .write _ => .write

/-- The length of a body, in bytes. -/
def Body.length : Body → Nat
  | .read n => n
  | .write d => d.length

/-- The data a WRITE carries. -/
def Body.data : Body → List Byte
  | .read _ => []
  | .write d => d

/-- The data a refused or failed request returns: every byte 0xFF for a READ (R19, R34). -/
def Body.blank : Body → List Byte
  | .read n => List.replicate n 0xFF
  | .write _ => []

/-- The access's first byte address as a memory key. -/
def Request.base (r : Request) : Nat := r.addr.toNat

/-- What memory holds after the access was answered OKAY: a WRITE's data at its addresses (R19). -/
def landed (m : Memory) (r : Request) : Memory := writeBytes m r.base r.body.data

/-- Leave free bytes where a WRITE was answered ERROR or abandoned (R34, R36; log 5). -/
def State.scramble (s : State) (r : Request) : State :=
  { s with
    mem := writeBytes s.mem r.base (freeBytes s.freeCount r.body.data.length)
    freeCount := s.freeCount + r.body.data.length }

/-- The effect of an answered access on memory. -/
def State.settleMemory (s : State) (r : Request) : MemAnswer → State
  | .okay => { s with mem := landed s.mem r }
  | .error => s.scramble r

/-! ## Lanes -/

/-- The state of one lane. -/
def State.lane (s : State) (l : Fin 9) : LaneState := s.la.lanes[l]

/-- Set the state of one lane. -/
def State.setLane (s : State) (l : Fin 9) (x : LaneState) : State :=
  { s with la := { s.la with lanes := s.la.lanes.set l x } }

/-- Set the port. -/
def State.setPort (s : State) (p : Port) : State := { s with la := { s.la with port := p } }

/-- Deliver a response on an external lane (R19). -/
def State.respond (s : State) (l : Fin 8) (r : Response) : State :=
  { s with la := { s.la with responses := s.la.responses.set l (some r) } }

/-- Set the requests a master is kept waiting with at its port (R18). -/
def State.setKept (s : State) (l : Fin 8) (q : List Request) : State :=
  { s with la := { s.la with kept := s.la.kept.set l q } }

/-- The report lane. -/
def reportLane : Fin 9 := 8

/-- An external lane among the nine lanes. -/
def ext (l : Fin 8) : Fin 9 := l.castSucc

/-- The request of a lane that is outstanding, IDLE excepted (R18). -/
def LaneState.idle? : LaneState → Bool
  | .idle => true
  | _ => false

/-- The access of a lane that is WAITING. -/
def LaneState.waiting? : LaneState → Option Access
  | .waiting a => some a
  | _ => none

/-- The access of a lane that is WAITING or ACTIVE: presented and not completed. -/
def LaneState.presented? : LaneState → Option Access
  | .waiting a => some a
  | .active a => some a
  | _ => none

/-- The accesses presented at the port and not completed, by lane. -/
def State.presented (s : State) : List (Fin 9 × Access) :=
  (List.finRange 9).filterMap (fun l => (s.lane l).presented?.map (fun a => (l, a)))

/-! ## Run state and setup in force -/

/-- The setup in force, none in CONFIG (R40). -/
def RunState.setup : RunState → Option Setup
  | .config => none
  | .running su => some su
  | .stopping su => some su

/-- The setup in force. -/
def State.setup (s : State) : Option Setup := s.ps.run.setup

/-- The part is RUNNING. -/
def State.isRunning (s : State) : Bool :=
  match s.ps.run with
  | .running _ => true
  | _ => false

/-- The part is STOPPING. -/
def State.isStopping (s : State) : Bool :=
  match s.ps.run with
  | .stopping _ => true
  | _ => false

/-- The part is in CONFIG. -/
def State.isConfig (s : State) : Bool :=
  match s.ps.run with
  | .config => true
  | _ => false

/-- The plan area's first byte: s × 4 GiB (R38). -/
def State.planBase (s : State) : Nat := 2 ^ 32 * s.ac.planSel.toNat

/-- The plan area's length, 64 KiB. -/
def planLength : Nat := 65536

/-! ## Zones, windows, feeds, paths -/

/-- One zone. -/
def State.zone (s : State) (z : Fin 24) : Zone := s.zs.zones[z]

/-- Set one zone. -/
def State.setZone (s : State) (z : Fin 24) (x : Zone) : State :=
  { s with zs := { s.zs with zones := s.zs.zones.set z x } }

/-- Change one zone. -/
def State.updZone (s : State) (z : Fin 24) (f : Zone → Zone) : State := s.setZone z (f (s.zone z))

/-- One window. -/
def State.window (s : State) (w : Fin 64) : Window := s.zs.windows[w]

/-- Set one window. -/
def State.setWindow (s : State) (w : Fin 64) (x : Window) : State :=
  { s with zs := { s.zs with windows := s.zs.windows.set w x } }

/-- One feed record. -/
def State.feed (s : State) (f : Fin 32) : Feed := s.vr.feeds[f]

/-- Set one feed record. -/
def State.setFeed (s : State) (f : Fin 32) (x : Feed) : State :=
  { s with vr := { s.vr with feeds := s.vr.feeds.set f x } }

/-- The number of a path: A = 0, B = 1 (R16). -/
def pathCode : Path → Nat
  | .a => 0
  | .b => 1

/-- The other path of a region. -/
def otherPath : Path → Path
  | .a => .b
  | .b => .a

/-- The ring index 2r + p of a regional ring (R16). -/
def pathIndex (r : Fin 12) : Path → Fin 24
  | .a => ⟨2 * r.val, by omega⟩
  | .b => ⟨2 * r.val + 1, by omega⟩

/-- What is kept for a regional path. -/
def State.path (s : State) (r : Fin 12) (p : Path) : PathState := s.ic.paths[pathIndex r p]

/-- Set what is kept for a regional path. -/
def State.setPath (s : State) (r : Fin 12) (p : Path) (x : PathState) : State :=
  { s with ic := { s.ic with paths := s.ic.paths.set (pathIndex r p) x } }

/-- A number of the directory for each ring: the ring index, 24 for the national ring. -/
def RingId.number : RingId → Nat
  | .national => 24
  | .regional r p => (pathIndex r p).val

/-- The directory key of a ring slot; a ring has at most 8192 slots (R14). -/
def dirKey (ring : RingId) (slot : Nat) : Nat := ring.number * 8192 + slot

/-- The directory entry of a ring slot, `none` when EMPTY (R77). -/
def State.entry (s : State) (ring : RingId) (slot : Nat) : Option Entry :=
  lookup s.ic.dir (dirKey ring slot)

/-- Set the directory entry of a ring slot. -/
def State.setEntry (s : State) (ring : RingId) (slot : Nat) (e : Entry) : State :=
  { s with ic := { s.ic with dir := insertAt s.ic.dir (dirKey ring slot) e } }

/-- The head of a ring (R91). -/
def State.head (s : State) : RingId → Option SSN
  | .national => s.ic.natHead
  | .regional r p => (s.path r p).head

/-- Set the head of a ring. -/
def State.setHead (s : State) (h : SSN) : RingId → State
  | .national => { s with ic := { s.ic with natHead := some h } }
  | .regional r p => s.setPath r p { s.path r p with head := some h }

/-- Membership in a zone set. -/
def inZoneSet (zs : ZoneSet) (z : Fin 24) : Bool := zs.getLsbD z.val

/-- The zone set of a list of zones. -/
def zoneSetOf (l : List (Fin 24)) : ZoneSet := l.foldl (fun acc z => acc ||| (1 <<< z.val)) 0

end Sys2Proof.Machine
end

