-- ==== Sys2Proof/Machine/Operands.lean ====
section
/-! DEFINITION. Reading the operand forms: the fields of the setup block, the window records, the command
record and the read index word (chapter 12), and the places of rings, apertures and areas (chapters 1
and 3). -/

namespace Sys2Proof.Machine

/-! ## Plan offsets (R39) -/

/-- Offset of the window table. -/
def windowTable : Nat := 0x1000
/-- Offset of the command record. -/
def commandRecord : Nat := 0x2000
/-- Offset just past the command record: what the copies cover. -/
def copyEnd : Nat := 0x2020
/-- Offset of the read index word. -/
def readIndexWord : Nat := 0x2100
/-- Offset of the write index word. -/
def writeIndexWord : Nat := 0x2108
/-- Offset of the standby record (R191). -/
def standbyRecord : Nat := 0x2120

/-- The half-open ranges [a, a+n) and [b, b+k) share an element. -/
def overlaps (a n b k : Nat) : Bool := decide (a < b + k ∧ b < a + n ∧ 0 < n ∧ 0 < k)

/-! ## Setup block (section 12.4) -/

/-- A flag field: any value but 0 is set (R195). -/
def flagAt (m : Memory) (a : Nat) : Bool := fieldAt m a 1 != 0

/-- A base field, its low eight bits taken as zero (R14, R41, R195). -/
def baseAt (m : Memory) (a : Nat) : Nat := fieldAt m a 8 / 256 * 256

/-- The setup block as the copy holds it, decoded (R195). -/
def setupOfCopy (m : Memory) : Setup :=
  { natBase := baseAt m 0x000
    regBase := baseAt m 0x008
    viewBase := baseAt m 0x010
    reportBase := baseAt m 0x018
    nr := fieldAt m 0x020 2
    rs := fieldAt m 0x022 2
    reportSize := fieldAt m 0x024 2
    tickDiv := fieldAt m 0x026 2
    spreadMax := fieldAt m 0x028 2
    armLead := fieldAt m 0x02A 2
    entryGrace := fieldAt m 0x02C 2
    returnGrace := fieldAt m 0x02E 2
    holdLimit := fieldAt m 0x030 2
    pulseTimeout := fieldAt m 0x032 2
    jumpMax := fieldAt m 0x034 1
    linkWait := fieldAt m 0x035 1
    stallPulses := fieldAt m 0x036 1
    pulseReport := flagAt m 0x037
    urgentOrder := fieldAt m 0x038 1
    normalOrder := fieldAt m 0x039 1
    natLane := fieldAt m 0x03A 1
    lanes := Vector.ofFn fun (i : Fin 8) =>
      { cls := fieldAt m (0x040 + 4 * i.val) 1, urgent := flagAt m (0x041 + 4 * i.val) }
    regions := Vector.ofFn fun (i : Fin 12) =>
      { enabled := flagAt m (0x080 + 8 * i.val)
        laneA := fieldAt m (0x081 + 8 * i.val) 1
        laneB := fieldAt m (0x082 + 8 * i.val) 1
        profile := fieldAt m (0x083 + 8 * i.val) 1 }
    zones := Vector.ofFn fun (i : Fin 24) =>
      { enabled := flagAt m (0x100 + 4 * i.val), region := fieldAt m (0x101 + 4 * i.val) 1 }
    feeds := Vector.ofFn fun (i : Fin 32) =>
      { enabled := flagAt m (0x180 + 4 * i.val)
        zone := fieldAt m (0x181 + 4 * i.val) 1
        lane := fieldAt m (0x182 + 4 * i.val) 1 }
    profiles := Vector.ofFn fun (i : Fin 4) =>
      { badWeight := fieldAt m (0x200 + 8 * i.val) 1
        gapWeight := fieldAt m (0x201 + 8 * i.val) 1
        degradeAt := fieldAt m (0x202 + 8 * i.val) 1
        recoverAt := fieldAt m (0x203 + 8 * i.val) 1
        silenceLimit := fieldAt m (0x204 + 8 * i.val) 2 } }

/-- A number below `n`, as a `Fin`. -/
def toFin? (n x : Nat) : Option (Fin n) := if h : x < n then some ⟨x, h⟩ else none

/-- The class of a lane code, `none` for a code not listed (section 12.4). -/
def laneClassOf : Nat → Option LaneClass
  | 0 => some .none
  | 1 => some .control
  | 2 => some .ingest
  | 3 => some .emission
  | _ => none

/-- The grant mode of a code, `none` for a code not listed (section 12.4). -/
def groupModeOf : Nat → Option GroupMode
  | 0 => some .fixed
  | 1 => some .rotating
  | _ => none

/-- The class of an external lane in a setup. -/
def Setup.classOf (su : Setup) (l : Fin 8) : Option LaneClass := laneClassOf su.lanes[l].cls

/-- The lane that writes a path's ring. -/
def Setup.pathLane (su : Setup) (r : Fin 12) : Path → Nat
  | .a => su.regions[r].laneA
  | .b => su.regions[r].laneB

/-- The region a zone belongs to, `none` for a zone that is not enabled or names none (R195). -/
def Setup.zoneRegion (su : Setup) (z : Fin 24) : Option (Fin 12) :=
  if su.zones[z].enabled then toFin? 12 su.zones[z].region else none

/-- The region byte of a zone's reports: the region, or 0xFF for none (R196). -/
def Setup.zoneRegionByte (su : Setup) (z : Fin 24) : Byte :=
  match su.zoneRegion z with
  | some r => BitVec.ofNat 8 r.val
  | none => 0xFF

/-- The enabled zones. -/
def Setup.enabledZones (su : Setup) : List (Fin 24) :=
  (List.finRange 24).filter (fun z => su.zones[z].enabled)

/-- The zones of a region: the enabled zones that name it (section 6.1). -/
def Setup.zonesOf (su : Setup) (r : Fin 12) : List (Fin 24) :=
  (List.finRange 24).filter (fun z => su.zoneRegion z == some r)

/-- The zone of an enabled feed (R145). -/
def Setup.feedZone (su : Setup) (f : Fin 32) : Option (Fin 24) :=
  if su.feeds[f].enabled then toFin? 24 su.feeds[f].zone else none

/-- The lane of an enabled feed, `none` where it has none. -/
def Setup.feedLane (su : Setup) (f : Fin 32) : Option (Fin 8) :=
  if su.feeds[f].enabled then toFin? 8 su.feeds[f].lane else none

/-- The profile a region names (R93). -/
def Setup.profileOf (su : Setup) (r : Fin 12) : Profile :=
  match toFin? 4 su.regions[r].profile with
  | some i => su.profiles[i]
  | none => su.profiles[0]

/-- The jump limit J: the lesser of JUMP_MAX and SPREAD_MAX − 1 (R154). -/
def Setup.jumpLimit (su : Setup) : Nat := min su.jumpMax (su.spreadMax - 1)

/-! ## Rings, apertures, areas (R14 to R17, R41) -/

/-- The number of slots of a ring. -/
def Setup.slots (su : Setup) : RingId → Nat
  | .national => su.nr
  | .regional _ _ => su.rs

/-- The first byte of a ring (R15, R16). -/
def Setup.ringBase (su : Setup) : RingId → Nat
  | .national => su.natBase
  | .regional r p => su.regBase + (pathIndex r p).val * su.rs * 256

/-- The slot of an SSN in a ring (R14). -/
def Setup.slotOf (su : Setup) (ring : RingId) (n : SSN) : Nat := n.toNat % su.slots ring

/-- The address of a ring slot (R14). -/
def Setup.slotAddr (su : Setup) (ring : RingId) (slot : Nat) : Nat := su.ringBase ring + slot * 256

/-- The first byte of a feed's aperture (R17). -/
def Setup.viewBaseOf (su : Setup) (f : Fin 32) : Nat := su.viewBase + f.val * su.nr * 256

/-- An area in force, where it lies, and the setup offset of its base field (R41, R61). -/
structure Extent where
  area : Area
  base : Nat
  length : Nat
  field : Nat
  deriving DecidableEq, Repr

/-- The areas a setup brings into force, the plan area apart, in R61's order: NATIONAL, the rings of
enabled regions by ring index, the apertures of enabled feeds, REPORT (R41). -/
def Setup.areaMap (su : Setup) : List Extent :=
  [{ area := .national, base := su.natBase, length := su.nr * 256, field := 0x000 }] ++
  ((List.finRange 12).filter (fun r => su.regions[r].enabled)).flatMap (fun r =>
    [Path.a, Path.b].map (fun p =>
      { area := .regional r p, base := su.ringBase (.regional r p), length := su.rs * 256
        field := 0x008 })) ++
  ((List.finRange 32).filter (fun f => su.feeds[f].enabled)).map (fun f =>
    { area := .view f, base := su.viewBaseOf f, length := su.nr * 256, field := 0x010 }) ++
  [{ area := .report, base := su.reportBase, length := su.reportSize * 32, field := 0x018 }]

/-- An address lies in an extent. -/
def Extent.has (e : Extent) (a : Nat) : Bool := decide (e.base ≤ a ∧ a < e.base + e.length)

/-! ## Window record (section 12.5) -/

/-- The fields of a window record. `regionByte` and the mode bytes are as in the record. -/
structure WindowRec where
  action : Nat
  regionByte : Nat
  preferred : Nat
  mode : Nat
  limit : Nat
  pairCount : Nat
  start : SSN
  finish : SSN
  pairs : List (Tag × Tag)
  deriving DecidableEq, Repr

/-- Offset of a window record. -/
def windowOffset (w : Fin 64) : Nat := windowTable + 64 * w.val

/-- A tag field: its low 12 bits (R3, R195). -/
def tagAt (m : Memory) (a : Nat) : Tag := BitVec.ofNat 12 (fieldAt m a 2)

/-- A window record as the copy holds it; pairs beyond the pair count are not read (section 4.7). -/
def windowRecAt (m : Memory) (w : Fin 64) : WindowRec :=
  let o := windowOffset w
  { action := fieldAt m o 1
    regionByte := fieldAt m (o + 1) 1
    preferred := fieldAt m (o + 2) 1
    mode := fieldAt m (o + 3) 1
    limit := fieldAt m (o + 4) 1
    pairCount := fieldAt m (o + 5) 1
    start := BitVec.ofNat 32 (fieldAt m (o + 8) 4)
    finish := BitVec.ofNat 32 (fieldAt m (o + 12) 4)
    pairs := (List.range (min (fieldAt m (o + 5) 1) 4)).map (fun i =>
      (tagAt m (o + 16 + 4 * i), tagAt m (o + 18 + 4 * i))) }

/-- The window record of window `w` in the Plan Shadow's copy (R75). -/
def State.windowRec (s : State) (w : Fin 64) : WindowRec := windowRecAt s.ps.planCopy w

/-- The region a window record names. -/
def WindowRec.region (r : WindowRec) : Option (Fin 12) := toFin? 12 r.regionByte

/-- The preferred path of a valid record. -/
def WindowRec.preferredPath (r : WindowRec) : Path := if r.preferred = 0 then .a else .b

/-- The paired regional tag of a national tag, `none` when it is no set tag. -/
def pairedTag (pairs : List (Tag × Tag)) (t : Tag) : Option Tag :=
  (pairs.find? (fun p => p.1 == t)).map (·.2)

/-! ## Command record (section 12.6) -/

/-- The fields of the command record. -/
structure CommandRec where
  code : Nat
  ticket : BitVec 16
  arg1 : BitVec 32
  arg2 : BitVec 32
  deriving DecidableEq, Repr

/-- The command record as the copy holds it (R68). -/
def State.command (s : State) : CommandRec :=
  { code := fieldAt s.ps.planCopy commandRecord 1
    ticket := BitVec.ofNat 16 (fieldAt s.ps.planCopy (commandRecord + 2) 2)
    arg1 := BitVec.ofNat 32 (fieldAt s.ps.planCopy (commandRecord + 8) 4)
    arg2 := BitVec.ofNat 32 (fieldAt s.ps.planCopy (commandRecord + 12) 4) }

/-! ## Read index word (section 12.8) -/

/-- The read index a write at plan offset `off` carries. -/
def readIndexValue (off : Nat) (data : List Byte) : Nat :=
  beNat ((List.range 4).map (fun i => data.getD (readIndexWord - off + i) 0))

/-- The clear-overrun bit a write at plan offset `off` carries. -/
def clearOverrunBit (off : Nat) (data : List Byte) : Bool :=
  (data.getD (readIndexWord - off + 4) 0).getLsbD 0

end Sys2Proof.Machine
end

