-- ==== Sys2Proof/Machine/Flags.lean ====
section
/-! DEFINITION. The cell header, its flags and its check (chapter 1, section 12.2), usability of directory
entries (R79), and the interrupt line (R193). -/

namespace Sys2Proof.Machine

/-! ## The check (R8) -/

/-- One bit of the check computation. -/
def crcBit (reg : BitVec 16) (bit : Bool) : BitVec 16 :=
  if reg.msb != bit then (reg <<< 1) ^^^ 0x1021 else reg <<< 1

/-- One byte, most significant bit first. -/
def crcByte (reg : BitVec 16) (b : Byte) : BitVec 16 :=
  [7, 6, 5, 4, 3, 2, 1, 0].foldl (fun acc i => crcBit acc (b.getLsbD i)) reg

/-- The check of a payload (R8). -/
def cellCheck (payload : List Byte) : BitVec 16 := payload.foldl crcByte 0xFFFF

/-! ## Header fields (section 12.2) -/

/-- The mark of a cell. -/
def cellMark (c : List Byte) : Byte := c.getD 0 0

/-- The tag of a cell: the low 12 bits of its tag field (R3). -/
def cellTag (c : List Byte) : Tag := BitVec.ofNat 12 (beNat ((c.drop 2).take 2))

/-- The SSN of a cell (R4). -/
def cellSsn (c : List Byte) : SSN := BitVec.ofNat 32 (beNat ((c.drop 6).take 4))

/-- The check field of a cell. -/
def cellCheckField (c : List Byte) : BitVec 16 := BitVec.ofNat 16 (beNat ((c.drop 10).take 2))

/-- The SPLICE_READY flag of a cell (R5). -/
def cellSplice (c : List Byte) : Bool := (c.getD 1 0).getLsbD 7

/-- The payload of a cell. -/
def cellPayload (c : List Byte) : List Byte := (c.drop 16).take 240

/-- Mask of BREAK in the flags byte. -/
def breakMask : Byte := 0x40

/-- Mask of SUBST in the flags byte. -/
def substMask : Byte := 0x20

/-- The flags of a served cell: SUBST as the part decides, BREAK added, the rest from memory (R6,
R7). -/
def patchFlags (flags : Byte) (subst setBreak : Bool) : Byte :=
  let f := if subst then flags ||| substMask else flags &&& ~~~substMask
  if setBreak then f ||| breakMask else f

/-- The patch of a served ring cell (R10, R160): for a regional cell the tag is replaced and SUBST set,
for a national cell SUBST is cleared. -/
def patchCell (c : List Byte) (tag : Option Tag) (setBreak : Bool) : List Byte :=
  let c := c.set 1 (patchFlags (c.getD 1 0) tag.isSome setBreak)
  match tag with
  | some t => (c.set 2 (BitVec.ofNat 8 (t.toNat / 256))).set 3 (BitVec.ofNat 8 t.toNat)
  | none => c

/-- The payload of every null cell. -/
def nullPayload : List Byte := List.replicate 240 0xFF

/-- The null cell for an SSN (R11). -/
def nullCell (n : SSN) : List Byte :=
  [0xA7, 0, 0x0F, 0xFF, 0, 0] ++ beBytes 4 n.toNat ++ beBytes 2 (cellCheck nullPayload).toNat ++
    [0, 0, 0, 0] ++ nullPayload

/-! ## Usable entries (R79) -/

/-- The entry is usable for zone `z` at `n`. -/
def Entry.usable (e : Entry) (z : Fin 24) (n : SSN) : Bool :=
  e.state == .good && e.ssn == n && !inZoneSet e.late z

/-- The entry of ring `ring` for `n`, when it is usable for zone `z` (R79). -/
def State.usableEntry (s : State) (su : Setup) (ring : RingId) (z : Fin 24) (n : SSN) :
    Option Entry :=
  (s.entry ring (su.slotOf ring n)).filter (fun e => e.usable z n)

/-! ## Report ring and interrupt line -/

/-- The distance from one ring index to another, modulo the ring's size (R192). -/
def indexDistance (size a b : Nat) : Nat := (b + size - a) % size

/-- The report ring is full (R189). -/
def State.ringFull (s : State) (su : Setup) : Bool :=
  (s.rw.writeIndex + 1) % su.reportSize == s.rw.readIndex

/-- IRQ_N is asserted (low): in RUNNING and STOPPING while the write index differs from the read
index copy or the overrun flag is set (R193). -/
def State.irqAsserted (s : State) : Bool :=
  !s.isConfig && !s.resetAsserted && (s.rw.writeIndex != s.rw.readIndex || s.rw.overrun)

end Sys2Proof.Machine
end

