-- ==== Sys2Proof/Machine/Reports.lean ====
section
/-! DEFINITION. Report records: their bytes (section 12.7, codes of section 12.9) and their handing to the
Report Writer (R188). -/

namespace Sys2Proof.Machine

/-! ## Codes (section 12.9) -/

def SetupResult.code : SetupResult → Nat
  | .ok => 0
  | .unsettled => 1
  | .areaRange => 2
  | .areaOverlap => 3
  | .ringSize => 4
  | .laneRole => 5
  | .regionDef => 6
  | .zoneDef => 7
  | .feedDef => 8
  | .profileDef => 9
  | .timingDef => 10

def CommandResult.code : CommandResult → Nat
  | .accepted => 0
  | .wrongState => 1
  | .badCommand => 2
  | .badArgument => 3
  | .noWindow => 4
  | .tooLate => 5
  | .attachRange => 6

def WindowNews.code : WindowNews → Nat
  | .pending => 1
  | .live => 2
  | .closed => 3
  | .rejected => 4
  | .cancelled => 5

def RejectReason.code : RejectReason → Nat
  | .notRunning => 1
  | .unsettled => 2
  | .region => 3
  | .tags => 4
  | .span => 5
  | .tooLate => 6
  | .overlap => 7
  | .mode => 8

def ZoneOutcome.code : ZoneOutcome → Nat
  | .completed => 1
  | .missed => 2
  | .declined => 3
  | .aborted => 4
  | .cancelled => 5
  | .heldOff => 6
  | .unattended => 7

def RunSource.code : RunSource → Nat
  | .national => 0
  | .regional .a => 1
  | .regional .b => 2
  | .conceal => 3

def RunCause.code : RunCause → Nat
  | .attach => 0
  | .entry => 1
  | .pathChange => 2
  | .conceal => 3
  | .resume => 4
  | .endReturn => 5
  | .graceReturn => 6
  | .cancelReturn => 7
  | .holdReturn => 8
  | .hold => 9
  | .forcedReturn => 10

def Health.code : Health → Nat
  | .unseen => 0
  | .live => 1
  | .degraded => 2
  | .silent => 3

def directionCode : Direction → Nat
  | .read => 0
  | .write => 1

def RefusalReason.code : RefusalReason → Nat
  | .form => 1
  | .laneOff => 2
  | .rights => 3
  | .locked => 4
  | .range => 5
  | .partialCell => 6
  | .malformed => 7
  | .misplaced => 8
  | .stale => 9
  | .rewrite => 10
  | .viewForm => 11
  | .feedDetached => 12
  | .feedSlipped => 13
  | .sequence => 14
  | .jump => 15
  | .stopping => 16

def FeedNews.code : FeedNews → Nat
  | .detached => 0
  | .attached => 1
  | .slipped => 2

def FeedReason.code : FeedReason → Nat
  | .attach => 0
  | .detach => 1
  | .spread => 2
  | .holdExpired => 3
  | .stall => 4
  | .stop => 5

def HoldSource.code : HoldSource → Nat
  | .command => 0
  | .pin => 1

def holdKindCode : Option HoldKind → Nat
  | none => 0
  | some .hard => 1
  | some .soft => 2

def RefState.code : RefState → Nat
  | .waiting => 0
  | .locked => 1
  | .lost => 2

/-- A ring in one byte: 2r + p, or 0xFF for the national ring (section 12.7). -/
def RingId.code : RingId → Nat
  | .national => 0xFF
  | .regional r p => (pathIndex r p).val

/-! ## The record's bytes (section 12.7) -/

/-- One byte holding a number, modulo 256 (R196). -/
def byte (n : Nat) : Byte := BitVec.ofNat 8 n

/-- A flag in one byte. -/
def flagByte (b : Bool) : Byte := if b then 1 else 0

/-- `n` bytes: the list, filled up with zeros (R196). -/
def padTo (n : Nat) (l : List Byte) : List Byte := (l ++ List.replicate n 0).take n

/-- The kind code. -/
def Report.kind : Report → Nat
  | .setupResult .. => 1
  | .stopped .. => 2
  | .commandResult .. => 3
  | .windowState .. => 4
  | .zoneOutcome .. => 5
  | .switch .. => 6
  | .logFull .. => 7
  | .pathState .. => 8
  | .lateCell .. => 9
  | .accessRefused .. => 10
  | .memoryFault .. => 11
  | .feedState .. => 12
  | .holdExpired .. => 13
  | .holdState .. => 14
  | .pulse .. => 15
  | .reference .. => 16

/-- The subject, from byte 1 of the record. -/
def Report.subject : Report → List Byte
  | .setupResult ticket _ _ => [0] ++ beBytes 2 ticket.toNat
  | .stopped ticket _ => [0] ++ beBytes 2 ticket.toNat
  | .commandResult code ticket arg1 _ _ => [code] ++ beBytes 2 ticket.toNat ++ beBytes 4 arg1.toNat
  | .windowState w region _ _ _ => [byte w.val, region]
  | .zoneOutcome w region z _ _ => [byte w.val, region, byte z.val]
  | .switch z region w _ _ _ _ _ =>
    [byte z.val, region, byte ((w.map (·.val)).getD Config.noneCode)]
  | .logFull z _ _ _ _ _ => [byte z.val]
  | .pathState r p _ _ _ _ => [byte r.val, byte (pathCode p)]
  | .lateCell ring slot _ _ _ => [byte ring.code] ++ beBytes 2 slot
  | .accessRefused l d a _ _ => [byte l.val, byte (directionCode d)] ++ beBytes 5 a.toNat
  | .memoryFault l d a => [byte l.val, byte (directionCode d)] ++ beBytes 5 a.toNat
  | .feedState f zone lane _ _ _ _ _ => [byte f.val, zone, lane]
  | .holdExpired l ring slot _ _ _ _ => [byte l.val, byte ring.code] ++ beBytes 2 slot
  | .holdState zones _ _ _ => [0, 0, 0] ++ beBytes 4 zones.toNat
  | .pulse count _ _ _ => [0, 0, 0] ++ beBytes 4 count.toNat
  | .reference count _ _ _ _ => [0, 0, 0] ++ beBytes 4 count.toNat

/-- The SSN field; an SSN that is unset is 0 (R196). -/
def Report.ssn : Report → SSN
  | .setupResult _ _ _ => 0
  | .stopped _ _ => 0
  | .commandResult _ _ _ ssn _ => ssn
  | .windowState _ _ start _ _ => start
  | .zoneOutcome _ _ _ ssn _ => ssn
  | .switch _ _ _ first _ _ _ _ => first
  | .logFull _ ssn _ _ _ _ => ssn
  | .pathState _ _ head _ _ _ => head.getD 0
  | .lateCell _ _ ssn _ _ => ssn
  | .accessRefused _ _ _ _ ssn => ssn
  | .memoryFault _ _ _ => 0
  | .feedState _ _ _ ssn _ _ _ _ => ssn
  | .holdExpired _ _ _ old _ _ _ => old
  | .holdState _ _ _ _ => 0
  | .pulse _ _ head _ => head.getD 0
  | .reference _ _ head _ _ => head.getD 0

/-- The detail, from byte 16 of the record. -/
def Report.detail : Report → List Byte
  | .setupResult _ result offset => [byte result.code, 0] ++ beBytes 2 offset
  | .stopped _ overrun => [flagByte overrun]
  | .commandResult _ _ _ _ result => [byte result.code]
  | .windowState _ _ _ news reason => [byte news.code, byte ((reason.map (·.code)).getD 0)]
  | .zoneOutcome _ _ _ _ outcome => [byte outcome.code]
  | .switch _ _ _ _ source previous cause runs =>
    [byte source.code, byte previous.code, byte cause.code, byte runs]
  | .logFull _ _ source cause openSource trail =>
    [byte source.code, byte cause.code, byte openSource.code, 0] ++ beBytes 4 trail.toNat
  | .pathState _ _ _ before after score => [byte before.code, byte after.code, byte score]
  | .lateCell _ _ _ good zones => [if good then 2 else 3, 0, 0, 0] ++ beBytes 4 zones.toNat
  | .accessRefused _ _ _ reason _ => [byte reason.code]
  | .memoryFault _ _ _ => []
  | .feedState _ _ _ _ before after reason attached =>
    [byte before.code, byte after.code, byte reason.code, byte attached]
  | .holdExpired _ _ _ _ new slipped expiries =>
    beBytes 4 new.toNat ++ [byte slipped, 0, 0, 0] ++ beBytes 4 expiries
  | .holdState _ on source kind => [flagByte on, byte source.code, byte (holdKindCode kind)]
  | .pulse _ tick head state =>
    beBytes 4 tick.toNat ++ [flagByte head.isNone, byte state.code]
  | .reference _ tick head before after =>
    beBytes 4 tick.toNat ++ [flagByte head.isNone, byte before.code, byte after.code]

/-- The 32 bytes of a record (section 12.7). -/
def Record.bytes (r : Record) : List Byte :=
  [byte r.report.kind] ++ padTo 7 r.report.subject ++ beBytes 4 r.tick.toNat ++
    beBytes 4 r.report.ssn.toNat ++ padTo 16 r.report.detail

/-- The 8 bytes of the write index word (section 12.8). -/
def indexWordBytes (index : Nat) (overrun : Bool) : List Byte :=
  beBytes 4 index ++ [flagByte overrun, 0, 0, 0]

/-! ## Handing a report (R188) -/

/-- The kinds that are queued in CONFIG (R188). -/
def Report.queuedInConfig : Report → Bool
  | .setupResult .. => true
  | .commandResult .. => true
  | .windowState .. => true
  | _ => false

/-- A record is lost: the overrun flag and discard since clear are set (R188, R189, R190). -/
def State.loseRecord (s : State) : State :=
  { s with rw := { s.rw with overrun := true, discardSince := true } }

/-- Add a report at the back of the queue, with the tick count as it stands (R181). -/
def State.enqueue (s : State) (r : Report) : State :=
  { s with rw := { s.rw with queue := s.rw.queue ++ [{ tick := s.tb.tickCount, report := r }] } }

/-- A block hands a report to the Report Writer (R188). -/
def State.hand (s : State) (r : Report) : State :=
  if s.isConfig then
    if r.queuedInConfig && decide (s.rw.queue.length < Config.queueCapacity) then s.enqueue r else s
  else if s.ps.drainFlag then s
  else if s.rw.queue.length < Config.queueCapacity then s.enqueue r
  else s.loseRecord

end Sys2Proof.Machine
end

