-- ==== Sys2Proof/Machine/Zones.lean ====
section
/-! DEFINITION. The Zone Scheduler outside decided slots: outcomes and window states (6.1), holds (6.8),
cancel (6.7), zones without feeds (6.10), setting, trail and retirement (7.2). -/

namespace Sys2Proof.Machine

/-- The window a zone refers to (R102). -/
def ZoneStatus.window? : ZoneStatus → Option (Fin 64)
  | .national => none
  | .armed w => some w
  | .regional w => some w
  | .returning w _ _ => some w

/-- PENDING or LIVE: the record is locked (R54, R99). -/
def WindowStatus.open? : WindowStatus → Bool
  | .pending => true
  | .live => true
  | _ => false

/-- The SSN of an outcome given outside decided slots: the zone's horizon, or 0 (R101). -/
def State.horizonOrZero (s : State) (z : Fin 24) : SSN :=
  match (s.zone z).timeline with
  | some t => t.horizon
  | none => 0

/-- The region byte of a window's reports, as in the record (section 12.7). -/
def State.windowRegionByte (s : State) (w : Fin 64) : Byte := byte (s.windowRec w).regionByte

/-- A WINDOW_STATE report (R101). -/
def State.handWindowState (s : State) (w : Fin 64) (news : WindowNews)
    (reason : Option RejectReason) : State :=
  s.hand (.windowState w (s.windowRegionByte w) (s.windowRec w).start news reason)

/-- A zone is NATIONAL with no window, no return cause and conceal count 0 (R100). -/
def Zone.toNational (x : Zone) : Zone := { x with status := .national, conceal := 0 }

/-- The window keeps a zone's outcome. -/
def State.recordOutcome (s : State) (w : Fin 64) (z : Fin 24) (o : ZoneOutcome) : State :=
  s.setWindow w { s.window w with outcomes := (s.window w).outcomes.set z (some o) }

/-- A zone that refers to the window becomes NATIONAL (R100). -/
def State.leaveWindow (s : State) (w : Fin 64) (z : Fin 24) : State :=
  if (s.zone z).status.window? = some w then s.updZone z Zone.toNational else s

/-- Give a zone an outcome for a window, at most once: a zone that refers to the window becomes
NATIONAL in the same act, and one ZONE_OUTCOME report is made (R100, R101). -/
def State.giveOutcome (s : State) (w : Fin 64) (z : Fin 24) (o : ZoneOutcome) (ssn : SSN) : State :=
  if (s.window w).outcomes[z].isSome then s
  else
    ((s.recordOutcome w z o).leaveWindow w z).hand
      (.zoneOutcome w (s.windowRegionByte w) z ssn o)

/-- The zones of a window's region (section 6.1). -/
def State.windowZones (s : State) (su : Setup) (w : Fin 64) : List (Fin 24) :=
  match (s.windowRec w).region with
  | some r => su.zonesOf r
  | none => []

/-- Move a window as R99 gives once an act has armed zones or given outcomes, with its report: CLOSED
when every zone of the region holds an outcome, else from PENDING to LIVE when some zone is armed, in
effect or holds one. -/
def State.settleWindow (s : State) (su : Setup) (w : Fin 64) : State :=
  let win := s.window w
  let zones := s.windowZones su w
  if win.status.open? then
    if zones.all (fun z => win.outcomes[z].isSome) then
      (s.setWindow w { win with status := .closed }).handWindowState w .closed none
    else if win.status == .pending &&
        zones.any (fun z => win.outcomes[z].isSome || (s.zone z).status.window? == some w) then
      (s.setWindow w { win with status := .live }).handWindowState w .live none
    else s
  else s

/-- A window that a zone has been armed for moves from PENDING to LIVE, with its report (R99, R106). -/
def State.goLive (s : State) (w : Fin 64) : State :=
  if (s.window w).status = .pending then
    (s.setWindow w { s.window w with status := .live }).handWindowState w .live none
  else s

/-- One outcome and the window's move it causes. -/
def State.outcomeAndSettle (s : State) (su : Setup) (w : Fin 64) (z : Fin 24) (o : ZoneOutcome)
    (ssn : SSN) : State :=
  (s.giveOutcome w z o ssn).settleWindow su w

/-! ## Trail and retirement (R126, R129) -/

/-- A zone with a timeline. -/
def Zone.withTimeline (x : Zone) (t : Timeline) : Zone := { x with timeline := some t }

/-- Remove the runs at the front that the trail has passed (R129). -/
def retire (trail : SSN) : List Run → List Run
  | r1 :: r2 :: rest => if atOrBefore r2.first trail then retire trail (r2 :: rest) else r1 :: r2 :: rest
  | log => log

/-- The run of a log that covers an SSN between trail and horizon (R124, R167): each run covers up to the slot
before the next run's first SSN, the front run from the trail on, however long ago it began. An empty log, which
no run has, covers nothing (log 20). -/
def coveringRun (n : SSN) : List Run → Option Run
  | [] => none
  | [r] => some r
  | r :: next :: rest => if atOrBefore next.first n then coveringRun n (next :: rest) else some r

/-- The run covering an SSN between a zone's trail and horizon (R124, R167). -/
def Timeline.covering (t : Timeline) (n : SSN) : Option Run := coveringRun n t.log

/-- The answer to the View Resolver's query: the run covering an SSN between trail and horizon
(R144). -/
def Timeline.query (t : Timeline) (n : SSN) : Option Run :=
  if between t.trail n t.horizon then t.covering n else none

/-- Move a zone's trail forward, with retirement (R126, R129). A trail does not fall back. -/
def State.advanceTrail (s : State) (z : Fin 24) (trail : SSN) : State :=
  match (s.zone z).timeline with
  | some t =>
    if precedes t.trail trail then
      s.updZone z (fun x => x.withTimeline { t with trail := trail, log := retire trail t.log })
    else s
  | none => s

/-- The timeline of a zone set at `start`: horizon and trail one before it, one ATTACH run (R127). -/
def Timeline.startingAt (start : SSN) : Timeline :=
  { horizon := start - 1
    trail := start - 1
    log := [{ first := start - 1, source := .national, cause := .attach, window := none }]
    logFull := false }

/-- Set a zone by the attach of its first feed at `start` (R127). -/
def State.setZoneAt (s : State) (z : Fin 24) (start : SSN) : State :=
  s.updZone z (fun x => x.withTimeline (Timeline.startingAt start))

/-- Unset a zone whose last attached feed has left (R130), with the UNATTENDED outcome of a zone that
was ARMED or in effect (R121), which carries the horizon the zone had (log 14). -/
def State.unsetZone (s : State) (su : Setup) (z : Fin 24) : State :=
  let ssn := s.horizonOrZero z
  let s' := s.updZone z (fun x => { x with timeline := none })
  match (s.zone z).status.window? with
  | some w => s'.outcomeAndSettle su w z .unattended ssn
  | none => s'

/-! ## National head advance (R122) -/

/-- Give UNATTENDED for one window to the zones of its region that are unset and hold no outcome. -/
def State.unattendWindow (s : State) (su : Setup) (head : SSN) (w : Fin 64) : State :=
  if (s.window w).status.open? && precedes (s.windowRec w).finish head then
    (((s.windowZones su w).filter (fun z => (s.zone z).timeline.isNone)).foldl
      (fun s z => s.giveOutcome w z .unattended head) s).settleWindow su w
  else s

/-- The national head advances: windows in ascending index (R122). -/
def State.nationalHeadAdvance (s : State) (su : Setup) (head : SSN) : State :=
  (List.finRange 64).foldl (fun s w => s.unattendWindow su head w) s

/-! ## Cancel (R114) -/

/-- The effect of a cancel on one zone of the window's region, by its situation. -/
def State.cancelZone (s : State) (w : Fin 64) (z : Fin 24) : State :=
  if (s.window w).outcomes[z].isSome then s
  else
    match (s.zone z).status with
    | .regional w' =>
      if w' = w then s.updZone z (fun x => { x with status := .returning w .cancel false })
      else s.giveOutcome w z .cancelled (s.horizonOrZero z)
    | .returning w' _ _ =>
      if w' = w then s else s.giveOutcome w z .cancelled (s.horizonOrZero z)
    | _ => s.giveOutcome w z .cancelled (s.horizonOrZero z)

/-- The cancel of a PENDING or LIVE window. -/
def State.cancelWindow (s : State) (su : Setup) (w : Fin 64) : State :=
  ((s.windowZones su w).foldl (fun s z => s.cancelZone w z) s).settleWindow su w

/-! ## Holds (R115, R116) -/

/-- A zone is held (R115). -/
def Zone.held (x : Zone) : Bool := x.commandHold.isSome || x.pinHold

/-- The kind of a command hold after a HOLD command (R115). -/
def strongerHold : Option HoldKind → HoldKind → HoldKind
  | some .hard, _ => .hard
  | _, k => k

/-- A hold is taken on a zone (R116). -/
def State.takeHold (s : State) (kind : HoldKind) (z : Fin 24) : State :=
  match (s.zone z).status with
  | .national => s
  | .armed w => s.giveOutcome w z .heldOff (s.horizonOrZero z)
  | .regional w => s.updZone z (fun x => { x with status := .returning w .hold (kind == .hard) })
  | .returning w _ hard =>
    if kind == .hard && !hard then
      s.updZone z (fun x => { x with status := .returning w .hold true })
    else s

/-- The windows that some of the zones are armed for, in ascending index. -/
def State.armedWindows (s : State) (zones : List (Fin 24)) : List (Fin 64) :=
  (List.finRange 64).filter (fun w => zones.any (fun z => (s.zone z).status == .armed w))

/-- A hold is taken on several zones: outcomes in ascending zone number, then the windows that the
hold closes in ascending index (R116). -/
def State.takeHolds (s : State) (su : Setup) (kind : HoldKind) (zones : List (Fin 24)) : State :=
  let windows := s.armedWindows zones
  let s := zones.foldl (fun s z => s.takeHold kind z) s
  windows.foldl (fun s w => s.settleWindow su w) s

/-- Change the named zones. -/
def State.updZones (s : State) (zones : List (Fin 24)) (f : Zone → Zone) : State :=
  zones.foldl (fun s z => s.updZone z f) s

/-! ## Pins (R166, R167) -/

/-- Zone `z` range-pins `e` in a ring. -/
def State.rangePins (s : State) (su : Setup) (ring : RingId) (e : SSN) (z : Fin 24) : Bool :=
  match (s.zone z).timeline with
  | none => false
  | some t =>
    between t.trail e t.horizon &&
      match ring with
      | .national => true
      | .regional r p =>
        su.zoneRegion z == some r && (t.covering e).map (·.source) == some (.regional p)

/-- Feed `f` has an in-flight read that pins `e` in a ring. -/
def State.readPins (s : State) (ring : RingId) (e : SSN) (f : Fin 32) : Bool :=
  match (s.feed f).inFlight with
  | some r => r.ring == ring && r.ssn == e
  | none => false

/-- `e` is pinned in a ring (R166, R167). -/
def State.pinned (s : State) (su : Setup) (ring : RingId) (e : SSN) : Bool :=
  s.isRunning &&
    ((List.finRange 24).any (s.rangePins su ring e) || (List.finRange 32).any (s.readPins ring e))

end Sys2Proof.Machine
end

