-- ==== Sys2Proof/Machine/Feeds.lean ====
section
/-! DEFINITION. The View Resolver's feed records: leaving ATTACHED, slips, attach, detach (8.2, 8.3), and
the FEED_STATE report (8.8). -/

namespace Sys2Proof.Machine

/-- The position of an attached feed. -/
def FeedStatus.position? : FeedStatus → Option Position
  | .attached p => some p
  | _ => none

/-- A feed state as a report names it. -/
def FeedStatus.news : FeedStatus → FeedNews
  | .detached => .detached
  | .attached _ => .attached
  | .slipped => .slipped

/-- The attached feeds of a zone, in ascending number. -/
def State.attachedFeeds (s : State) (su : Setup) (z : Fin 24) : List (Fin 32) :=
  (List.finRange 32).filter (fun f =>
    (s.feed f).status.position?.isSome && su.feedZone f == some z)

/-- The last SSNs of a zone's attached feeds. -/
def State.lasts (s : State) (su : Setup) (z : Fin 24) : List SSN :=
  (s.attachedFeeds su z).filterMap (fun f => (s.feed f).status.position?.map (·.last))

/-- The trail is recomputed from the zone's attached feeds (R126). -/
def State.recomputeTrail (s : State) (su : Setup) (z : Fin 24) : State :=
  match least (s.lasts su z) with
  | some trail => s.advanceTrail z trail
  | none => s

/-- A FEED_STATE report; `attached` is the number of attached feeds of the zone after the change
(R164). -/
def State.handFeedState (s : State) (su : Setup) (f : Fin 32) (ssn : SSN) (before after : FeedNews)
    (reason : FeedReason) (attached : Nat) : State :=
  s.hand (.feedState f (byte su.feeds[f].zone) (byte su.feeds[f].lane) ssn before after reason attached)

/-- The number of attached feeds that the zone of `f` has besides `f`. -/
def State.attachedBeside (s : State) (su : Setup) (f : Fin 32) : Nat :=
  match su.feedZone f with
  | some z => ((s.attachedFeeds su z).filter (fun g => g != f)).length
  | none => 0

/-- An in-flight read stops counting (R150, R159). -/
def InFlight.uncounted (r : InFlight) : InFlight := { r with counting := false }

/-- Steps 1 to 3 of R150: the report, the position dropped, an in-flight read no longer counting. -/
def State.dropFeed (s : State) (su : Setup) (f : Fin 32) (p : Position) (target : FeedStatus)
    (reason : FeedReason) : State :=
  (s.handFeedState su f p.last .attached target.news reason (s.attachedBeside su f)).setFeed f
    { status := target, inFlight := (s.feed f).inFlight.map InFlight.uncounted }

/-- Step 4 of R150: a feed has left zone `z`, which recomputes its trail or is unset (R126, R130). -/
def State.zoneLeft (s : State) (su : Setup) (z : Fin 24) : State :=
  if (s.attachedFeeds su z).isEmpty then s.unsetZone su z else s.recomputeTrail su z

/-- An ATTACHED feed leaves ATTACHED (R150). -/
def State.leaveAttached (s : State) (su : Setup) (f : Fin 32) (p : Position) (target : FeedStatus)
    (reason : FeedReason) : State :=
  let s := s.dropFeed su f p target reason
  match su.feedZone f with
  | some z => s.zoneLeft su z
  | none => s

/-- Slip a feed: it acts on an ATTACHED feed only (R151). -/
def State.slip (s : State) (su : Setup) (reason : FeedReason) (f : Fin 32) : State :=
  match (s.feed f).status with
  | .attached p => s.leaveAttached su f p .slipped reason
  | _ => s

/-- Slip several feeds, in the order given. -/
def State.slipAll (s : State) (su : Setup) (reason : FeedReason) (feeds : List (Fin 32)) : State :=
  feeds.foldl (fun s f => s.slip su reason f) s

/-- The position of a feed just attached at `start` (R147). -/
def Position.startingAt (start : SSN) : Position :=
  { next := start, last := start - 1, readDone := false, readSincePulse := false, stall := 0 }

/-- The result of a valid ATTACH (R147). -/
def State.attachResult (s : State) (su : Setup) (f : Fin 32) (start : SSN) : CommandResult :=
  match (s.feed f).status, su.feedZone f with
  | .attached _, _ => .wrongState
  | _, some z =>
    match (s.zone z).timeline with
    | none => .accepted
    | some t =>
      if precedes t.trail start && atOrBefore start (t.horizon + 1) then .accepted else .attachRange
  | _, none => .attachRange

/-- An accepted ATTACH: the zone is set when it was unset, the feed is ATTACHED, one FEED_STATE report
(R127, R147, R148). -/
def State.attachFeed (s : State) (su : Setup) (f : Fin 32) (start : SSN) : State :=
  match su.feedZone f with
  | none => s
  | some z =>
    let before := (s.feed f).status.news
    let s := if (s.zone z).timeline.isNone then s.setZoneAt z start else s
    let s := s.setFeed f { s.feed f with status := .attached (Position.startingAt start) }
    s.handFeedState su f start before .attached .attach (s.attachedFeeds su z).length

/-- The result of a valid DETACH (R149). -/
def State.detachResult (s : State) (f : Fin 32) : CommandResult :=
  match (s.feed f).status with
  | .detached => .wrongState
  | _ => .accepted

/-- An accepted DETACH (R149). -/
def State.detachFeed (s : State) (su : Setup) (f : Fin 32) : State :=
  match (s.feed f).status with
  | .attached p => s.leaveAttached su f p .detached .detach
  | .slipped =>
    (s.handFeedState su f 0 .slipped .detached .detach (s.attachedBeside su f)).setFeed f
      { s.feed f with status := .detached }
  | .detached => s

/-- One feed at STOP (R152): no trail recomputation and no call on its zone. -/
def State.stopFeed (s : State) (su : Setup) (f : Fin 32) : State :=
  match (s.feed f).status with
  | .attached p => s.dropFeed su f p .detached .stop
  | .slipped =>
    (s.handFeedState su f 0 .slipped .detached .stop (s.attachedBeside su f)).setFeed f
      { s.feed f with status := .detached }
  | .detached => s

/-- A counting view read of `n` completes: last, read-done and read since pulse, then the trail
(R161). -/
def State.completeFeed (s : State) (su : Setup) (f : Fin 32) (n : SSN) : State :=
  match (s.feed f).status, su.feedZone f with
  | .attached p, some z =>
    (s.setFeed f { s.feed f with
      status := .attached { p with last := n, readDone := true, readSincePulse := true } }).recomputeTrail
        su z
  | _, _ => s

end Sys2Proof.Machine
end

