-- ==== Sys2Proof/Machine/Arbiter.lean ====
section
/-! DEFINITION. The Lane Arbiter: groups, grants, reservations (sections 2.4 and 2.5) and refusals (R51). -/

namespace Sys2Proof.Machine

/-- The external lane of a lane number, `none` for the report lane. -/
def externalLane (l : Fin 9) : Option (Fin 8) := toFin? 8 l.val

/-- The lane is in the urgent group: its URGENT flag in the setup in force; in CONFIG, and for the
report lane, never (R21, R23). -/
def State.isUrgent (s : State) (l : Fin 9) : Bool :=
  match s.setup, externalLane l with
  | some su, some e => su.lanes[e].urgent
  | _, _ => false

/-- The mode of a group: FIXED in CONFIG, else from the setup in force (R23). -/
def State.groupMode (s : State) (urgent : Bool) : GroupMode :=
  match s.setup with
  | some su => (groupModeOf (if urgent then su.urgentOrder else su.normalOrder)).getD .fixed
  | none => .fixed

/-- The pointer of a group (R26). -/
def State.groupPtr (s : State) (urgent : Bool) : Fin 9 :=
  if urgent then s.la.urgentPtr else s.la.normalPtr

/-- Move the pointer of a group (R26). -/
def State.setGroupPtr (s : State) (urgent : Bool) (l : Fin 9) : State :=
  if urgent then { s with la := { s.la with urgentPtr := l } }
  else { s with la := { s.la with normalPtr := l } }

/-- The lanes of a group that are WAITING, in ascending number. -/
def State.waitingIn (s : State) (urgent : Bool) : List (Fin 9) :=
  (List.finRange 9).filter (fun l => (s.lane l).waiting?.isSome && s.isUrgent l == urgent)

/-- The cyclic order that a ROTATING group counts from its pointer: the lane after the pointer first,
the lane at the pointer last (R26). -/
def rotation (ptr : Fin 9) : List (Fin 9) := (List.finRange 9).map (fun k => ptr + 1 + k)

/-- The lane a group's mode picks among its WAITING lanes (R25, R26). -/
def pickLane (mode : GroupMode) (ptr : Fin 9) (lanes : List (Fin 9)) : Option (Fin 9) :=
  match mode with
  | .fixed => lanes.head?
  | .rotating => (rotation ptr).find? (fun l => lanes.contains l)

/-- The lane a FREE port is granted to: the urgent group first (R25). -/
def State.pick (s : State) : Option (Fin 9) :=
  let urgent := !(s.waitingIn true).isEmpty
  pickLane (s.groupMode urgent) (s.groupPtr urgent) (s.waitingIn urgent)

/-- Grant the port to a WAITING lane: it becomes ACTIVE, the port BUSY, its group's pointer moves to it.
The access keeps its LINK attribute, clear when granted in CONFIG, and its sequence count (R26, R27). -/
def State.grantTo (s : State) (l : Fin 9) (count : Nat) : State :=
  match s.lane l with
  | .waiting a =>
    ((s.setLane l (.active a)).setPort
      (.busy { lane := l, link := a.req.link && !s.isConfig, count := count })).setGroupPtr
        (s.isUrgent l) l
  | _ => s

/-- Grant a FREE port to whichever WAITING lane R25 and R26 pick; the access starts a sequence. -/
def State.grantFree (s : State) : State :=
  match s.pick with
  | some l => s.grantTo l 1
  | none => s

/-- What the Lane Arbiter does whenever requesters or the port have changed (R24, R28, R30):
a FREE port is granted; a RESERVED port is granted to the reserving lane's request, under the
reservation; a reservation of a NORMAL lane is broken when an URGENT request is WAITING. -/
def State.settlePort (s : State) : State :=
  match s.la.port with
  | .busy _ => s
  | .free => s.grantFree
  | .reserved r =>
    if (s.lane r.lane).waiting?.isSome then s.grantTo r.lane (r.count + 1)
    else if !r.urgent && !(s.waitingIn true).isEmpty then (s.setPort .free).grantFree
    else s

/-- The conditions of R27 under which the completion of access `g` makes a reservation. -/
def State.makesReservation (s : State) (g : Grant) (answer : MemAnswer) : Bool :=
  !s.isConfig && g.link && answer == .okay && decide (g.count < Config.sequenceCap) &&
    (s.isUrgent g.lane || (s.waitingIn true).all (fun l => l == g.lane))

/-- The port after a completion: RESERVED when R27 makes a reservation, FREE otherwise, and granted
as R24 to R30 order. -/
def State.closePort (s : State) (g : Grant) (answer : MemAnswer) : State :=
  (s.setPort
    (if s.makesReservation g answer then
      .reserved { lane := g.lane, urgent := s.isUrgent g.lane, wait := 0, count := g.count }
    else .free)).settlePort

/-- A reservation held for the lane ends without a grant (R28). -/
def State.endReservation (s : State) (l : Fin 9) : State :=
  match s.la.port with
  | .reserved r => if r.lane = l then s.setPort .free else s
  | _ => s

/-- The access in progress: the grant and the ACTIVE access of its lane. -/
def State.inProgress (s : State) : Option (Grant × Access) :=
  match s.la.port with
  | .busy g =>
    match s.lane g.lane with
    | .active a => some (g, a)
    | _ => none
  | _ => none

/-- Answer a request without memory: the lane is IDLE with the response, and a reservation held for it
ends (R19, R28). -/
def State.answer (s : State) (l : Fin 8) (status : Status) (data : List Byte) : State :=
  (((s.setLane (ext l) .idle).respond l { status := status, data := data }).endReservation
    (ext l)).settlePort

/-- Refuse a request: one ACCESS_REFUSED report, and REFUSED with every data byte 0xFF for a READ
(R51, R52). -/
def State.refuse (s : State) (l : Fin 8) (r : Request) (reason : RefusalReason) (ssn : SSN) : State :=
  (s.hand (.accessRefused l r.body.dir r.addr reason ssn)).answer l .refused r.body.blank

/-- A request becomes WAITING at the memory port (R22). -/
def State.present (s : State) (l : Fin 9) (a : Access) : State := s.setLane l (.waiting a)

/-- The form check (R20). -/
def Request.formOk (r : Request) : Bool :=
  decide (8 ≤ r.body.length ∧ r.body.length ≤ 256 ∧ r.body.length % 8 = 0 ∧ r.base % 8 = 0 ∧
    r.base % 256 + r.body.length ≤ 256)

end Sys2Proof.Machine
end

