-- ==== Sys2Proof/Machine/Ingest.lean ====
section
/-! DEFINITION. The Ingest Checker: ring-write checks (5.2), acceptance and completion (5.3), late set
(5.4), heads (5.5) and path health (5.6). -/

namespace Sys2Proof.Machine

/-- What the seven steps of R81 make of a ring write. -/
inductive RingWriteOutcome where
  | refused (reason : RefusalReason)
  | heldBack (old : SSN)
  | accepted
  deriving DecidableEq, Repr

/-- The ring-write checks, in order (R81 to R83): `k` is the slot index of the address. -/
def State.checkRingWrite (s : State) (su : Setup) (ring : RingId) (k : Nat) (cell : List Byte) :
    RingWriteOutcome :=
  let m := cellSsn cell
  if cell.length ≠ 256 then .refused .partialCell
  else if cellMark cell ≠ 0xA7 then .refused .malformed
  else if su.slotOf ring m ≠ k then .refused .misplaced
  else
    match s.entry ring k with
    | none => .accepted
    | some e =>
      if precedes m e.ssn || unordered m e.ssn then .refused .stale
      else if e.ssn = m ∧ s.pinned su ring m then .refused .rewrite
      else if precedes e.ssn m && s.pinned su ring e.ssn then .heldBack e.ssn
      else .accepted

/-- The SSN field of a refusal's report: the write's SSN for MALFORMED, MISPLACED, STALE and REWRITE
(R52). -/
def refusedWriteSsn (reason : RefusalReason) (cell : List Byte) : SSN :=
  match reason with
  | .malformed => cellSsn cell
  | .misplaced => cellSsn cell
  | .stale => cellSsn cell
  | .rewrite => cellSsn cell
  | _ => 0

/-- The verdict on a cell (R85). -/
def cellVerdict (cell : List Byte) : Verdict :=
  if cellCheck (cellPayload cell) = cellCheckField cell then .matching else .mismatch

/-- The gap flag of an acceptance: for a regional ring, more than one after the head (R85). -/
def gapFlag (ring : RingId) (head : Option SSN) (m : SSN) : Bool :=
  match ring, head with
  | .regional _ _, some h => precedes h m && decide (1 < distance h m)
  | _, _ => false

/-- An acceptance of `m` advances the head: it was unset or `m` is after it (R92). -/
def headAdvances (head : Option SSN) (m : SSN) : Bool :=
  match head with
  | none => true
  | some h => precedes h m

/-- The entry an acceptance makes (R85). -/
def arrivingEntry (ring : RingId) (head : Option SSN) (cell : List Byte) : Entry :=
  { state := .arriving (cellVerdict cell) (gapFlag ring head (cellSsn cell))
    ssn := cellSsn cell
    tag := cellTag cell
    splice := cellSplice cell
    late := 0 }

/-- The head moves to `m`; an advance of the national head is handed to the Zone Scheduler (R92). -/
def State.moveHead (s : State) (su : Setup) (ring : RingId) (m : SSN) : State :=
  if headAdvances (s.head ring) m then
    let s := s.setHead m ring
    match ring with
    | .national => s.nationalHeadAdvance su m
    | .regional _ _ => s
  else s

/-- The Ingest Checker accepts a ring write: entry, head, and the write presented (R85). -/
def State.acceptRingWrite (s : State) (su : Setup) (l : Fin 8) (ring : RingId) (slot : Nat)
    (r : Request) : State :=
  let cell := r.body.data
  let e := arrivingEntry ring (s.head ring) cell
  ((s.setEntry ring slot e).moveHead su ring (cellSsn cell)).present (ext l)
    { req := r, kind := .ring ring slot }

/-! ## Completion -/

/-- The zones that read a ring: those with a set horizon, of the region for a regional ring (R88). -/
def State.readers (s : State) (su : Setup) (ring : RingId) : List (Fin 24) :=
  (List.finRange 24).filter (fun z =>
    (s.zone z).timeline.isSome &&
      match ring with
      | .national => true
      | .regional r _ => su.zoneRegion z == some r)

/-- The late set of a completion of `m`: the readers whose horizon is at or after `m` (R88). -/
def State.lateSet (s : State) (su : Setup) (ring : RingId) (m : SSN) : ZoneSet :=
  zoneSetOf ((s.readers su ring).filter (fun z =>
    match (s.zone z).timeline with
    | some t => atOrBefore m t.horizon
    | none => false))

/-- The score after a completion (R94). -/
def scoreAfter (pr : Profile) (score : Nat) (good gap : Bool) : Nat :=
  let x := if good then score - 1 else min 255 (score + pr.badWeight)
  if gap then min 255 (x + pr.gapWeight) else x

/-- The health after a completion that leaves the score at `score` (R96). -/
def healthAfter (pr : Profile) (score : Nat) : Health → Health
  | .unseen => if pr.degradeAt ≤ score then .degraded else .live
  | .silent => if pr.degradeAt ≤ score then .degraded else .live
  | .live => if pr.degradeAt ≤ score then .degraded else .live
  | .degraded => if score ≤ pr.recoverAt then .live else .degraded

/-- Set a path's health, with one PATH_STATE report for a change (R96). -/
def State.setHealth (s : State) (r : Fin 12) (p : Path) (h : Health) : State :=
  let x := s.path r p
  if x.health = h then s
  else
    (s.setPath r p { x with health := h }).hand (.pathState r p x.head x.health h x.score)

/-- The path's score, timer and health at a completion (R94 to R96). -/
def State.settlePath (s : State) (su : Setup) (r : Fin 12) (p : Path) (good gap : Bool) : State :=
  let pr := su.profileOf r
  let x := s.path r p
  let score := scoreAfter pr x.score good gap
  (s.setPath r p { x with score := score, timer := some 0 }).setHealth r p
    (healthAfter pr score x.health)

/-- An accepted ring write completes: the entry becomes GOOD or BAD with its late set, a LATE_CELL
report when that is not empty, then the path (R87 to R89). -/
def State.completeRingWrite (s : State) (su : Setup) (ring : RingId) (slot : Nat)
    (answer : MemAnswer) : State :=
  match s.entry ring slot with
  | none => s
  | some e =>
    match e.state with
    | .arriving verdict gap =>
      let good := answer == .okay && verdict == .matching
      let late := s.lateSet su ring e.ssn
      let s := s.setEntry ring slot
        { e with state := if good then .good else .bad, late := late }
      let s := if late = 0 then s else s.hand (.lateCell ring slot e.ssn good late)
      match ring with
      | .national => s
      | .regional r p => s.settlePath su r p good gap
    | _ => s

end Sys2Proof.Machine
end

