-- ==== Sys2Proof/Machine/Guard.lean ====
section
/-! DEFINITION. The Ring Guard: held writes, examination and release (9.2, 9.3), expiry (9.4), drain holds
(R169, R176). -/

namespace Sys2Proof.Machine

/-- A drain hold rests on the slot of a held write: an in-flight read of that slot (R169, R176). -/
def State.drainHold (s : State) (h : HeldWrite) : Bool :=
  (List.finRange 32).any (fun f =>
    match (s.feed f).inFlight with
    | some r => r.ring == h.ring && r.addr == h.req.addr
    | none => false)

/-- A held write's old SSN is still held back: pinned in RUNNING, a drain hold in STOPPING (R172). -/
def State.heldBack (s : State) (su : Setup) (h : HeldWrite) : Bool :=
  if s.isRunning then s.pinned su h.ring h.old else s.drainHold h

/-- Hold a ring write back at step 6 (R170): it joins the back of the held list, the lane is HELD. -/
def State.holdWrite (s : State) (l : Fin 8) (ring : RingId) (slot : Nat) (old : SSN) (r : Request) :
    State :=
  let h : HeldWrite :=
    { lane := l, ring := ring, slot := slot, old := old, new := cellSsn r.body.data, req := r
      timer := 0, expiries := 0 }
  { s.setLane (ext l) (.held r) with rg := { held := s.rg.held ++ [h] } }

/-- Take a lane's write out of the held list. -/
def State.dropHeld (s : State) (l : Fin 8) : State :=
  { s with rg := { held := s.rg.held.filter (fun h => h.lane != l) } }

/-- Release a held write: accepted in RUNNING, presented without acceptance in STOPPING (R86, R173). -/
def State.release (s : State) (su : Setup) (h : HeldWrite) : State :=
  let s := s.dropHeld h.lane
  if s.isRunning then s.acceptRingWrite su h.lane h.ring h.slot h.req
  else s.present (ext h.lane) { req := h.req, kind := .released }

/-- The held writes of a list are examined in its order; those released meet the port together (R172; log 12). -/
def State.examineList (su : Setup) : List HeldWrite → State → State
  | [], s => s
  | h :: rest, s =>
    State.examineList su rest (if s.heldBack su h then s else s.release su h)

/-- The Ring Guard examines its held list (R172). -/
def State.examine (s : State) (su : Setup) : State := State.examineList su s.rg.held s

/-- Between two states some zone's trail has advanced or some zone has been unset: the events of R172
that a feed's progress or leaving causes. -/
def State.trailsMoved (before after : State) : Bool :=
  (List.finRange 24).any (fun z =>
    match (before.zone z).timeline with
    | none => false
    | some t =>
      match (after.zone z).timeline with
      | none => true
      | some t' => t'.trail != t.trail)

/-- The examination as the last part of an act in which trails may have moved (R172). -/
def State.examineAfter (before after : State) (su : Setup) : State :=
  if before.trailsMoved after then after.examine su else after

/-- The feeds an expiry slips: the attached feeds, last at or before the old SSN, of the zones that
range-pin it (R174). -/
def State.expiryFeeds (s : State) (su : Setup) (h : HeldWrite) : List (Fin 32) :=
  (List.finRange 32).filter (fun f =>
    match (s.feed f).status, su.feedZone f with
    | .attached p, some z => s.rangePins su h.ring h.old z && atOrBefore p.last h.old
    | _, _ => false)

/-- Restart a held write's timer from 0 and count one expiry (R171, R174). -/
def State.countExpiry (s : State) (l : Fin 8) : State :=
  { s with
    rg := { held := s.rg.held.map (fun h =>
      if h.lane = l then { h with timer := 0, expiries := h.expiries + 1 } else h) } }

/-- A hold expires (R174, R175). In STOPPING no zone has a set horizon, so it slips nothing. -/
def State.expireHold (s : State) (su : Setup) (h : HeldWrite) : State :=
  let feeds := if s.isRunning then s.expiryFeeds su h else []
  let s := ((s.slipAll su .holdExpired feeds).countExpiry h.lane).hand
    (.holdExpired h.lane h.ring h.slot h.old h.new feeds.length (h.expiries + 1))
  s.examine su

end Sys2Proof.Machine
end

