-- ==== Sys2Proof/Machine/Plan.lean ====
section
/-! DEFINITION. The Plan Shadow: locks and taking of plan writes (R54, R192), the copies (R55, R56), COMMIT
validation (R60, R61), window submission (4.7). -/

namespace Sys2Proof.Machine

/-! ## Plan writes -/

/-- The plan offset of a plan write (R39). -/
def State.planOffset (s : State) (r : Request) : Nat := r.base - s.planBase

/-- A plan write covers some byte of the `n` bytes at plan offset `o`. -/
def State.covers (s : State) (r : Request) (o n : Nat) : Bool :=
  overlaps (s.planOffset r) r.body.length o n

/-- The plan writes taken and not completed, by lane (R53). -/
def State.outstandingPlan (s : State) : List (Fin 9 × Access) :=
  s.presented.filter (fun x =>
    match x.2.kind with
    | .plan _ => true
    | _ => false)

/-- The window records a plan write covers, in ascending index (R54). -/
def State.coveredRecords (s : State) (r : Request) : List (Fin 64) :=
  (List.finRange 64).filter (fun w => s.covers r (windowOffset w) 64)

/-- The window records whose control word a plan write covers, in ascending index (R55). -/
def State.coveredControls (s : State) (r : Request) : List (Fin 64) :=
  (List.finRange 64).filter (fun w => s.covers r (windowOffset w) 8)

/-- The lock check (R54). -/
def State.planLocked (s : State) (r : Request) : Bool :=
  (!s.isConfig && s.covers r 0 0x1000) ||
    (s.coveredRecords r).any (fun w => (s.window w).status.open?)

/-- The Report Writer's check of a write of the read index word (R192). -/
def State.rangeRefused (s : State) (su : Setup) (r : Request) : Bool :=
  let v := readIndexValue (s.planOffset r) r.body.data
  decide (su.reportSize ≤ v) ||
    decide (indexDistance su.reportSize s.rw.readIndex s.rw.writeIndex <
      indexDistance su.reportSize s.rw.readIndex v) ||
    s.rw.readWrite != .none

/-- The Report Writer takes a read index write: a read write outstanding, discard since clear cleared
(R192). -/
def State.markReadWrite (s : State) : State :=
  { s with rw := { s.rw with readWrite := .outstanding, discardSince := false } }

/-- Take a plan write: locks, then the read index check outside CONFIG, then WAITING (R54, R192). -/
def State.takePlanWrite (s : State) (l : Fin 8) (r : Request) : State :=
  if s.planLocked r then s.refuse l r .locked 0
  else
    match s.setup with
    | some su =>
      if s.covers r readIndexWord 8 then
        if s.rangeRefused su r then s.refuse l r .range 0
        else (s.markReadWrite.present (ext l) { req := r, kind := .plan true }).settlePort
      else (s.present (ext l) { req := r, kind := .plan false }).settlePort
    | none => (s.present (ext l) { req := r, kind := .plan false }).settlePort

/-- The Plan Shadow in another state. -/
def State.withPlan (s : State) (ps : PlanShadow) : State := { s with ps := ps }

/-- The copies take the bytes written at plan offset `off`, and their words are known (R55). -/
def PlanShadow.landed (ps : PlanShadow) (off : Nat) (data : List Byte) : PlanShadow :=
  { ps with
    planCopy := writeBytes ps.planCopy off (data.take (copyEnd - off))
    unknown := ps.unknown.filter (fun w => !overlaps off data.length (8 * w) 8) }

/-- The copies keep their bytes, and the words written at plan offset `off` are unknown (R56). -/
def PlanShadow.unsettled (ps : PlanShadow) (off len : Nat) : PlanShadow :=
  { ps with
    unknown := (List.range 1024).filter (fun w =>
      ps.unknown.contains w || overlaps off len (8 * w) 8) }

/-- A plan write completed OKAY (R55). -/
def State.copyLanded (s : State) (r : Request) : State :=
  s.withPlan (s.ps.landed (s.planOffset r) r.body.data)

/-- A plan write completed ERROR (R56). -/
def State.copyUnsettled (s : State) (r : Request) : State :=
  s.withPlan (s.ps.unsettled (s.planOffset r) r.body.length)

/-! ## COMMIT validation (R60, R61) -/

/-- The offset of the first check of a list that does not pass. -/
def firstFailure : List (Bool × Nat) → Option Nat
  | [] => none
  | (ok, o) :: rest => if ok then firstFailure rest else some o

/-- A NATIONAL, REGIONAL or REPORT area (R60 check 1). -/
def Area.isRingOrReport : Area → Bool
  | .national => true
  | .regional _ _ => true
  | .report => true
  | _ => false

/-- The base fields of the ring and report areas of a setup in which a plain write lies that is waiting
or in progress (R60, R61). -/
def State.plainWriteFields (s : State) (su : Setup) : List Nat :=
  s.presented.flatMap (fun x =>
    match x.2.kind, x.2.req.body with
    | .plain, .write _ =>
      (su.areaMap.filter (fun e => e.area.isRingOrReport && e.has x.2.req.base)).map (·.field)
    | _, _ => [])

/-- Check 1, settled: the offset it fails at. -/
def State.unsettledAt (s : State) (su : Setup) : Option Nat :=
  match (s.ps.unknown.filter (· < 512)).min? with
  | some w => some (8 * w)
  | none =>
    match ((s.outstandingPlan.filter (fun x => s.covers x.2.req 0 0x1000)).map
        (fun x => s.planOffset x.2.req)).min? with
    | some o => some o
    | none => (s.plainWriteFields su).min?

/-- An area that does not lie wholly below 2^36 (R60). A base of 2^36 with a length of 0 fails too, as R195
has it (log 33). -/
def Extent.outOfRange (e : Extent) : Bool := decide (2 ^ 36 ≤ e.base ∨ 2 ^ 36 < e.base + e.length)

/-- Check 2, area ranges. -/
def Setup.rangeFailure (su : Setup) : Option Nat :=
  (su.areaMap.find? Extent.outOfRange).map (·.field)

/-- The field of the first extent of a list that overlaps an earlier one. -/
def firstOverlap : List Extent → List Extent → Option Nat
  | _, [] => none
  | earlier, e :: rest =>
    if earlier.any (fun x => overlaps x.base x.length e.base e.length) then some e.field
    else firstOverlap (e :: earlier) rest

/-- The plan area as an extent. -/
def State.planExtent (s : State) : Extent :=
  { area := .plan, base := s.planBase, length := planLength, field := 0 }

/-- Check 3, overlaps. -/
def State.overlapFailure (s : State) (su : Setup) : Option Nat :=
  firstOverlap [s.planExtent] su.areaMap

/-- A power of two from `lo` to `hi`. -/
def powerOfTwoIn (lo hi n : Nat) : Bool :=
  decide (lo ≤ n ∧ n ≤ hi) && (List.range 16).any (fun i => n == 2 ^ i)

/-- A number from `lo` to `hi`. -/
def inRange (lo hi n : Nat) : Bool := decide (lo ≤ n ∧ n ≤ hi)

/-- Check 4, ring sizes. -/
def Setup.sizeFailure (su : Setup) : Option Nat :=
  firstFailure
    [(powerOfTwoIn 256 8192 su.nr, 0x020), (powerOfTwoIn 256 4096 su.rs, 0x022),
     (powerOfTwoIn 64 4096 su.reportSize, 0x024)]

/-- A lane field names a lane of class INGEST. -/
def Setup.isIngest (su : Setup) (code : Nat) : Bool :=
  match toFin? 8 code with
  | some l => su.classOf l == some .ingest
  | none => false

/-- A feed lane field names none, or a lane of class EMISSION that is URGENT. -/
def Setup.isFeedLane (su : Setup) (code : Nat) : Bool :=
  code == Config.noneCode ||
    match toFin? 8 code with
    | some l => su.classOf l == some .emission && su.lanes[l].urgent
    | none => false

/-- Check 5, lane roles, the fields in the order of their offsets. -/
def Setup.laneFailure (su : Setup) : Option Nat :=
  firstFailure
    ([((groupModeOf su.urgentOrder).isSome, 0x038), ((groupModeOf su.normalOrder).isSome, 0x039),
      (su.isIngest su.natLane, 0x03A),
      ((List.finRange 8).any (fun l => su.classOf l == some .control), 0x040)] ++
    (List.finRange 8).map (fun l => ((su.classOf l).isSome, 0x040 + 4 * l.val)) ++
    ((List.finRange 12).filter (fun r => su.regions[r].enabled)).flatMap (fun r =>
      [Path.a, Path.b].map (fun p =>
        (su.isIngest (su.pathLane r p) && su.pathLane r p != su.natLane,
          0x081 + 8 * r.val + pathCode p))) ++
    ((List.finRange 32).filter (fun f => su.feeds[f].enabled)).map (fun f =>
      (su.isFeedLane su.feeds[f].lane, 0x182 + 4 * f.val)))

/-- Check 6, regions. -/
def Setup.regionFailure (su : Setup) : Option Nat :=
  firstFailure
    (((List.finRange 12).filter (fun r => su.regions[r].enabled)).flatMap (fun r =>
      [(su.regions[r].laneA != su.regions[r].laneB, 0x082 + 8 * r.val),
       (decide (su.regions[r].profile < 4), 0x083 + 8 * r.val)]))

/-- A zone's region field names none or an enabled region. -/
def Setup.zoneOk (su : Setup) (z : Fin 24) : Bool :=
  su.zones[z].region == Config.noneCode ||
    match toFin? 12 su.zones[z].region with
    | some r => su.regions[r].enabled
    | none => false

/-- Check 7, zones. -/
def Setup.zoneFailure (su : Setup) : Option Nat :=
  firstFailure (su.enabledZones.map (fun z => (su.zoneOk z, 0x101 + 4 * z.val)))

/-- A feed's zone field names an enabled zone. -/
def Setup.feedOk (su : Setup) (f : Fin 32) : Bool :=
  match toFin? 24 su.feeds[f].zone with
  | some z => su.zones[z].enabled
  | none => false

/-- Check 8, feeds. -/
def Setup.feedFailure (su : Setup) : Option Nat :=
  firstFailure (((List.finRange 32).filter (fun f => su.feeds[f].enabled)).map (fun f =>
    (su.feedOk f, 0x181 + 4 * f.val)))

/-- Check 9, profiles. -/
def Setup.profileFailure (su : Setup) : Option Nat :=
  firstFailure ((List.finRange 4).flatMap (fun i =>
    let p := su.profiles[i]
    let o := 0x200 + 8 * i.val
    [(inRange 1 64 p.badWeight, o), (inRange 1 64 p.gapWeight, o + 1),
     (decide (p.recoverAt < p.degradeAt), o + 3), (inRange 1 65535 p.silenceLimit, o + 4)]))

/-- Check 10, timing. -/
def Setup.timingFailure (su : Setup) : Option Nat :=
  firstFailure
    [(inRange 16 (min su.nr su.rs / 2) su.spreadMax, 0x028), (inRange 16 65535 su.armLead, 0x02A),
     (inRange 1 65535 su.holdLimit, 0x030), (inRange 1 65535 su.pulseTimeout, 0x032),
     (inRange 0 64 su.jumpMax, 0x034), (inRange 1 255 su.linkWait, 0x035),
     (inRange 0 15 su.stallPulses, 0x036)]

/-- The first failure of a list of checks, with its reason. -/
def firstReason : List (SetupResult × Option Nat) → Option (SetupResult × Nat)
  | [] => none
  | (reason, some o) :: _ => some (reason, o)
  | (_, none) :: rest => firstReason rest

/-- The ten checks of R60 in order: the reason and offset of the first that fails. -/
def State.validateSetup (s : State) (su : Setup) : Option (SetupResult × Nat) :=
  firstReason
    [(.unsettled, s.unsettledAt su), (.areaRange, su.rangeFailure),
     (.areaOverlap, s.overlapFailure su), (.ringSize, su.sizeFailure), (.laneRole, su.laneFailure),
     (.regionDef, su.regionFailure), (.zoneDef, su.zoneFailure), (.feedDef, su.feedFailure),
     (.profileDef, su.profileFailure), (.timingDef, su.timingFailure)]

/-! ## Window submission (R72 to R76) -/

/-- Two intervals are disjoint (R74). -/
def disjoint (a1 b1 a2 b2 : SSN) : Bool := precedes b1 a2 || precedes b2 a1

/-- The last SSN of a window's interval with its return grace. -/
def Setup.graceEnd (su : Setup) (wr : WindowRec) : SSN := ssnAdd wr.finish su.returnGrace

/-- The tags check of R73. -/
def WindowRec.tagsOk (wr : WindowRec) : Bool :=
  inRange 1 4 wr.pairCount && wr.pairs.all (fun p => p.1 != 4095 && p.2 != 4095) &&
    decide (wr.pairs.map (·.1)).Nodup && decide (wr.pairs.map (·.2)).Nodup

/-- The span check of R73. -/
def WindowRec.spanOk (su : Setup) (wr : WindowRec) : Bool :=
  precedes (ssnAdd wr.start su.entryGrace) wr.finish && decide (distance wr.start wr.finish < 2 ^ 30)

/-- A start passes the timing check against a horizon (R73 check 5): it is after the slot that follows the
horizon and, as R74 has it, a start 2^31 from the horizon, which is unordered with it, is not. -/
def startAfter (horizon start : SSN) : Bool := precedes horizon start && precedes (horizon + 1) start

/-- Record `w` is settled but for the write of lane `l`, which completes (R73 check 1). -/
def State.recordSettled (s : State) (w : Fin 64) (l : Fin 9) : Bool :=
  s.ps.unknown.all (fun k => !overlaps (windowOffset w) 64 (8 * k) 8) &&
    s.outstandingPlan.all (fun x => x.1 == l || !s.covers x.2.req (windowOffset w) 64)

/-- The validation of a submitted record in RUNNING: the reason it is rejected for (R73). -/
def State.validateSubmit (s : State) (su : Setup) (w : Fin 64) (l : Fin 9) : Option RejectReason :=
  let wr := s.windowRec w
  if !s.recordSettled w l then some .unsettled
  else
    match wr.region with
    | none => some .region
    | some r =>
      if !su.regions[r].enabled || (su.zonesOf r).isEmpty then some .region
      else if !wr.tagsOk then some .tags
      else if !wr.spanOk su then some .span
      else if !(su.zonesOf r).all (fun z =>
          match (s.zone z).timeline with
          | some t => startAfter t.horizon wr.start
          | none => true) then some .tooLate
      else if !(List.finRange 64).all (fun v =>
          !((s.window v).status.open? && (s.windowRec v).region == some r) ||
            disjoint wr.start (su.graceEnd wr) (s.windowRec v).start (su.graceEnd (s.windowRec v)))
        then some .overlap
      else if !(decide (wr.mode ≤ 1) && decide (wr.preferred ≤ 1)) then some .mode
      else none

/-- The record's submit is rejected: REJECTED, unlocked, one report (R72). -/
def State.rejectSubmit (s : State) (w : Fin 64) (reason : RejectReason) : State :=
  (s.setWindow w { s.window w with status := .rejected }).handWindowState w .rejected (some reason)

/-- The record becomes a PENDING window, every zone's outcome none, one report (R75, R99). -/
def State.acceptSubmit (s : State) (w : Fin 64) : State :=
  (s.setWindow w { Window.reset with status := .pending }).handWindowState w .pending none

/-- One record with action SUBMIT is examined (R72). -/
def State.submitRecord (s : State) (l : Fin 9) (w : Fin 64) : State :=
  match s.ps.run with
  | .running su =>
    match s.validateSubmit su w l with
    | some reason => s.rejectSubmit w reason
    | none => s.acceptSubmit w
  | _ => s.rejectSubmit w .notRunning

/-- The records a completing write submits, in ascending index (R55, R72, R76). -/
def State.submittedRecords (s : State) (r : Request) : List (Fin 64) :=
  (s.coveredControls r).filter (fun w => (s.windowRec w).action == 1)

/-- The submits of a completing write (R76). -/
def State.submitRecords (s : State) (l : Fin 9) (r : Request) : State :=
  (s.submittedRecords r).foldl (fun s w => s.submitRecord l w) s

end Sys2Proof.Machine
end

