-- ==== Sys2Proof/Machine/RunStates.lean ====
section
/-! DEFINITION. Changes of run state: the commit state of every block (R63), STOP (R64), the drain (R65) and
entry to CONFIG (R66). -/

namespace Sys2Proof.Machine

/-! ## COMMIT -/

/-- A zone at a successful COMMIT: the pin hold of an enabled zone takes the level of HOLD_REQ (R102,
R117). -/
def State.commitZones (s : State) (su : Setup) : Vector Zone 24 :=
  Vector.ofFn fun (z : Fin 24) => { Zone.reset with pinHold := su.zones[z].enabled && s.holdReq }

/-- The Timebase at a successful COMMIT (R179). -/
def Timebase.committed : Timebase := { Timebase.reset with pulseTimeout := some 0 }

/-- The setup comes into force: every block takes its commit state (R63). -/
def State.commitState (s : State) (su : Setup) : State :=
  { s with
    la := { s.la with urgentPtr := 0, normalPtr := 0 }
    ps := { s.ps with run := .running su, drainFlag := false }
    ic := IngestChecker.reset
    zs := { windows := ZoneScheduler.reset.windows, zones := s.commitZones su }
    vr := ViewResolver.reset
    rg := { held := [] }
    tb := Timebase.committed
    rw := { s.rw with
      queue := [], writeIndex := 0, readIndex := 0, overrun := false, discardSince := false } }

/-- The HOLD_STATE report of the HOLD_REQ line (R119). -/
def State.handPinHold (s : State) (su : Setup) (on : Bool) : State :=
  s.hand (.holdState (zoneSetOf su.enabledZones) on .pin (if on then some .hard else none))

/-- A COMMIT taken in CONFIG (R60 to R63, R117). -/
def State.commitSetup (s : State) : State :=
  let su := setupOfCopy s.ps.planCopy
  let ticket := s.command.ticket
  match s.validateSetup su with
  | some (reason, o) => s.hand (.setupResult ticket reason o)
  | none =>
    let s := (s.commitState su).hand (.setupResult ticket .ok 0)
    if s.holdReq then s.handPinHold su true else s

/-! ## STOP -/

/-- A zone at STOP: unset, NATIONAL, conceal count 0, holds kept (R64, R102, R125). -/
def Zone.stopped (x : Zone) : Zone :=
  { x with status := .national, conceal := 0, timeline := none }

/-- The WINDOW_STATE CANCELLED report of a PENDING or LIVE window at STOP (R64). -/
def State.reportStopped (s : State) (w : Fin 64) : State :=
  if (s.window w).status.open? then s.handWindowState w .cancelled none else s

/-- The Zone Scheduler in another state. -/
def State.withZones (s : State) (zs : ZoneScheduler) : State := { s with zs := zs }

/-- The Zone Scheduler at STOP: every window EMPTY, every zone unset (R64). -/
def ZoneScheduler.stopped (zs : ZoneScheduler) : ZoneScheduler :=
  { windows := ZoneScheduler.reset.windows, zones := zs.zones.map Zone.stopped }

/-- The windows and zones at STOP, the CANCELLED reports first (R64). -/
def State.stopZones (s : State) : State :=
  let s := (List.finRange 64).foldl State.reportStopped s
  s.withZones s.zs.stopped

/-- The run state becomes STOPPING, with the ticket of the STOP command (R64). -/
def PlanShadow.stopping (ps : PlanShadow) (su : Setup) (ticket : BitVec 16) : PlanShadow :=
  { ps with run := .stopping su, stopTicket := ticket }

/-- STOP taken in RUNNING, after its COMMAND_RESULT (R64, R152, R176). -/
def State.stopSetup (s : State) (su : Setup) : State :=
  let s := s.withPlan (s.ps.stopping su s.command.ticket)
  ((List.finRange 32).foldl (fun s f => s.stopFeed su f) s.stopZones).examine su

/-! ## The drain -/

/-- A ring write accepted or released that is waiting or in progress (R65). -/
def AccessKind.isRingWrite : AccessKind → Bool
  | .ring _ _ => true
  | .released => true
  | _ => false

/-- The four conditions of the drain (R65). -/
def State.drained (s : State) : Bool :=
  s.presented.all (fun x => !x.2.kind.isRingWrite) &&
    (List.finRange 32).all (fun f => (s.feed f).inFlight.isNone) &&
    s.rg.held.isEmpty &&
    s.rw.queue.isEmpty && s.rw.hand.isNone && (s.lane reportLane).idle?

/-- A read index write outstanding at an entry to CONFIG is overtaken by it (R192). -/
def ReadWrite.overtake : ReadWrite → ReadWrite
  | .outstanding => .overtaken
  | x => x

/-- A zone at entry to CONFIG (R102). -/
def Zone.configured (x : Zone) : Zone :=
  { x.stopped with commandHold := none, pinHold := false }

/-- Entry to CONFIG from STOPPING: every block takes its state (R66, R37, R97, R102, R145, R179,
R187). A reservation ends without a grant; what follows grants under CONFIG's arbitration. -/
def State.enterConfig (s : State) : State :=
  { s with
    la := { s.la with
      port := match s.la.port with
        | .reserved _ => .free
        | p => p
      urgentPtr := 0
      normalPtr := 0 }
    ps := { s.ps with run := .config, drainFlag := false }
    ic := IngestChecker.reset
    zs := { s.zs with zones := s.zs.zones.map Zone.configured }
    vr := ViewResolver.reset
    tb := { s.tb with pulseTimeout := none }
    rw := { s.rw with queue := [], hand := none, readWrite := s.rw.readWrite.overtake } }

/-- STOPPED has been discarded for a full ring, and entry to CONFIG waits for the access in progress
(R65, R194). -/
def State.entryDue (s : State) : Bool := s.isStopping && s.ps.drainFlag && s.rw.hand.isNone

/-- Entry to CONFIG at the completion of an access, when it waits for it (R65, R194). -/
def State.enterIfDue (s : State) : State := if s.entryDue then s.enterConfig else s

end Sys2Proof.Machine
end

