-- ==== Sys2Proof/Machine/Decide.lean ====
section
/-! DEFINITION. Deciding slots: the state steps of R103 (6.3 to 6.6), the source of a slot inside a window
(7.3), appending runs (7.4), the break list (7.5) and served content (7.6). -/

namespace Sys2Proof.Machine

/-! ## Appending runs (R140, R141) -/

/-- The source of a zone's open run. -/
def Timeline.openSource (t : Timeline) : RunSource := (t.log.getLast?.map (·.source)).getD .national

/-- The run a transition appends at `m`, with its copies of the window's pairs and conceal mode and an
absent break-list entry per pair (R123, R140). -/
def newRun (wr : WindowRec) (w : Fin 64) (m : SSN) (source : RunSource) (cause : RunCause) : Run :=
  { first := m
    source := source
    cause := cause
    window := some
      { window := w, pairs := wr.pairs, concealNational := wr.mode == 1
        breaks := wr.pairs.map (fun _ => none) } }

/-- Append a run at slot `m`, with its SWITCH report, or with a full log leave it out, with LOG_FULL
once per episode. The flag says whether the append was made (R140, R141). -/
def State.appendRun (s : State) (su : Setup) (z : Fin 24) (m : SSN) (source : RunSource)
    (w : Fin 64) (cause : RunCause) : State × Bool :=
  match (s.zone z).timeline with
  | none => (s, false)
  | some t =>
    if Config.logCapacity ≤ t.log.length then
      if t.logFull then (s, false)
      else
        ((s.updZone z (fun x => x.withTimeline { t with logFull := true })).hand
          (.logFull z m source cause t.openSource t.trail), false)
    else
      ((s.updZone z (fun x => x.withTimeline
          { t with log := t.log ++ [newRun (s.windowRec w) w m source cause], logFull := false })).hand
        (.switch z (su.zoneRegionByte z) (some w) m source t.openSource cause (t.log.length + 1)),
        true)

/-- A return to national: the run, then the zone's outcome and the window's move, if the append is made
(R104, R111 to R113, R139). -/
def State.returnNational (s : State) (su : Setup) (z : Fin 24) (m : SSN) (w : Fin 64)
    (cause : RunCause) (o : ZoneOutcome) : State × Bool :=
  match s.appendRun su z m .national w cause with
  | (s, true) => (s.outcomeAndSettle su w z o m, true)
  | (s, false) => (s, false)

/-! ## The state steps (R103) -/

/-- A window is due in zone `z` at slot `m` (R105). -/
def State.due (s : State) (su : Setup) (z : Fin 24) (m : SSN) (w : Fin 64) : Bool :=
  (s.window w).status.open? && (s.windowRec w).region.isSome &&
    (s.windowRec w).region == su.zoneRegion z && (s.window w).outcomes[z].isNone &&
    atOrBefore (ssnSub (s.windowRec w).start su.armLead) m

/-- The due window whose start is least (R105). -/
def State.dueWindow (s : State) (su : Setup) (z : Fin 24) (m : SSN) : Option (Fin 64) :=
  ((List.finRange 64).filter (s.due su z m)).foldl
    (fun best w =>
      match best with
      | none => some w
      | some b => if precedes (s.windowRec w).start (s.windowRec b).start then some w else some b)
    none

/-- The head is at or after an SSN; an unset head is not (R92). -/
def headReached (head : Option SSN) (n : SSN) : Bool :=
  match head with
  | some h => atOrBefore n h
  | none => false

/-- Some path of the region is LIVE with a head at or after the start (R106). -/
def State.contributionReady (s : State) (r : Fin 12) (start : SSN) : Bool :=
  [Path.a, Path.b].any (fun p => (s.path r p).health == .live && headReached (s.path r p).head start)

/-- Step 1, arming (R105, R106). The window of a zone that becomes ARMED goes LIVE with `settleArming`, or
with the MISSED of the same slot. -/
def State.armStep (s : State) (su : Setup) (z : Fin 24) (m : SSN) : State :=
  match (s.zone z).status with
  | .national =>
    match s.dueWindow su z m, su.zoneRegion z with
    | some w, some r =>
      if (s.zone z).held then s.outcomeAndSettle su w z .heldOff m
      else if s.contributionReady r (s.windowRec w).start then
        s.updZone z (fun x => { x with status := .armed w })
      else s.outcomeAndSettle su w z .declined m
    | _, _ => s
  | _ => s

/-- Outcome MISSED (R109). A window that arming at this slot moves to LIVE goes there after the outcome, and
then to CLOSED if the outcome was its last (R101, R131; log 34). -/
def State.giveMissed (s : State) (su : Setup) (z : Fin 24) (m : SSN) (w : Fin 64) : State :=
  ((s.giveOutcome w z .missed m).goLive w).settleWindow su w

/-- Step 2, missed entry (R109). -/
def State.missStep (s : State) (su : Setup) (z : Fin 24) (m : SSN) : State :=
  match (s.zone z).status with
  | .armed w =>
    if precedes (ssnAdd (s.windowRec w).start su.entryGrace) m then
      s.giveMissed su z m w
    else s
  | _ => s

/-- The set tag at a slot: the tag of the national entry and the regional tag wanted, when `m` is a
set-tag slot for the pairs (R133). -/
def State.setTag (s : State) (su : Setup) (z : Fin 24) (m : SSN) (pairs : List (Tag × Tag)) :
    Option (Entry × Tag) :=
  match s.usableEntry su .national z m with
  | some e => (pairedTag pairs e.tag).map (fun want => (e, want))
  | none => none

/-- The entry with which path `p` of region `r` serves `m` for zone `z` (R133). -/
def State.servesEntry (s : State) (su : Setup) (z : Fin 24) (m : SSN) (r : Fin 12) (p : Path)
    (want : Tag) : Option Entry :=
  (s.usableEntry su (.regional r p) z m).filter (fun e => e.tag == want)

/-- Path `p` serves `m` (R133). -/
def State.serves (s : State) (su : Setup) (z : Fin 24) (m : SSN) (r : Fin 12) (p : Path)
    (want : Tag) : Bool :=
  (s.servesEntry su z m r p want).isSome

/-- The paths that serve `m` with splice set: candidates for entry and resumption (R107, R138). -/
def State.candidates (s : State) (su : Setup) (z : Fin 24) (m : SSN) (r : Fin 12) (want : Tag) :
    List Path :=
  [Path.a, Path.b].filter (fun p => (s.servesEntry su z m r p want).any (·.splice))

/-- The preference among candidate paths: LIVE first, then the window's preferred path, then path A
(R108). -/
def State.preferPath (s : State) (r : Fin 12) (preferred : Path) (cands : List Path) :
    Option Path :=
  let live := cands.filter (fun p => (s.path r p).health == .live)
  let pool := if live.isEmpty then cands else live
  if pool.contains preferred then some preferred else pool.head?

/-- Step 3, entry (R107, R104). -/
def State.entryStep (s : State) (su : Setup) (z : Fin 24) (m : SSN) : State × Bool :=
  match (s.zone z).status, su.zoneRegion z with
  | .armed w, some r =>
    let wr := s.windowRec w
    if atOrBefore wr.start m then
      match s.setTag su z m wr.pairs with
      | some (_, want) =>
        match s.preferPath r wr.preferredPath (s.candidates su z m r want) with
        | some p =>
          match s.appendRun su z m (.regional p) w .entry with
          | (s, true) => (s.updZone z (fun x => { x with status := .regional w, conceal := 0 }), true)
          | (s, false) => (s, false)
        | none => (s, false)
      | none => (s, false)
    else (s, false)
  | _, _ => (s, false)

/-- The window that step 1 armed in zone `z` goes LIVE, its report after the SWITCH of an entry at the same
slot (R106, R101, R131; log 34), and after the LOG_FULL of one that a full log refused there, a place that R101
and R131 leave open (the model's choice, log 36). -/
def State.settleArming (s : State) (z : Fin 24) : State :=
  match (s.zone z).status with
  | .armed w => s.goLive w
  | .regional w => s.goLive w
  | _ => s

/-- Step 4, end (R110). -/
def State.endStep (s : State) (z : Fin 24) (m : SSN) : State :=
  match (s.zone z).status with
  | .regional w =>
    if atOrBefore (s.windowRec w).finish m then
      s.updZone z (fun x => { x with status := .returning w .windowEnd false })
    else s
  | _ => s

/-- The run cause of a return at a splice point (R111). -/
def ReturnCause.runCause : ReturnCause → RunCause
  | .windowEnd => .endReturn
  | .cancel => .cancelReturn
  | .hold => .holdReturn

/-- The outcome of a return (R111, R112). -/
def ReturnCause.outcome : ReturnCause → ZoneOutcome
  | .windowEnd => .completed
  | .cancel => .cancelled
  | .hold => .heldOff

/-- Steps 5 and 6: the hard return (R113), or the return at a splice point (R111), then the grace return
(R112). -/
def State.returnStep (s : State) (su : Setup) (z : Fin 24) (m : SSN) : State × Bool :=
  match (s.zone z).status with
  | .returning w _ true => s.returnNational su z m w .hold .heldOff
  | .returning w cause false =>
    let wr := s.windowRec w
    let splice :=
      match s.setTag su z m wr.pairs with
      | some (e, _) => e.splice
      | none => false
    if splice then s.returnNational su z m w cause.runCause cause.outcome
    else if precedes (ssnAdd wr.finish su.returnGrace) m then
      s.returnNational su z m w .graceReturn cause.outcome
    else (s, false)
  | _ => (s, false)

/-- Steps 1 to 3 of R103 and the move of the window they arm, and whether step 3 appended a run. The LOG_FULL
of an entry that a full log refuses stands before the WINDOW_STATE LIVE of the arming at the same slot, as the
SWITCH of an entry that is made does: R101 and R131 leave its place open (the model's choice, log 36). -/
def State.entrySteps (s : State) (su : Setup) (z : Fin 24) (m : SSN) : State × Bool :=
  let entered := ((s.armStep su z m).missStep su z m).entryStep su z m
  (entered.1.settleArming z, entered.2)

/-- The six state steps, and whether one of them appended a run at `m` (R103). -/
def State.stateSteps (s : State) (su : Setup) (z : Fin 24) (m : SSN) : State × Bool :=
  let entered := s.entrySteps su z m
  let returned := (entered.1.endStep z m).returnStep su z m
  (returned.1, entered.2 || returned.2)

/-! ## The source of a slot inside a window (7.3.1) -/

/-- The conceal count becomes 0: a regional cell is served (R136, R138). -/
def State.clearConceal (s : State) (z : Fin 24) : State :=
  s.updZone z (fun x => { x with conceal := 0 })

/-- A forced return (R139). -/
def State.forcedReturn (s : State) (su : Setup) (z : Fin 24) (m : SSN) (w : Fin 64) : State :=
  (s.returnNational su z m w .forcedReturn .aborted).1

/-- The conceal count rises by one (R137). -/
def State.countConceal (s : State) (z : Fin 24) : State :=
  s.updZone z (fun x => { x with conceal := x.conceal + 1 })

/-- What follows once the conceal count stands at `count` (R137). -/
def State.concealAt (s : State) (su : Setup) (z : Fin 24) (m : SSN) (w : Fin 64) (fresh : Bool)
    (count : Nat) : State :=
  if (s.windowRec w).limit < count then s.forcedReturn su z m w
  else if fresh then (s.appendRun su z m .conceal w .conceal).1
  else s

/-- Slot `m` is concealed (R137): `fresh` when the open run is REGIONAL with no append wanted at `m`,
so that a CONCEAL run is appended unless the limit is passed. -/
def State.concealSlot (s : State) (su : Setup) (z : Fin 24) (m : SSN) (w : Fin 64) (fresh : Bool) :
    State :=
  (s.countConceal z).concealAt su z m w fresh ((s.zone z).conceal + 1)

/-- A set-tag slot with the open run REGIONAL_p (R136). -/
def State.regionalSlot (s : State) (su : Setup) (z : Fin 24) (m : SSN) (w : Fin 64) (r : Fin 12)
    (p : Path) (want : Tag) : State :=
  if s.serves su z m r p want then s.clearConceal z
  else if s.serves su z m r (otherPath p) want then
    match s.appendRun su z m (.regional (otherPath p)) w .pathChange with
    | (s, true) => s.clearConceal z
    | (s, false) => s.concealSlot su z m w false
  else s.concealSlot su z m w true

/-- A set-tag slot with the open run CONCEAL (R138). -/
def State.concealedSlot (s : State) (su : Setup) (z : Fin 24) (m : SSN) (w : Fin 64) (r : Fin 12)
    (want : Tag) : State :=
  match s.preferPath r (s.windowRec w).preferredPath (s.candidates su z m r want) with
  | some p =>
    match s.appendRun su z m (.regional p) w .resume with
    | (s, true) => s.clearConceal z
    | (s, false) => s.concealSlot su z m w false
  | none => s.concealSlot su z m w false

/-- The source of `m` for a zone in effect with `w` (R133 to R138). -/
def State.inWindowSlot (s : State) (su : Setup) (z : Fin 24) (m : SSN) (w : Fin 64) : State :=
  if (s.windowRec w).limit < (s.zone z).conceal then s.forcedReturn su z m w
  else
    match s.setTag su z m (s.windowRec w).pairs, su.zoneRegion z, (s.zone z).timeline with
    | some (_, want), some r, some t =>
      match t.openSource with
      | .regional p => s.regionalSlot su z m w r p want
      | .conceal => s.concealedSlot su z m w r want
      | .national => s
    | _, _, _ => s

/-- The source of `m` after state steps that appended no run (R132, R134). -/
def State.chooseSource (s : State) (su : Setup) (z : Fin 24) (m : SSN) : State :=
  match (s.zone z).status with
  | .regional w => s.inWindowSlot su z m w
  | .returning w _ _ => s.inWindowSlot su z m w
  | _ => s

/-! ## Served content (R143) -/

/-- The cell served for an SSN: a null cell, the national cell, or the cell of a path patched to a
national tag. -/
inductive Served where
  | null
  | national (tag : Tag)
  | regional (path : Path) (tag : Tag)
  deriving DecidableEq, Repr

/-- The served-content rule: the run covering `n` and the directory entries for `n` (R143). -/
def State.servedContent (s : State) (su : Setup) (z : Fin 24) (run : Run) (n : SSN) : Served :=
  match s.usableEntry su .national z n with
  | none => .null
  | some e =>
    match run.window with
    | none => .national e.tag
    | some rw =>
      match pairedTag rw.pairs e.tag with
      | none => .national e.tag
      | some want =>
        match run.source with
        | .national => .national e.tag
        | .conceal => if rw.concealNational then .national e.tag else .null
        | .regional p =>
          match su.zoneRegion z with
          | some r => if s.serves su z n r p want then .regional p e.tag else .null
          | none => .null

/-! ## The break list (R142) -/

/-- The place of a national tag among the pairs. -/
def pairPlace (pairs : List (Tag × Tag)) (t : Tag) : Nat := pairs.findIdx (fun p => p.1 == t)

/-- The national tag of a served cell that is not a null cell. -/
def Served.tag? : Served → Option Tag
  | .null => none
  | .national t => some t
  | .regional _ t => some t

/-- The run with its break list brought up to date at slot `m` (R142). -/
def markBreak (run : Run) (served : Served) (m : SSN) : Run :=
  match run.window, served.tag? with
  | some rw, some t =>
    if run.cause = .pathChange ∨ (pairedTag rw.pairs t).isNone then run
    else if (rw.breaks[pairPlace rw.pairs t]?).join.isSome then run
    else
      { run with window := some { rw with breaks := rw.breaks.set (pairPlace rw.pairs t) (some m) } }
  | _, _ => run

/-- The log with its open run changed. -/
def mapOpenRun (f : Run → Run) : List Run → List Run
  | [] => []
  | [r] => [f r]
  | r :: rest => r :: mapOpenRun f rest

/-- The served cell carries BREAK by the run's break list: the entry for its national tag is present
and equal to `n` (R6, R142, R159). -/
def Run.breakFalls (run : Run) (t : Tag) (n : SSN) : Bool :=
  match run.window with
  | some rw =>
    run.cause != .pathChange && (pairedTag rw.pairs t).isSome &&
      (rw.breaks[pairPlace rw.pairs t]?).join == some n
  | none => false

/-- Steps 3 and 4 of R131: the break list of the run that covers `m`, then the horizon. -/
def State.closeSlot (s : State) (su : Setup) (z : Fin 24) (m : SSN) : State :=
  match (s.zone z).timeline with
  | none => s
  | some t =>
    s.updZone z (fun x => x.withTimeline
      { t with
        log := mapOpenRun (fun r => markBreak r (s.servedContent su z r m) m) t.log
        horizon := m })

/-- Steps 2 to 4 of R131, after state steps that did or did not append a run at `m`. -/
def State.settleSlot (s : State) (su : Setup) (z : Fin 24) (m : SSN) (appended : Bool) : State :=
  (if appended then s else s.chooseSource su z m).closeSlot su z m

/-- Decide one slot (R131). -/
def State.decideSlot (s : State) (su : Setup) (z : Fin 24) (m : SSN) : State :=
  (s.stateSteps su z m).1.settleSlot su z m (s.stateSteps su z m).2

/-- Decide the next `k` slots of a zone. -/
def State.decideSlots (su : Setup) (z : Fin 24) : Nat → State → State
  | 0, s => s
  | k + 1, s =>
    match (s.zone z).timeline with
    | none => s
    | some t => State.decideSlots su z k (s.decideSlot su z (t.horizon + 1))

/-- Decide zone `z` up to `n`, when `n` is after its horizon (R131). -/
def State.decideTo (s : State) (su : Setup) (z : Fin 24) (n : SSN) : State :=
  match (s.zone z).timeline with
  | none => s
  | some t =>
    if precedes t.horizon n then State.decideSlots su z (distance t.horizon n) s else s

end Sys2Proof.Machine
end

