-- ==== Sys2Proof/Machine/View.lean ====
section
/-! DEFINITION. Taking and serving a view read (8.4 to 8.6) and its completion (8.7). -/

namespace Sys2Proof.Machine

/-- What a view read of slot `k` names: an SSN and whether it is a re-read, or the reason it is refused
(R154). -/
inductive ViewRead where
  | serve (n : SSN) (reread : Bool)
  | refused (reason : RefusalReason)
  deriving DecidableEq, Repr

/-- Interpret slot `k` against the feed's next (R154). -/
def Setup.interpretRead (su : Setup) (p : Position) (k : Nat) : ViewRead :=
  let d := (k + su.nr - p.next.toNat % su.nr) % su.nr
  if d = 0 then .serve p.next false
  else if d = su.nr - 1 then if p.readDone then .serve p.last true else .refused .sequence
  else if d ≤ su.jumpLimit then .serve (ssnAdd p.next d) false
  else .refused .jump

/-- The other attached feeds of a zone whose last precedes `n` − SPREAD_MAX (R156). -/
def State.laggards (s : State) (su : Setup) (z : Fin 24) (f : Fin 32) (n : SSN) : List (Fin 32) :=
  (s.attachedFeeds su z).filter (fun g =>
    g != f &&
      match (s.feed g).status.position? with
      | some p => precedes p.last (ssnSub n su.spreadMax)
      | none => false)

/-- The spread rule (R156). -/
def State.spreadRule (s : State) (su : Setup) (z : Fin 24) (f : Fin 32) (n : SSN) : State :=
  match (s.zone z).timeline with
  | some t =>
    if su.spreadMax < distance t.trail n then s.slipAll su .spread (s.laggards su z f n) else s
  | none => s

/-- Step 1 of R157: a read past the horizon applies the spread rule and decides the slots. -/
def State.prepareRead (s : State) (su : Setup) (z : Fin 24) (f : Fin 32) (n : SSN)
    (reread : Bool) : State :=
  match (s.zone z).timeline with
  | some t =>
    if !reread && precedes t.horizon n then (s.spreadRule su z f n).decideTo su z n else s
  | none => s

/-- Step 2 of R157: the feed's next moves on, a re-read apart. -/
def State.moveNext (s : State) (f : Fin 32) (n : SSN) (reread : Bool) : State :=
  match (s.feed f).status with
  | .attached p =>
    if reread then s else s.setFeed f { s.feed f with status := .attached { p with next := n + 1 } }
  | _ => s

/-- The run that covers `n` in zone `z` (R144). -/
def State.queryRun (s : State) (z : Fin 24) (n : SSN) : Option Run :=
  match (s.zone z).timeline with
  | some t => t.query n
  | none => none

/-- The content of `n` for zone `z`, with whether BREAK falls on it: the run that covers `n` and the
entries as they stand (R143, R144). In every state that a read is served in some run covers `n` (R157); else
the value is the model's (log 20). -/
def State.contentFor (s : State) (su : Setup) (z : Fin 24) (n : SSN) : Served × Bool :=
  match s.queryRun z n with
  | none => (.null, false)
  | some run =>
    let served := s.servedContent su z run n
    (served, (served.tag?.map (fun t => run.breakFalls t n)).getD false)

/-- The ring a served cell comes from, and the tag it is patched to (R159). -/
def Served.origin (su : Setup) (z : Fin 24) : Served → Option (RingId × Option Tag)
  | .null => none
  | .national _ => some (.national, none)
  | .regional p t => (su.zoneRegion z).map (fun r => (.regional r p, some t))

/-- A ring cell: the in-flight read is set up and the redirected read presented (R159). -/
def State.redirect (s : State) (su : Setup) (l : Fin 8) (f : Fin 32) (n : SSN) (link : Bool)
    (ring : RingId) (tag : Option Tag) (setBreak : Bool) : State :=
  let addr : Addr := BitVec.ofNat 36 (su.slotAddr ring (su.slotOf ring n))
  (s.setFeed f { s.feed f with
    inFlight := some
      { ssn := n, ring := ring, addr := addr, patchTag := tag, setBreak := setBreak
        counting := true } }).present (ext l)
    { req := { addr := addr, body := .read 256, link := link }, kind := .view f }

/-- Serve a view read that names `n` (R157 to R159): a ring read is presented and meets the port (R24), and
the examination of the held list is the last part of the act (R172), after which what it releases meets the port
(log 12). A null cell completes the read: the feed and the trail, the examination of the held list, then the
response (R158, R161, R19), with which the released writes meet the port (log 11). -/
def State.serveRead (s : State) (su : Setup) (l : Fin 8) (f : Fin 32) (z : Fin 24) (r : Request)
    (n : SSN) (reread : Bool) : State :=
  let s1 := (s.prepareRead su z f n reread).moveNext f n reread
  let content := s1.contentFor su z n
  match content.1.origin su z with
  | some (ring, tag) =>
    (s.examineAfter (s1.redirect su l f n r.link ring tag content.2).settlePort su).settlePort
  | none =>
    (s.examineAfter (s1.completeFeed su f n) su).answer l .okay (nullCell n)

/-- Take a view read (R153). -/
def State.takeViewRead (s : State) (su : Setup) (l : Fin 8) (f : Fin 32) (r : Request) : State :=
  if !s.isRunning then s.refuse l r .stopping 0
  else if r.body.length ≠ 256 then s.refuse l r .viewForm 0
  else
    match (s.feed f).status with
    | .detached => s.refuse l r .feedDetached 0
    | .slipped => s.refuse l r .feedSlipped 0
    | .attached p =>
      match su.interpretRead p ((r.base - su.viewBaseOf f) / 256), su.feedZone f with
      | .serve n reread, some z => s.serveRead su l f z r n reread
      | .refused reason, _ => s.refuse l r reason p.next
      | .serve _ _, none => s.refuse l r .feedDetached 0

/-- The data of a redirected view read answered OKAY: the cell, patched (R160). -/
def State.servedCell (s : State) (rd : InFlight) : List Byte :=
  patchCell (readBytes s.mem rd.addr.toNat 256) rd.patchTag rd.setBreak

/-- A redirected view read completes: the in-flight read is removed; when it counts the feed moves on
and its zone's trail is recomputed; the held list is examined (R161 to R163, R172). -/
def State.completeViewRead (s : State) (su : Setup) (f : Fin 32) (rd : InFlight) : State :=
  let s := s.setFeed f { s.feed f with inFlight := none }
  (if rd.counting then s.completeFeed su f rd.ssn else s).examine su

end Sys2Proof.Machine
end

