-- ==== Sys2Proof/Machine/Lanes.lean ====
section
/-! DEFINITION. Taking a request at a lane port: form check, classification and rights (chapter 3), routing to
the owning block (R50); and delivering the response of a completed access (R19, R33, R34). -/

namespace Sys2Proof.Machine

/-! ## Classification (R43) -/

/-- A view aperture. -/
def Area.isView : Area → Bool
  | .view _ => true
  | _ => false

/-- The area of an address among extents, PLAIN when none holds it (R42). -/
def areaAmong (extents : List Extent) (a : Nat) : Area :=
  match extents.find? (fun e => e.has a) with
  | some e => e.area
  | none => .plain

/-- Classify an address by the run state (R43). -/
def State.classify (s : State) (a : Nat) : Area :=
  if s.planExtent.has a then .plan
  else
    match s.ps.run with
    | .config => .plain
    | .running su => areaAmong su.areaMap a
    | .stopping su => areaAmong (su.areaMap.filter (·.area.isView)) a

/-! ## Rights (R46 to R49) -/

/-- The class of an external lane: CONTROL in CONFIG, else from the lane table in force (R46). -/
def State.laneClass (s : State) (l : Fin 8) : LaneClass :=
  match s.setup with
  | some su => (su.classOf l).getD .none
  | none => .control

/-- What a CONTROL lane may do (R48). -/
def controlMay : Area → Direction → Bool
  | .plan, _ => true
  | .plain, _ => true
  | .report, .read => true
  | .national, .read => true
  | .regional _ _, .read => true
  | _, _ => false

/-- What an INGEST lane may do (R48). -/
def Setup.ingestMay (su : Setup) (l : Fin 8) : Area → Direction → Bool
  | .plain, _ => true
  | .national, .read => true
  | .regional _ _, .read => true
  | .national, .write => su.natLane == l.val
  | .regional r p, .write => su.pathLane r p == l.val
  | _, _ => false

/-- What an EMISSION lane may do (R48). -/
def Setup.emissionMay (su : Setup) (l : Fin 8) : Area → Direction → Bool
  | .plain, _ => true
  | .view f, .read => su.feedLane f == some l
  | _, _ => false

/-- The rights of a lane (R48, R49); in CONFIG those of CONTROL. -/
def State.may (s : State) (l : Fin 8) (area : Area) (dir : Direction) : Bool :=
  match s.setup with
  | none => controlMay area dir
  | some su =>
    match s.laneClass l with
    | .none => false
    | .control => controlMay area dir
    | .ingest => su.ingestMay l area dir
    | .emission => su.emissionMay l area dir

/-! ## Routing (R50) -/

/-- A ring write at the Ingest Checker: refused, held, or accepted (R81). -/
def State.takeRingWrite (s : State) (su : Setup) (l : Fin 8) (ring : RingId) (r : Request) : State :=
  let k := (r.base - su.ringBase ring) / 256
  match s.checkRingWrite su ring k r.body.data with
  | .refused reason => s.refuse l r reason (refusedWriteSsn reason r.body.data)
  | .heldBack old => ((s.holdWrite l ring k old r).endReservation (ext l)).settlePort
  | .accepted => (s.acceptRingWrite su l ring k r).settlePort

/-- A plain access, untouched (R50). -/
def State.takePlain (s : State) (l : Fin 8) (r : Request) : State :=
  (s.present (ext l) { req := r, kind := .plain }).settlePort

/-- A permitted request goes to the block that owns the area (R50). -/
def State.route (s : State) (l : Fin 8) (r : Request) (area : Area) : State :=
  match area, r.body, s.setup with
  | .plan, .write _, _ => s.takePlanWrite l r
  | .national, .write _, some su => s.takeRingWrite su l .national r
  | .regional rg p, .write _, some su => s.takeRingWrite su l (.regional rg p) r
  | .view f, .read _, some su => s.takeViewRead su l f r
  | _, _, _ => s.takePlain l r

/-- A lane port takes a request: form check, class, rights, routing (R18, R20, R44, R47 to R50). -/
def State.takeRequest (s : State) (l : Fin 8) (r : Request) : State :=
  let s := s.setLane (ext l) (.taken r)
  let area := s.classify r.base
  if !r.formOk then s.refuse l r .form 0
  else if s.laneClass l == .none then s.refuse l r .laneOff 0
  else if !s.may l area r.body.dir then s.refuse l r .rights 0
  else s.route l r area

/-- The port takes the requests it kept waiting, in order, as long as none is outstanding (R18). -/
def State.takeKept (l : Fin 8) : List Request → State → State
  | [], s => s.setKept l []
  | r :: rest, s =>
    if (s.lane (ext l)).idle? then State.takeKept l rest (s.takeRequest l r)
    else s.setKept l (r :: rest)

/-- A master presents a request: it is taken when the port holds none, else kept waiting (R18). -/
def State.presentRequest (s : State) (l : Fin 8) (r : Request) : State :=
  State.takeKept l (s.la.kept[l] ++ [r]) s

/-- The request a LANE_REQUEST command makes; the data of a WRITE is as long as its length (log 23). -/
def makeRequest (dir : Direction) (addr : Addr) (length : Nat) (link : Bool) (data : List Byte) :
    Request :=
  { addr := addr
    body := match dir with
      | .read => .read length
      | .write => .write (padTo length data)
    link := link }

/-! ## Delivering the response of a completed access -/

/-- The status of an answered access (R33, R34). -/
def answerStatus : MemAnswer → Status
  | .okay => .okay
  | .error => .fault

/-- The MEMORY_FAULT report of an external access answered ERROR, naming the address at the port
(R34). -/
def State.reportFault (s : State) (l : Fin 8) (a : Access) : MemAnswer → State
  | .okay => s
  | .error => s.hand (.memoryFault l a.req.body.dir a.req.addr)

/-- The end of an external access, after the owning block has taken the completion: the response, an
entry to CONFIG that waits for it, then the port, then the requests kept waiting at the lane port
(R18, R19, R27, R33, R65). -/
def State.finish (s : State) (l : Fin 8) (g : Grant) (answer : MemAnswer) (data : List Byte) :
    State :=
  let s := ((s.setLane (ext l) .idle).respond l { status := answerStatus answer, data := data })
  let s := s.enterIfDue.closePort g answer
  State.takeKept l s.la.kept[l] s

/-- The access in progress, when it is an external lane's. -/
def State.externalInProgress (s : State) : Option (Fin 8 × Grant × Access) :=
  match s.inProgress with
  | some (g, a) => (externalLane g.lane).map (fun l => (l, g, a))
  | none => none

end Sys2Proof.Machine
end

