-- ==== Sys2Proof/Machine/ReportRing.lean ====
section
/-! DEFINITION. The Report Writer at the report lane: taking records (R189, R191), their completions (R189,
R190) and STOPPED (R194). -/

namespace Sys2Proof.Machine

/-- Present a report-lane WRITE, LINK clear (R21). -/
def State.presentReport (s : State) (a : Nat) (data : List Byte) (kind : AccessKind) : State :=
  s.present reportLane
    { req := { addr := BitVec.ofNat 36 a, body := .write data, link := false }, kind := kind }

/-- The address of a report ring slot (R187). -/
def Setup.reportSlot (su : Setup) (i : Nat) : Nat := su.reportBase + 32 * i

/-- Take a record as the record in hand, the rest staying queued. -/
def State.takeInHand (s : State) (r : Record) (rest : List Record) : State :=
  { s with rw := { s.rw with queue := rest, hand := some r } }

/-- Write a record taken in RUNNING or STOPPING at the ring slot of the write index (R189). -/
def State.writeRecord (s : State) (su : Setup) (r : Record) (rest : List Record) : State :=
  (s.takeInHand r rest).presentReport (su.reportSlot s.rw.writeIndex) r.bytes .record

/-- Write a record taken in CONFIG to the standby record (R191). -/
def State.writeStandby (s : State) (r : Record) (rest : List Record) : State :=
  (s.takeInHand r rest).presentReport (s.planBase + standbyRecord) r.bytes .standby

/-- With a full ring every queued record is taken and discarded in turn (R189). -/
def State.discardQueue (s : State) : State :=
  { s.loseRecord with rw := { s.loseRecord.rw with queue := [] } }

/-- Take the oldest record of a queue that is not empty, the report lane being idle (R188, R189,
R191). -/
def State.takeReport (s : State) : State :=
  match s.rw.queue with
  | [] => s
  | r :: rest =>
    match s.setup with
    | none => s.writeStandby r rest
    | some su => if s.ringFull su then s.discardQueue else s.writeRecord su r rest

/-- The report lane is idle and no record is in hand (R188). -/
def State.reportLaneIdle (s : State) : Bool :=
  s.rw.hand.isNone && (s.lane reportLane).idle?

/-- The record in hand becomes none. -/
def State.dropHand (s : State) : State := { s with rw := { s.rw with hand := none } }

/-- A record's write completed OKAY: the write index advances and the index word's write is
presented (R189). -/
def State.recordLanded (s : State) (su : Setup) : State :=
  let s := { s with
    rw := { s.rw with writeIndex := (s.rw.writeIndex + 1) % su.reportSize } }
  s.presentReport (s.planBase + writeIndexWord) (indexWordBytes s.rw.writeIndex s.rw.overrun)
    .indexWord

/-- A record's write completed ERROR: the record is lost; when it was STOPPED the part enters CONFIG
(R190, R194). -/
def State.recordFailed (s : State) : State :=
  let s := s.loseRecord.dropHand
  if s.isStopping && s.ps.drainFlag then s.enterConfig else s

/-- The index word's write completed: the record in hand is released; when it was STOPPED the part
enters CONFIG (R189, R190, R194). -/
def State.indexWordDone (s : State) : State :=
  let s := s.dropHand
  if s.isStopping && s.ps.drainFlag then s.enterConfig else s

/-- STOPPED is handed over and taken at once: written, or discarded with a full ring, after which the
part enters CONFIG unless an access holds the port (R65, R194). -/
def State.endDrain (s : State) (su : Setup) : State :=
  let stopped : Record :=
    { tick := s.tb.tickCount, report := .stopped s.ps.stopTicket s.rw.overrun }
  let s := { s with ps := { s.ps with drainFlag := true } }
  if s.ringFull su then
    match s.la.port with
    | .busy _ => s.loseRecord
    | _ => s.loseRecord.enterConfig.settlePort
  else (s.writeRecord su stopped []).settlePort

end Sys2Proof.Machine
end

