-- ==== Sys2Proof/Machine/Completions.lean ====
section
/-! DEFINITION. Completions at the memory port: plain accesses, plan writes, read index writes, ring writes,
view reads, report records and index words (2.6, 4.2, 5.3, 8.7, 11.3 to 11.5). A command whose
access is not the one in progress changes nothing (log 1). -/

namespace Sys2Proof.Machine

/-! ## External accesses -/

/-- The data a completed READ returns: what memory holds, or every byte 0xFF (R33, R34). -/
def State.readData (s : State) (r : Request) : MemAnswer → List Byte
  | .okay =>
    match r.body with
    | .read n => readBytes s.mem r.base n
    | .write _ => []
  | .error => r.body.blank

/-- The start of every external completion: memory as the answer leaves it, and the MEMORY_FAULT report
of an ERROR (R34; log 31). -/
def State.answered (s : State) (l : Fin 8) (a : Access) (answer : MemAnswer) : State :=
  (s.settleMemory a.req answer).reportFault l a answer

/-- A plain access completes straight to the lane (R33, R34). -/
def State.completePlain (s : State) (l : Fin 8) (g : Grant) (a : Access) (answer : MemAnswer) :
    State :=
  (s.answered l a answer).finish l g answer (s.readData a.req answer)

/-- PLAIN_ACCESS_COMPLETE (R33, R34). -/
def execPlainAccessComplete (answer : MemAnswer) (s : State) : Host.Outcome State Fault Refusal :=
  match s.externalInProgress with
  | some (l, g, a) =>
    match a.kind with
    | .plain => .next (s.completePlain l g a answer)
    | _ => .next s
  | none => .next s

/-! ## Plan writes -/

/-- The rows of the table a plan write's completion with OKAY belongs to, by what it covers (log 2). -/
inductive PlanRow where
  | plain
  | submit
  | command (code : Nat)
  | badCommand
  deriving DecidableEq, Repr

/-- The row of a plan write, told from the copies after it has landed in them (R55, R67). A command word
with code NONE takes no command. -/
def State.planRow (s : State) (r : Request) : PlanRow :=
  let t := s.copyLanded r
  if s.covers r commandRecord 8 then
    if t.command.code = 0 then .plain
    else if t.command.code ≤ 7 then .command t.command.code
    else .badCommand
  else if (t.submittedRecords r).isEmpty then .plain
  else .submit

/-- The completion with OKAY of a plan write: memory, the copies, the action, then the response
(R19, R55). -/
def State.completePlan (s : State) (l : Fin 8) (g : Grant) (a : Access) (act : State → State) :
    State :=
  (act ((s.answered l a .okay).copyLanded a.req)).finish l g .okay []

/-- The completion with ERROR of a plan write: the words it covers become unknown (R56). -/
def State.failPlan (s : State) (l : Fin 8) (g : Grant) (a : Access) : State :=
  ((s.answered l a .error).copyUnsettled a.req).finish l g .error []

/-- The plan write in progress that completes with OKAY as the given row, with what it does. -/
def State.planAct (s : State) (row : PlanRow) (act : Fin 8 → Request → State → State) : State :=
  match s.externalInProgress with
  | some (l, g, a) =>
    match a.kind with
    | .plan false => if s.planRow a.req = row then s.completePlan l g a (act l a.req) else s
    | _ => s
  | none => s

/-- The plan write in progress, not a read index write, completes with ERROR. -/
def State.planFault (s : State) : State :=
  match s.externalInProgress with
  | some (l, g, a) =>
    match a.kind with
    | .plan false => s.failPlan l g a
    | _ => s
  | none => s

/-- PLAN_WRITE_COMPLETE (R55, R56, R58). -/
def execPlanWriteComplete (answer : MemAnswer) (s : State) : Host.Outcome State Fault Refusal :=
  match answer with
  | .okay => .next (s.planAct .plain (fun _ _ s => s))
  | .error => .next s.planFault

/-! ## Read index writes -/

/-- The Report Writer at the completion of a read index write: the copy takes the new index, the flag
clears when it may; not when the part has entered CONFIG since, and not with ERROR (R192). -/
def State.takeReadIndex (s : State) (off : Nat) (data : List Byte) (answer : MemAnswer) : State :=
  if answer = .okay ∧ s.rw.readWrite = .outstanding then
    { s with rw := { s.rw with
        readIndex := readIndexValue off data
        overrun := s.rw.overrun && !(clearOverrunBit off data && !s.rw.discardSince)
        readWrite := .none } }
  else { s with rw := { s.rw with readWrite := .none } }

/-- A read index write completes. It covers no byte that the copies hold, since it lies in one 256-byte
block with the read index word (R20, R39). -/
def State.completeReadIndex (s : State) (l : Fin 8) (g : Grant) (a : Access) (answer : MemAnswer) :
    State :=
  ((s.answered l a answer).takeReadIndex (s.planOffset a.req) a.req.body.data answer).finish l g
    answer []

/-- READ_INDEX_WRITE (R192). -/
def execReadIndexWrite (answer : MemAnswer) (s : State) : Host.Outcome State Fault Refusal :=
  match s.externalInProgress with
  | some (l, g, a) =>
    match a.kind with
    | .plan true => .next (s.completeReadIndex l g a answer)
    | _ => .next s
  | none => .next s

/-! ## Ring writes -/

/-- An accepted ring write completes; in STOPPING it settles its entry and path all the same (R87,
R98). -/
def State.completeRing (s : State) (su : Setup) (l : Fin 8) (g : Grant) (a : Access) (ring : RingId)
    (slot : Nat) (answer : MemAnswer) : State :=
  ((s.answered l a answer).completeRingWrite su ring slot answer).finish l g answer []

/-- RING_WRITE_COMPLETE (R87); a write released in STOPPING settles no entry and no path (R86, R173). -/
def execRingWriteComplete (answer : MemAnswer) (s : State) : Host.Outcome State Fault Refusal :=
  match s.externalInProgress, s.setup with
  | some (l, g, a), some su =>
    match a.kind with
    | .ring ring slot => .next (s.completeRing su l g a ring slot answer)
    | .released => .next ((s.answered l a answer).finish l g answer [])
    | _ => .next s
  | _, _ => .next s

/-! ## View reads -/

/-- The data of a redirected view read: the patched cell, or every byte 0xFF (R34, R160, R162). -/
def State.viewData (s : State) (rd : InFlight) (r : Request) : MemAnswer → List Byte
  | .okay => s.servedCell rd
  | .error => r.body.blank

/-- A redirected view read completes (R161 to R163). -/
def State.completeView (s : State) (su : Setup) (l : Fin 8) (g : Grant) (a : Access) (f : Fin 32)
    (rd : InFlight) (answer : MemAnswer) : State :=
  ((s.answered l a answer).completeViewRead su f rd).finish l g answer (s.viewData rd a.req answer)

/-- VIEW_READ_COMPLETE (R161 to R163). -/
def execViewReadComplete (answer : MemAnswer) (s : State) : Host.Outcome State Fault Refusal :=
  match s.externalInProgress, s.setup with
  | some (l, g, a), some su =>
    match a.kind with
    | .view f =>
      match (s.feed f).inFlight with
      | some rd => .next (s.completeView su l g a f rd answer)
      | none => .next s
    | _ => .next s
  | _, _ => .next s

/-! ## Report-lane writes -/

/-- The report-lane access in progress. -/
def State.reportInProgress (s : State) : Option (Grant × Access) :=
  match s.inProgress with
  | some (g, a) => if g.lane = reportLane then some (g, a) else none
  | none => none

/-- A standby write completes: the record in hand becomes none, nothing else changes (R190, R191). -/
def State.completeStandby (s : State) (g : Grant) (a : Access) (answer : MemAnswer) : State :=
  (((s.settleMemory a.req answer).setLane reportLane .idle).dropHand).closePort g answer

/-- What a ring record's completion does: with OKAY the index advances and the index word is presented,
with ERROR the record is lost (R189, R190). -/
def State.recordAnswered (s : State) (su : Setup) : MemAnswer → State
  | .okay => s.recordLanded su
  | .error => s.recordFailed

/-- A ring record's write completes. -/
def State.completeRecord (s : State) (su : Setup) (g : Grant) (a : Access) (answer : MemAnswer) :
    State :=
  (((s.settleMemory a.req answer).setLane reportLane .idle).recordAnswered su answer).closePort g
    answer

/-- RECORD_WRITE_COMPLETE (R189 to R191, R194). -/
def execRecordWriteComplete (answer : MemAnswer) (s : State) : Host.Outcome State Fault Refusal :=
  match s.reportInProgress with
  | some (g, a) =>
    match a.kind, s.setup with
    | .standby, _ => .next (s.completeStandby g a answer)
    | .record, some su => .next (s.completeRecord su g a answer)
    | _, _ => .next s
  | none => .next s

/-- An index word's write completes (R189, R190, R194). -/
def State.completeIndexWord (s : State) (g : Grant) (a : Access) (answer : MemAnswer) : State :=
  (((s.settleMemory a.req answer).setLane reportLane .idle).indexWordDone).closePort g answer

/-- WRITE_INDEX_WORD_COMPLETE (R189, R190, R194). -/
def execWriteIndexWordComplete (answer : MemAnswer) (s : State) :
    Host.Outcome State Fault Refusal :=
  match s.reportInProgress with
  | some (g, a) =>
    match a.kind with
    | .indexWord => .next (s.completeIndexWord g a answer)
    | _ => .next s
  | none => .next s

end Sys2Proof.Machine
end

