-- ==== Sys2Proof/Machine/Commands.lean ====
section
/-! DEFINITION. What a completed plan write is acted on for: submits (4.7) and the seven commands (4.6), each
taken at the completion with OKAY of the write that covers it (R55). -/

namespace Sys2Proof.Machine

/-! ## Command results (R67) -/

/-- The COMMAND_RESULT report of a command: the argument for CANCEL, ATTACH and DETACH, the start SSN for
ATTACH (R67, section 12.7). -/
def State.handResult (s : State) (c : CommandRec) (result : CommandResult) : State :=
  s.hand (.commandResult (byte c.code) c.ticket
    (if c.code = 3 ∨ c.code = 6 ∨ c.code = 7 then c.arg1 else 0)
    (if c.code = 6 then c.arg2 else 0) result)

/-! ## Submit -/

/-- SUBMIT (R72 to R76). -/
def execSubmit (s : State) : Host.Outcome State Fault Refusal :=
  .next (s.planAct .submit (fun l r s => s.submitRecords (ext l) r))

/-! ## Commit and stop -/

/-- What a COMMIT does (R60, R67): allowed in CONFIG alone. -/
def State.doCommit (s : State) : State :=
  match s.ps.run with
  | .config => s.commitSetup
  | _ => s.handResult s.command .wrongState

/-- COMMIT (R60 to R63). -/
def execCommit (s : State) : Host.Outcome State Fault Refusal :=
  .next (s.planAct (.command 1) (fun _ _ s => s.doCommit))

/-- A command that is allowed in RUNNING alone (R67 step 3): its effect there, given the setup in force and
the command record, else COMMAND_RESULT WRONG_STATE. -/
def State.inRunning (s : State) (act : Setup → CommandRec → State) : State :=
  match s.ps.run with
  | .running su => act su s.command
  | _ => s.handResult s.command .wrongState

/-- What a STOP does in RUNNING (R64): COMMAND_RESULT ACCEPTED, then STOPPING. -/
def State.doStop (s : State) (su : Setup) (c : CommandRec) : State :=
  (s.handResult c .accepted).stopSetup su

/-- STOP (R64). -/
def execStop (s : State) : Host.Outcome State Fault Refusal :=
  .next (s.planAct (.command 2) (fun _ _ s => s.inRunning s.doStop))

/-! ## Cancel -/

/-- The result of a CANCEL of a window in a given state (R69). -/
def cancelResult : WindowStatus → CommandResult
  | .pending => .accepted
  | .live => .accepted
  | .closed => .tooLate
  | .empty => .noWindow
  | .rejected => .noWindow

/-- What a CANCEL does in RUNNING (R69, R114). -/
def State.doCancel (s : State) (su : Setup) (c : CommandRec) : State :=
  match toFin? 64 c.arg1.toNat with
  | none => s.handResult c .badArgument
  | some w =>
    let result := cancelResult (s.window w).status
    let s := s.handResult c result
    if result = .accepted then s.cancelWindow su w else s

/-- CANCEL (R69, R114). -/
def execCancel (s : State) : Host.Outcome State Fault Refusal :=
  .next (s.planAct (.command 3) (fun _ _ s => s.inRunning s.doCancel))

/-! ## Holds -/

/-- The zones of a zone set. -/
def zonesIn (zones : ZoneSet) : List (Fin 24) := (List.finRange 24).filter (inZoneSet zones)

/-- The zone set of a HOLD or RELEASE is in range: it names a zone, none above 23 and none that is not
enabled (R70). -/
def Setup.zoneSetOk (su : Setup) (zones : ZoneSet) : Bool :=
  decide (zones ≠ 0) && decide (zones.toNat < 2 ^ 24) &&
    (zonesIn zones).all (fun z => su.zones[z].enabled)

/-- The kind of a HOLD, `none` for a value that is neither HARD nor SOFT (R70, section 12.6). -/
def holdKindOf (arg2 : BitVec 32) : Option HoldKind :=
  if arg2 = 1 then some .hard else if arg2 = 2 then some .soft else none

/-- A zone whose command hold is turned on with a kind (R115). -/
def Zone.commandHeld (kind : HoldKind) (x : Zone) : Zone :=
  { x with commandHold := some (strongerHold x.commandHold kind) }

/-- A zone whose command hold is turned off (R118). -/
def Zone.commandReleased (x : Zone) : Zone := { x with commandHold := none }

/-- What a valid HOLD does (R115, R116, R119). -/
def State.holdZones (s : State) (su : Setup) (zones : ZoneSet) (kind : HoldKind) : State :=
  ((s.updZones (zonesIn zones) (Zone.commandHeld kind)).hand
    (.holdState zones true .command (some kind))).takeHolds su kind (zonesIn zones)

/-- What a HOLD does in RUNNING (R70, R116). -/
def State.doHold (s : State) (su : Setup) (c : CommandRec) : State :=
  match holdKindOf c.arg2 with
  | none => s.handResult c .badArgument
  | some kind =>
    if su.zoneSetOk c.arg1 then (s.handResult c .accepted).holdZones su c.arg1 kind
    else s.handResult c .badArgument

/-- HOLD (R70, R116). -/
def execHold (s : State) : Host.Outcome State Fault Refusal :=
  .next (s.planAct (.command 4) (fun _ _ s => s.inRunning s.doHold))

/-- What a RELEASE does in RUNNING (R70, R118, R119). -/
def State.doRelease (s : State) (su : Setup) (c : CommandRec) : State :=
  if su.zoneSetOk c.arg1 then
    ((s.handResult c .accepted).updZones (zonesIn c.arg1) Zone.commandReleased).hand
      (.holdState c.arg1 false .command none)
  else s.handResult c .badArgument

/-- RELEASE (R70, R118). -/
def execRelease (s : State) : Host.Outcome State Fault Refusal :=
  .next (s.planAct (.command 5) (fun _ _ s => s.inRunning s.doRelease))

/-! ## Attach and detach -/

/-- The feed an ATTACH or DETACH names, when it is in range (R71). -/
def Setup.commandFeed (su : Setup) (c : CommandRec) : Option (Fin 32) :=
  (toFin? 32 c.arg1.toNat).filter (fun f => su.feeds[f].enabled)

/-- What an ATTACH does in RUNNING (R71, R147, R148). -/
def State.doAttach (s : State) (su : Setup) (c : CommandRec) : State :=
  match (su.commandFeed c).filter (fun f => (su.feedLane f).isSome) with
  | none => s.handResult c .badArgument
  | some f =>
    let result := s.attachResult su f c.arg2
    let s := s.handResult c result
    if result = .accepted then s.attachFeed su f c.arg2 else s

/-- ATTACH (R71, R147). -/
def execAttach (s : State) : Host.Outcome State Fault Refusal :=
  .next (s.planAct (.command 6) (fun _ _ s => s.inRunning s.doAttach))

/-- What a DETACH does in RUNNING (R71, R149), with the examination of the held list as the last part of
the act (R172). -/
def State.doDetach (s : State) (su : Setup) (c : CommandRec) : State :=
  match su.commandFeed c with
  | none => s.handResult c .badArgument
  | some f =>
    let result := s.detachResult f
    let s := s.handResult c result
    if result = .accepted then s.examineAfter (s.detachFeed su f) su else s

/-- DETACH (R71, R149). -/
def execDetach (s : State) : Host.Outcome State Fault Refusal :=
  .next (s.planAct (.command 7) (fun _ _ s => s.inRunning s.doDetach))

/-! ## Codes that are no command -/

/-- BAD_COMMAND (R67 step 2): COMMAND_RESULT BAD_COMMAND, in every run state. -/
def execBadCommand (s : State) : Host.Outcome State Fault Refusal :=
  .next (s.planAct .badCommand (fun _ _ s => s.handResult s.command .badCommand))

end Sys2Proof.Machine
end

