-- ==== Sys2Proof/Machine/Timebase.lean ====
section
/-! DEFINITION. The Timebase: REFCLK periods and the tick (10.2), the reference state (10.3), taking a pulse
(10.4) and the stall check (10.5). -/

namespace Sys2Proof.Machine

/-! ## The tick (R180) -/

/-- A timer adds one at a tick. It stays at its limit until its owner takes the expiry (log 8). -/
def countTo (limit t : Nat) : Nat := min (t + 1) limit

/-- The region of a ring index 2r + p. -/
def regionOf (i : Fin 24) : Fin 12 := ⟨i.val / 2, by omega⟩

/-- A path's silence timer at a tick (R95). -/
def Setup.tickPath (su : Setup) (r : Fin 12) (x : PathState) : PathState :=
  match x.health with
  | .unseen => x
  | _ => { x with timer := x.timer.map (countTo (su.profileOf r).silenceLimit) }

/-- A held write's hold timer at a tick (R171). -/
def Setup.tickHeld (su : Setup) (h : HeldWrite) : HeldWrite :=
  { h with timer := countTo su.holdLimit h.timer }

/-- The wait of the link reservation at a tick (R29). -/
def Setup.tickPort (su : Setup) : Port → Port
  | .reserved r => .reserved { r with wait := countTo su.linkWait r.wait }
  | p => p

/-- The Timebase at a tick: the prescaler starts again, the tick count rises, and the pulse timeout
counts in WAITING and LOCKED (R180, R182). -/
def Setup.tickTimebase (su : Setup) (tb : Timebase) : Timebase :=
  { tb with
    prescaler := 0
    tickCount := tb.tickCount + 1
    pulseTimeout :=
      match tb.refState with
      | .lost => tb.pulseTimeout
      | _ => tb.pulseTimeout.map (countTo su.pulseTimeout) }

/-- A tick: the tick count rises by one and the tick is handed to every timer that counts (R180). -/
def State.tickAll (s : State) (su : Setup) : State :=
  { s with
    tb := su.tickTimebase s.tb
    ic := { s.ic with
      paths := Vector.ofFn fun (i : Fin 24) => su.tickPath (regionOf i) s.ic.paths[i] }
    rg := { held := s.rg.held.map su.tickHeld }
    la := { s.la with port := su.tickPort s.la.port } }

/-- One more REFCLK period counted towards the next tick. -/
def State.countPeriod (s : State) : State :=
  { s with tb := { s.tb with prescaler := s.tb.prescaler + 1 } }

/-- One period of REFCLK: in RUNNING and STOPPING the prescaler counts it, and a tick comes at the end
of every TICK_DIV + 1 periods; in CONFIG nothing counts (R179, R180). -/
def State.refclk (s : State) : State :=
  match s.setup with
  | none => s
  | some su => if s.tb.prescaler < su.tickDiv then s.countPeriod else s.tickAll su

/-! ## The reference state (R182) -/

/-- A REFERENCE report of a change of the reference state (R182). -/
def State.handReference (s : State) (before after : RefState) : State :=
  s.hand (.reference s.tb.pulseCount s.tb.captureTick s.tb.captureHead before after)

/-- The pulse timeout has reached PULSE_TIMEOUT: LOST, the timeout stopped, one REFERENCE report
(R182). -/
def State.loseReference (s : State) : State :=
  let before := s.tb.refState
  ({ s with tb := { s.tb with refState := .lost, pulseTimeout := none } }).handReference before .lost

/-! ## Taking a pulse (R183 to R185) -/

/-- Steps 1 to 3 of R183 but for the report: the pulse count, the capture, LOCKED with the timeout
restarted from 0. -/
def State.countPulse (s : State) : State :=
  { s with
    tb := { s.tb with
      pulseCount := s.tb.pulseCount + 1
      captureTick := s.tb.tickCount
      captureHead := s.ic.natHead
      refState := .locked
      pulseTimeout := some 0 } }

/-- The reports of steps 3 and 4 of R183. -/
def State.reportPulse (s : State) (su : Setup) (before : RefState) : State :=
  let s := if before = .locked then s else s.handReference before .locked
  if su.pulseReport then
    s.hand (.pulse s.tb.pulseCount s.tb.captureTick s.tb.captureHead s.tb.refState)
  else s

/-- A position's stall count settled at a pulse, and its read since pulse flag cleared (R184). -/
def Position.settleStall (checked : Bool) (p : Position) : Position :=
  { p with
    stall := if checked && !p.readSincePulse then p.stall + 1 else 0
    readSincePulse := false }

/-- A feed record at a pulse (R184). -/
def Feed.settleStall (checked : Bool) (f : Feed) : Feed :=
  match f.status with
  | .attached p => { f with status := .attached (p.settleStall checked) }
  | _ => f

/-- Every ATTACHED feed's stall count is settled (R184). -/
def State.settleStalls (s : State) (checked : Bool) : State :=
  { s with vr := { feeds := s.vr.feeds.map (Feed.settleStall checked) } }

/-- The feeds whose stall count has reached STALL_PULSES (R185). -/
def State.stalledFeeds (s : State) (su : Setup) : List (Fin 32) :=
  (List.finRange 32).filter (fun f =>
    match (s.feed f).status with
    | .attached p => decide (su.stallPulses ≤ p.stall)
    | _ => false)

/-- One stall slip, with the reports its zone and then the Ring Guard make for it (R172, R185); the held
writes that it releases meet the port before the next slip (R24; log 12). -/
def State.slipStall (s : State) (su : Setup) (f : Fin 32) : State :=
  (s.examineAfter (s.slip su .stall f) su).settlePort

/-- The stall slips in ascending feed number, the feeds found before any of them (R185). -/
def State.slipStalled (s : State) (su : Setup) : State :=
  (s.stalledFeeds su).foldl (fun s f => s.slipStall su f) s

/-- Step 5 of R183: the check is made when the reference was LOCKED before the pulse and STALL_PULSES
is not 0 (R184, R185). -/
def State.stallCheck (s : State) (su : Setup) (before : RefState) : State :=
  let checked := before == .locked && su.stallPulses != 0
  let s := s.settleStalls checked
  if checked then s.slipStalled su else s

/-- A rising edge of REF_PULSE is taken in RUNNING or STOPPING (R183). -/
def State.takePulse (s : State) (su : Setup) : State :=
  (s.countPulse.reportPulse su s.tb.refState).stallCheck su s.tb.refState

end Sys2Proof.Machine
end

