-- ==== Sys2Proof/Machine/Events.lean ====
section
/-! DEFINITION. The events that are no completion: RESET_N (2.7, 3.1), lane requests (2.1), the tick and the
expiries (2.5, 5.6, 9.4, 10.2, 10.3), the reference pulse (10.4), HOLD_REQ (6.8), the end of the
drain (4.5) and the taking of a report (11.3). A command whose event cannot come about in a state
changes nothing there (log 1). -/

namespace Sys2Proof.Machine

/-! ## RESET_N -/

/-- What memory holds after RESET_N: an access in progress is abandoned, so a WRITE leaves its bytes open
(R36, log 5). -/
def State.abandonAccess (s : State) : State :=
  match s.inProgress with
  | some (_, a) => s.scramble a.req
  | none => s

/-- Every block returns to its reset state; memory, the straps and the HOLD_REQ line are outside the
part, and the queue of commands is the sender's (R36). -/
def State.resetBlocks (s : State) : State :=
  { State.reset with
    pending := s.pending
    ac := s.ac
    mem := s.mem
    resetAsserted := s.resetAsserted
    holdReq := s.holdReq
    freeCount := s.freeCount }

/-- RESET_N_ASSERT (R36). -/
def execResetNAssert (s : State) : Host.Outcome State Fault Refusal :=
  .next { s.abandonAccess.resetBlocks with resetAsserted := true }

/-- RESET_N_RELEASE (R38): the straps are sampled at the release. -/
def execResetNRelease (planSel : BitVec 4) (s : State) : Host.Outcome State Fault Refusal :=
  .next (if s.resetAsserted then { s with ac := { planSel := planSel }, resetAsserted := false } else s)

/-! ## Lane requests -/

/-- LANE_REQUEST (R18): while RESET_N is asserted every request is discarded (R36, log 17). -/
def execLaneRequest (lane : Fin 8) (dir : Direction) (addr : Addr) (length : Nat) (link : Bool)
    (data : List Byte) (s : State) : Host.Outcome State Fault Refusal :=
  .next (if s.resetAsserted then s else s.presentRequest lane (makeRequest dir addr length link data))

/-! ## The tick and the expiries -/

/-- TICK (R180): the prescaler completes its TICK_DIV + 1 periods. In CONFIG it is stopped. -/
def execTick (s : State) : Host.Outcome State Fault Refusal :=
  .next (match s.setup with
    | some su => s.tickAll su
    | none => s)

/-- The reservation ends by its wait, when that has reached LINK_WAIT (R29). -/
def State.expireLink (s : State) (su : Setup) : State :=
  match s.la.port with
  | .reserved r => if su.linkWait ≤ r.wait then (s.setPort .free).settlePort else s
  | _ => s

/-- LINK_WAIT_EXPIRY (R29). -/
def execLinkWaitExpiry (s : State) : Host.Outcome State Fault Refusal :=
  .next (match s.setup with
    | some su => s.expireLink su
    | none => s)

/-- The path becomes SILENT, when its silence timer has reached silence_limit (R95, R96). -/
def State.expireSilence (s : State) (su : Setup) (r : Fin 12) (p : Path) : State :=
  match (s.path r p).timer with
  | some t =>
    if (su.profileOf r).silenceLimit ≤ t then
      (s.setPath r p { s.path r p with timer := none }).setHealth r p .silent
    else s
  | none => s

/-- SILENCE_LIMIT_EXPIRY (R95). -/
def execSilenceLimitExpiry (region : Fin 12) (path : Path) (s : State) :
    Host.Outcome State Fault Refusal :=
  .next (match s.setup with
    | some su => s.expireSilence su region path
    | none => s)

/-- The hold of a lane's held write expires, when its timer has reached HOLD_LIMIT (R174). -/
def State.expireHoldOf (s : State) (su : Setup) (lane : Fin 8) : State :=
  match s.rg.held.find? (fun h => h.lane == lane && decide (su.holdLimit ≤ h.timer)) with
  | some h => (s.expireHold su h).settlePort
  | none => s

/-- HOLD_LIMIT_EXPIRY (R174, R175). -/
def execHoldLimitExpiry (lane : Fin 8) (s : State) : Host.Outcome State Fault Refusal :=
  .next (match s.setup with
    | some su => s.expireHoldOf su lane
    | none => s)

/-- The reference becomes LOST, when the pulse timeout has reached PULSE_TIMEOUT (R182). -/
def State.expirePulse (s : State) (su : Setup) : State :=
  match s.tb.refState, s.tb.pulseTimeout with
  | .lost, _ => s
  | _, some t => if su.pulseTimeout ≤ t then s.loseReference else s
  | _, none => s

/-- PULSE_TIMEOUT_EXPIRY (R182). -/
def execPulseTimeoutExpiry (s : State) : Host.Outcome State Fault Refusal :=
  .next (match s.setup with
    | some su => s.expirePulse su
    | none => s)

/-! ## The reference pulse -/

/-- REF_PULSE (R183): not taken in CONFIG, nor while RESET_N is asserted. -/
def execRefPulse (s : State) : Host.Outcome State Fault Refusal :=
  .next (match s.setup with
    | some su => s.takePulse su
    | none => s)

/-! ## HOLD_REQ -/

/-- The line's level. -/
def State.withHoldReq (s : State) (level : Bool) : State := { s with holdReq := level }

/-- A zone with its pin hold at a level (R117). -/
def Zone.pinned (level : Bool) (x : Zone) : Zone := { x with pinHold := level }

/-- An assertion in RUNNING or STOPPING: pin holds on, HOLD_STATE, then a HARD hold on every enabled zone
(R116, R117, R119). -/
def State.assertPin (s : State) (su : Setup) : State :=
  ((s.updZones su.enabledZones (Zone.pinned true)).handPinHold su true).takeHolds su .hard
    su.enabledZones

/-- A deassertion in RUNNING or STOPPING: pin holds off, HOLD_STATE (R117 to R119). -/
def State.deassertPin (s : State) (su : Setup) : State :=
  (s.updZones su.enabledZones (Zone.pinned false)).handPinHold su false

/-- HOLD_REQ_ASSERT (R117). -/
def execHoldReqAssert (s : State) : Host.Outcome State Fault Refusal :=
  .next (if s.holdReq then s
    else match s.setup with
      | some su => (s.withHoldReq true).assertPin su
      | none => s.withHoldReq true)

/-- HOLD_REQ_DEASSERT (R117). -/
def execHoldReqDeassert (s : State) : Host.Outcome State Fault Refusal :=
  .next (if s.holdReq then
      match s.setup with
      | some su => (s.withHoldReq false).deassertPin su
      | none => s.withHoldReq false
    else s)

/-! ## The drain and the report ring -/

/-- DRAIN_END (R65, R194). The end of the drain is a row of its own, so another command may come between the
moment all four conditions hold and STOPPED; nothing forces the row (log 32). -/
def execDrainEnd (s : State) : Host.Outcome State Fault Refusal :=
  .next (match s.ps.run with
    | .stopping su => if !s.ps.drainFlag && s.drained then s.endDrain su else s
    | _ => s)

/-- REPORT_TAKE (R188, R189, R191): the report lane idle, no record in hand, the queue not empty. The taking is a
row of its own, so other commands may hand more reports before it (log 35). -/
def execReportTake (s : State) : Host.Outcome State Fault Refusal :=
  .next (if s.reportLaneIdle && !s.rw.queue.isEmpty then s.takeReport.settlePort else s)

end Sys2Proof.Machine
end

