-- ==== Sys2Proof/Machine/Dispatch.lean ====
section
/-! DEFINITION. One arm per command: each a direct call of that command's meaning. -/

namespace Sys2Proof.Machine

def exec (i : Instr) (s : State) : Host.Outcome State Fault Refusal :=
  match i with
  | .resetNAssert => Sys2Proof.Machine.execResetNAssert s
  | .resetNRelease planSel => Sys2Proof.Machine.execResetNRelease planSel s
  | .laneRequest lane dir addr length link data => Sys2Proof.Machine.execLaneRequest lane dir addr length link data s
  | .plainAccessComplete answer => Sys2Proof.Machine.execPlainAccessComplete answer s
  | .planWriteComplete answer => Sys2Proof.Machine.execPlanWriteComplete answer s
  | .submit => Sys2Proof.Machine.execSubmit s
  | .commit => Sys2Proof.Machine.execCommit s
  | .stop => Sys2Proof.Machine.execStop s
  | .cancel => Sys2Proof.Machine.execCancel s
  | .hold => Sys2Proof.Machine.execHold s
  | .release => Sys2Proof.Machine.execRelease s
  | .attach => Sys2Proof.Machine.execAttach s
  | .detach => Sys2Proof.Machine.execDetach s
  | .badCommand => Sys2Proof.Machine.execBadCommand s
  | .readIndexWrite answer => Sys2Proof.Machine.execReadIndexWrite answer s
  | .ringWriteComplete answer => Sys2Proof.Machine.execRingWriteComplete answer s
  | .viewReadComplete answer => Sys2Proof.Machine.execViewReadComplete answer s
  | .tick => Sys2Proof.Machine.execTick s
  | .linkWaitExpiry => Sys2Proof.Machine.execLinkWaitExpiry s
  | .silenceLimitExpiry region path => Sys2Proof.Machine.execSilenceLimitExpiry region path s
  | .holdLimitExpiry lane => Sys2Proof.Machine.execHoldLimitExpiry lane s
  | .pulseTimeoutExpiry => Sys2Proof.Machine.execPulseTimeoutExpiry s
  | .refPulse => Sys2Proof.Machine.execRefPulse s
  | .holdReqAssert => Sys2Proof.Machine.execHoldReqAssert s
  | .holdReqDeassert => Sys2Proof.Machine.execHoldReqDeassert s
  | .drainEnd => Sys2Proof.Machine.execDrainEnd s
  | .reportTake => Sys2Proof.Machine.execReportTake s
  | .recordWriteComplete answer => Sys2Proof.Machine.execRecordWriteComplete answer s
  | .writeIndexWordComplete answer => Sys2Proof.Machine.execWriteIndexWordComplete answer s

end Sys2Proof.Machine
end

