-- ==== Sys2Proof/Safety.lean ====
section
/-! DEFINITION. What counts as a sound state of the part: the invariants that the statements are about. -/

namespace Sys2Proof.Machine

/-! ## Memory -/

/-- Carriage memory is in its canonical form. -/
def State.MemoryCanonical (s : State) : Prop := Memory.wf s.mem = true

/-! ## Capacities -/

/-- Every set zone's log holds at least one and at most 32 runs (R124). -/
def State.LogsBounded (s : State) : Prop :=
  ∀ z x, (s.zone z).timeline = some x → 1 ≤ x.log.length ∧ x.log.length ≤ Config.logCapacity

/-- The sequence counts of the port: the access in progress has a count of at most 8, a reservation one
of at most 7 (R27, R32). -/
def Port.WithinSequence : Port → Prop
  | .free => True
  | .busy g => g.count ≤ Config.sequenceCap
  | .reserved r => r.count < Config.sequenceCap

/-- Every held write's lane is HELD with its request, and no lane has two (R18, R170). -/
def State.HeldLanes (s : State) : Prop :=
  (∀ h ∈ s.rg.held, s.lane (ext h.lane) = .held h.req) ∧ (s.rg.held.map (·.lane)).Nodup

/-- The capacities the manual gives: 16 queued reports (R187), 32 runs in a log (R124), 8 accesses in a
sequence (R32), one held write per lane (R170); and a port keeps requests waiting only while one is
outstanding (R18). -/
structure State.WithinCapacity (s : State) : Prop where
  queue : s.rw.queue.length ≤ Config.queueCapacity
  logs : s.LogsBounded
  port : s.la.port.WithinSequence
  held : s.HeldLanes
  kept : ∀ l, s.lane (ext l) = .idle → s.la.kept[l] = []

/-! ## Zones and feeds -/

/-- A zone is set exactly while it has an attached feed, and every attached feed has a zone; outside
RUNNING no feed is attached and no zone set (R125, R145). -/
def State.ZonesFollowFeeds (s : State) : Prop :=
  match s.ps.run with
  | .running su =>
    (∀ z, (s.zone z).timeline.isSome = true ↔
      ∃ f p, (s.feed f).status = .attached p ∧ su.feedZone f = some z) ∧
    ∀ f p, (s.feed f).status = .attached p → (su.feedZone f).isSome = true
  | _ => (∀ z, (s.zone z).timeline = none) ∧ ∀ f p, (s.feed f).status ≠ .attached p

/-- The laws of R125 for the zones and feeds of RUNNING, with what keeps them (R147, R154 to R161): a horizon is no more
than SPREAD_MAX after its trail; each attached feed's last lies between them, and the trail is the last of one of them;
a feed's next follows its last, or the SSN of its read in flight that counts, which lies between last and horizon and
stands at the feed's lane; a read that counts is an attached feed's. -/
def State.FeedsWithinZones (s : State) : Prop :=
  ∀ su, s.ps.run = .running su → (1 ≤ su.spreadMax ∧ su.spreadMax < 2 ^ 29) ∧
    (∀ f rd, (s.feed f).inFlight = some rd → rd.counting = true →
      ∃ p, (s.feed f).status = .attached p) ∧
    ∀ z t, (s.zone z).timeline = some t →
      atOrBefore t.trail t.horizon = true ∧ distance t.trail t.horizon ≤ su.spreadMax ∧
      (∃ f p, (s.feed f).status = .attached p ∧ su.feedZone f = some z ∧ p.last = t.trail) ∧
      ∀ f p, (s.feed f).status = .attached p → su.feedZone f = some z →
        between t.trail p.last t.horizon = true ∧
        ((∀ rd, (s.feed f).inFlight = some rd → rd.counting = false) → p.next = p.last + 1) ∧
        ∀ rd, (s.feed f).inFlight = some rd → rd.counting = true →
          p.next = rd.ssn + 1 ∧ between p.last rd.ssn t.horizon = true ∧
          ∃ l a, su.feedLane f = some l ∧ (s.lane (ext l)).presented? = some a ∧ a.kind = .view f

/-! ## The plan area -/

/-- A request writes no byte of the `n` bytes at `a`. -/
def Request.Apart (r : Request) (a n : Nat) : Prop :=
  r.body.data = [] ∨ r.base + r.body.data.length ≤ a ∨ a + n ≤ r.base

/-- A plan write. -/
def AccessKind.isPlan : AccessKind → Bool
  | .plan _ => true
  | _ => false

/-- A plan write is one of whole words inside the plan area at `base`; a read index write and every
other access write nothing of what the copies hold. -/
def Access.PlanSafe (base : Nat) (a : Access) : Prop :=
  if a.kind = .plan false then
    (∃ d, a.req.body = .write d) ∧ base ≤ a.req.base ∧
      a.req.base + a.req.body.length ≤ base + planLength ∧ a.req.base % 8 = 0 ∧
      a.req.body.length % 8 = 0
  else a.req.Apart base copyEnd

/-- The eight bytes of plan word `w` read the same in carriage memory and in the copies. -/
def State.WordAgrees (s : State) (w : Nat) : Prop :=
  ∀ i < 8, readByte s.mem (s.planBase + (8 * w + i)) = readByte s.ps.planCopy (8 * w + i)

/-- No plan write taken and not completed covers the `n` bytes at plan offset `o`. -/
def State.NonePending (s : State) (o n : Nat) : Prop :=
  ∀ l a, (s.lane l).presented? = some a → a.kind.isPlan = true → s.covers a.req o n = false

/-- Why the copies can be trusted (R53 to R57): every word that is not in the unknown-word set agrees
with memory; with a setup in force all words of the setup block are known and no write to it is
outstanding; the same for the record of a PENDING or LIVE window; and no other access, present or
held, writes there. -/
structure State.PlanSound (s : State) : Prop where
  accesses : ∀ l a, (s.lane l).presented? = some a → a.PlanSafe s.planBase
  held : ∀ h ∈ s.rg.held, h.req.Apart s.planBase copyEnd
  ring : ∀ su, s.setup = some su →
    su.reportBase + 32 * su.reportSize ≤ 2 ^ 36 ∧
    (su.reportBase + 32 * su.reportSize ≤ s.planBase ∨ s.planBase + copyEnd ≤ su.reportBase) ∧
    s.rw.writeIndex < su.reportSize
  known : ∀ w < 1024, w ∉ s.ps.unknown → s.WordAgrees w
  setup : s.isConfig = false → (∀ w < 512, w ∉ s.ps.unknown) ∧ s.NonePending 0 0x1000
  windows : ∀ w, (s.window w).status.open? = true →
    (∀ k ∈ s.ps.unknown, overlaps (windowOffset w) 64 (8 * k) 8 = false) ∧
    s.NonePending (windowOffset w) 64
  reset : s.resetAsserted = true → s.isConfig = true ∧ (∀ w < 1024, w ∈ s.ps.unknown) ∧
    (∀ l, (s.lane l).presented? = none) ∧ s.rg.held = [] ∧ s.rw.queue = [] ∧
    ∀ w, (s.window w).status.open? = false
  rising : RisingKeys s.mem ∧ RisingKeys s.ps.planCopy

/-! ## What the statements say of commands and states -/

/-- Acts made one after the other, one for each member of a list, in its order. -/
def InTurn {α : Type} (act : α → State → State → Prop) : List α → State → State → Prop
  | [], s, t => t = s
  | x :: rest, s, t => ∃ u, act x s u ∧ InTurn act rest u t

/-- The commands that end an access at the memory port; every other command stores nothing. -/
def endsAccess : Instr → Bool
  | .resetNAssert => true
  | .plainAccessComplete _ => true
  | .planWriteComplete _ => true
  | .submit => true
  | .commit => true
  | .stop => true
  | .cancel => true
  | .hold => true
  | .release => true
  | .attach => true
  | .detach => true
  | .badCommand => true
  | .readIndexWrite _ => true
  | .ringWriteComplete _ => true
  | .viewReadComplete _ => true
  | .recordWriteComplete _ => true
  | .writeIndexWordComplete _ => true
  | _ => false

/-- A lane's request is WAITING at the memory port. -/
def State.Waits (s : State) (l : Fin 9) : Prop := (s.lane l).waiting?.isSome = true

/-- The parts of the state. -/
inductive Part where
  | pending | la | ac | ps | ic | zs | vr | rg | tb | rw | mem | resetAsserted | holdReq | freeCount
  deriving DecidableEq, Repr

/-- `t` has the same as `s` in one part. -/
def State.SamePart (s t : State) : Part → Prop
  | .pending => t.pending = s.pending
  | .la => t.la = s.la
  | .ac => t.ac = s.ac
  | .ps => t.ps = s.ps
  | .ic => t.ic = s.ic
  | .zs => t.zs = s.zs
  | .vr => t.vr = s.vr
  | .rg => t.rg = s.rg
  | .tb => t.tb = s.tb
  | .rw => t.rw = s.rw
  | .mem => t.mem = s.mem
  | .resetAsserted => t.resetAsserted = s.resetAsserted
  | .holdReq => t.holdReq = s.holdReq
  | .freeCount => t.freeCount = s.freeCount

/-- `t` is as `s` in every part that is not named. -/
def State.SameBut (s t : State) (changed : List Part) : Prop :=
  ∀ p, p ∉ changed → s.SamePart t p

/-- A lane is as before, or its WAITING access has been granted. -/
def State.LaneOrGranted (s t : State) (k : Fin 9) : Prop :=
  t.lane k = s.lane k ∨ ∃ a, s.lane k = .waiting a ∧ t.lane k = .active a

/-- Apart from lane `l`, the Lane Arbiter has done no more than grant: no other lane's response and no
kept request has changed. -/
structure State.OthersKept (s t : State) (l : Fin 8) : Prop where
  lanes : ∀ k, k ≠ ext l → s.LaneOrGranted t k
  kept : t.la.kept = s.la.kept
  responses : ∀ k, k ≠ l → t.la.responses[k] = s.la.responses[k]

/-- The port takes a request of lane `l` that comes now: RESET_N is released, the lane is idle, and
none is kept waiting there (an idle lane keeps none, `State.WithinCapacity`). -/
structure State.Takes (s : State) (l : Fin 8) : Prop where
  released : s.resetAsserted = false
  idle : s.lane (ext l) = .idle
  none : s.la.kept[l] = []

/-- The port has been granted to a WAITING lane, with a place in its sequence: the lane is ACTIVE, the
port BUSY, its group's pointer at it, and nothing else has changed (R26, R27). -/
structure State.GrantedTo (s t : State) (l : Fin 9) (count : Nat) : Prop where
  active : ∃ a, s.lane l = .waiting a ∧ t.lane l = .active a ∧
    t.la.port = .busy { lane := l, link := a.req.link && !s.isConfig, count := count }
  lanes : ∀ k, k ≠ l → t.lane k = s.lane k
  urgentPtr : t.la.urgentPtr = if s.isUrgent l then l else s.la.urgentPtr
  normalPtr : t.la.normalPtr = if s.isUrgent l then s.la.normalPtr else l
  kept : t.la.kept = s.la.kept
  responses : t.la.responses = s.la.responses
  rest : s.SameBut t [.la]

/-- The Lane Arbiter has met a change of the requesters or of the port (R24, R25, R28, R30, R31): a FREE port is
granted to the lane picked, a RESERVED one to the reserving lane's request, under the reservation, and a
NORMAL lane's reservation gives way to an URGENT request; otherwise nothing changes. -/
structure State.PortSettled (s t : State) : Prop where
  idle : s.la.port = .free → s.pick = none → t = s
  free : ∀ l, s.la.port = .free → s.pick = some l → s.GrantedTo t l 1
  busy : ∀ g, s.la.port = .busy g → t = s
  reserved : ∀ r, s.la.port = .reserved r →
    (s.Waits r.lane → s.GrantedTo t r.lane (r.count + 1)) ∧
    (¬ s.Waits r.lane → r.urgent = false → ∀ k, s.Waits k → s.isUrgent k = true →
      ∃ l, s.pick = some l ∧ s.isUrgent l = true ∧ s.GrantedTo t l 1) ∧
    (¬ s.Waits r.lane → r.urgent = true ∨ (∀ k, s.Waits k → s.isUrgent k = false) → t = s)

/-- The port once a reservation held for lane `l` has ended (R28). -/
def Port.without (l : Fin 9) : Port → Port
  | .reserved r => if r.lane = l then .free else .reserved r
  | p => p

/-- The Lane Arbiter with external lane `l` in another state. -/
def LaneArbiter.withLane (la : LaneArbiter) (l : Fin 8) (x : LaneState) : LaneArbiter :=
  { la with lanes := la.lanes.set (ext l) x }

/-- The Lane Arbiter with the report lane in another state. -/
def LaneArbiter.withReport (la : LaneArbiter) (x : LaneState) : LaneArbiter :=
  { la with lanes := la.lanes.set reportLane x }

/-- The Lane Arbiter with a response delivered on lane `l`, which is idle, and the port as given (R19). -/
def LaneArbiter.delivered (la : LaneArbiter) (l : Fin 8) (x : Response) (port : Port) : LaneArbiter :=
  { la.withLane l .idle with responses := la.responses.set l (some x), port := port }

/-- `t` is what the port makes of `t` with the Lane Arbiter as given, which fixes all of `t`'s: lanes, port, pointers,
kept requests and responses. -/
def State.SettledFrom (t : State) (la : LaneArbiter) : Prop := State.PortSettled { t with la := la } t

/-- A request of lane `l` has been refused (R51, R52): REFUSED with every byte 0xFF for a READ, one
ACCESS_REFUSED report, nothing presented, no reservation left for the lane, nothing else changed but what the
port does then (R24, R28). -/
structure State.RefusedAs (s t : State) (l : Fin 8) (r : Request) (reason : RefusalReason)
    (ssn : SSN) : Prop where
  response : t.la.responses[l] = some { status := .refused, data := r.body.blank }
  lane : t.lane (ext l) = .idle
  report : t.rw = (s.hand (.accessRefused l r.body.dir r.addr reason ssn)).rw
  reservation : ∀ x, t.la.port = .reserved x → x.lane ≠ ext l
  others : s.OthersKept t l
  port : t.SettledFrom (s.la.delivered l { status := .refused, data := r.body.blank }
    (s.la.port.without (ext l)))
  rest : s.SameBut t [.la, .rw]

/-- An access of lane `l` stands at the memory port, WAITING or granted, without a response yet: it has been
presented, and the port has met it (R22, R24). -/
structure State.PresentedAs (s t : State) (l : Fin 8) (a : Access) : Prop where
  lane : t.lane (ext l) = .waiting a ∨ t.lane (ext l) = .active a
  response : t.la.responses[l] = s.la.responses[l]
  others : s.OthersKept t l
  port : t.SettledFrom (s.la.withLane l (.waiting a))

/-- Memory after the access was answered: with OKAY a WRITE's bytes are there, and every byte outside
the bytes it writes reads as before whatever the answer. -/
structure State.MemoryAfter (s t : State) (r : Request) (x : MemAnswer) : Prop where
  inside : x = .okay → s.MemoryCanonical →
    ∀ i (h : i < r.body.data.length), readByte t.mem (r.base + i) = r.body.data[i]
  outside : ∀ k, k < r.base ∨ r.base + r.body.data.length ≤ k → readByte t.mem k = readByte s.mem k

/-- The MEMORY_FAULT report that an ERROR of lane `l`'s access makes; OKAY makes none (R34). -/
def State.faultReported (s : State) (l : Fin 8) (a : Access) (x : MemAnswer) : ReportWriter :=
  match x with
  | .okay => s.rw
  | .error => (s.hand (.memoryFault l a.req.body.dir a.req.addr)).rw

/-- A plan write of `r` has completed OKAY up to its action: its bytes are in memory and in the copies,
and its words are known (R55). -/
structure State.PlanLanded (s u : State) (r : Request) : Prop where
  memory : s.MemoryAfter u r .okay
  copy : RisingKeys s.ps.planCopy → ∀ i < copyEnd, readByte u.ps.planCopy i =
    if s.planOffset r ≤ i ∧ i < s.planOffset r + r.body.data.length then
      r.body.data.getD (i - s.planOffset r) 0
    else readByte s.ps.planCopy i
  known : ∀ w, w ∈ u.ps.unknown ↔
    w ∈ s.ps.unknown ∧ overlaps (s.planOffset r) r.body.data.length (8 * w) 8 = false
  run : u.ps = { s.ps with planCopy := u.ps.planCopy, unknown := u.ps.unknown }
  rest : s.SameBut u [.mem, .ps]

/-- A READ of the aperture of feed `f`, well formed and made by the feed's own lane, comes to lane port `l`, which
takes it (R48, R153). -/
structure State.ViewRequest (s : State) (su : Setup) (l : Fin 8) (f : Fin 32) (r : Request) : Prop where
  takes : s.Takes l
  form : r.formOk = true
  area : s.classify r.base = .view f
  cls : su.classOf l = some .emission
  lane : su.feedLane f = some l

/-- A WRITE into a ring, well formed and made by the ring's writer lane in RUNNING, comes to lane port
`l` that takes it (R48). -/
structure State.RingRequest (s : State) (su : Setup) (l : Fin 8) (ring : RingId) (r : Request) :
    Prop where
  takes : s.Takes l
  running : s.ps.run = .running su
  form : r.formOk = true
  cls : su.classOf l = some .ingest
  area : match ring with
    | .national => s.classify r.base = .national ∧ su.natLane = l.val
    | .regional rg p => s.classify r.base = .regional rg p ∧ su.pathLane rg p = l.val

/-- The plan write in progress is lane `l`'s access `a`, and its completion with OKAY is the given row
of the table (log 2). -/
structure State.Completes (s : State) (l : Fin 8) (g : Grant) (a : Access) (row : PlanRow) : Prop where
  access : s.externalInProgress = some (l, g, a)
  kind : a.kind = .plan false
  row : s.planRow a.req = row

/-! ## Layouts (chapter 12) -/

/-- The number that the `n` bytes from offset `o` on spell, the most significant byte first. -/
def bigEndian (f : Nat → Byte) (o n : Nat) : Nat :=
  (List.range n).foldl (fun x i => x * 256 + (f (o + i)).toNat) 0

/-- The setup block of the copies, field by field (section 12.4; R195): a base's low eight bits are taken
as zero, a flag is any value but 0. -/
def Setup.LaidOut (su : Setup) (m : Memory) : Prop :=
  let u := bigEndian (readByte m)
  su.natBase = u 0x000 8 / 256 * 256 ∧ su.regBase = u 0x008 8 / 256 * 256 ∧
  su.viewBase = u 0x010 8 / 256 * 256 ∧ su.reportBase = u 0x018 8 / 256 * 256 ∧
  su.nr = u 0x020 2 ∧ su.rs = u 0x022 2 ∧ su.reportSize = u 0x024 2 ∧ su.tickDiv = u 0x026 2 ∧
  su.spreadMax = u 0x028 2 ∧ su.armLead = u 0x02A 2 ∧ su.entryGrace = u 0x02C 2 ∧
  su.returnGrace = u 0x02E 2 ∧ su.holdLimit = u 0x030 2 ∧ su.pulseTimeout = u 0x032 2 ∧
  su.jumpMax = u 0x034 1 ∧ su.linkWait = u 0x035 1 ∧ su.stallPulses = u 0x036 1 ∧
  (su.pulseReport = true ↔ u 0x037 1 ≠ 0) ∧ su.urgentOrder = u 0x038 1 ∧
  su.normalOrder = u 0x039 1 ∧ su.natLane = u 0x03A 1 ∧
  (∀ l : Fin 8, su.lanes[l].cls = u (0x040 + 4 * l.val) 1 ∧
    (su.lanes[l].urgent = true ↔ u (0x041 + 4 * l.val) 1 ≠ 0)) ∧
  (∀ r : Fin 12, (su.regions[r].enabled = true ↔ u (0x080 + 8 * r.val) 1 ≠ 0) ∧
    su.regions[r].laneA = u (0x081 + 8 * r.val) 1 ∧ su.regions[r].laneB = u (0x082 + 8 * r.val) 1 ∧
    su.regions[r].profile = u (0x083 + 8 * r.val) 1) ∧
  (∀ z : Fin 24, (su.zones[z].enabled = true ↔ u (0x100 + 4 * z.val) 1 ≠ 0) ∧
    su.zones[z].region = u (0x101 + 4 * z.val) 1) ∧
  (∀ f : Fin 32, (su.feeds[f].enabled = true ↔ u (0x180 + 4 * f.val) 1 ≠ 0) ∧
    su.feeds[f].zone = u (0x181 + 4 * f.val) 1 ∧ su.feeds[f].lane = u (0x182 + 4 * f.val) 1) ∧
  ∀ i : Fin 4, su.profiles[i].badWeight = u (0x200 + 8 * i.val) 1 ∧
    su.profiles[i].gapWeight = u (0x201 + 8 * i.val) 1 ∧
    su.profiles[i].degradeAt = u (0x202 + 8 * i.val) 1 ∧
    su.profiles[i].recoverAt = u (0x203 + 8 * i.val) 1 ∧
    su.profiles[i].silenceLimit = u (0x204 + 8 * i.val) 2

/-- Window record `w` of the copies, field by field (section 12.5): pairs at or beyond the pair count are
not read. -/
def WindowRec.LaidOut (r : WindowRec) (m : Memory) (w : Fin 64) : Prop :=
  let u := fun o => bigEndian (readByte m) (0x1000 + 64 * w.val + o)
  r.action = u 0 1 ∧ r.regionByte = u 1 1 ∧ r.preferred = u 2 1 ∧ r.mode = u 3 1 ∧
  r.limit = u 4 1 ∧ r.pairCount = u 5 1 ∧ r.start.toNat = u 8 4 ∧ r.finish.toNat = u 12 4 ∧
  r.pairs.length = min r.pairCount 4 ∧
  ∀ i (h : i < r.pairs.length), r.pairs[i].1.toNat = u (16 + 4 * i) 2 % 4096 ∧
    r.pairs[i].2.toNat = u (18 + 4 * i) 2 % 4096

/-- The command record of the copies, field by field (section 12.6). -/
def CommandRec.LaidOut (c : CommandRec) (m : Memory) : Prop :=
  let u := bigEndian (readByte m)
  c.code = u 0x2000 1 ∧ c.ticket.toNat = u 0x2002 2 ∧ c.arg1.toNat = u 0x2008 4 ∧
    c.arg2.toNat = u 0x200C 4

/-- The fields of a report by kind: offset, size and value (section 12.7). -/
def Report.fields : Report → List (Nat × Nat × Nat)
  | .setupResult ticket result offset =>
    [(0, 1, 1), (2, 2, ticket.toNat), (16, 1, result.code), (18, 2, offset)]
  | .stopped ticket overrun => [(0, 1, 2), (2, 2, ticket.toNat), (16, 1, overrun.toNat)]
  | .commandResult code ticket arg1 ssn result =>
    [(0, 1, 3), (1, 1, code.toNat), (2, 2, ticket.toNat), (4, 4, arg1.toNat), (12, 4, ssn.toNat),
      (16, 1, result.code)]
  | .windowState w region start news reason =>
    [(0, 1, 4), (1, 1, w.val), (2, 1, region.toNat), (12, 4, start.toNat), (16, 1, news.code),
      (17, 1, (reason.map (·.code)).getD 0)]
  | .zoneOutcome w region z ssn outcome =>
    [(0, 1, 5), (1, 1, w.val), (2, 1, region.toNat), (3, 1, z.val), (12, 4, ssn.toNat),
      (16, 1, outcome.code)]
  | .switch z region w first source previous cause runs =>
    [(0, 1, 6), (1, 1, z.val), (2, 1, region.toNat), (3, 1, (w.map (·.val)).getD 0xFF),
      (12, 4, first.toNat), (16, 1, source.code), (17, 1, previous.code), (18, 1, cause.code),
      (19, 1, runs)]
  | .logFull z ssn source cause openSource trail =>
    [(0, 1, 7), (1, 1, z.val), (12, 4, ssn.toNat), (16, 1, source.code), (17, 1, cause.code),
      (18, 1, openSource.code), (20, 4, trail.toNat)]
  | .pathState r p head before after score =>
    [(0, 1, 8), (1, 1, r.val), (2, 1, pathCode p), (12, 4, (head.getD 0).toNat),
      (16, 1, before.code), (17, 1, after.code), (18, 1, score)]
  | .lateCell ring slot ssn good zones =>
    [(0, 1, 9), (1, 1, ring.code), (2, 2, slot), (12, 4, ssn.toNat), (16, 1, if good then 2 else 3),
      (20, 4, zones.toNat)]
  | .accessRefused l d a reason ssn =>
    [(0, 1, 10), (1, 1, l.val), (2, 1, directionCode d), (3, 5, a.toNat), (12, 4, ssn.toNat),
      (16, 1, reason.code)]
  | .memoryFault l d a => [(0, 1, 11), (1, 1, l.val), (2, 1, directionCode d), (3, 5, a.toNat)]
  | .feedState f zone lane ssn before after reason attached =>
    [(0, 1, 12), (1, 1, f.val), (2, 1, zone.toNat), (3, 1, lane.toNat), (12, 4, ssn.toNat),
      (16, 1, before.code), (17, 1, after.code), (18, 1, reason.code), (19, 1, attached)]
  | .holdExpired l ring slot old new slipped expiries =>
    [(0, 1, 13), (1, 1, l.val), (2, 1, ring.code), (3, 2, slot), (12, 4, old.toNat),
      (16, 4, new.toNat), (20, 1, slipped), (24, 4, expiries)]
  | .holdState zones on source kind =>
    [(0, 1, 14), (4, 4, zones.toNat), (16, 1, on.toNat), (17, 1, source.code),
      (18, 1, holdKindCode kind)]
  | .pulse count tick head state =>
    [(0, 1, 15), (4, 4, count.toNat), (12, 4, (head.getD 0).toNat), (16, 4, tick.toNat),
      (20, 1, head.isNone.toNat), (21, 1, state.code)]
  | .reference count tick head before after =>
    [(0, 1, 16), (4, 4, count.toNat), (12, 4, (head.getD 0).toNat), (16, 4, tick.toNat),
      (20, 1, head.isNone.toNat), (21, 1, before.code), (22, 1, after.code)]

/-- The 32 bytes of a record: its tick and the fields of its kind, each modulo its size, and every other
byte 0 (section 12.7; R196). -/
def Record.LaidOut (r : Record) : Prop :=
  let fields := (8, 4, r.tick.toNat) :: r.report.fields
  let b := fun i => r.bytes.getD i 0
  r.bytes.length = 32 ∧
  (∀ f ∈ fields, bigEndian b f.1 f.2.1 = f.2.2 % 256 ^ f.2.1) ∧
  ∀ i < 32, (∀ f ∈ fields, i < f.1 ∨ f.1 + f.2.1 ≤ i) → b i = 0

/-- The codes of the enumerated values that records carry (section 12.9). -/
def CodesAsListed : Prop :=
  [SetupResult.ok, .unsettled, .areaRange, .areaOverlap, .ringSize, .laneRole, .regionDef, .zoneDef,
    .feedDef, .profileDef, .timingDef].map SetupResult.code = [0, 1, 2, 3, 4, 5, 6, 7, 8, 9, 10] ∧
  [CommandResult.accepted, .wrongState, .badCommand, .badArgument, .noWindow, .tooLate,
    .attachRange].map CommandResult.code = [0, 1, 2, 3, 4, 5, 6] ∧
  [WindowNews.pending, .live, .closed, .rejected, .cancelled].map WindowNews.code = [1, 2, 3, 4, 5] ∧
  [RejectReason.notRunning, .unsettled, .region, .tags, .span, .tooLate, .overlap, .mode].map
    RejectReason.code = [1, 2, 3, 4, 5, 6, 7, 8] ∧
  [ZoneOutcome.completed, .missed, .declined, .aborted, .cancelled, .heldOff, .unattended].map
    ZoneOutcome.code = [1, 2, 3, 4, 5, 6, 7] ∧
  [RunSource.national, .regional .a, .regional .b, .conceal].map RunSource.code = [0, 1, 2, 3] ∧
  [RunCause.attach, .entry, .pathChange, .conceal, .resume, .endReturn, .graceReturn, .cancelReturn,
    .holdReturn, .hold, .forcedReturn].map RunCause.code = [0, 1, 2, 3, 4, 5, 6, 7, 8, 9, 10] ∧
  [Health.unseen, .live, .degraded, .silent].map Health.code = [0, 1, 2, 3] ∧
  [Path.a, .b].map pathCode = [0, 1] ∧ [Direction.read, .write].map directionCode = [0, 1] ∧
  [RefusalReason.form, .laneOff, .rights, .locked, .range, .partialCell, .malformed, .misplaced, .stale,
    .rewrite, .viewForm, .feedDetached, .feedSlipped, .sequence, .jump, .stopping].map
    RefusalReason.code = [1, 2, 3, 4, 5, 6, 7, 8, 9, 10, 11, 12, 13, 14, 15, 16] ∧
  [FeedNews.detached, .attached, .slipped].map FeedNews.code = [0, 1, 2] ∧
  [FeedReason.attach, .detach, .spread, .holdExpired, .stall, .stop].map FeedReason.code =
    [0, 1, 2, 3, 4, 5] ∧
  [HoldSource.command, .pin].map HoldSource.code = [0, 1] ∧
  [none, some HoldKind.hard, some .soft].map holdKindCode = [0, 1, 2] ∧
  [RefState.waiting, .locked, .lost].map RefState.code = [0, 1, 2] ∧
  RingId.national.code = 0xFF ∧ ∀ r p, (RingId.regional r p).code = 2 * r.val + pathCode p

/-! ## COMMIT validation (R60, R61) -/

/-- A check of R60, named by its reason, fails at a field of the setup block, named by its offset. That
the offset reported is the least at which the check fails is R61; which fields LANE_ROLE goes through is
log 25, a base of 2^36 with a length of 0 log 33. -/
def State.SetupFails (s : State) (su : Setup) : SetupResult → Nat → Prop
  | .ok, _ => False
  | .unsettled, o =>
    let unknown := ∃ w ∈ s.ps.unknown, w < 512
    let outstanding := ∃ x ∈ s.outstandingPlan, s.covers x.2.req 0 4096 = true
    (∃ w ∈ s.ps.unknown, w < 512 ∧ o = 8 * w) ∨
    (¬ unknown ∧ ∃ x ∈ s.outstandingPlan, s.covers x.2.req 0 4096 = true ∧
      o = s.planOffset x.2.req) ∨
    (¬ unknown ∧ ¬ outstanding ∧ ∃ l a d, (s.lane l).presented? = some a ∧ a.kind = .plain ∧
      a.req.body = .write d ∧ ∃ e ∈ su.areaMap, e.has a.req.base = true ∧
        (∀ f, e.area ≠ .view f) ∧ o = e.field)
  | .areaRange, o =>
    ∃ e ∈ su.areaMap, (2 ^ 36 ≤ e.base ∨ 2 ^ 36 < e.base + e.length) ∧ o = e.field
  | .areaOverlap, o =>
    ∃ (i j : Nat) (x y : Extent), i < j ∧ (s.planExtent :: su.areaMap)[i]? = some x ∧
      (s.planExtent :: su.areaMap)[j]? = some y ∧
      overlaps x.base x.length y.base y.length = true ∧ o = y.field
  | .ringSize, o =>
    ((¬ ∃ i, 8 ≤ i ∧ i ≤ 13 ∧ su.nr = 2 ^ i) ∧ o = 0x020) ∨
    ((¬ ∃ i, 8 ≤ i ∧ i ≤ 12 ∧ su.rs = 2 ^ i) ∧ o = 0x022) ∨
    ((¬ ∃ i, 6 ≤ i ∧ i ≤ 12 ∧ su.reportSize = 2 ^ i) ∧ o = 0x024)
  | .laneRole, o =>
    let ingest := fun n => ∃ l : Fin 8, n = l.val ∧ su.classOf l = some .ingest
    (1 < su.urgentOrder ∧ o = 0x038) ∨ (1 < su.normalOrder ∧ o = 0x039) ∨
    (¬ ingest su.natLane ∧ o = 0x03A) ∨
    ((∀ l, su.classOf l ≠ some .control) ∧ o = 0x040) ∨
    (∃ l : Fin 8, 3 < su.lanes[l].cls ∧ o = 0x040 + 4 * l.val) ∨
    (∃ (r : Fin 12) (p : Path), su.regions[r].enabled = true ∧
      (¬ ingest (su.pathLane r p) ∨ su.pathLane r p = su.natLane) ∧
      o = 0x081 + 8 * r.val + pathCode p) ∨
    (∃ f : Fin 32, su.feeds[f].enabled = true ∧ su.feeds[f].lane ≠ 0xFF ∧
      (¬ ∃ l : Fin 8, su.feeds[f].lane = l.val ∧ su.classOf l = some .emission ∧
        su.lanes[l].urgent = true) ∧ o = 0x182 + 4 * f.val)
  | .regionDef, o =>
    ∃ r : Fin 12, su.regions[r].enabled = true ∧
      ((su.regions[r].laneA = su.regions[r].laneB ∧ o = 0x082 + 8 * r.val) ∨
        (4 ≤ su.regions[r].profile ∧ o = 0x083 + 8 * r.val))
  | .zoneDef, o =>
    ∃ z : Fin 24, su.zones[z].enabled = true ∧ su.zones[z].region ≠ 0xFF ∧
      (¬ ∃ r : Fin 12, su.zones[z].region = r.val ∧ su.regions[r].enabled = true) ∧
      o = 0x101 + 4 * z.val
  | .feedDef, o =>
    ∃ f : Fin 32, su.feeds[f].enabled = true ∧
      (¬ ∃ z : Fin 24, su.feeds[f].zone = z.val ∧ su.zones[z].enabled = true) ∧
      o = 0x181 + 4 * f.val
  | .profileDef, o =>
    ∃ i : Fin 4,
      let pr := su.profiles[i]
      (¬ (1 ≤ pr.badWeight ∧ pr.badWeight ≤ 64) ∧ o = 0x200 + 8 * i.val) ∨
      (¬ (1 ≤ pr.gapWeight ∧ pr.gapWeight ≤ 64) ∧ o = 0x201 + 8 * i.val) ∨
      (¬ pr.recoverAt < pr.degradeAt ∧ o = 0x203 + 8 * i.val) ∨
      (¬ (1 ≤ pr.silenceLimit ∧ pr.silenceLimit ≤ 65535) ∧ o = 0x204 + 8 * i.val)
  | .timingDef, o =>
    (¬ (16 ≤ su.spreadMax ∧ su.spreadMax ≤ min su.nr su.rs / 2) ∧ o = 0x028) ∨
    (¬ (16 ≤ su.armLead ∧ su.armLead ≤ 65535) ∧ o = 0x02A) ∨
    (¬ (1 ≤ su.holdLimit ∧ su.holdLimit ≤ 65535) ∧ o = 0x030) ∨
    (¬ (1 ≤ su.pulseTimeout ∧ su.pulseTimeout ≤ 65535) ∧ o = 0x032) ∨
    (64 < su.jumpMax ∧ o = 0x034) ∨ (¬ (1 ≤ su.linkWait ∧ su.linkWait ≤ 255) ∧ o = 0x035) ∨
    (15 < su.stallPulses ∧ o = 0x036)

/-! ## Entry to CONFIG -/

/-- The part has entered CONFIG from STOPPING (R66): the drain flag clears, any reservation has ended and the
pointers have been set to lane 0 (R37; a grant since then, in CONFIG's one group, moves the normal
pointer); the directory is EMPTY, heads unset, paths in their first state (R97); zones NATIONAL and unset
with no hold (R102, R125); feeds DETACHED with nothing in flight (R145); the pulse timeout stopped (R179);
no queued report, no record in hand and an outstanding read index write overtaken (R187, R192); IRQ_N
deasserted (R193). -/
structure State.EnteredConfig (s t : State) : Prop where
  run : t.ps = { s.ps with run := .config, drainFlag := false }
  reservation : ∀ r, t.la.port ≠ .reserved r
  urgentPtr : t.la.urgentPtr = 0
  normalPtr : t.la.normalPtr = match t.la.port with
    | .busy g => g.lane
    | _ => 0
  entries : ∀ ring slot, t.entry ring slot = none
  heads : ∀ ring, t.head ring = none
  paths : ∀ r p, (t.path r p).score = 0 ∧ (t.path r p).health = .unseen ∧ (t.path r p).timer = none
  windows : ∀ w, t.window w = s.window w
  zones : ∀ z, (t.zone z).status = .national ∧ (t.zone z).commandHold = none ∧
    (t.zone z).pinHold = false ∧ (t.zone z).conceal = 0 ∧ (t.zone z).timeline = none
  feeds : ∀ f, (t.feed f).status = .detached ∧ (t.feed f).inFlight = none
  timebase : t.tb = { s.tb with pulseTimeout := none }
  reports : t.rw.queue = [] ∧ t.rw.hand = none ∧ t.rw.writeIndex = s.rw.writeIndex ∧
    t.rw.readIndex = s.rw.readIndex
  readWrite : t.rw.readWrite =
    if s.rw.readWrite = .outstanding then .overtaken else s.rw.readWrite
  irq : t.irqAsserted = false
  rest : s.SameBut t [.la, .ps, .ic, .zs, .vr, .tb, .rw, .mem, .freeCount]

/-! ## Outcomes, windows and holds -/

/-- Several reports are handed, in their order. -/
def State.handAll (s : State) (reports : List Report) : State := reports.foldl State.hand s

/-- Outcome `o` is given to zone `z` for window `w` (R100, R101), which the window keeps; a zone that refers to the
window is NATIONAL with conceal count 0; one ZONE_OUTCOME report with the SSN. -/
structure State.OutcomeMade (s t : State) (w : Fin 64) (z : Fin 24) (o : ZoneOutcome) (ssn : SSN) :
    Prop where
  window : t.window w = { s.window w with outcomes := (s.window w).outcomes.set z (some o) }
  windows : ∀ v, v ≠ w → t.window v = s.window v
  refers : (s.zone z).status.window? = some w →
    t.zone z = { s.zone z with status := .national, conceal := 0 }
  apart : (s.zone z).status.window? ≠ some w → t.zone z = s.zone z
  zones : ∀ k, k ≠ z → t.zone k = s.zone k
  report : t.rw = (s.hand (.zoneOutcome w (byte (s.windowRec w).regionByte) z ssn o)).rw
  rest : s.SameBut t [.zs, .rw]

/-- Outcome `o` is given to a zone unless the window holds one for it, which happens at most once (R100). -/
def State.GivenOutcome (s t : State) (w : Fin 64) (z : Fin 24) (o : ZoneOutcome) (ssn : SSN) : Prop :=
  ((s.window w).outcomes[z].isSome = true → t = s) ∧
  ((s.window w).outcomes[z] = none → s.OutcomeMade t w z o ssn)

/-- Window `w` moves to a state with one WINDOW_STATE report (R99, R101). -/
structure State.WindowBecame (s t : State) (w : Fin 64) (status : WindowStatus) (news : WindowNews) :
    Prop where
  window : t.window w = { s.window w with status := status }
  windows : ∀ v, v ≠ w → t.window v = s.window v
  zones : ∀ z, t.zone z = s.zone z
  report : t.rw =
    (s.hand (.windowState w (byte (s.windowRec w).regionByte) (s.windowRec w).start news none)).rw
  rest : s.SameBut t [.zs, .rw]

/-- Window `w` moves as R99 has it once zones have been armed or given outcomes: a PENDING or LIVE window of which
every zone holds an outcome is CLOSED; else a PENDING one of which some zone refers to it or holds an outcome is
LIVE; else it stays. -/
def State.WindowMoved (s t : State) (su : Setup) (w : Fin 64) : Prop :=
  let x := s.window w
  let opened := x.status = .pending ∨ x.status = .live
  let ended := ∀ z ∈ s.windowZones su w, x.outcomes[z].isSome = true
  let begun := ∃ z ∈ s.windowZones su w,
    x.outcomes[z].isSome = true ∨ (s.zone z).status.window? = some w
  (opened → ended → s.WindowBecame t w .closed .closed) ∧
  (x.status = .pending → ¬ ended → begun → s.WindowBecame t w .live .live) ∧
  (¬ (opened ∧ ended) → ¬ (x.status = .pending ∧ begun) → t = s)

/-- Zone `z` changes its state alone; its conceal count, its holds and its timeline stay. -/
structure State.StatusBecame (s t : State) (z : Fin 24) (status : ZoneStatus) : Prop where
  zone : t.zone z = { s.zone z with status := status }
  zones : ∀ k, k ≠ z → t.zone k = s.zone k
  windows : ∀ w, t.window w = s.window w
  rest : s.SameBut t [.zs]

/-- A hold of a kind is taken on zone `z`, by its state (R116): an ARMED zone gets HELD_OFF, with its horizon or,
unset, 0 as the report's SSN; a zone in effect returns with cause HOLD, hard for a HARD hold, which also makes
a return that is under way a hard one; else nothing. -/
def State.HoldTaken (kind : HoldKind) (z : Fin 24) (s t : State) : Prop :=
  match (s.zone z).status with
  | .national => t = s
  | .armed w =>
    s.GivenOutcome t w z .heldOff (((s.zone z).timeline.map (·.horizon)).getD 0)
  | .regional w => s.StatusBecame t z (.returning w .hold (kind == .hard))
  | .returning w _ hard =>
    (kind = .hard → hard = false → s.StatusBecame t z (.returning w .hold true)) ∧
    (kind = .soft ∨ hard = true → t = s)

/-- A hold is taken on several zones, in ascending order, then the windows that one of them was ARMED for move, in
ascending index (R116). Every other window stays. -/
def State.HoldsTaken (s t : State) (su : Setup) (kind : HoldKind) (zones : List (Fin 24)) : Prop :=
  ∃ u, InTurn (State.HoldTaken kind) zones s u ∧
    InTurn (fun w x y => x.WindowMoved y su w)
      ((List.finRange 64).filter (fun w => zones.any (fun z => (s.zone z).status == .armed w))) u t

/-- The cancel of window `w` reaches zone `z`, by its situation (R114): a zone with an outcome, and one on its way back,
stay; a zone in effect returns with cause CANCEL; any other gets CANCELLED, with its horizon or, unset, 0 as the
report's SSN. -/
def State.CancelReached (w : Fin 64) (z : Fin 24) (s t : State) : Prop :=
  let returning := ∃ c hard, (s.zone z).status = .returning w c hard
  ((s.window w).outcomes[z].isSome = true → t = s) ∧
  ((s.window w).outcomes[z] = none →
    ((s.zone z).status = .regional w → s.StatusBecame t z (.returning w .cancel false)) ∧
    (returning → t = s) ∧
    ((s.zone z).status ≠ .regional w → ¬ returning →
      s.GivenOutcome t w z .cancelled (((s.zone z).timeline.map (·.horizon)).getD 0)))

/-- The national head has advanced to `head`, as window `w` sees it (R122): where the window is PENDING or LIVE and its
end precedes the head, its zones that are unset get UNATTENDED in ascending order, and then the window moves. -/
def State.WindowUnattended (su : Setup) (head : SSN) (w : Fin 64) (s t : State) : Prop :=
  let passed := ((s.window w).status = .pending ∨ (s.window w).status = .live) ∧
    precedes (s.windowRec w).finish head = true
  (passed → ∃ u, InTurn (fun z x y => x.GivenOutcome y w z .unattended head)
    ((s.windowZones su w).filter (fun z => (s.zone z).timeline.isNone)) s u ∧ u.WindowMoved t su w) ∧
  (¬ passed → t = s)

/-! ## Feeds that leave their zones -/

/-- Feed `f` takes a new record, with one FEED_STATE report: the SSN given, the states before and after, and how many
other feeds of its zone are attached (R164). -/
structure State.FeedChanged (s t : State) (su : Setup) (f : Fin 32) (record : Feed) (ssn : SSN)
    (before : FeedNews) (reason : FeedReason) : Prop where
  feed : t.feed f = record
  feeds : ∀ k, k ≠ f → t.feed k = s.feed k
  report : ∃ n, t.rw = (s.hand (.feedState f (byte su.feeds[f].zone) (byte su.feeds[f].lane) ssn before
      record.status.news reason n)).rw ∧
    (∀ z, su.feedZone f = some z → n = ((s.attachedFeeds su z).filter (fun k => k != f)).length) ∧
    (su.feedZone f = none → n = 0)
  rest : s.SameBut t [.vr, .rw]

/-- The trail of zone `z` is recomputed (R126, R129): the least last of its attached feeds, where that is after the
trail, with the runs it passes retired. -/
structure State.TrailFollowed (s t : State) (su : Setup) (z : Fin 24) : Prop where
  zone : ∃ x, least ((s.attachedFeeds su z).filterMap (fun k =>
      (s.feed k).status.position?.map (·.last))) = some x ∧
    t.zone z = { s.zone z with
      timeline := (s.zone z).timeline.map (fun tl =>
        if precedes tl.trail x then { tl with trail := x, log := retire x tl.log } else tl) }
  zones : ∀ k, k ≠ z → t.zone k = s.zone k
  windows : ∀ w, t.window w = s.window w
  rest : s.SameBut t [.zs]

/-- Zone `z` is unset (R130), and where it referred to a window it gets UNATTENDED, with the horizon it had as the
report's SSN, after which the window moves (R121). -/
def State.ZoneUnset (s t : State) (su : Setup) (z : Fin 24) : Prop :=
  ∃ u, u.zone z = { s.zone z with timeline := none } ∧ (∀ k, k ≠ z → u.zone k = s.zone k) ∧
    (∀ w, u.window w = s.window w) ∧ s.SameBut u [.zs] ∧
    ((s.zone z).status.window? = none → t = u) ∧
    ∀ w, (s.zone z).status.window? = some w →
      ∃ v, u.GivenOutcome v w z .unattended (((s.zone z).timeline.map (·.horizon)).getD 0) ∧
        v.WindowMoved t su w

/-- A feed has left zone `z` (R150 step 4): the zone's trail is recomputed, or with no attached feed left the zone
is unset. -/
def State.ZoneLeft (s t : State) (su : Setup) (z : Fin 24) : Prop :=
  (s.attachedFeeds su z ≠ [] → s.TrailFollowed t su z) ∧
  (s.attachedFeeds su z = [] → s.ZoneUnset t su z)

/-- Feed `f` leaves ATTACHED for a state, for a reason (R150): its report with its last, the position dropped, a read
in flight no longer counting, then its zone follows. A feed that is not ATTACHED stays (R151). -/
def State.LeftAttached (su : Setup) (target : FeedStatus) (reason : FeedReason) (f : Fin 32)
    (s t : State) : Prop :=
  match (s.feed f).status with
  | .attached p => ∃ u, s.FeedChanged u su f
      { status := target, inFlight := (s.feed f).inFlight.map InFlight.uncounted } p.last .attached
      reason ∧
    (∀ z, su.feedZone f = some z → u.ZoneLeft t su z) ∧ (su.feedZone f = none → t = u)
  | _ => t = s

/-- Feed `f` at STOP (R152): an ATTACHED feed is DETACHED with its last in the report, a SLIPPED one with SSN 0; no zone
follows. -/
def State.FeedStopped (su : Setup) (f : Fin 32) (s t : State) : Prop :=
  match (s.feed f).status with
  | .attached p => s.FeedChanged t su f
      { status := .detached, inFlight := (s.feed f).inFlight.map InFlight.uncounted } p.last .attached
      .stop
  | .slipped => s.FeedChanged t su f { s.feed f with status := .detached } 0 .slipped .stop
  | .detached => t = s

/-! ## Ring writes and the held list -/

/-- A ring write has been accepted (R85, R86, R92, R122): the entry ARRIVING, with the verdict of its check
and the gap flag reckoned from the head before, the head moved, every other entry, head and path as it
was; and an advance of the national head has reached the windows in ascending index (R122), which gives UNATTENDED
to the unset zones, without an outcome, of each PENDING or LIVE window whose end it has passed. -/
structure State.Accepted (s t : State) (su : Setup) (ring : RingId) (k : Nat) (cell : List Byte) :
    Prop where
  entry : t.entry ring k = some
    { state := .arriving
        (if cellCheck (cellPayload cell) = cellCheckField cell then .matching else .mismatch)
        (match ring, s.head ring with
          | .regional _ _, some h => precedes h (cellSsn cell) && decide (1 < distance h (cellSsn cell))
          | _, _ => false)
      ssn := cellSsn cell
      tag := cellTag cell
      splice := cellSplice cell
      late := 0 }
  entries : ∀ ring' k', dirKey ring' k' ≠ dirKey ring k → t.entry ring' k' = s.entry ring' k'
  head : t.head ring = match s.head ring with
    | none => some (cellSsn cell)
    | some h => if precedes h (cellSsn cell) then some (cellSsn cell) else some h
  heads : ∀ ring', ring' ≠ ring → t.head ring' = s.head ring'
  paths : ∀ r p, (t.path r p).score = (s.path r p).score ∧ (t.path r p).health = (s.path r p).health ∧
    (t.path r p).timer = (s.path r p).timer
  timelines : ∀ z, (t.zone z).timeline = (s.zone z).timeline
  advance :
    let advances := ring = .national ∧ ∀ h, s.head ring = some h → precedes h (cellSsn cell) = true
    (advances → ∃ a b : State, a.zs = s.zs ∧ a.ps = s.ps ∧ a.tb = s.tb ∧ a.rw = s.rw ∧
      InTurn (State.WindowUnattended su (cellSsn cell)) (List.finRange 64) a b ∧ t.zs = b.zs ∧
      t.rw = b.rw) ∧
    (¬ advances → t.zs = s.zs ∧ t.rw = s.rw)
  outcomes : ∀ (w : Fin 64) (z : Fin 24),
    let unattended := ring = .national ∧
      (∀ h, s.head ring = some h → precedes h (cellSsn cell) = true) ∧
      ((s.window w).status = .pending ∨ (s.window w).status = .live) ∧
      precedes (s.windowRec w).finish (cellSsn cell) = true ∧ z ∈ s.windowZones su w ∧
      (s.zone z).timeline = none ∧ (s.window w).outcomes[z] = none
    (unattended → (t.window w).outcomes[z] = some .unattended) ∧
    (¬ unattended → (t.window w).outcomes[z] = (s.window w).outcomes[z])

/-- A held write's old SSN is still held back: pinned in RUNNING; in STOPPING an in-flight read of its slot
(R169, R172, R176). -/
def State.StillHeld (s : State) (su : Setup) (h : HeldWrite) : Prop :=
  (s.isRunning = true ∧ s.pinned su h.ring h.old = true) ∨
  (s.isRunning = false ∧ ∃ f rd, (s.feed f).inFlight = some rd ∧ rd.ring = h.ring ∧
    rd.addr = h.req.addr)

/-- A held write has been released (R86, R173): off the list and WAITING, accepted now in RUNNING, without
acceptance in STOPPING. -/
structure State.ReleasedAs (s t : State) (su : Setup) (h : HeldWrite) : Prop where
  list : t.rg.held = s.rg.held.filter (fun x => x.lane != h.lane)
  lane : t.lane (ext h.lane) = .waiting
    { req := h.req, kind := if s.isRunning then .ring h.ring h.slot else .released }
  lanes : ∀ k, k ≠ ext h.lane → t.lane k = s.lane k
  arbiter : t.la = { s.la with lanes := t.la.lanes }
  accepted : s.isRunning = true → s.Accepted t su h.ring h.slot h.req.body.data
  unaccepted : s.isRunning = false → s.SameBut t [.la, .rg]
  rest : s.SameBut t [.la, .ic, .zs, .rg, .rw]

/-- The held writes of a list have been examined in its order, each released whose old SSN is no longer
held back (R172). -/
def State.Examined (su : Setup) : List HeldWrite → State → State → Prop :=
  InTurn (fun h s t => (s.StillHeld su h → t = s) ∧ (¬ s.StillHeld su h → s.ReleasedAs t su h))

/-- Zone `z`'s trail is not what it was, or the zone has been unset. -/
def State.TrailMoved (s t : State) (z : Fin 24) : Prop :=
  (t.zone z).timeline.map (·.trail) ≠ (s.zone z).timeline.map (·.trail)

/-! ## Zones -/

/-- The run of a log that covers an SSN between trail and horizon (R124, R167): every later run up to it
begins at or before the SSN and the next one after it; the front run covers from the trail on, wherever it
began. -/
def Covers (log : List Run) (n : SSN) (run : Run) : Prop :=
  ∃ i, log[i]? = some run ∧
    (∀ j r, j < i → log[j + 1]? = some r → atOrBefore r.first n = true) ∧
    ∀ r, log[i + 1]? = some r → atOrBefore r.first n = false

/-- Zone `z` range-pins `e` in a ring (R166, R167): `e` lies between its trail and horizon, and for a regional
ring the zone is of its region and the run that covers `e` has the ring's path as its source. -/
def State.RangePinned (s : State) (su : Setup) (ring : RingId) (e : SSN) (z : Fin 24) : Prop :=
  ∃ t, (s.zone z).timeline = some t ∧
    atOrBefore t.trail t.horizon = true ∧ distance t.trail e ≤ distance t.trail t.horizon ∧
    match ring with
    | .national => True
    | .regional r p => su.zoneRegion z = some r ∧
        ∃ run, Covers t.log e run ∧ run.source = .regional p

/-- The path chosen among candidates (R108): a LIVE one before one that is not, and of equals the window's
preferred path. -/
def State.Prefers (s : State) (r : Fin 12) (preferred : Path) (candidate : Path → Prop) (p : Path) :
    Prop :=
  candidate p ∧ ((s.path r p).health = .live ∨ ∀ q, candidate q → (s.path r q).health ≠ .live) ∧
    ∀ q, candidate q → q ≠ p → ((s.path r q).health = .live ↔ (s.path r p).health = .live) →
      p = preferred

end Sys2Proof.Machine
end

