-- ==== Sys2Proof/Certificates/Slice0/Obligations.lean ====
section
/-! DEFINITION. The statements for the provers. A completion is stated up to `State.finish`, the response and what
follows it, which `AccessEnds` is about. The data of a write request are its operand fitted to its length (log 23). -/

open Sys2Proof Sys2Proof.Machine

/-! ## Steps -/

/-- A step takes the command at the front of the queue and carries it out on the rest. -/
def Obligations.StepRunsFrontCommand : Prop :=
  ∀ (c : Instr) (q : List Instr) (s : State),
    step (s.withPending (c :: q)) = exec c (s.withPending q)

/-- No command ends in a fault or a refusal; none touches the queue (which is the sender's: the model's choice,
log 7); a command changes no byte of memory outside what the access in progress writes, and one that ends no
access changes none (memory changes at completions: the model's choice, log 19) and draws no free value (log 5). -/
def Obligations.CommandsAnswerAndKeepMemory : Prop :=
  ∀ (c : Instr) (s : State), ∃ t, exec c s = .next t ∧ t.pending = s.pending ∧
    (∀ k, (∀ g a, s.inProgress = some (g, a) →
        k < a.req.base ∨ a.req.base + a.req.body.data.length ≤ k) →
      readByte t.mem k = readByte s.mem k) ∧
    (endsAccess c = false → t.mem = s.mem ∧ t.freeCount = s.freeCount)

/-! ## Reset -/

/-- The state right after reset, block by block (R36, R53, R59), with no request kept. RESET_N released, the straps 0
and HOLD_REQ low (log 6), carriage memory that reads 0 (log 4), no response on a lane (log 10) and an empty queue of
commands (log 7) are the model's choices. -/
def Obligations.ResetValues : Prop :=
  let s := State.reset
  s.ps.run = .config ∧ s.ps.drainFlag = false ∧ s.ps.stopTicket = 0 ∧
  (∀ k, readByte s.ps.planCopy k = 0) ∧ (∀ w, w ∈ s.ps.unknown ↔ w < 1024) ∧
  (∀ l, s.lane l = .idle) ∧ s.la.port = .free ∧ s.la.urgentPtr = 0 ∧ s.la.normalPtr = 0 ∧
  (∀ ring slot, s.entry ring slot = none) ∧ (∀ ring, s.head ring = none) ∧
  (∀ r p, (s.path r p).score = 0 ∧ (s.path r p).health = .unseen ∧ (s.path r p).timer = none) ∧
  (∀ w, (s.window w).status = .empty ∧ ∀ z : Fin 24, (s.window w).outcomes[z] = none) ∧
  (∀ z, (s.zone z).status = .national ∧ (s.zone z).commandHold = none ∧
    (s.zone z).pinHold = false ∧ (s.zone z).conceal = 0 ∧ (s.zone z).timeline = none) ∧
  (∀ f, s.feed f = { status := .detached, inFlight := none }) ∧ s.rg.held = [] ∧
  s.tb.prescaler = 0 ∧ s.tb.tickCount = 0 ∧ s.tb.pulseCount = 0 ∧ s.tb.refState = .waiting ∧
  s.tb.pulseTimeout = none ∧ s.tb.captureTick = 0 ∧ s.tb.captureHead = none ∧
  s.rw.queue = [] ∧ s.rw.hand = none ∧ s.rw.writeIndex = 0 ∧ s.rw.readIndex = 0 ∧
  s.rw.overrun = false ∧ s.rw.readWrite = .none ∧ s.rw.discardSince = false ∧
  s.irqAsserted = false ∧
  (∀ l : Fin 8, s.la.kept[l] = [] ∧ s.la.responses[l] = none) ∧
  s.resetAsserted = false ∧ s.ac.planSel = 0 ∧ s.holdReq = false ∧
  (∀ k, readByte s.mem k = 0) ∧ s.pending = []

/-- RESET_N asserted: every request is discarded without a response, the access in progress is abandoned, and every
block is in its reset state. No response stands on a port then (the model's choice, log 10); HOLD_REQ, the straps and
the queue of commands are left alone (the model's reading, log 30). The bytes of an abandoned write are free values
(log 5). -/
def Obligations.ResetNAssertResetsEveryBlock : Prop :=
  ∀ s : State, ∃ t, exec .resetNAssert s = .next t ∧ t.resetAsserted = true ∧
    (∀ l, t.lane l = .idle) ∧ (∀ l : Fin 8, t.la.kept[l] = []) ∧
    (∀ l : Fin 8, t.la.responses[l] = none) ∧ t.la.port = .free ∧
    t.la.urgentPtr = 0 ∧ t.la.normalPtr = 0 ∧
    t.ps = PlanShadow.reset ∧ t.ic = IngestChecker.reset ∧ t.zs = ZoneScheduler.reset ∧
    t.vr = ViewResolver.reset ∧ t.rg.held = [] ∧ t.tb = Timebase.reset ∧
    t.rw = ReportWriter.reset ∧ t.irqAsserted = false ∧
    s.SameBut t [.la, .ps, .ic, .zs, .vr, .rg, .tb, .rw, .mem, .resetAsserted, .freeCount]

/-- RESET_N released: the straps place the plan area, whose addresses are PLAN in every run state; at no other moment
do the straps count. A release where RESET_N is not asserted changes nothing (the model's reading, log 1). -/
def Obligations.ResetNReleasePlacesPlanArea : Prop :=
  ∀ (s : State) (p : BitVec 4),
    (s.resetAsserted = true → ∃ t, exec (.resetNRelease p) s = .next t ∧
      t.planBase = p.toNat * 2 ^ 32 ∧ t.resetAsserted = false ∧
      s.SameBut t [.ac, .resetAsserted]) ∧
    (s.resetAsserted = false → exec (.resetNRelease p) s = .next s) ∧
    ∀ k, s.planBase ≤ k → k < s.planBase + 65536 → s.classify k = .plan

/-! ## Cells and slot numbers -/

/-- Serial order of SSNs (R12), with what the ring-write checks make of an unordered pair; and the least of a set of
SSNs within a span below 2^31 (R13): the member that no other member precedes. -/
def Obligations.SerialOrder : Prop :=
  (∀ a b : SSN,
    (precedes a b = true ↔ 1 ≤ (b - a).toNat ∧ (b - a).toNat ≤ 2 ^ 31 - 1) ∧
    ((b - a).toNat = 0 ↔ a = b) ∧
    (a = b → precedes a b = false ∧ precedes b a = false) ∧
    (atOrBefore a b = true ↔ a = b ∨ precedes a b = true) ∧
    ((b - a).toNat = 2 ^ 31 → unordered a b = true ∧ precedes a b = false ∧ precedes b a = false ∧
      atOrBefore a b = false ∧ atOrBefore b a = false)) ∧
  (∀ (n : SSN) (k : Nat), (ssnAdd n k).toNat = (n.toNat + k) % 2 ^ 32 ∧
    ssnAdd (ssnSub n k) k = n) ∧
  least [] = none ∧
  (∀ (base : SSN) (l : List SSN), l ≠ [] → (∀ x ∈ l, (x - base).toNat < 2 ^ 31) →
    ∃ y, least l = some y ∧ y ∈ l ∧ ∀ x ∈ l, precedes x y = false) ∧
  ∀ (s : State) (su : Setup) (ring : RingId) (k : Nat) (cell : List Byte) (e : Entry),
    cell.length = 256 → cellMark cell = 0xA7 → su.slotOf ring (cellSsn cell) = k →
    s.entry ring k = some e → unordered (cellSsn cell) e.ssn = true →
    s.checkRingWrite su ring k cell = .refused .stale

/-- The check, bit by bit (R8). -/
def Obligations.CheckIsBitwise : Prop :=
  ∀ payload : List Byte, cellCheck payload =
    (payload.flatMap (fun b => (List.range 8).map (fun i => b.getMsbD i))).foldl
      (fun (reg : BitVec 16) bit =>
        if bit = reg.getMsbD 0 then reg <<< 1 else (reg <<< 1) ^^^ 0x1021#16)
      (0xFFFF#16 : BitVec 16)

/-- Where a cell carries mark, SPLICE_READY, tag, SSN, check and payload (section 12.2); the bytes of a null cell, and
of a ring cell as it is served (R10, R11, R160). -/
def Obligations.ServedCellBytes : Prop :=
  (∀ c : List Byte, c.length = 256 →
    let b := fun i => c.getD i 0
    cellMark c = b 0 ∧ cellSplice c = (b 1).getLsbD 7 ∧
    (cellTag c).toNat = bigEndian b 2 2 % 4096 ∧ (cellSsn c).toNat = bigEndian b 6 4 ∧
    (cellCheckField c).toNat = bigEndian b 10 2 ∧ (cellPayload c).length = 240 ∧
    ∀ i < 240, (cellPayload c).getD i 0 = b (16 + i)) ∧
  (∀ n : SSN,
    (nullCell n).length = 256 ∧
    (nullCell n).take 6 = [0xA7, 0, 0x0F, 0xFF, 0, 0] ∧ cellTag (nullCell n) = 4095 ∧
    cellSsn (nullCell n) = n ∧
    cellCheckField (nullCell n) = cellCheck (List.replicate 240 0xFF) ∧
    ((nullCell n).drop 12).take 4 = [0, 0, 0, 0] ∧
    cellPayload (nullCell n) = List.replicate 240 0xFF) ∧
  ∀ (c : List Byte) (tag : Option Tag) (brk : Bool), c.length = 256 →
    (patchCell c tag brk).length = 256 ∧
    (∀ i, i ≠ 1 → i ≠ 2 → i ≠ 3 → (patchCell c tag brk).getD i 0 = c.getD i 0) ∧
    (∀ i : Nat, ((patchCell c tag brk).getD 1 0).getLsbD i =
      if i = 5 then tag.isSome
      else if i = 6 then brk || (c.getD 1 0).getLsbD 6
      else (c.getD 1 0).getLsbD i) ∧
    (tag = none → (patchCell c tag brk).getD 2 0 = c.getD 2 0 ∧
      (patchCell c tag brk).getD 3 0 = c.getD 3 0) ∧
    ∀ t : Tag, tag = some t →
      ((patchCell c tag brk).getD 2 0).toNat * 256 + ((patchCell c tag brk).getD 3 0).toNat = t.toNat

/-! ## The memory port -/

/-- Which WAITING lane a FREE port is granted to (R25, R26); in CONFIG one FIXED group (R23). -/
def Obligations.GrantOrder : Prop :=
  ∀ s : State,
    (s.pick = none ↔ ∀ l, ¬ s.Waits l) ∧
    (∀ l, s.pick = some l →
      s.Waits l ∧
      (s.isUrgent l = false → ∀ k, s.Waits k → s.isUrgent k = false) ∧
      (s.groupMode (s.isUrgent l) = .fixed →
        ∀ k, s.Waits k → s.isUrgent k = s.isUrgent l → l ≤ k) ∧
      (s.groupMode (s.isUrgent l) = .rotating →
        ∀ k, s.Waits k → s.isUrgent k = s.isUrgent l →
          (l.val + 8 - (s.groupPtr (s.isUrgent l)).val) % 9 ≤
            (k.val + 8 - (s.groupPtr (s.isUrgent l)).val) % 9)) ∧
    s.isUrgent reportLane = false ∧
    (s.isConfig = true → ∀ l, s.isUrgent l = false ∧ s.groupMode false = .fixed)

/-- What the Lane Arbiter does whenever requesters or the port have changed (R24, R28, R30, R31). -/
def Obligations.PortIsGranted : Prop :=
  ∀ s : State,
    (s.la.port = .free → s.pick = none → s.settlePort = s) ∧
    (∀ l, s.la.port = .free → s.pick = some l → s.GrantedTo s.settlePort l 1) ∧
    (∀ g, s.la.port = .busy g → s.settlePort = s) ∧
    ∀ r, s.la.port = .reserved r →
      (s.Waits r.lane → s.GrantedTo s.settlePort r.lane (r.count + 1)) ∧
      (¬ s.Waits r.lane → r.urgent = false → ∀ k, s.Waits k → s.isUrgent k = true →
        ∃ l, s.pick = some l ∧ s.isUrgent l = true ∧ s.GrantedTo s.settlePort l 1) ∧
      (¬ s.Waits r.lane → r.urgent = true ∨ (∀ k, s.Waits k → s.isUrgent k = false) →
        s.settlePort = s)

/-- The end of an external access (R19, R27, R33, R65): the response (which the state keeps: log 10), an entry to
CONFIG that waits for it, which stands before the next grant (R66; the model's reading, log 16), the reservation, or
the grant of the lane that R24 to R26 pick, then in the same step the requests kept waiting at the lane's port, from
state `u` on (the model's reading, log 9). Those are taken in order as long as the lane is IDLE, each as a
LANE_REQUEST of it would be, and the rest stay kept in their order (R18). -/
def Obligations.AccessEnds : Prop :=
  (∀ (l : Fin 8) (u : State),
    State.takeKept l [] u = u.setKept l [] ∧
    (∀ r rest, u.lane (ext l) = .idle →
      State.takeKept l (r :: rest) u = State.takeKept l rest (u.takeRequest l r)) ∧
    (∀ r rest, u.lane (ext l) ≠ .idle → State.takeKept l (r :: rest) u = u.setKept l (r :: rest)) ∧
    (∀ q, (u.setKept l q).la = { u.la with kept := u.la.kept.set l q } ∧
      u.SameBut (u.setKept l q) [.la]) ∧
    ∀ dir addr n link data, u.Takes l → exec (.laneRequest l dir addr n link data) u =
      .next ((u.takeRequest l (makeRequest dir addr n link data)).setKept l [])) ∧
  ∀ (s : State) (l : Fin 8) (g : Grant) (x : MemAnswer) (data : List Byte), g.lane = ext l →
    let response : Response := { status := answerStatus x, data := data }
    let reserves := s.isConfig = false ∧ g.link = true ∧ x = .okay ∧ g.count < 8 ∧
      (s.isUrgent (ext l) = true ∨ ∀ k, k ≠ ext l → s.Waits k → s.isUrgent k = false)
    ∃ u, s.finish l g x data = State.takeKept l s.la.kept[l] u ∧
      u.lane (ext l) = .idle ∧ u.la.responses[l] = some response ∧ s.OthersKept u l ∧
      (s.entryDue = false →
        s.SameBut u [.la] ∧
        (reserves → u.la = s.la.delivered l response
          (.reserved { lane := ext l, urgent := s.isUrgent (ext l), wait := 0, count := g.count })) ∧
        (¬ reserves → u.SettledFrom (s.la.delivered l response .free) ∧
          (∀ r, u.la.port ≠ .reserved r) ∧ ∀ g', u.la.port = .busy g' → g'.count = 1)) ∧
      (s.entryDue = true → s.EnteredConfig u ∧ u.rw.overrun = s.rw.overrun ∧ u.mem = s.mem ∧
        u.SettledFrom { s.la.delivered l response .free with urgentPtr := 0, normalPtr := 0 })

/-- At the completion of the eighth access of a sequence no reservation is made, and the next access
starts a sequence of its own, for NORMAL and URGENT lanes alike (R32). -/
def Obligations.NoNinthLinkedAccess : Prop :=
  ∀ (s : State) (g : Grant) (x : MemAnswer), g.count = 8 →
    (∀ r, (s.closePort g x).la.port ≠ .reserved r) ∧
    ∀ g', (s.closePort g x).la.port = .busy g' → g'.count = 1

/-- The wait of a reservation has reached LINK_WAIT (R29), where it stays until this row is taken (the model's
choice, log 8); before that the row changes nothing (the model's reading, log 1). -/
def Obligations.LinkWaitExpires : Prop :=
  ∀ (s : State) (su : Setup) (r : Reservation), s.setup = some su → s.la.port = .reserved r →
    (su.linkWait ≤ r.wait → ∃ t, exec .linkWaitExpiry s = .next t ∧ s.SameBut t [.la] ∧
      (s.pick = none → t = s.setPort .free) ∧
      (∀ l, s.pick = some l → (s.setPort .free).GrantedTo t l 1)) ∧
    (r.wait < su.linkWait → exec .linkWaitExpiry s = .next s)

/-! ## Requests -/

/-- A request presented while another is outstanding is kept waiting (R18); while RESET_N is asserted it is
discarded (R36; log 17). -/
def Obligations.RequestIsKeptWaiting : Prop :=
  ∀ (s : State) (l : Fin 8) (dir : Direction) (addr : Addr) (n : Nat) (link : Bool)
    (data : List Byte),
    (s.resetAsserted = false → s.lane (ext l) ≠ .idle →
      exec (.laneRequest l dir addr n link data) s =
        .next (s.setKept l (s.la.kept[l] ++ [makeRequest dir addr n link data]))) ∧
    (s.resetAsserted = true → exec (.laneRequest l dir addr n link data) s = .next s)

/-- The rights of the lane classes (R46, R48, R49), and the form check, LANE_OFF and RIGHTS, in that order
(R20, R47, R48, R51, R52). -/
def Obligations.RightsAndRefusals : Prop :=
  (∀ (s : State) (l : Fin 8) (area : Area) (dir : Direction),
    (s.isConfig = true → area = .plan ∨ area = .plain → s.may l area dir = true) ∧
    ∀ su, s.setup = some su →
      (su.classOf l = some .none → s.may l area dir = false) ∧
      (su.classOf l = some .control →
        (s.may l area dir = true ↔ area = .plan ∨ area = .plain ∨
          (dir = .read ∧ (area = .report ∨ area = .national ∨ ∃ r p, area = .regional r p)))) ∧
      (su.classOf l = some .ingest →
        (s.may l area dir = true ↔ area = .plain ∨
          (dir = .read ∧ (area = .national ∨ ∃ r p, area = .regional r p)) ∨
          (dir = .write ∧ ((area = .national ∧ su.natLane = l.val) ∨
            ∃ r p, area = .regional r p ∧ su.pathLane r p = l.val)))) ∧
      (su.classOf l = some .emission →
        (s.may l area dir = true ↔ area = .plain ∨
          (dir = .read ∧ ∃ f, area = .view f ∧ su.feedLane f = some l)))) ∧
  ∀ (s : State) (l : Fin 8) (dir : Direction) (addr : Addr) (n : Nat) (link : Bool)
    (data : List Byte),
    let r := makeRequest dir addr n link data
    (r.formOk = true ↔
      8 ≤ n ∧ n ≤ 256 ∧ n % 8 = 0 ∧ addr.toNat % 8 = 0 ∧ addr.toNat % 256 + n ≤ 256) ∧
    (s.Takes l →
      (r.formOk = false → ∃ t, exec (.laneRequest l dir addr n link data) s = .next t ∧
        s.RefusedAs t l r .form 0) ∧
      (r.formOk = true → ∀ su, s.setup = some su → su.classOf l = some .none →
        ∃ t, exec (.laneRequest l dir addr n link data) s = .next t ∧
          s.RefusedAs t l r .laneOff 0) ∧
      (r.formOk = true → s.laneClass l ≠ .none → s.may l (s.classify addr.toNat) dir = false →
        ∃ t, exec (.laneRequest l dir addr n link data) s = .next t ∧
          s.RefusedAs t l r .rights 0))

/-- Where the areas lie, and what an address is by run state (R41, R43). -/
def Obligations.AddressClassification : Prop :=
  (∀ (su : Setup) (e : Extent), e ∈ su.areaMap ↔
    (e = { area := .national, base := su.natBase, length := su.nr * 256, field := 0x000 } ∨
    (∃ r p, su.regions[r].enabled = true ∧ e.area = .regional r p ∧ e.field = 0x008 ∧
      e.base = su.regBase + (2 * r.val + pathCode p) * su.rs * 256 ∧ e.length = su.rs * 256) ∨
    (∃ f : Fin 32, su.feeds[f].enabled = true ∧ e.area = .view f ∧ e.field = 0x010 ∧
      e.base = su.viewBase + f.val * su.nr * 256 ∧ e.length = su.nr * 256) ∨
    e = { area := .report, base := su.reportBase, length := su.reportSize * 32, field := 0x018 })) ∧
  ∀ (s : State) (k : Nat),
    (s.planBase ≤ k ∧ k < s.planBase + 65536 → s.classify k = .plan) ∧
    (¬ (s.planBase ≤ k ∧ k < s.planBase + 65536) →
      (s.ps.run = .config → s.classify k = .plain) ∧
      (∀ su, s.ps.run = .running su →
        (∃ e ∈ su.areaMap, e.has k = true ∧ s.classify k = e.area) ∨
        ((∀ e ∈ su.areaMap, e.has k = false) ∧ s.classify k = .plain)) ∧
      (∀ su, s.ps.run = .stopping su →
        (∃ e ∈ su.areaMap, ∃ f, e.area = .view f ∧ e.has k = true ∧ s.classify k = .view f) ∨
        ((∀ e ∈ su.areaMap, ∀ f, e.area = .view f → e.has k = false) ∧ s.classify k = .plain)))

/-- A permitted request that no other block owns is presented untouched: any access of plain memory, and
every READ of the plan area, the report ring and the rings (R50). -/
def Obligations.PlainRequestPresented : Prop :=
  ∀ (s : State) (l : Fin 8) (dir : Direction) (addr : Addr) (n : Nat) (link : Bool)
    (data : List Byte),
    let r := makeRequest dir addr n link data
    let area := s.classify addr.toNat
    s.Takes l → r.formOk = true → s.may l area dir = true → s.laneClass l ≠ .none →
    (area = .plain ∨ (dir = .read ∧ ∀ f, area ≠ .view f)) →
    ∃ t, exec (.laneRequest l dir addr n link data) s = .next t ∧
      s.PresentedAs t l { req := r, kind := .plain } ∧ s.SameBut t [.la]

/-- A permitted plan write: LOCKED, RANGE, or presented (R54, R192); the read index is the read index word's first
four bytes (section 12.8). In CONFIG a write of that word is a plan write like any other (the model's reading, log
18). -/
def Obligations.PlanWriteTaken : Prop :=
  ∀ (s : State) (l : Fin 8) (addr : Addr) (n : Nat) (link : Bool) (data : List Byte),
    let r := makeRequest .write addr n link data
    let c := Instr.laneRequest l .write addr n link data
    let locked := (s.isConfig = false ∧ s.covers r 0 4096 = true) ∨
      ∃ w, (s.window w).status.open? = true ∧ s.covers r (windowOffset w) 64 = true
    s.Takes l → r.formOk = true → s.classify addr.toNat = .plan → s.may l .plan .write = true →
    s.laneClass l ≠ .none →
    (locked → ∃ t, exec c s = .next t ∧ s.RefusedAs t l r .locked 0) ∧
    (¬ locked → s.isConfig = true ∨ s.covers r readIndexWord 8 = false →
      ∃ t, exec c s = .next t ∧ s.PresentedAs t l { req := r, kind := .plan false } ∧
        s.SameBut t [.la]) ∧
    (¬ locked → ∀ su, s.setup = some su → s.covers r readIndexWord 8 = true →
      let v := bigEndian (fun i => r.body.data.getD i 0) (0x2100 - (r.base - s.planBase)) 4
      let outOfRange := su.reportSize ≤ v ∨
        (s.rw.writeIndex + su.reportSize - s.rw.readIndex) % su.reportSize <
          (v + su.reportSize - s.rw.readIndex) % su.reportSize ∨
        s.rw.readWrite ≠ .none
      (outOfRange → ∃ t, exec c s = .next t ∧ s.RefusedAs t l r .range 0) ∧
      (¬ outOfRange → ∃ t, exec c s = .next t ∧
        s.PresentedAs t l { req := r, kind := .plan true } ∧
        t.rw = { s.rw with readWrite := .outstanding, discardSince := false } ∧
        s.SameBut t [.la, .rw]))

/-! ## Plain accesses and plan writes -/

/-- A plain access completes (R33, R34). Memory is read and written at the completion (the model's choice, log 19);
the bytes that ERROR leaves are free values (log 5). -/
def Obligations.PlainAccessCompletes : Prop :=
  ∀ (s : State) (l : Fin 8) (g : Grant) (a : Access) (x : MemAnswer),
    s.externalInProgress = some (l, g, a) → a.kind = .plain →
    ∃ v data, exec (.plainAccessComplete x) s = .next (v.finish l g x data) ∧
      s.MemoryAfter v a.req x ∧ v.rw = s.faultReported l a x ∧
      (x = .okay → ∀ n, a.req.body = .read n → data = readBytes s.mem a.req.base n) ∧
      (x = .error → ∀ n, a.req.body = .read n → data = List.replicate n 0xFF) ∧
      (∀ d, a.req.body = .write d → data = []) ∧
      s.SameBut v [.mem, .freeCount, .rw]

/-- A plan write that asks for nothing completes: the copies follow memory, or with ERROR the words it covers become
unknown (R55, R56). Which row it is is the model's reading (log 2); the bytes that ERROR leaves in memory are free
values (log 5). -/
def Obligations.PlanWriteCompletes : Prop :=
  ∀ (s : State) (l : Fin 8) (g : Grant) (a : Access),
    (s.Completes l g a .plain → ∃ u, s.PlanLanded u a.req ∧
      exec (.planWriteComplete .okay) s = .next (u.finish l g .okay [])) ∧
    (s.externalInProgress = some (l, g, a) → a.kind = .plan false →
      ∃ v, exec (.planWriteComplete .error) s = .next (v.finish l g .error []) ∧
        s.MemoryAfter v a.req .error ∧ v.rw = s.faultReported l a .error ∧
        (∀ w, w ∈ v.ps.unknown ↔ w < 1024 ∧ (w ∈ s.ps.unknown ∨
          overlaps (s.planOffset a.req) a.req.body.length (8 * w) 8 = true)) ∧
        v.ps = { s.ps with unknown := v.ps.unknown } ∧
        s.SameBut v [.mem, .freeCount, .rw, .ps])

/-- A write of the read index word completes (R192): the read index is the word's first four bytes, the clear-overrun
bit bit 0 of its fifth (section 12.8). With OKAY or ERROR it is this row (the model's reading, log 2). -/
def Obligations.ReadIndexWriteCompletes : Prop :=
  ∀ (s : State) (l : Fin 8) (g : Grant) (a : Access) (x : MemAnswer),
    s.externalInProgress = some (l, g, a) → a.kind = .plan true →
    let b := fun i => a.req.body.data.getD i 0
    let offset := a.req.base - s.planBase
    ∃ v, exec (.readIndexWrite x) s = .next (v.finish l g x []) ∧
      s.MemoryAfter v a.req x ∧ v.rw.readWrite = .none ∧
      (x = .okay → s.rw.readWrite = .outstanding →
        v.rw.readIndex = bigEndian b (0x2100 - offset) 4 ∧
        (v.rw.overrun = true ↔ s.rw.overrun = true ∧
          ¬ ((b (0x2100 - offset + 4)).getLsbD 0 = true ∧ s.rw.discardSince = false)) ∧
        v.rw.discardSince = s.rw.discardSince) ∧
      (x = .error ∨ s.rw.readWrite ≠ .outstanding →
        v.rw = { s.faultReported l a x with readWrite := .none }) ∧
      v.rw.writeIndex = s.rw.writeIndex ∧ v.rw.queue = (s.faultReported l a x).queue ∧
      v.rw.hand = s.rw.hand ∧
      s.SameBut v [.mem, .freeCount, .rw]

/-! ## Submit -/

/-- A plan write over control words with action SUBMIT completes: each such record, read as section 12.5 lays it out,
is examined in ascending index, no other window changes, and the record examined becomes PENDING or REJECTED with its
report (R55, R72, R75, R76). The row is log 2; a REJECTED window keeps its outcomes (log 29), and its report carries
the record's region byte as it is (log 26): the model's readings. -/
def Obligations.SubmitExaminesRecords : Prop :=
  (∀ (m : Memory) (w : Fin 64), (windowRecAt m w).LaidOut m w) ∧
  (∀ (s : State) (l : Fin 8) (g : Grant) (a : Access), s.Completes l g a .submit →
    ∃ u v, s.PlanLanded u a.req ∧ exec .submit s = .next (v.finish l g .okay []) ∧
      v = (u.submittedRecords a.req).foldl (fun t w => t.submitRecord (ext l) w) u ∧
      (u.submittedRecords a.req).Pairwise (· < ·) ∧
      (∀ w, w ∈ u.submittedRecords a.req ↔
        u.covers a.req (windowOffset w) 8 = true ∧ (u.windowRec w).action = 1) ∧
      (∀ w, w ∉ u.submittedRecords a.req → v.window w = u.window w) ∧
      (∀ w ∈ u.submittedRecords a.req,
        (v.window w).status = .rejected ∨
          (s.isRunning = true ∧ (v.window w).status = .pending ∧
            ∀ z : Fin 24, (v.window w).outcomes[z] = none)) ∧
      (∀ z, v.zone z = u.zone z) ∧ u.SameBut v [.zs, .rw]) ∧
  ∀ (u : State) (l : Fin 9) (w : Fin 64),
    let wr := u.windowRec w
    let report := fun news reason => (u.hand (.windowState w (byte wr.regionByte) wr.start news reason)).rw
    (∀ v, v ≠ w → (u.submitRecord l w).window v = u.window v) ∧
    (∀ z, (u.submitRecord l w).zone z = u.zone z) ∧
    u.SameBut (u.submitRecord l w) [.zs, .rw] ∧
    (u.isRunning = false →
      (u.submitRecord l w).window w = { u.window w with status := .rejected } ∧
      (u.submitRecord l w).rw = report .rejected (some .notRunning)) ∧
    ∀ su, u.ps.run = .running su →
      (∀ reason, u.validateSubmit su w l = some reason →
        (u.submitRecord l w).window w = { u.window w with status := .rejected } ∧
        (u.submitRecord l w).rw = report .rejected (some reason)) ∧
      (u.validateSubmit su w l = none →
        ((u.submitRecord l w).window w).status = .pending ∧
        (∀ z : Fin 24, ((u.submitRecord l w).window w).outcomes[z] = none) ∧
        (u.submitRecord l w).rw = report .pending none)

/-- The seven checks of a submitted record, in their order (R73, R74): a start after the slot that follows a horizon,
and not 2^31 from the horizon, passes check 5. -/
def Obligations.SubmitChecksInOrder : Prop :=
  ∀ (u : State) (su : Setup) (w : Fin 64) (l : Fin 9),
    let wr := u.windowRec w
    let graceEnd := fun (x : WindowRec) => x.finish + BitVec.ofNat 32 su.returnGrace
    let settled := (∀ k ∈ u.ps.unknown, overlaps (windowOffset w) 64 (8 * k) 8 = false) ∧
      ∀ x ∈ u.outstandingPlan, x.1 = l ∨ u.covers x.2.req (windowOffset w) 64 = false
    let region := ∃ r, wr.region = some r ∧ su.regions[r].enabled = true ∧
      ∃ z : Fin 24, su.zones[z].enabled = true ∧ su.zones[z].region = r.val
    let tags := (1 ≤ wr.pairCount ∧ wr.pairCount ≤ 4) ∧
      (∀ p ∈ wr.pairs, p.1 ≠ 4095 ∧ p.2 ≠ 4095) ∧
      (wr.pairs.map (·.1)).Nodup ∧ (wr.pairs.map (·.2)).Nodup
    let span := precedes (wr.start + BitVec.ofNat 32 su.entryGrace) wr.finish = true ∧
      (wr.finish - wr.start).toNat < 2 ^ 30
    let timing := ∀ r z t, wr.region = some r → su.zoneRegion z = some r →
      (u.zone z).timeline = some t → precedes t.horizon wr.start = true ∧
        precedes (t.horizon + 1) wr.start = true
    let overlap := ∀ v, (u.window v).status.open? = true → (u.windowRec v).region = wr.region →
      precedes (graceEnd wr) (u.windowRec v).start = true ∨
        precedes (graceEnd (u.windowRec v)) wr.start = true
    let modes := wr.mode ≤ 1 ∧ wr.preferred ≤ 1
    (u.validateSubmit su w l = some .unsettled ↔ ¬ settled) ∧
    (u.validateSubmit su w l = some .region ↔ settled ∧ ¬ region) ∧
    (u.validateSubmit su w l = some .tags ↔ settled ∧ region ∧ ¬ tags) ∧
    (u.validateSubmit su w l = some .span ↔ settled ∧ region ∧ tags ∧ ¬ span) ∧
    (u.validateSubmit su w l = some .tooLate ↔ settled ∧ region ∧ tags ∧ span ∧ ¬ timing) ∧
    (u.validateSubmit su w l = some .overlap ↔
      settled ∧ region ∧ tags ∧ span ∧ timing ∧ ¬ overlap) ∧
    (u.validateSubmit su w l = some .mode ↔
      settled ∧ region ∧ tags ∧ span ∧ timing ∧ overlap ∧ ¬ modes) ∧
    (u.validateSubmit su w l = none ↔
      settled ∧ region ∧ tags ∧ span ∧ timing ∧ overlap ∧ modes)

/-! ## Commit and stop -/

/-- COMMIT in CONFIG: the first failed check is reported and nothing else changes (R62), or the setup copy, read as
section 12.4 lays it out, comes into force and every block takes its commit state (R63, R117). The row is the model's
reading (log 2). -/
def Obligations.CommitTaken : Prop :=
  (∀ m : Memory, (setupOfCopy m).LaidOut m) ∧
  ∀ (s : State) (l : Fin 8) (g : Grant) (a : Access), s.Completes l g a (.command 1) →
    s.ps.run = .config →
    ∃ u v, s.PlanLanded u a.req ∧ exec .commit s = .next (v.finish l g .okay []) ∧
      let su := setupOfCopy u.ps.planCopy
      let ticket := u.command.ticket
      (∀ reason o, u.validateSetup su = some (reason, o) →
        v = u.hand (.setupResult ticket reason o)) ∧
      (u.validateSetup su = none →
        v.ps = { u.ps with run := .running su, drainFlag := false } ∧
        v.la = { u.la with urgentPtr := 0, normalPtr := 0 } ∧
        (∀ ring slot, v.entry ring slot = none) ∧ (∀ ring, v.head ring = none) ∧
        (∀ r p, (v.path r p).score = 0 ∧ (v.path r p).health = .unseen ∧
          (v.path r p).timer = none) ∧
        (∀ w, (v.window w).status = .empty) ∧
        (∀ z, (v.zone z).status = .national ∧ (v.zone z).commandHold = none ∧
          ((v.zone z).pinHold = true ↔ su.zones[z].enabled = true ∧ u.holdReq = true) ∧
          (v.zone z).conceal = 0 ∧ (v.zone z).timeline = none) ∧
        (∀ f, (v.feed f).status = .detached ∧ (v.feed f).inFlight = none) ∧
        v.rg.held = [] ∧
        v.tb.prescaler = 0 ∧ v.tb.tickCount = 0 ∧ v.tb.pulseCount = 0 ∧
        v.tb.refState = .waiting ∧ v.tb.pulseTimeout = some 0 ∧ v.tb.captureTick = 0 ∧
        v.tb.captureHead = none ∧
        v.rw.queue = { tick := 0, report := .setupResult ticket .ok 0 } ::
          (if u.holdReq then
            [{ tick := 0,
               report := .holdState (zoneSetOf su.enabledZones) true .pin (some .hard) }]
          else []) ∧
        v.rw.hand = u.rw.hand ∧ v.rw.writeIndex = 0 ∧ v.rw.readIndex = 0 ∧
        v.rw.overrun = false ∧ v.rw.discardSince = false ∧ v.rw.readWrite = u.rw.readWrite ∧
        v.irqAsserted = false ∧
        u.SameBut v [.la, .ps, .ic, .zs, .vr, .rg, .tb, .rw])

/-- COMMIT validation (R60, R61): a setup passes exactly when it meets all ten checks; otherwise the result names
the first check, in the order of R60, that fails, and the least offset at which it fails. The fields of LANE_ROLE are
taken in the order of their offsets (the model's reading, log 25), and a base of 2^36 fails AREA_RANGE whatever its
area's length (the model's reading, log 33). -/
def Obligations.CommittedSetupIsValid : Prop :=
  ∀ (s : State) (su : Setup),
    (s.validateSetup su = none ↔ ∀ reason o, ¬ s.SetupFails su reason o) ∧
    ∀ (reason : SetupResult) (o : Nat), s.validateSetup su = some (reason, o) ↔
      s.SetupFails su reason o ∧ (∀ o', s.SetupFails su reason o' → o ≤ o') ∧
      ∀ earlier o', earlier.code < reason.code → ¬ s.SetupFails su earlier o'

/-- STOP in RUNNING (R64, R152, R176): COMMAND_RESULT ACCEPTED first, then WINDOW_STATE CANCELLED for each PENDING or
LIVE window and FEED_STATE for each feed that was not DETACHED, each in ascending order; every window EMPTY, every
zone unset, every feed DETACHED; the held writes on whose slot no drain hold rests are presented unaccepted. The row
is the model's reading (log 2). -/
def Obligations.StopTaken : Prop :=
  ∀ (s : State) (l : Fin 8) (g : Grant) (a : Access) (su : Setup),
    s.Completes l g a (.command 2) → s.ps.run = .running su → s.HeldLanes →
    ∃ u v, s.PlanLanded u a.req ∧ exec .stop s = .next (v.finish l g .okay []) ∧
      v.ps = { u.ps with run := .stopping su, stopTicket := u.command.ticket } ∧
      (∃ x y : State, x.vr = u.vr ∧ x.ps = v.ps ∧ x.tb = u.tb ∧
        x.rw = ((u.handResult u.command .accepted).handAll
          (((List.finRange 64).filter (fun w => (u.window w).status.open?)).map (fun w =>
            .windowState w (byte (u.windowRec w).regionByte) (u.windowRec w).start .cancelled
              none))).rw ∧
        InTurn (State.FeedStopped su) (List.finRange 32) x y ∧ v.vr = y.vr ∧ v.rw = y.rw) ∧
      (∀ w, (v.window w).status = .empty ∧ ∀ z : Fin 24, (v.window w).outcomes[z] = none) ∧
      (∀ z, v.zone z = { u.zone z with status := .national, conceal := 0, timeline := none }) ∧
      (∀ f, (v.feed f).status = .detached ∧
        (v.feed f).inFlight = match (u.feed f).status with
          | .attached _ => (u.feed f).inFlight.map InFlight.uncounted
          | _ => (u.feed f).inFlight) ∧
      v.rg.held = u.rg.held.filter u.drainHold ∧
      (∀ h ∈ u.rg.held, u.drainHold h = false →
        v.lane (ext h.lane) = .waiting { req := h.req, kind := .released }) ∧
      (∀ k, (∀ h ∈ u.rg.held, u.drainHold h = false → k ≠ ext h.lane) → v.lane k = u.lane k) ∧
      v.la = { u.la with lanes := v.la.lanes } ∧ u.SameBut v [.la, .ps, .zs, .vr, .rg, .rw]

/-! ## Commands -/

/-- The command record as section 12.6 lays it out; and a code that is no command, and a command that the run state
does not allow: one COMMAND_RESULT report and no other effect (R67). The arguments it carries are the model's reading
(log 27), as is the row (log 2). -/
def Obligations.CommandTurnedAway : Prop :=
  (∀ s : State, s.command.LaidOut s.ps.planCopy) ∧
  ∀ (s : State) (l : Fin 8) (g : Grant) (a : Access),
    let turned := fun (c : Instr) (result : CommandResult) => ∃ u, s.PlanLanded u a.req ∧
      exec c s = .next ((u.hand (.commandResult (byte u.command.code) u.command.ticket
        (if u.command.code = 3 ∨ u.command.code = 6 ∨ u.command.code = 7 then u.command.arg1 else 0)
        (if u.command.code = 6 then u.command.arg2 else 0) result)).finish l g .okay [])
    (s.Completes l g a .badCommand → turned .badCommand .badCommand) ∧
    (s.isConfig = false → s.Completes l g a (.command 1) → turned .commit .wrongState) ∧
    ∀ n c, (n, c) ∈ [(2, Instr.stop), (3, .cancel), (4, .hold), (5, .release), (6, .attach),
      (7, .detach)] → s.isRunning = false → s.Completes l g a (.command n) → turned c .wrongState

/-- CANCEL in RUNNING (R69, R114): COMMAND_RESULT first, then the zones of the window's region, the enabled zones that
name it, one by one in ascending order, then the window, each with its report (R101). The row is the model's reading
(log 2), as are the arguments of COMMAND_RESULT (log 27). -/
def Obligations.CancelTaken : Prop :=
  (∀ (s : State) (su : Setup) (w : Fin 64), (s.windowZones su w).Pairwise (· < ·) ∧
    ∀ z : Fin 24, z ∈ s.windowZones su w ↔ su.zones[z].enabled = true ∧
      ∃ r : Fin 12, (s.windowRec w).regionByte = r.val ∧ su.zones[z].region = r.val) ∧
  ∀ (s : State) (l : Fin 8) (g : Grant) (a : Access) (su : Setup),
    s.Completes l g a (.command 3) → s.ps.run = .running su →
    ∃ u v, s.PlanLanded u a.req ∧ exec .cancel s = .next (v.finish l g .okay []) ∧
      (64 ≤ u.command.arg1.toNat → v = u.handResult u.command .badArgument) ∧
      ∀ w : Fin 64, u.command.arg1.toNat = w.val →
        ((u.window w).status = .closed → v = u.handResult u.command .tooLate) ∧
        ((u.window w).status = .empty ∨ (u.window w).status = .rejected →
          v = u.handResult u.command .noWindow) ∧
        ((u.window w).status = .pending ∨ (u.window w).status = .live →
          (∃ x, InTurn (State.CancelReached w) (u.windowZones su w) (u.handResult u.command .accepted)
              x ∧ x.WindowMoved v su w) ∧
          (∀ z, z ∉ u.windowZones su w → v.zone z = u.zone z) ∧
          (∀ w', w' ≠ w → v.window w' = u.window w') ∧
          (∀ z ∈ u.windowZones su w,
            ((u.window w).outcomes[z].isSome = true →
              v.zone z = u.zone z ∧ (v.window w).outcomes[z] = (u.window w).outcomes[z]) ∧
            ((u.window w).outcomes[z] = none → (u.zone z).status.window? ≠ some w →
              v.zone z = u.zone z ∧ (v.window w).outcomes[z] = some .cancelled) ∧
            ((u.window w).outcomes[z] = none → (u.zone z).status = .armed w →
              v.zone z = { u.zone z with status := .national, conceal := 0 } ∧
              (v.window w).outcomes[z] = some .cancelled) ∧
            ((u.window w).outcomes[z] = none → (u.zone z).status = .regional w →
              v.zone z = { u.zone z with status := .returning w .cancel false } ∧
              (v.window w).outcomes[z] = none) ∧
            (∀ c h, (u.window w).outcomes[z] = none → (u.zone z).status = .returning w c h →
              v.zone z = u.zone z ∧ (v.window w).outcomes[z] = none)) ∧
          ((∀ z ∈ u.windowZones su w, (v.window w).outcomes[z].isSome = true) →
            (v.window w).status = .closed) ∧
          ((∃ z ∈ u.windowZones su w, (v.window w).outcomes[z] = none) →
            (v.window w).status = .live) ∧
          u.SameBut v [.zs, .rw])

/-- HOLD and RELEASE in RUNNING (R70, R115, R116, R118, R119): a HOLD hands HOLD_STATE, is taken on the zones it names
in ascending order, and then the windows that one of them was ARMED for move, in ascending index, each change with its
report (R101); that every outcome stands before the first window where a hold closes several is the model's reading
(log 15). The rows are log 2, the arguments of COMMAND_RESULT log 27. An ARMED zone holds no outcome for its window,
which the clause about it takes as its premise. -/
def Obligations.HoldAndReleaseTaken : Prop :=
  ∀ (s : State) (l : Fin 8) (g : Grant) (a : Access) (su : Setup), s.ps.run = .running su →
    let inSet := fun (u : State) (z : Fin 24) => u.command.arg1.getLsbD z.val = true
    let valid := fun (u : State) => u.command.arg1 ≠ 0 ∧ u.command.arg1.toNat < 2 ^ 24 ∧
      ∀ z, inSet u z → su.zones[z].enabled = true
    let kindOf := fun (u : State) (k : HoldKind) =>
      (u.command.arg2 = 1 ∧ k = .hard) ∨ (u.command.arg2 = 2 ∧ k = .soft)
    (s.Completes l g a (.command 4) →
      ∃ u v, s.PlanLanded u a.req ∧ exec .hold s = .next (v.finish l g .okay []) ∧
        (¬ valid u ∨ (∀ k, ¬ kindOf u k) → v = u.handResult u.command .badArgument) ∧
        ∀ k, valid u → kindOf u k →
          (∃ x, x.rw = ((u.handResult u.command .accepted).hand
              (.holdState u.command.arg1 true .command (some k))).rw ∧
            (∀ z, ¬ inSet u z → x.zone z = u.zone z) ∧
            (∀ z, inSet u z → x.zone z = { u.zone z with
              commandHold := some (if (u.zone z).commandHold = some .hard then .hard else k) }) ∧
            (∀ w, x.window w = u.window w) ∧ u.SameBut x [.zs, .rw] ∧
            x.HoldsTaken v su k
              ((List.finRange 24).filter (fun z => u.command.arg1.getLsbD z.val))) ∧
          (∀ z, ¬ inSet u z → v.zone z = u.zone z) ∧
          (∀ w, (∀ z, inSet u z → (u.zone z).status ≠ .armed w) → v.window w = u.window w) ∧
          (∀ z w, inSet u z → (u.zone z).status = .armed w → z ∈ u.windowZones su w →
            (u.window w).outcomes[z] = none →
            (u.window w).status = .pending ∨ (u.window w).status = .live →
            (v.window w).status =
              if ∀ k ∈ u.windowZones su w, (v.window w).outcomes[k].isSome then .closed else .live) ∧
          (∀ z, inSet u z →
            let x := u.zone z
            let y := v.zone z
            y.commandHold = some (if x.commandHold = some .hard then .hard else k) ∧
            y.pinHold = x.pinHold ∧ y.timeline = x.timeline ∧
            (x.status = .national → y.status = .national) ∧
            (∀ w, x.status = .armed w → (u.window w).outcomes[z] = none →
              y.status = .national ∧ y.conceal = 0 ∧ (v.window w).outcomes[z] = some .heldOff) ∧
            ((∀ w, x.status ≠ .armed w) → y.conceal = x.conceal) ∧
            (∀ w, x.status = .regional w → y.status = .returning w .hold (k == .hard)) ∧
            (∀ w c, x.status = .returning w c false →
              y.status = if k = .hard then .returning w .hold true else x.status) ∧
            (∀ w c, x.status = .returning w c true → y.status = x.status)) ∧
          u.SameBut v [.zs, .rw]) ∧
    (s.Completes l g a (.command 5) →
      ∃ u v, s.PlanLanded u a.req ∧ exec .release s = .next (v.finish l g .okay []) ∧
        (¬ valid u → v = u.handResult u.command .badArgument) ∧
        (valid u →
          v.rw = ((u.handResult u.command .accepted).hand
            (.holdState u.command.arg1 false .command none)).rw ∧
          (∀ z, ¬ inSet u z → v.zone z = u.zone z) ∧
          (∀ z, inSet u z → v.zone z = { u.zone z with commandHold := none }) ∧
          (∀ w, v.window w = u.window w) ∧ u.SameBut v [.zs, .rw]))

/-- ATTACH in RUNNING (R71, R127, R147, R148, R164), for a feed whose zone the setup names. The row is the model's
reading (log 2), as are the arguments of COMMAND_RESULT (log 27). -/
def Obligations.AttachTaken : Prop :=
  ∀ (s : State) (l : Fin 8) (g : Grant) (a : Access) (su : Setup),
    s.Completes l g a (.command 6) → s.ps.run = .running su →
    ∃ u v, s.PlanLanded u a.req ∧ exec .attach s = .next (v.finish l g .okay []) ∧
      let start := u.command.arg2
      ((¬ ∃ f : Fin 32, u.command.arg1.toNat = f.val ∧ su.feeds[f].enabled = true ∧
          (su.feedLane f).isSome = true) → v = u.handResult u.command .badArgument) ∧
      ∀ (f : Fin 32) (z : Fin 24), u.command.arg1.toNat = f.val → (su.feedLane f).isSome = true →
        su.feedZone f = some z →
        let allowed := ∀ t, (u.zone z).timeline = some t →
          precedes t.trail start = true ∧ atOrBefore start (t.horizon + 1) = true
        (∀ p, (u.feed f).status = .attached p → v = u.handResult u.command .wrongState) ∧
        ((∀ p, (u.feed f).status ≠ .attached p) → ¬ allowed →
          v = u.handResult u.command .attachRange) ∧
        ((∀ p, (u.feed f).status ≠ .attached p) → allowed →
          v.feed f = { u.feed f with
            status := .attached
              { next := start, last := start - 1, readDone := false, readSincePulse := false
                stall := 0 } } ∧
          (∀ k, k ≠ f → v.feed k = u.feed k) ∧
          (∀ t, (u.zone z).timeline = some t → v.zone z = u.zone z) ∧
          ((u.zone z).timeline = none →
            v.zone z = { u.zone z with
              timeline := some
                { horizon := start - 1, trail := start - 1, logFull := false
                  log := [{ first := start - 1, source := .national, cause := .attach
                            window := none }] } }) ∧
          (∀ k, k ≠ z → v.zone k = u.zone k) ∧ (∀ w, v.window w = u.window w) ∧
          v.rw = ((u.handResult u.command .accepted).hand
            (.feedState f (byte su.feeds[f].zone) (byte su.feeds[f].lane) start
              (u.feed f).status.news .attached .attach
              ((u.attachedFeeds su z).length + 1))).rw ∧
          u.SameBut v [.zs, .vr, .rw])

/-- DETACH in RUNNING (R71, R149, R150, R121, R126, R130, R164), for a feed whose zone the setup names. When the
zone's trail has moved or the zone is unset, the held list is examined last (R172, R173). The reports are
COMMAND_RESULT, FEED_STATE, then those the zone's unsetting makes (R101, R149). The UNATTENDED of an unset zone
carries the horizon the zone had (the model's reading, log 14), and the list is examined once, last in the act (the
model's reading, log 11). The row is log 2, the arguments of COMMAND_RESULT log 27. -/
def Obligations.DetachTaken : Prop :=
  (∀ (s : State) (su : Setup) (z : Fin 24), (s.attachedFeeds su z).Pairwise (· < ·) ∧
    ∀ f, f ∈ s.attachedFeeds su z ↔
      su.feedZone f = some z ∧ ∃ p, (s.feed f).status = .attached p) ∧
  ∀ (s : State) (l : Fin 8) (g : Grant) (a : Access) (su : Setup),
    s.Completes l g a (.command 7) → s.ps.run = .running su →
    ∃ u v, s.PlanLanded u a.req ∧ exec .detach s = .next (v.finish l g .okay []) ∧
      ((¬ ∃ f : Fin 32, u.command.arg1.toNat = f.val ∧ su.feeds[f].enabled = true) →
        v = u.handResult u.command .badArgument) ∧
      ∀ (f : Fin 32) (z : Fin 24), u.command.arg1.toNat = f.val → su.feedZone f = some z →
        let others := (u.attachedFeeds su z).filter (fun k => k != f)
        let report := fun (u : State) ssn before => u.hand
          (.feedState f (byte su.feeds[f].zone) (byte su.feeds[f].lane) ssn before .detached .detach
            others.length)
        ((u.feed f).status = .detached → v = u.handResult u.command .wrongState) ∧
        ((u.feed f).status = .slipped →
          (v.feed f).status = .detached ∧ (v.feed f).inFlight = (u.feed f).inFlight ∧
          (∀ k, k ≠ f → v.feed k = u.feed k) ∧
          v.rw = (report (u.handResult u.command .accepted) 0 .slipped).rw ∧
          u.SameBut v [.vr, .rw]) ∧
        ∀ p, (u.feed f).status = .attached p →
          (v.feed f).status = .detached ∧
          (v.feed f).inFlight = (u.feed f).inFlight.map InFlight.uncounted ∧
          (∀ k, k ≠ f → v.feed k = u.feed k) ∧
          (∀ k, k ≠ z → (v.zone k).timeline = (u.zone k).timeline) ∧
          (others = [] → (v.zone z).timeline = none ∧
            ∀ w, (u.zone z).status.window? = some w → (u.window w).outcomes[z] = none →
              (v.zone z).status = .national ∧ (v.window w).outcomes[z] = some .unattended) ∧
          (others ≠ [] → ∀ t, (u.zone z).timeline = some t →
            ∃ t' x, (v.zone z).timeline = some t' ∧ t'.horizon = t.horizon ∧
              least (others.filterMap (fun k => (u.feed k).status.position?.map (·.last))) = some x ∧
              t'.trail = if precedes t.trail x then x else t.trail) ∧
          (∃ y, State.LeftAttached su .detached .detach f (u.handResult u.command .accepted) y ∧
            u.SameBut y [.zs, .vr, .rw] ∧ y.vr = v.vr ∧
            (∀ k, (y.zone k).timeline = (v.zone k).timeline) ∧
            (u.TrailMoved y z → State.Examined su y.rg.held y v) ∧ (¬ u.TrailMoved y z → v = y)) ∧
          v.la = { u.la with lanes := v.la.lanes } ∧
          (∀ k, (∀ h ∈ u.rg.held, k ≠ ext h.lane) → v.lane k = u.lane k) ∧
          u.SameBut v [.la, .ic, .zs, .vr, .rg, .rw]

/-! ## Ring writes -/

/-- The seven steps of a ring write, in order (R81 to R83). -/
def Obligations.RingWriteSteps : Prop :=
  ∀ (s : State) (su : Setup) (ring : RingId) (k : Nat) (cell : List Byte),
    let m := cellSsn cell
    let result := s.checkRingWrite su ring k cell
    (cell.length ≠ 256 → result = .refused .partialCell) ∧
    (cell.length = 256 → cell.getD 0 0 ≠ 0xA7 → result = .refused .malformed) ∧
    (cell.length = 256 → cell.getD 0 0 = 0xA7 →
      (m.toNat % su.slots ring ≠ k → result = .refused .misplaced) ∧
      (m.toNat % su.slots ring = k →
        (s.entry ring k = none → result = .accepted) ∧
        ∀ e, s.entry ring k = some e →
          (precedes m e.ssn = true ∨ unordered m e.ssn = true → result = .refused .stale) ∧
          (m = e.ssn → s.pinned su ring m = true → result = .refused .rewrite) ∧
          (precedes e.ssn m = true → s.pinned su ring e.ssn = true → result = .heldBack e.ssn) ∧
          (m = e.ssn ∨ precedes e.ssn m = true → s.pinned su ring e.ssn = false →
            result = .accepted)))

/-- When an SSN is pinned in a ring (R166, R167). -/
def Obligations.PinnedTest : Prop :=
  ∀ (s : State) (su : Setup) (ring : RingId) (e : SSN),
    let rangePinned := ∃ z, s.RangePinned su ring e z
    let readPinned := ∃ f r, (s.feed f).inFlight = some r ∧ r.ring = ring ∧ r.ssn = e
    (s.pinned su ring e = true ↔ s.isRunning = true ∧ (rangePinned ∨ readPinned))

/-- A ring write is refused, held or accepted; an acceptance makes the entry ARRIVING and moves the head, and an
advance of the national head gives UNATTENDED to the unset zones of windows it has passed (R81, R84, R85,
R92, R122, R170). -/
def Obligations.RingWriteTaken : Prop :=
  ∀ (s : State) (su : Setup) (l : Fin 8) (addr : Addr) (n : Nat) (link : Bool) (data : List Byte)
    (ring : RingId),
    let r := makeRequest .write addr n link data
    let cell := r.body.data
    let m := cellSsn cell
    let k := (addr.toNat - su.ringBase ring) / 256
    s.RingRequest su l ring r →
    ∃ t, exec (.laneRequest l .write addr n link data) s = .next t ∧
      (∀ reason, s.checkRingWrite su ring k cell = .refused reason →
        s.RefusedAs t l r reason
          (if reason = .malformed ∨ reason = .misplaced ∨ reason = .stale ∨ reason = .rewrite then m
           else 0)) ∧
      (∀ e, s.checkRingWrite su ring k cell = .heldBack e →
        t.lane (ext l) = .held r ∧ t.la.responses[l] = s.la.responses[l] ∧ s.OthersKept t l ∧
        t.SettledFrom { s.la.withLane l (.held r) with port := s.la.port.without (ext l) } ∧
        (∀ x, t.la.port = .reserved x → x.lane ≠ ext l) ∧
        t.rg.held = s.rg.held ++ [
          { lane := l, ring := ring, slot := k, old := e, new := m, req := r, timer := 0
            expiries := 0 }] ∧
        s.SameBut t [.la, .rg]) ∧
      (s.checkRingWrite su ring k cell = .accepted →
        s.PresentedAs t l { req := r, kind := .ring ring k } ∧
        s.Accepted t su ring k cell ∧
        s.SameBut t (if ring = .national then [.la, .ic, .zs, .rw] else [.la, .ic]))

/-- An accepted ring write completes (R87 to R89, R94 to R96); a write released in STOPPING changes neither entry nor
path (R86). MEMORY_FAULT stands before the reports of the Ingest Checker (the model's reading, log 31); the bytes that
ERROR leaves are free values (log 5). -/
def Obligations.RingWriteCompletes : Prop :=
  ∀ (s : State) (su : Setup) (l : Fin 8) (g : Grant) (a : Access) (x : MemAnswer),
    s.externalInProgress = some (l, g, a) → s.setup = some su →
    (∀ ring k e verdict gap, a.kind = .ring ring k → s.entry ring k = some e →
      e.state = .arriving verdict gap →
      ∃ v late, exec (.ringWriteComplete x) s = .next (v.finish l g x []) ∧ s.MemoryAfter v a.req x ∧
        let good := x == .okay && verdict == .matching
        v.entry ring k = some { e with state := if good then .good else .bad, late := late } ∧
        (∀ z : Fin 24, late.getLsbD z.val = true ↔ ∃ t, (s.zone z).timeline = some t ∧
          atOrBefore e.ssn t.horizon = true ∧
          ∀ r p, ring = .regional r p → su.zoneRegion z = some r) ∧
        (∀ i, 24 ≤ i → late.getLsbD i = false) ∧
        (∀ ring' k', dirKey ring' k' ≠ dirKey ring k → v.entry ring' k' = s.entry ring' k') ∧
        (∀ ring', v.head ring' = s.head ring') ∧
        (let s1 := s.reportFault l a x
         let s2 := if late = 0 then s1 else s1.hand (.lateCell ring k e.ssn good late)
         (ring = .national → v.rw = s2.rw ∧ v.ic.paths = s.ic.paths) ∧
         ∀ r p, ring = .regional r p →
           let pr := su.profileOf r
           let old := s.path r p
           let score1 := if good then old.score - 1 else min 255 (old.score + pr.badWeight)
           let score := if gap then min 255 (score1 + pr.gapWeight) else score1
           let health := if old.health = .degraded then
               (if score ≤ pr.recoverAt then Health.live else .degraded)
             else (if pr.degradeAt ≤ score then .degraded else .live)
           v.path r p = { head := old.head, score := score, health := health, timer := some 0 } ∧
           (∀ r' p', pathIndex r' p' ≠ pathIndex r p → v.path r' p' = s.path r' p') ∧
           v.rw = (if health = old.health then s2
             else s2.hand (.pathState r p old.head old.health health score)).rw) ∧
        s.SameBut v [.mem, .freeCount, .ic, .rw]) ∧
    (a.kind = .released →
      ∃ v, exec (.ringWriteComplete x) s = .next (v.finish l g x []) ∧ s.MemoryAfter v a.req x ∧
        v.rw = s.faultReported l a x ∧ s.SameBut v [.mem, .freeCount, .rw])

/-- A path's silence timer has reached silence_limit (R95, R96), where it stays until this row is taken (the
model's choice, log 8); before that, or stopped, the row changes nothing (the model's reading, log 1). -/
def Obligations.SilenceLimitExpires : Prop :=
  ∀ (s : State) (su : Setup) (r : Fin 12) (p : Path), s.setup = some su →
    (∀ n, (s.path r p).timer = some n → (su.profileOf r).silenceLimit ≤ n →
      ∃ t, exec (.silenceLimitExpiry r p) s = .next t ∧
        t.path r p = { s.path r p with health := .silent, timer := none } ∧
        (∀ r' p', pathIndex r' p' ≠ pathIndex r p → t.path r' p' = s.path r' p') ∧
        t.ic.dir = s.ic.dir ∧ t.ic.natHead = s.ic.natHead ∧
        t.rw = (if (s.path r p).health = .silent then s
          else s.hand (.pathState r p (s.path r p).head (s.path r p).health .silent
            (s.path r p).score)).rw ∧
        s.SameBut t [.ic, .rw]) ∧
    ((s.path r p).timer = none ∨
        (∃ n, (s.path r p).timer = some n ∧ n < (su.profileOf r).silenceLimit) →
      exec (.silenceLimitExpiry r p) s = .next s)

/-- A held write's timer has reached HOLD_LIMIT (R171, R174, R175), where it stays until this row is taken (the
model's choice, log 8): the lagging feeds are slipped in ascending order, each with its report and its zone's trail or
unsetting (R150; UNATTENDED carries the horizon the zone had, the model's reading, log 14), the timer starts again,
HOLD_EXPIRED is handed, and the held list is examined (R172) once, after all the slips (the model's reading, log 11),
which releases the writes that are no longer held back (R86, R173) to the port, which they meet together after the
whole examination (the model's reading, log 12). Before that the row changes nothing (the model's reading, log 1). -/
def Obligations.HoldLimitExpires : Prop :=
  ∀ (s : State) (su : Setup) (h : HeldWrite), s.setup = some su → s.HeldLanes → h ∈ s.rg.held →
    (h.timer < su.holdLimit → exec (.holdLimitExpiry h.lane) s = .next s) ∧
    (su.holdLimit ≤ h.timer → ∃ (u v w : State) (slipped : List (Fin 32)),
      exec (.holdLimitExpiry h.lane) s = .next v.settlePort ∧
      slipped.Pairwise (· < ·) ∧
      (∀ f, f ∈ slipped ↔ s.isRunning = true ∧ ∃ p z, (s.feed f).status = .attached p ∧
        su.feedZone f = some z ∧ s.RangePinned su h.ring h.old z ∧
        atOrBefore p.last h.old = true) ∧
      InTurn (State.LeftAttached su .slipped .holdExpired) slipped s w ∧
      s.SameBut w [.zs, .vr, .rw] ∧ u.zs = w.zs ∧
      (∀ f ∈ slipped, u.feed f =
        { status := .slipped, inFlight := (s.feed f).inFlight.map InFlight.uncounted }) ∧
      (∀ f, f ∉ slipped → u.feed f = s.feed f) ∧
      u.rg.held = s.rg.held.map (fun x =>
        if x = h then { h with timer := 0, expiries := h.expiries + 1 } else x) ∧
      u.rw = (w.hand (.holdExpired h.lane h.ring h.slot h.old h.new slipped.length
        (h.expiries + 1))).rw ∧
      s.SameBut u [.zs, .vr, .rg, .rw] ∧
      State.Examined su u.rg.held u v ∧
      s.SameBut v.settlePort [.la, .ic, .zs, .vr, .rg, .rw])

/-! ## View reads -/

/-- What a view read of slot `k` names, with the jump limit the lesser of JUMP_MAX and SPREAD_MAX − 1
(R154), and a view read that is refused (R153, R52): it decides nothing and changes no feed. -/
def Obligations.ViewReadInterpretedOrRefused : Prop :=
  (∀ (su : Setup) (p : Position) (k : Nat), 256 ≤ su.nr → su.jumpMax ≤ 64 → k < su.nr →
    let d := (k + su.nr - p.next.toNat % su.nr) % su.nr
    let j := min su.jumpMax (su.spreadMax - 1)
    (d = 0 → su.interpretRead p k = .serve p.next false) ∧
    (d = su.nr - 1 → p.readDone = true → su.interpretRead p k = .serve p.last true) ∧
    (d = su.nr - 1 → p.readDone = false → su.interpretRead p k = .refused .sequence) ∧
    (1 ≤ d → d ≤ j → su.interpretRead p k = .serve (p.next + BitVec.ofNat 32 d) false) ∧
    (j < d → 1 ≤ d → d < su.nr - 1 → su.interpretRead p k = .refused .jump)) ∧
  ∀ (s : State) (su : Setup) (l : Fin 8) (f : Fin 32) (addr : Addr) (n : Nat) (link : Bool),
    let r := makeRequest .read addr n link []
    let refusal := fun reason ssn => ∃ t,
      exec (.laneRequest l .read addr n link []) s = .next t ∧ s.RefusedAs t l r reason ssn
    s.ViewRequest su l f r →
    (s.ps.run = .stopping su → refusal .stopping 0) ∧
    (s.ps.run = .running su →
      (n ≠ 256 → refusal .viewForm 0) ∧
      (n = 256 → (s.feed f).status = .detached → refusal .feedDetached 0) ∧
      (n = 256 → (s.feed f).status = .slipped → refusal .feedSlipped 0) ∧
      ∀ p reason, n = 256 → (s.feed f).status = .attached p →
        su.interpretRead p ((addr.toNat - su.viewBaseOf f) / 256) = .refused reason →
        refusal reason p.next)

/-- The content of an SSN for a zone (R157 step 3, R143, R144, R159): by the run that covers it, with BREAK where that
run says so for the cell's national tag, an SSN that no run covers, which no view read names, having a null cell
without BREAK (the model's choice, log 20); and the ring it comes from, with the tag a regional cell is patched to. A
view read that names an SSN is served (R157 to R159, R161): the zone is decided up to it, the feed moves on, and a
null cell is answered at once, after the zone's trail is recomputed (R126) with the runs it passes retired (R129) and,
where it has moved, the held list examined (R172, R173; log 11), while a ring cell is read at the ring slot, whose
read meets the port before the held list is examined (R24; log 12). The spread rule (R156) slips exactly the other
attached feeds of the zone whose last precedes n − SPREAD_MAX, when the read is past the horizon and more than
SPREAD_MAX after the trail, and the trail follows. The clause on the trail after slips takes as its premise what R125
has of every set zone (an invariant: StepKeepsZonesFollowFeeds): each attached feed's last lies between trail and
horizon. -/
def Obligations.ViewReadServed : Prop :=
  (∀ (s : State) (su : Setup) (z : Fin 24) (n : SSN),
    (s.queryRun z n = none → s.contentFor su z n = (.null, false)) ∧
    ∀ run, s.queryRun z n = some run → ∃ brk,
      s.contentFor su z n = (s.servedContent su z run n, brk) ∧
      (brk = true ↔ ∃ tag, run.breakFalls tag n = true ∧
        (s.servedContent su z run n = .national tag ∨
          ∃ p, s.servedContent su z run n = .regional p tag))) ∧
  (∀ (su : Setup) (z : Fin 24) (tag : Tag) (r : Fin 12) (p : Path),
    Served.origin su z .null = none ∧
    Served.origin su z (.national tag) = some (.national, none) ∧
    (su.zoneRegion z = some r →
      Served.origin su z (.regional p tag) = some (.regional r p, some tag))) ∧
  ∀ (s : State) (su : Setup) (l : Fin 8) (f : Fin 32) (z : Fin 24) (addr : Addr) (link : Bool)
    (p : Position) (n : SSN) (reread : Bool) (tl : Timeline),
    let r := makeRequest .read addr 256 link []
    let slips := fun (k : Fin 32) => reread = false ∧ precedes tl.horizon n = true ∧
      su.spreadMax < (n - tl.trail).toNat ∧ k ≠ f ∧ su.feedZone k = some z ∧
      ∃ q, (s.feed k).status = .attached q ∧
        precedes q.last (n - BitVec.ofNat 32 su.spreadMax) = true
    let access := fun (ring : RingId) => Access.mk
      { addr := BitVec.ofNat 36 (su.ringBase ring + n.toNat % su.slots ring * 256)
        body := .read 256
        link := link } (.view f)
    let null : Response := { status := .okay, data := nullCell n }
    s.ViewRequest su l f r → s.ps.run = .running su → (s.feed f).status = .attached p →
    su.feedZone f = some z → (s.zone z).timeline = some tl → s.HeldLanes →
    su.interpretRead p ((addr.toNat - su.viewBaseOf f) / 256) = .serve n reread →
    ∃ t d, exec (.laneRequest l .read addr 256 link []) s = .next t ∧
      d = (s.setLane (ext l) (.taken r)).prepareRead su z f n reread ∧
      (∃ tl' td, (t.zone z).timeline = some tl' ∧ (d.zone z).timeline = some td ∧
        (tl'.horizon = if reread = false ∧ precedes tl.horizon n = true then n else tl.horizon) ∧
        ((∀ k, ¬ slips k) → td.trail = tl.trail) ∧
        ((∀ k q, (s.feed k).status = .attached q → su.feedZone k = some z →
            between tl.trail q.last tl.horizon = true) →
          ∀ k, slips k → least (((List.finRange 32).filter (fun k => decide
            ((d.feed k).status.position?.isSome = true ∧ su.feedZone k = some z))).filterMap (fun k =>
              (d.feed k).status.position?.map (·.last))) = some td.trail) ∧
        (∀ served brk, d.contentFor su z n = (served, brk) →
          (served.origin su z = none → ∃ y,
            least ((d.attachedFeeds su z).filterMap (fun k =>
              if k = f then some n else (d.feed k).status.position?.map (·.last))) = some y ∧
            tl'.trail = if precedes td.trail y then y else td.trail) ∧
          (served.origin su z ≠ none → tl'.trail = td.trail))) ∧
      (∀ served brk, d.contentFor su z n = (served, brk) →
        (served.origin su z = none →
          t.la.responses[l] = some null ∧
          t.lane (ext l) = .idle ∧ (∀ x, t.la.port = .reserved x → x.lane ≠ ext l) ∧
          t.feed f = { s.feed f with
            status := .attached { p with
              next := if reread then p.next else n + 1
              last := n
              readDone := true
              readSincePulse := true } }) ∧
        ∀ ring tag, served.origin su z = some (ring, tag) →
          (t.lane (ext l) = .waiting (access ring) ∨ t.lane (ext l) = .active (access ring)) ∧
          t.la.responses[l] = s.la.responses[l] ∧
          t.feed f =
            { status := .attached { p with next := if reread then p.next else n + 1 }
              inFlight := some
                { ssn := n
                  ring := ring
                  addr := (access ring).req.addr
                  patchTag := tag
                  setBreak := brk
                  counting := true } }) ∧
      (∀ k, k ≠ f →
        (slips k → t.feed k =
          { status := .slipped, inFlight := (s.feed k).inFlight.map InFlight.uncounted }) ∧
        (¬ slips k → t.feed k = s.feed k)) ∧
      (∀ served brk, d.contentFor su z n = (served, brk) → ∃ y v : State,
        y.rg = s.rg ∧ y.ic = s.ic ∧ y.vr = t.vr ∧ d.SameBut y [.la, .zs, .vr] ∧
        (∀ w, y.window w = d.window w) ∧ (∀ k, k ≠ z → y.zone k = d.zone k) ∧
        y.zone z = { d.zone z with timeline := (t.zone z).timeline } ∧
        (s.TrailMoved y z → State.Examined su y.rg.held y v) ∧ (¬ s.TrailMoved y z → v = y) ∧
        (served.origin su z = none → y.la = s.la.withLane l (.taken r) ∧
          ({ d with vr := y.vr } : State).TrailFollowed y su z ∧ v.SameBut t [.la] ∧
          t.SettledFrom (v.la.delivered l null (v.la.port.without (ext l)))) ∧
        ∀ ring tag, served.origin su z = some (ring, tag) →
          y.zs = d.zs ∧ y.SettledFrom (s.la.withLane l (.waiting (access ring))) ∧ v.PortSettled t) ∧
      (∀ k, k ≠ z → (t.zone k).timeline = (s.zone k).timeline) ∧
      (∀ k, k ≠ ext l → (∀ h ∈ s.rg.held, k ≠ ext h.lane) → s.LaneOrGranted t k) ∧
      s.SameBut t [.la, .ic, .zs, .vr, .rg, .rw]

/-- A redirected view read completes (R160 to R163): the patched cell or FAULT; the read is removed, and when it
counts the feed's last and its zone's trail move (R126), the runs the trail passes retired (R129), and nothing else of
any zone or window; when it does not, no zone or window changes (R163); then the held list is examined, and a write
that is no longer held back is released, accepted now in RUNNING, without acceptance in STOPPING (R86, R172, R173).
MEMORY_FAULT stands first (the model's reading, log 31), the examination last, before the response (the model's
reading, log 11); the cell is read at the completion (the model's choice, log 19). -/
def Obligations.ViewReadCompletes : Prop :=
  ∀ (s : State) (su : Setup) (l : Fin 8) (g : Grant) (a : Access) (x : MemAnswer) (f : Fin 32)
    (rd : InFlight),
    s.externalInProgress = some (l, g, a) → s.setup = some su → a.kind = .view f →
    a.req.body = .read 256 → (s.feed f).inFlight = some rd →
    ∃ v data, exec (.viewReadComplete x) s = .next (v.finish l g x data) ∧
      data = (if x = .okay then patchCell (readBytes s.mem rd.addr.toNat 256) rd.patchTag rd.setBreak
        else List.replicate 256 0xFF) ∧
      v.mem = s.mem ∧
      (∃ more, v.rw.queue = (s.faultReported l a x).queue ++ more) ∧
      (v.feed f).inFlight = none ∧ (∀ k, k ≠ f → v.feed k = s.feed k) ∧
      (rd.counting = false ∨ (∀ p, (s.feed f).status ≠ .attached p) →
        (v.feed f).status = (s.feed f).status ∧
        ∀ z, (v.zone z).timeline = (s.zone z).timeline) ∧
      (∀ p z, rd.counting = true → (s.feed f).status = .attached p → su.feedZone f = some z →
        (v.feed f).status = .attached
          { p with last := rd.ssn, readDone := true, readSincePulse := true } ∧
        (∀ k, k ≠ z → (v.zone k).timeline = (s.zone k).timeline) ∧
        ∀ tl, (s.zone z).timeline = some tl →
          ∃ tl' y, (v.zone z).timeline = some tl' ∧ tl'.horizon = tl.horizon ∧
            least ((s.attachedFeeds su z).filterMap (fun k =>
              if k = f then some rd.ssn else (s.feed k).status.position?.map (·.last))) = some y ∧
            tl'.trail = if precedes tl.trail y then y else tl.trail) ∧
      (∃ y, s.SameBut y [.zs, .vr, .rw] ∧ y.rw = s.faultReported l a x ∧ y.vr = v.vr ∧
        (∀ p z, rd.counting = true → (s.feed f).status = .attached p → su.feedZone f = some z →
          ({ s with vr := y.vr, rw := y.rw } : State).TrailFollowed y su z) ∧
        (rd.counting = false ∨ (∀ p, (s.feed f).status ≠ .attached p) ∨ su.feedZone f = none →
          y.zs = s.zs) ∧
        (∀ k, (y.zone k).timeline = (v.zone k).timeline) ∧ State.Examined su y.rg.held y v) ∧
      v.la = { s.la with lanes := v.la.lanes } ∧
      (∀ k, (∀ h ∈ s.rg.held, k ≠ ext h.lane) → v.lane k = s.lane k) ∧
      s.SameBut v [.la, .ic, .zs, .vr, .rg, .rw]

/-! ## Zones -/

/-- Deciding a zone up to `n` (R131): the slots after its horizon up to `n`, one by one, each by the state steps in
the order of R103 (arming, missed entry, entry, end, return), then, unless one of them appended a run, by the choice
of its source (R132 to R139), then by the break list of the run that covers it (R142), then the horizon is the slot
(R128). It moves neither the zone's trail nor another zone. A view read asks for it, after the spread rule, exactly
when it names an SSN after the horizon and is no re-read (R155 to R157); the spread rule slips the other feeds of the
zone that lag n by more than SPREAD_MAX, in ascending order, each with its report and the zone's trail or unsetting
(with the horizon it had: log 14), before the held list is examined (log 11), when n is more than SPREAD_MAX after the
trail (R156). The window that a slot arms goes LIVE after the slot's entry (the place of its report among them: logs
34 and 36). -/
def Obligations.DecisionMovesHorizon : Prop :=
  ∀ (s : State) (su : Setup) (z : Fin 24) (n : SSN),
    (∀ t, (s.zone z).timeline = some t → precedes t.horizon n = true →
      s.decideTo su z n = (List.range (n - t.horizon).toNat).foldl
        (fun x i => x.decideSlot su z (t.horizon + BitVec.ofNat 32 (i + 1))) s ∧
      ∃ t', ((s.decideTo su z n).zone z).timeline = some t' ∧ t'.horizon = n ∧ t'.trail = t.trail) ∧
    (∀ t, (s.zone z).timeline = some t → precedes t.horizon n = false → s.decideTo su z n = s) ∧
    ((s.zone z).timeline = none → s.decideTo su z n = s) ∧
    (∀ k, k ≠ z → (s.decideTo su z n).zone k = s.zone k) ∧
    s.SameBut (s.decideTo su z n) [.zs, .rw] ∧
    (∀ (f : Fin 32) (reread : Bool) (t : Timeline), (s.zone z).timeline = some t →
      s.prepareRead su z f n reread =
        if reread = false ∧ precedes t.horizon n = true then (s.spreadRule su z f n).decideTo su z n
        else s) ∧
    (∀ (f : Fin 32) (t : Timeline), (s.zone z).timeline = some t →
      (su.spreadMax < (n - t.trail).toNat → ∃ lagging : List (Fin 32), lagging.Pairwise (· < ·) ∧
        (∀ k, k ∈ lagging ↔ k ≠ f ∧ su.feedZone k = some z ∧ ∃ q, (s.feed k).status = .attached q ∧
          precedes q.last (n - BitVec.ofNat 32 su.spreadMax) = true) ∧
        InTurn (State.LeftAttached su .slipped .spread) lagging s (s.spreadRule su z f n)) ∧
      ((n - t.trail).toNat ≤ su.spreadMax → s.spreadRule su z f n = s)) ∧
    (let entered := ((s.armStep su z n).missStep su z n).entryStep su z n
     let returned := ((entered.1.settleArming z).endStep z n).returnStep su z n
     let sourced := if entered.2 = true ∨ returned.2 = true then returned.1
       else returned.1.chooseSource su z n
     s.decideSlot su z n = sourced.closeSlot su z n) ∧
    ((∀ w, (s.zone z).status ≠ .regional w) → (∀ w c h, (s.zone z).status ≠ .returning w c h) →
      s.chooseSource su z n = s) ∧
    ∀ (t : Timeline) (front : List Run) (run : Run), (s.zone z).timeline = some t →
      t.log = front ++ [run] →
      ∃ run', (s.closeSlot su z n).zone z = { s.zone z with
          timeline := some { t with log := front ++ [run'], horizon := n } } ∧
        (∀ k, k ≠ z → (s.closeSlot su z n).zone k = s.zone k) ∧
        (∀ w, (s.closeSlot su z n).window w = s.window w) ∧ s.SameBut (s.closeSlot su z n) [.zs] ∧
        ((∀ kept i, run.window = some kept → i < kept.breaks.length →
            (run.cause ≠ .pathChange ∧ kept.breaks[i]? = some none ∧
              s.servedContent su z run n ≠ .null ∧
              ∃ e, s.usableEntry su .national z n = some e ∧
                kept.pairs.findIdx? (fun x => x.1 == e.tag) = some i) →
            run' = { run with window := some { kept with breaks := kept.breaks.set i (some n) } }) ∧
          ((¬ ∃ kept i, run.window = some kept ∧ i < kept.breaks.length ∧ run.cause ≠ .pathChange ∧
              kept.breaks[i]? = some none ∧ s.servedContent su z run n ≠ .null ∧
              ∃ e, s.usableEntry su .national z n = some e ∧
                kept.pairs.findIdx? (fun x => x.1 == e.tag) = some i) → run' = run)) ∧
        (∀ kept tag, run.window = some kept → (run.breakFalls tag n = true ↔
          run.cause ≠ .pathChange ∧ ∃ i, kept.pairs.findIdx? (fun x => x.1 == tag) = some i ∧
            kept.breaks[i]? = some (some n))) ∧
        (run.window = none → ∀ tag, run.breakFalls tag n = false)

/-- Arming (R105, R106): the due window of least start is taken; HELD_OFF for a held zone, ARMED when a path is LIVE
with its head at or after the start, DECLINED otherwise, an outcome with its report and its window's move (R101); the
window of an armed zone goes LIVE, with its report, if it was PENDING, at the end of the slot's entry steps, so that
arming itself hands no report and leaves the window (the model's reading, log 34). A zone that is not NATIONAL, or has
no region or no due window, arms nothing. -/
def Obligations.ArmingResults : Prop :=
  ∀ (s : State) (su : Setup) (z : Fin 24) (m : SSN),
    let t := s.armStep su z m
    let due := fun (w : Fin 64) =>
      ((s.window w).status = .pending ∨ (s.window w).status = .live) ∧
      (∃ r, (s.windowRec w).region = some r ∧ su.zoneRegion z = some r) ∧
      (s.window w).outcomes[z] = none ∧
      atOrBefore ((s.windowRec w).start - BitVec.ofNat 32 su.armLead) m = true
    let held := (s.zone z).commandHold ≠ none ∨ (s.zone z).pinHold = true
    ((s.zone z).status ≠ .national → t = s) ∧
    ((∀ w, ¬ due w) → s.dueWindow su z m = none ∧ t = s) ∧
    (∀ w, due w → (∀ v, v ≠ w → due v →
        precedes (s.windowRec w).start (s.windowRec v).start = true) →
      s.dueWindow su z m = some w) ∧
    ∀ w, s.dueWindow su z m = some w → due w ∧ ((s.zone z).status = .national →
      let ready := ∃ r p h, (s.windowRec w).region = some r ∧ (s.path r p).health = .live ∧
        (s.path r p).head = some h ∧ atOrBefore (s.windowRec w).start h = true
      let given := fun o => ∃ x, s.GivenOutcome x w z o m ∧ x.WindowMoved t su w
      (held → (t.zone z).status = .national ∧ (t.window w).outcomes[z] = some .heldOff ∧
        given .heldOff) ∧
      (¬ held → ready → t.zone z = { s.zone z with status := .armed w } ∧
        (t.window w).outcomes[z] = none ∧ t.rw = s.rw ∧
        let u := t.settleArming z
        (u.window w).status = .live ∧ (u.window w).outcomes = (s.window w).outcomes ∧
        (∀ k, u.zone k = t.zone k) ∧
        u.rw = if (s.window w).status = .pending then (t.hand (.windowState w
          (byte (s.windowRec w).regionByte) (s.windowRec w).start .live none)).rw else t.rw) ∧
      (¬ held → ¬ ready → (t.zone z).status = .national ∧
        (t.window w).outcomes[z] = some .declined ∧ given .declined))

/-- A missed entry (R109), with its reports in the order of R101 and R131, a window that the same slot armed going
LIVE after the outcome (log 34); and entry at a splice-ready set-tag slot (R107), on the path R108 prefers; the entry
appends its run, with one SWITCH report (R140); a full log delays it (R104), with LOG_FULL as `AppendOrFullLog` has it
(R141). -/
def Obligations.EntryAndMiss : Prop :=
  ∀ (s : State) (su : Setup) (z : Fin 24) (m : SSN) (w : Fin 64) (r : Fin 12) (tl : Timeline),
    (s.zone z).status = .armed w → su.zoneRegion z = some r → (s.zone z).timeline = some tl →
    let wr := s.windowRec w
    let candidate := fun (p : Path) => ∃ en want er,
      s.usableEntry su .national z m = some en ∧ pairedTag wr.pairs en.tag = some want ∧
      s.usableEntry su (.regional r p) z m = some er ∧ er.tag = want ∧ er.splice = true
    let state := fun (x : State) news =>
      x.hand (.windowState w (byte wr.regionByte) wr.start news none)
    (precedes (wr.start + BitVec.ofNat 32 su.entryGrace) m = true →
      (s.window w).outcomes[z] = none →
      let t := s.missStep su z m
      let missed := s.hand (.zoneOutcome w (byte wr.regionByte) z m .missed)
      let live := if (s.window w).status = .pending then state missed .live else missed
      let opened := (s.window w).status = .pending ∨ (s.window w).status = .live
      let last := ∀ k ∈ s.windowZones su w, k ≠ z → (s.window w).outcomes[k].isSome = true
      t.zone z = { s.zone z with status := .national, conceal := 0 } ∧
      (∀ k, k ≠ z → t.zone k = s.zone k) ∧ (∀ v, v ≠ w → t.window v = s.window v) ∧
      (t.window w).outcomes = (s.window w).outcomes.set z (some .missed) ∧ s.SameBut t [.zs, .rw] ∧
      (opened → last → (t.window w).status = .closed ∧ t.rw = (state live .closed).rw) ∧
      (opened → ¬ last → (t.window w).status = .live ∧ t.rw = live.rw) ∧
      (¬ opened → (t.window w).status = (s.window w).status ∧ t.rw = missed.rw)) ∧
    (precedes (wr.start + BitVec.ofNat 32 su.entryGrace) m = false → s.missStep su z m = s) ∧
    (atOrBefore wr.start m = true → (∃ p, candidate p) → tl.log.length < 32 →
      ∃ p t, s.entryStep su z m = (t, true) ∧ s.Prefers r wr.preferredPath candidate p ∧
        (∃ x, s.appendRun su z m (.regional p) w .entry = (x, true) ∧
          t.zone z = { x.zone z with status := .regional w, conceal := 0 } ∧
          (∀ k, k ≠ z → t.zone k = x.zone k) ∧ (∀ v, t.window v = x.window v) ∧ x.SameBut t [.zs]) ∧
        (t.zone z).status = .regional w ∧ (t.zone z).conceal = 0 ∧
        ∃ tl' run, (t.zone z).timeline = some tl' ∧ tl'.log = tl.log ++ [run] ∧
          run.first = m ∧ run.source = .regional p ∧ run.cause = .entry ∧
          run.window = some
            { window := w
              pairs := wr.pairs
              concealNational := wr.mode == 1
              breaks := wr.pairs.map (fun _ => none) }) ∧
    (¬ (atOrBefore wr.start m = true ∧ ∃ p, candidate p) → s.entryStep su z m = (s, false)) ∧
    (32 ≤ tl.log.length → ((s.entryStep su z m).1.zone z).status = .armed w ∧
      (s.entryStep su z m).2 = false ∧
      (atOrBefore wr.start m = true → (∃ p, candidate p) → ∃ p,
        s.Prefers r wr.preferredPath candidate p ∧
        s.entryStep su z m = s.appendRun su z m (.regional p) w .entry))

/-- The end of a window (R110), at the first slot at or after it; and the three returns to national (R104, R111 to
R113), each a run with its SWITCH report, the outcome, then the window's move, with their reports (R101). With a full
log the append is only attempted, with LOG_FULL as `AppendOrFullLog` has it (R141), and the zone stays RETURNING. -/
def Obligations.ReturnsToNational : Prop :=
  (∀ (s : State) (z : Fin 24) (m : SSN),
    (∀ w, (s.zone z).status = .regional w →
      (atOrBefore (s.windowRec w).finish m = true →
        s.StatusBecame (s.endStep z m) z (.returning w .windowEnd false)) ∧
      (atOrBefore (s.windowRec w).finish m = false → s.endStep z m = s)) ∧
    ((∀ w, (s.zone z).status ≠ .regional w) → s.endStep z m = s)) ∧
  ∀ (s : State) (su : Setup) (z : Fin 24) (m : SSN) (w : Fin 64) (c : ReturnCause) (hard : Bool)
    (tl : Timeline),
    (s.zone z).status = .returning w c hard → (s.zone z).timeline = some tl →
    (s.window w).outcomes[z] = none →
    let wr := s.windowRec w
    let splice := ∃ e, s.usableEntry su .national z m = some e ∧
      (pairedTag wr.pairs e.tag).isSome = true ∧ e.splice = true
    let grace := precedes (wr.finish + BitVec.ofNat 32 su.returnGrace) m = true
    let returned := fun (cause : RunCause) (o : ZoneOutcome) => ∃ t tl' run,
      s.returnStep su z m = (t, true) ∧ (t.zone z).timeline = some tl' ∧
      tl'.log = tl.log ++ [run] ∧ run.first = m ∧ run.source = .national ∧ run.cause = cause ∧
      run.window.map (·.window) = some w ∧ (t.zone z).status = .national ∧
      (t.zone z).conceal = 0 ∧ (t.window w).outcomes[z] = some o ∧
      ∃ x y, s.appendRun su z m .national w cause = (x, true) ∧ x.GivenOutcome y w z o m ∧
        y.WindowMoved t su w
    (tl.log.length < 32 →
      (hard = true → returned .hold .heldOff) ∧
      (hard = false → splice →
        (c = .windowEnd → returned .endReturn .completed) ∧
        (c = .cancel → returned .cancelReturn .cancelled) ∧
        (c = .hold → returned .holdReturn .heldOff)) ∧
      (hard = false → ¬ splice → grace →
        (c = .windowEnd → returned .graceReturn .completed) ∧
        (c = .cancel → returned .graceReturn .cancelled) ∧
        (c = .hold → returned .graceReturn .heldOff))) ∧
    (hard = false → ¬ splice → ¬ grace → s.returnStep su z m = (s, false)) ∧
    (32 ≤ tl.log.length → (s.returnStep su z m).2 = false ∧
      ((s.returnStep su z m).1.zone z).status = .returning w c hard ∧
      (s.returnStep su z m).1.window w = s.window w ∧
      let attempted := fun cause => s.returnStep su z m = s.appendRun su z m .national w cause
      (hard = true → attempted .hold) ∧
      (hard = false → splice →
        (c = .windowEnd → attempted .endReturn) ∧ (c = .cancel → attempted .cancelReturn) ∧
        (c = .hold → attempted .holdReturn)) ∧
      (hard = false → ¬ splice → grace → attempted .graceReturn))

/-- The source of a slot inside a window (R134 to R139), row by row of section 7.3.2: a forced return pending; a slot
that is no set-tag slot; a set-tag slot with the open run of path `p`; one with the open run CONCEAL, where
splice-ready candidates are looked for and preferred as R108 orders; a concealed slot, with the forced return when the
count passes the limit, with the outcome ABORTED and the window's move (R101). Each run appended holds its copies of
the window (R123) and has one SWITCH report (R140). With a full log (R141) no run is appended, LOG_FULL is reported
once per episode, a slot that wanted a regional run is concealed, and a forced return leaves the count above the
limit. -/
def Obligations.SourceInsideWindow : Prop :=
  ∀ (s : State) (su : Setup) (z : Fin 24) (m : SSN) (w : Fin 64) (r : Fin 12) (tl : Timeline),
    (s.zone z).status = .regional w ∨ (∃ c h, (s.zone z).status = .returning w c h) →
    su.zoneRegion z = some r → (s.zone z).timeline = some tl → (s.window w).outcomes[z] = none →
    let t := s.chooseSource su z m
    let limit := (s.windowRec w).limit
    let count := (s.zone z).conceal
    let room := tl.log.length < 32
    let appended := fun (source : RunSource) (cause : RunCause) => ∃ tl' run,
      (t.zone z).timeline = some tl' ∧ tl'.log = tl.log ++ [run] ∧ run.first = m ∧
      run.source = source ∧ run.cause = cause ∧
      run.window = some
        { window := w
          pairs := (s.windowRec w).pairs
          concealNational := (s.windowRec w).mode == 1
          breaks := (s.windowRec w).pairs.map (fun _ => none) }
    let made := fun (source : RunSource) (cause : RunCause) => appended source cause ∧
      ∃ x, s.appendRun su z m source w cause = (x, true) ∧
        (t.zone z).timeline = (x.zone z).timeline ∧ t.rw = x.rw
    let refused := fun (source : RunSource) (cause : RunCause) =>
      (t.zone z).timeline = some { tl with logFull := true } ∧
      t.rw = if tl.logFull then s.rw
        else (s.hand (.logFull z m source cause tl.openSource tl.trail)).rw
    let unchanged := (t.zone z).timeline = some tl ∧ t.rw = s.rw
    let stays := fun (k : Nat) =>
      (t.zone z).conceal = k ∧ (t.zone z).status = (s.zone z).status ∧ t.window w = s.window w
    let aborted := (t.zone z).conceal = 0 ∧ (t.zone z).status = .national ∧
      (t.window w).outcomes[z] = some .aborted ∧ appended .national .forcedReturn ∧
      ∃ k x y, (s.updZone z (fun c => { c with conceal := k })).appendRun su z m .national w
          .forcedReturn = (x, true) ∧ x.GivenOutcome y w z .aborted m ∧ y.WindowMoved t su w
    let setTag := fun (want : Tag) => ∃ en, s.usableEntry su .national z m = some en ∧
      pairedTag (s.windowRec w).pairs en.tag = some want
    let resumes := fun (want : Tag) (p : Path) => ∃ er,
      s.usableEntry su (.regional r p) z m = some er ∧ er.tag = want ∧ er.splice = true
    ((∀ k, k ≠ z → t.zone k = s.zone k) ∧ (∀ v, v ≠ w → t.window v = s.window v) ∧
      (t.zone z).commandHold = (s.zone z).commandHold ∧ (t.zone z).pinHold = (s.zone z).pinHold ∧
      s.SameBut t [.zs, .rw]) ∧
    (limit < count → (room → aborted) ∧ (¬ room → stays count ∧ refused .national .forcedReturn)) ∧
    (count ≤ limit → (∀ want, ¬ setTag want) → t = s) ∧
    (∀ want p, count ≤ limit → setTag want → tl.openSource = .regional p →
      let own := s.serves su z m r p want = true
      let other := s.serves su z m r (otherPath p) want = true
      (own → stays 0 ∧ unchanged) ∧
      (¬ own → other →
        (room → stays 0 ∧ made (.regional (otherPath p)) .pathChange) ∧
        (¬ room → stays (count + 1) ∧ refused (.regional (otherPath p)) .pathChange)) ∧
      (¬ own → ¬ other →
        (count + 1 ≤ limit → (room → stays (count + 1) ∧ made .conceal .conceal) ∧
          (¬ room → stays (count + 1) ∧ refused .conceal .conceal)) ∧
        (limit < count + 1 → (room → aborted) ∧
          (¬ room → stays (count + 1) ∧ refused .national .forcedReturn)))) ∧
    ∀ want, count ≤ limit → setTag want → tl.openSource = .conceal →
      ((∃ p, resumes want p) → ∃ p, s.Prefers r (s.windowRec w).preferredPath (resumes want) p ∧
        (room → stays 0 ∧ made (.regional p) .resume) ∧
        (¬ room → stays (count + 1) ∧ refused (.regional p) .resume)) ∧
      ((¬ ∃ p, resumes want p) →
        (count + 1 ≤ limit → stays (count + 1) ∧ unchanged) ∧
        (limit < count + 1 → (room → aborted) ∧
          (¬ room → stays (count + 1) ∧ refused .national .forcedReturn)))

/-- Appending a run, with its window, its copies of the window's pairs and conceal mode and an absent break-list entry
for each pair (R123, R124), and its SWITCH report; with a full log LOG_FULL once per episode (R140, R141). -/
def Obligations.AppendOrFullLog : Prop :=
  ∀ (s : State) (su : Setup) (z : Fin 24) (m : SSN) (source : RunSource) (w : Fin 64)
    (cause : RunCause) (tl : Timeline), (s.zone z).timeline = some tl →
    let a := s.appendRun su z m source w cause
    (tl.log.length < 32 →
      a.2 = true ∧ a.1.rw = (s.hand (.switch z (su.zoneRegionByte z) (some w) m source tl.openSource
        cause (tl.log.length + 1))).rw ∧
      ∃ run, (a.1.zone z).timeline = some { tl with log := tl.log ++ [run], logFull := false } ∧
        run.first = m ∧ run.source = source ∧ run.cause = cause ∧
        ∃ rw, run.window = some rw ∧ rw.window = w ∧ rw.pairs = (s.windowRec w).pairs ∧
          (rw.concealNational = true ↔ (s.windowRec w).mode = 1) ∧
          rw.breaks.length = rw.pairs.length ∧ ∀ b ∈ rw.breaks, b = none) ∧
    (32 ≤ tl.log.length → tl.logFull = false →
      a.2 = false ∧ (a.1.zone z).timeline = some { tl with logFull := true } ∧
      a.1.rw = (s.hand (.logFull z m source cause tl.openSource tl.trail)).rw) ∧
    (32 ≤ tl.log.length → tl.logFull = true → a = (s, false)) ∧
    (∀ k, k ≠ z → a.1.zone k = s.zone k) ∧ (∀ v, a.1.window v = s.window v) ∧
    (a.1.zone z).status = (s.zone z).status ∧ s.SameBut a.1 [.zs, .rw]

/-- The run covering an SSN, which the Zone Scheduler answers for the SSNs between a set zone's trail and horizon
(R124, R144); when an entry is usable for a zone at an SSN (R79); and the cell served for an SSN, by the run that
covers it and the entries (R143). -/
def Obligations.ServedContentRule : Prop :=
  (∀ (s : State) (z : Fin 24) (n : SSN),
    ((s.zone z).timeline = none → s.queryRun z n = none) ∧
    ∀ t, (s.zone z).timeline = some t → ∀ run, s.queryRun z n = some run ↔
      between t.trail n t.horizon = true ∧ Covers t.log n run) ∧
  (∀ (s : State) (su : Setup) (ring : RingId) (z : Fin 24) (n : SSN) (e : Entry),
    let slots := match ring with
      | .national => su.nr
      | .regional _ _ => su.rs
    s.usableEntry su ring z n = some e ↔ s.entry ring (n.toNat % slots) = some e ∧
      e.state = .good ∧ e.ssn = n ∧ e.late.getLsbD z.val = false) ∧
  ∀ (s : State) (su : Setup) (z : Fin 24) (run : Run) (n : SSN),
    (s.usableEntry su .national z n = none → s.servedContent su z run n = .null) ∧
    ∀ e, s.usableEntry su .national z n = some e →
      (run.window = none → s.servedContent su z run n = .national e.tag) ∧
      ∀ rw, run.window = some rw →
        (pairedTag rw.pairs e.tag = none → s.servedContent su z run n = .national e.tag) ∧
        ∀ want, pairedTag rw.pairs e.tag = some want →
          (run.source = .national → s.servedContent su z run n = .national e.tag) ∧
          (run.source = .conceal → s.servedContent su z run n =
            if rw.concealNational then .national e.tag else .null) ∧
          ∀ p r, run.source = .regional p → su.zoneRegion z = some r →
            ((∃ er, s.usableEntry su (.regional r p) z n = some er ∧ er.tag = want) →
              s.servedContent su z run n = .regional p e.tag) ∧
            ((¬ ∃ er, s.usableEntry su (.regional r p) z n = some er ∧ er.tag = want) →
              s.servedContent su z run n = .null)

/-- Retirement removes from the front exactly the runs whose successor's first SSN is at or before the
trail, and never the open run; it comes with every advance of the trail, makes no report and leaves the
log-full episode (R129). -/
def Obligations.RetirementRule : Prop :=
  (∀ (trail : SSN) (log : List Run), ∃ k, retire trail log = log.drop k ∧
    (log ≠ [] → k < log.length) ∧ (retire trail log).getLast? = log.getLast? ∧
    (∀ i, i < k → ∃ r, log[i + 1]? = some r ∧ atOrBefore r.first trail = true) ∧
    (∀ r, log[k + 1]? = some r → atOrBefore r.first trail = false)) ∧
  ∀ (s : State) (z : Fin 24) (x : SSN) (t : Timeline), (s.zone z).timeline = some t →
    ((s.advanceTrail z x).zone z).timeline = some (if precedes t.trail x then
      { t with trail := x, log := retire x t.log } else t) ∧
    (s.advanceTrail z x).rw = s.rw

/-! ## The Timebase and HOLD_REQ -/

/-- A tick (R180), with every timer that counts (R29, R95, R171, R182) held at its limit until its owner
acts (the model's choice, log 8); and with an empty queue a step is one period of REFCLK, the
TICK_DIV + 1st of which is the tick (the model's choice, log 3). -/
def Obligations.TickCounts : Prop :=
  ∀ s : State,
    (s.setup = none → exec .tick s = .next s ∧ (s.pending = [] → step s = .next s)) ∧
    ∀ su, s.setup = some su →
      (s.pending = [] → s.tb.prescaler < su.tickDiv →
        step s = .next { s with tb := { s.tb with prescaler := s.tb.prescaler + 1 } }) ∧
      (s.pending = [] → su.tickDiv ≤ s.tb.prescaler → step s = exec .tick s) ∧
      ∃ t, exec .tick s = .next t ∧
        t.tb = { s.tb with
          prescaler := 0
          tickCount := s.tb.tickCount + 1
          pulseTimeout := if s.tb.refState = .lost then s.tb.pulseTimeout
            else s.tb.pulseTimeout.map (fun n => min (n + 1) su.pulseTimeout) } ∧
        (∀ r p, t.path r p = { s.path r p with
          timer := if (s.path r p).health = .unseen then (s.path r p).timer
            else (s.path r p).timer.map (fun n => min (n + 1) (su.profileOf r).silenceLimit) }) ∧
        t.ic.dir = s.ic.dir ∧ t.ic.natHead = s.ic.natHead ∧
        t.rg.held = s.rg.held.map (fun h => { h with timer := min (h.timer + 1) su.holdLimit }) ∧
        t.la = { s.la with
          port := match s.la.port with
            | .reserved r => .reserved { r with wait := min (r.wait + 1) su.linkWait }
            | p => p } ∧
        s.SameBut t [.tb, .ic, .rg, .la]

/-- The reference state (R182): the pulse timeout has reached PULSE_TIMEOUT, where it stays until its row is taken
(the model's choice, log 8), the row changing nothing before that (the model's reading, log 1); and a reference pulse
(R183 to R185): the count, the capture, the reference state and the reports, then the stall check, whose feeds are
found all at once. They slip in ascending order, each with its report, its zone's trail or unsetting (R150; UNATTENDED
carries the horizon the zone had, the model's reading, log 14), and the examination of the held list where a trail has
moved (R172; slip by slip, the model's reading, log 11), whose releases meet the port (the model's reading, log 12);
where no feed stalls nothing else changes. -/
def Obligations.ReferenceChanges : Prop :=
  (∀ (s : State) (su : Setup), s.setup = some su →
    (∀ n, s.tb.refState ≠ .lost → s.tb.pulseTimeout = some n → su.pulseTimeout ≤ n →
      ∃ t, exec .pulseTimeoutExpiry s = .next t ∧
        t.tb = { s.tb with refState := .lost, pulseTimeout := none } ∧
        t.rw = (s.hand (.reference s.tb.pulseCount s.tb.captureTick s.tb.captureHead s.tb.refState
          .lost)).rw ∧
        s.SameBut t [.tb, .rw]) ∧
    (s.tb.refState = .lost ∨ s.tb.pulseTimeout = none ∨
        (∃ n, s.tb.pulseTimeout = some n ∧ n < su.pulseTimeout) →
      exec .pulseTimeoutExpiry s = .next s)) ∧
  ∀ s : State,
    (s.setup = none → exec .refPulse s = .next s) ∧
    ∀ su, s.setup = some su → ∃ t, exec .refPulse s = .next t ∧
      t.tb = { s.tb with
        pulseCount := s.tb.pulseCount + 1
        captureTick := s.tb.tickCount
        captureHead := s.ic.natHead
        refState := .locked
        pulseTimeout := some 0 } ∧
      (let s1 := if s.tb.refState = .locked then s
         else s.hand (.reference (s.tb.pulseCount + 1) s.tb.tickCount s.ic.natHead s.tb.refState
           .locked)
       let s2 := if su.pulseReport then
           s1.hand (.pulse (s.tb.pulseCount + 1) s.tb.tickCount s.ic.natHead .locked)
         else s1
       let checked := s.tb.refState = .locked ∧ su.stallPulses ≠ 0
       let stallSlip := fun (f : Fin 32) (x y : State) => ∃ a b,
         State.LeftAttached su .slipped .stall f x a ∧
         ((∃ z, x.TrailMoved a z) → State.Examined su a.rg.held a b) ∧
         ((∀ z, ¬ x.TrailMoved a z) → b = a) ∧ b.PortSettled y
       ∃ (q : State) (stalled : List (Fin 32)), q.rw = s2.rw ∧ q.tb = t.tb ∧
         s.SameBut q [.vr, .tb, .rw] ∧
         (∀ f, (∀ p, (s.feed f).status ≠ .attached p) → q.feed f = s.feed f) ∧
         (∀ f p, (s.feed f).status = .attached p →
           (checked → q.feed f = { s.feed f with
             status := .attached { p with
               stall := if p.readSincePulse then 0 else p.stall + 1, readSincePulse := false } }) ∧
           (¬ checked → q.feed f = { s.feed f with
             status := .attached { p with stall := 0, readSincePulse := false } })) ∧
         stalled.Pairwise (· < ·) ∧
         (∀ f, f ∈ stalled ↔ checked ∧
           ∃ p, (q.feed f).status = .attached p ∧ su.stallPulses ≤ p.stall) ∧
         InTurn stallSlip stalled q t) ∧
      (∀ f, (∀ p, (s.feed f).status ≠ .attached p) → t.feed f = s.feed f) ∧
      (∀ f p, (s.feed f).status = .attached p →
        let checked := s.tb.refState = .locked ∧ su.stallPulses ≠ 0
        (¬ checked → t.feed f = { s.feed f with
          status := .attached { p with stall := 0, readSincePulse := false } }) ∧
        (checked →
          let count := if p.readSincePulse then 0 else p.stall + 1
          (count < su.stallPulses → t.feed f = { s.feed f with
            status := .attached { p with stall := count, readSincePulse := false } }) ∧
          (su.stallPulses ≤ count → (t.feed f).status = .slipped ∧
            (t.feed f).inFlight = (s.feed f).inFlight.map InFlight.uncounted))) ∧
      s.SameBut t [.la, .ic, .zs, .vr, .rg, .tb, .rw]

/-- HOLD_REQ rises and falls (R116 to R119): a rise hands HOLD_STATE, is taken as a HARD hold on the enabled zones in
ascending order, and then the windows that one of them was ARMED for move, in ascending index (R101); that every
outcome stands before the first window where the hold closes several is the model's reading (log 15). An ARMED zone
holds no outcome for its window, which the clause about it takes as its premise; a command that names the level the
line has is no edge (log 24). -/
def Obligations.HoldReqFollowed : Prop :=
  ∀ s : State,
    (s.holdReq = true → exec .holdReqAssert s = .next s) ∧
    (s.holdReq = false → exec .holdReqDeassert s = .next s) ∧
    (s.holdReq = false → s.setup = none → exec .holdReqAssert s = .next { s with holdReq := true }) ∧
    (s.holdReq = true → s.setup = none →
      exec .holdReqDeassert s = .next { s with holdReq := false }) ∧
    ∀ su, s.setup = some su →
      (s.holdReq = true → ∃ t, exec .holdReqDeassert s = .next t ∧ t.holdReq = false ∧
        (∀ z, t.zone z = if su.zones[z].enabled then { s.zone z with pinHold := false }
          else s.zone z) ∧
        (∀ w, t.window w = s.window w) ∧
        t.rw = (s.hand (.holdState (zoneSetOf su.enabledZones) false .pin none)).rw ∧
        s.SameBut t [.zs, .rw, .holdReq]) ∧
      (s.holdReq = false → ∃ t, exec .holdReqAssert s = .next t ∧ t.holdReq = true ∧
        (∃ x, x.rw = (s.hand (.holdState (zoneSetOf su.enabledZones) true .pin (some .hard))).rw ∧
          x.holdReq = true ∧
          (∀ z, x.zone z = if su.zones[z].enabled then { s.zone z with pinHold := true }
            else s.zone z) ∧
          (∀ w, x.window w = s.window w) ∧ s.SameBut x [.zs, .rw, .holdReq] ∧
          x.HoldsTaken t su .hard ((List.finRange 24).filter (fun z => su.zones[z].enabled))) ∧
        (∀ w, (∀ z, su.zones[z].enabled = true → (s.zone z).status ≠ .armed w) →
          t.window w = s.window w) ∧
        (∀ z w, su.zones[z].enabled = true → (s.zone z).status = .armed w →
          z ∈ s.windowZones su w → (s.window w).outcomes[z] = none →
          (s.window w).status = .pending ∨ (s.window w).status = .live →
          (t.window w).status =
            if ∀ k ∈ s.windowZones su w, (t.window w).outcomes[k].isSome then .closed else .live) ∧
        (∀ z, su.zones[z].enabled = false → t.zone z = s.zone z) ∧
        (∀ z, su.zones[z].enabled = true →
          (t.zone z).pinHold = true ∧ (t.zone z).commandHold = (s.zone z).commandHold ∧
          (t.zone z).timeline = (s.zone z).timeline ∧
          ((s.zone z).status = .national → (t.zone z).status = .national) ∧
          (∀ w, (s.zone z).status = .armed w → (s.window w).outcomes[z] = none →
            (t.zone z).status = .national ∧ (t.zone z).conceal = 0 ∧
            (t.window w).outcomes[z] = some .heldOff) ∧
          ((∀ w, (s.zone z).status ≠ .armed w) → (t.zone z).conceal = (s.zone z).conceal) ∧
          (∀ w, (s.zone z).status = .regional w →
            (t.zone z).status = .returning w .hold true) ∧
          (∀ w c, (s.zone z).status = .returning w c false →
            (t.zone z).status = .returning w .hold true) ∧
          (∀ w c, (s.zone z).status = .returning w c true →
            (t.zone z).status = .returning w c true)) ∧
        s.SameBut t [.zs, .rw, .holdReq])

/-! ## The drain and the report ring -/

/-- A block hands a report to the Report Writer (R181, R188). -/
def Obligations.ReportHanded : Prop :=
  ∀ (s : State) (r : Report),
    let queued := (s.hand r).rw =
      { s.rw with queue := s.rw.queue ++ [{ tick := s.tb.tickCount, report := r }] }
    let configKind := (∃ a b c, r = .setupResult a b c) ∨
      (∃ a b c d e, r = .commandResult a b c d e) ∨ (∃ a b c d e, r = .windowState a b c d e)
    (s.isConfig = false → s.ps.drainFlag = false → s.rw.queue.length < 16 → queued) ∧
    (s.isConfig = false → s.ps.drainFlag = false → 16 ≤ s.rw.queue.length →
      (s.hand r).rw = { s.rw with overrun := true, discardSince := true }) ∧
    (s.isConfig = false → s.ps.drainFlag = true → s.hand r = s) ∧
    (s.isConfig = true → configKind → s.rw.queue.length < 16 → queued) ∧
    (s.isConfig = true → configKind → 16 ≤ s.rw.queue.length → s.hand r = s) ∧
    (s.isConfig = true → ¬ configKind → s.hand r = s) ∧
    s.SameBut (s.hand r) [.rw]

/-- The end of the drain (R65, R194): STOPPED is written, or discarded with a full ring, after which the part is in
CONFIG, every block in the state of that entry (R66), at once or at the completion of the access in progress (between
its response and the next grant: the model's reading, log 16). Where a condition is missing, or the drain flag is set,
the row changes nothing (the model's reading, log 1); where all hold, it is still this row that ends the drain (the
model's choice, log 32). STOPPED carries the overrun flag as it stands (the model's reading, log 28). The port meets
the record at the report lane, or the FREE port that the entry leaves (R21, R24, R37); the rest of the Lane Arbiter
stays. -/
def Obligations.DrainEnds : Prop :=
  ∀ (s : State) (su : Setup), s.ps.run = .stopping su →
    (s.ringFull su = true ↔ (s.rw.writeIndex + 1) % su.reportSize = s.rw.readIndex) ∧
    let conditions :=
      (∀ l a, (s.lane l).presented? = some a →
        (∀ ring k, a.kind ≠ .ring ring k) ∧ a.kind ≠ .released) ∧
      (∀ f, (s.feed f).inFlight = none) ∧ s.rg.held = [] ∧
      s.rw.queue = [] ∧ s.rw.hand = none ∧ s.lane reportLane = .idle
    let stopped : Record :=
      { tick := s.tb.tickCount, report := .stopped s.ps.stopTicket s.rw.overrun }
    (s.ps.drainFlag = true ∨ ¬ conditions → exec .drainEnd s = .next s) ∧
    (s.ps.drainFlag = false → conditions → ∃ t, exec .drainEnd s = .next t ∧
      (s.ringFull su = false →
        t.ps = { s.ps with drainFlag := true } ∧ t.rw = { s.rw with hand := some stopped } ∧
        (let access : Access :=
          { req :=
              { addr := BitVec.ofNat 36 (su.reportBase + 32 * s.rw.writeIndex)
                body := .write stopped.bytes
                link := false }
            kind := .record }
         (t.lane reportLane = .waiting access ∨ t.lane reportLane = .active access) ∧
         t.SettledFrom (s.la.withReport (.waiting access))) ∧
        s.SameBut t [.la, .ps, .rw]) ∧
      (s.ringFull su = true → (∀ g, s.la.port ≠ .busy g) →
        s.EnteredConfig t ∧ t.mem = s.mem ∧
        t.SettledFrom { s.la with port := .free, urgentPtr := 0, normalPtr := 0 } ∧
        t.rw = { s.rw with
          overrun := true, discardSince := true, readWrite := s.rw.readWrite.overtake }) ∧
      (∀ g, s.ringFull su = true → s.la.port = .busy g →
        t.ps = { s.ps with drainFlag := true } ∧ t.entryDue = true ∧
        t.rw = { s.rw with overrun := true, discardSince := true } ∧
        s.SameBut t [.ps, .rw]))

/-- The bytes of a record, by kind, with the codes of its values (sections 12.7 and 12.9, R196); and the Report Writer
takes the oldest record (R188, R189, R191) at this row (the model's choice, log 35): to the standby record in CONFIG,
to the ring slot of the write index, or with a full ring the whole queue is discarded (at once: the model's reading,
log 13). With a record in hand, a busy report lane or an empty queue the row changes nothing (the model's reading, log
1). The port meets the write at the report lane (R21, R24), and the rest of the Lane Arbiter stays. -/
def Obligations.ReportTaken : Prop :=
  CodesAsListed ∧ (∀ r : Record, r.LaidOut) ∧
  ∀ s : State,
    (s.rw.hand ≠ none ∨ s.lane reportLane ≠ .idle ∨ s.rw.queue = [] →
      exec .reportTake s = .next s) ∧
    ∀ r rest, s.rw.hand = none → s.lane reportLane = .idle → s.rw.queue = r :: rest →
      let write := fun (k : Nat) (kind : AccessKind) => Access.mk
        { addr := BitVec.ofNat 36 k, body := .write r.bytes, link := false } kind
      let presents := fun (t : State) (access : Access) =>
        (t.lane reportLane = .waiting access ∨ t.lane reportLane = .active access) ∧
        t.SettledFrom (s.la.withReport (.waiting access)) ∧
        t.rw = { s.rw with queue := rest, hand := some r } ∧ s.SameBut t [.la, .rw]
      ∃ t, exec .reportTake s = .next t ∧
        (s.setup = none → presents t (write (s.planBase + 0x2120) .standby)) ∧
        ∀ su, s.setup = some su →
          (s.ringFull su = true ↔ (s.rw.writeIndex + 1) % su.reportSize = s.rw.readIndex) ∧
          (s.ringFull su = true →
            t.rw = { s.rw with queue := [], overrun := true, discardSince := true } ∧
            t.lane reportLane = .idle ∧ t.SettledFrom s.la ∧ s.SameBut t [.la, .rw]) ∧
          (s.ringFull su = false →
            presents t (write (su.reportBase + 32 * s.rw.writeIndex) .record))

/-- When IRQ_N is asserted (R193); and the report-lane writes complete (R35, R189 to R191, R194): where the record was
STOPPED, the part enters CONFIG, every block in the state of that entry (R66). The report lane is then IDLE with no
record in hand even when reports are queued: the next is taken by its own row REPORT_TAKE (the model's choice, log
35). The bytes that a write answered ERROR leaves are free values (log 5). The port becomes FREE, or RESERVED where
R27 makes a reservation (which takes a set LINK, and the report lane's is clear, R21), and is granted as R24 to R26
have it, from pointers at lane 0 after an entry to CONFIG (R37); the rest of the Lane Arbiter stays. -/
def Obligations.ReportWritesComplete : Prop :=
  (∀ s : State, s.irqAsserted = true ↔ s.isConfig = false ∧ s.resetAsserted = false ∧
    (s.rw.writeIndex ≠ s.rw.readIndex ∨ s.rw.overrun = true)) ∧
  ∀ (s : State) (g : Grant) (a : Access) (x : MemAnswer),
    s.inProgress = some (g, a) → g.lane = reportLane →
    let entering := s.isStopping = true ∧ s.ps.drainFlag = true
    let reserves := s.isConfig = false ∧ g.link = true ∧ x = .okay ∧ g.count < 8 ∧
      ∀ k, s.Waits k → s.isUrgent k = false
    let closes := fun (t : State) (lane : LaneState) =>
      (¬ reserves → t.SettledFrom { s.la.withReport lane with port := .free }) ∧
      (reserves → t.SettledFrom { s.la.withReport lane with
        port := .reserved { lane := reportLane, urgent := false, wait := 0, count := g.count } })
    let leaves := fun (t : State) (rw : ReportWriter) =>
      (entering → s.EnteredConfig t ∧
        t.SettledFrom { s.la.withReport .idle with port := .free, urgentPtr := 0, normalPtr := 0 }) ∧
      (¬ entering → t.rw = rw ∧ closes t .idle ∧ s.SameBut t [.la, .rw, .mem, .freeCount])
    (a.kind = .standby → ∃ t, exec (.recordWriteComplete x) s = .next t ∧
      s.MemoryAfter t a.req x ∧ t.rw = { s.rw with hand := none } ∧ t.lane reportLane = .idle ∧
      closes t .idle ∧ s.SameBut t [.la, .rw, .mem, .freeCount]) ∧
    (∀ su, a.kind = .record → s.setup = some su → x = .okay →
      ∃ t, exec (.recordWriteComplete x) s = .next t ∧ s.MemoryAfter t a.req x ∧
        t.rw = { s.rw with writeIndex := (s.rw.writeIndex + 1) % su.reportSize } ∧
        (let access : Access :=
          { req :=
              { addr := BitVec.ofNat 36 (s.planBase + 0x2108)
                body := .write (beBytes 4 ((s.rw.writeIndex + 1) % su.reportSize) ++
                  [if s.rw.overrun then 1 else 0, 0, 0, 0])
                link := false }
            kind := .indexWord }
         (t.lane reportLane = .waiting access ∨ t.lane reportLane = .active access) ∧
         closes t (.waiting access)) ∧
        s.SameBut t [.la, .rw, .mem, .freeCount]) ∧
    (∀ su, a.kind = .record → s.setup = some su → x = .error →
      ∃ t, exec (.recordWriteComplete x) s = .next t ∧ s.MemoryAfter t a.req x ∧
        t.rw.hand = none ∧ t.rw.writeIndex = s.rw.writeIndex ∧ t.rw.readIndex = s.rw.readIndex ∧
        t.rw.overrun = true ∧ t.rw.discardSince = true ∧ t.lane reportLane = .idle ∧
        leaves t { s.rw with hand := none, overrun := true, discardSince := true }) ∧
    (a.kind = .indexWord → ∃ t, exec (.writeIndexWordComplete x) s = .next t ∧
      s.MemoryAfter t a.req x ∧ t.rw.hand = none ∧ t.rw.writeIndex = s.rw.writeIndex ∧
      t.rw.readIndex = s.rw.readIndex ∧ t.rw.overrun = s.rw.overrun ∧
      t.rw.discardSince = s.rw.discardSince ∧ t.lane reportLane = .idle ∧
      leaves t { s.rw with hand := none })

/-! ## Invariants -/

/-- The reset state meets every invariant. -/
def Obligations.InvariantsAtReset : Prop :=
  State.reset.MemoryCanonical ∧ State.reset.WithinCapacity ∧ State.reset.ZonesFollowFeeds ∧
    State.reset.FeedsWithinZones ∧ State.reset.PlanSound

/-- Every step keeps carriage memory in its canonical form and every store within its capacity (R18, R32,
R124, R170, R187). -/
def Obligations.StepKeepsCapacities : Prop :=
  ∀ s t : State, s.MemoryCanonical → s.WithinCapacity → step s = .next t →
    t.MemoryCanonical ∧ t.WithinCapacity

/-- Every step keeps a zone set exactly while it has an attached feed (R125, R145), and the other laws of R125: each
attached feed's last between its zone's trail and horizon, the trail the least of them, and the horizon no more than
SPREAD_MAX after the trail. The second part takes as premises the first and StepKeepsCapacities. -/
def Obligations.StepKeepsZonesFollowFeeds : Prop :=
  (∀ s t : State, s.ZonesFollowFeeds → step s = .next t → t.ZonesFollowFeeds) ∧
  ∀ s t : State, s.ZonesFollowFeeds → s.FeedsWithinZones → s.WithinCapacity → step s = .next t →
    t.FeedsWithinZones

/-- Every step keeps the conditions under which the Plan Shadow's copies can be trusted (R53 to R57). -/
def Obligations.StepKeepsPlanSound : Prop :=
  ∀ s t : State, s.PlanSound → step s = .next t → t.PlanSound

/-- While a setup is in force the setup block in memory equals the setup copy, and while a window is PENDING
or LIVE its record in memory equals its copy (R57). -/
def Obligations.LockedPlanBytesEqualCopies : Prop :=
  ∀ s : State, s.PlanSound →
    (s.ps.run ≠ .config → ∀ i < 4096,
      readByte s.mem (s.planBase + i) = readByte s.ps.planCopy i) ∧
    ∀ w, (s.window w).status = .pending ∨ (s.window w).status = .live → ∀ i < 64,
      readByte s.mem (s.planBase + (windowOffset w + i)) =
        readByte s.ps.planCopy (windowOffset w + i)
end

