-- ==== Sys2Proof/Laws/State.lean ====
section
/-! SUPPORT. One lemma per field and update of the state, so that no proof unfolds a record update; and what
reading a lane, zone, window, feed, path or entry gives after each update. -/

namespace Sys2Proof.Machine

/-! ## `State.setLane` changes `la` alone -/

@[simp] theorem State.setLane_pending (s : State) (l : Fin 9) (x : LaneState) : (s.setLane l x).pending = s.pending := rfl
@[simp] theorem State.setLane_ac (s : State) (l : Fin 9) (x : LaneState) : (s.setLane l x).ac = s.ac := rfl
@[simp] theorem State.setLane_ps (s : State) (l : Fin 9) (x : LaneState) : (s.setLane l x).ps = s.ps := rfl
@[simp] theorem State.setLane_ic (s : State) (l : Fin 9) (x : LaneState) : (s.setLane l x).ic = s.ic := rfl
@[simp] theorem State.setLane_zs (s : State) (l : Fin 9) (x : LaneState) : (s.setLane l x).zs = s.zs := rfl
@[simp] theorem State.setLane_vr (s : State) (l : Fin 9) (x : LaneState) : (s.setLane l x).vr = s.vr := rfl
@[simp] theorem State.setLane_rg (s : State) (l : Fin 9) (x : LaneState) : (s.setLane l x).rg = s.rg := rfl
@[simp] theorem State.setLane_tb (s : State) (l : Fin 9) (x : LaneState) : (s.setLane l x).tb = s.tb := rfl
@[simp] theorem State.setLane_rw (s : State) (l : Fin 9) (x : LaneState) : (s.setLane l x).rw = s.rw := rfl
@[simp] theorem State.setLane_mem (s : State) (l : Fin 9) (x : LaneState) : (s.setLane l x).mem = s.mem := rfl
@[simp] theorem State.setLane_resetAsserted (s : State) (l : Fin 9) (x : LaneState) : (s.setLane l x).resetAsserted = s.resetAsserted := rfl
@[simp] theorem State.setLane_holdReq (s : State) (l : Fin 9) (x : LaneState) : (s.setLane l x).holdReq = s.holdReq := rfl
@[simp] theorem State.setLane_freeCount (s : State) (l : Fin 9) (x : LaneState) : (s.setLane l x).freeCount = s.freeCount := rfl

/-! ## `State.setPort` changes `la` alone -/

@[simp] theorem State.setPort_pending (s : State) (p : Port) : (s.setPort p).pending = s.pending := rfl
@[simp] theorem State.setPort_ac (s : State) (p : Port) : (s.setPort p).ac = s.ac := rfl
@[simp] theorem State.setPort_ps (s : State) (p : Port) : (s.setPort p).ps = s.ps := rfl
@[simp] theorem State.setPort_ic (s : State) (p : Port) : (s.setPort p).ic = s.ic := rfl
@[simp] theorem State.setPort_zs (s : State) (p : Port) : (s.setPort p).zs = s.zs := rfl
@[simp] theorem State.setPort_vr (s : State) (p : Port) : (s.setPort p).vr = s.vr := rfl
@[simp] theorem State.setPort_rg (s : State) (p : Port) : (s.setPort p).rg = s.rg := rfl
@[simp] theorem State.setPort_tb (s : State) (p : Port) : (s.setPort p).tb = s.tb := rfl
@[simp] theorem State.setPort_rw (s : State) (p : Port) : (s.setPort p).rw = s.rw := rfl
@[simp] theorem State.setPort_mem (s : State) (p : Port) : (s.setPort p).mem = s.mem := rfl
@[simp] theorem State.setPort_resetAsserted (s : State) (p : Port) : (s.setPort p).resetAsserted = s.resetAsserted := rfl
@[simp] theorem State.setPort_holdReq (s : State) (p : Port) : (s.setPort p).holdReq = s.holdReq := rfl
@[simp] theorem State.setPort_freeCount (s : State) (p : Port) : (s.setPort p).freeCount = s.freeCount := rfl

/-! ## `State.respond` changes `la` alone -/

@[simp] theorem State.respond_pending (s : State) (l : Fin 8) (r : Response) : (s.respond l r).pending = s.pending := rfl
@[simp] theorem State.respond_ac (s : State) (l : Fin 8) (r : Response) : (s.respond l r).ac = s.ac := rfl
@[simp] theorem State.respond_ps (s : State) (l : Fin 8) (r : Response) : (s.respond l r).ps = s.ps := rfl
@[simp] theorem State.respond_ic (s : State) (l : Fin 8) (r : Response) : (s.respond l r).ic = s.ic := rfl
@[simp] theorem State.respond_zs (s : State) (l : Fin 8) (r : Response) : (s.respond l r).zs = s.zs := rfl
@[simp] theorem State.respond_vr (s : State) (l : Fin 8) (r : Response) : (s.respond l r).vr = s.vr := rfl
@[simp] theorem State.respond_rg (s : State) (l : Fin 8) (r : Response) : (s.respond l r).rg = s.rg := rfl
@[simp] theorem State.respond_tb (s : State) (l : Fin 8) (r : Response) : (s.respond l r).tb = s.tb := rfl
@[simp] theorem State.respond_rw (s : State) (l : Fin 8) (r : Response) : (s.respond l r).rw = s.rw := rfl
@[simp] theorem State.respond_mem (s : State) (l : Fin 8) (r : Response) : (s.respond l r).mem = s.mem := rfl
@[simp] theorem State.respond_resetAsserted (s : State) (l : Fin 8) (r : Response) : (s.respond l r).resetAsserted = s.resetAsserted := rfl
@[simp] theorem State.respond_holdReq (s : State) (l : Fin 8) (r : Response) : (s.respond l r).holdReq = s.holdReq := rfl
@[simp] theorem State.respond_freeCount (s : State) (l : Fin 8) (r : Response) : (s.respond l r).freeCount = s.freeCount := rfl

/-! ## `State.setKept` changes `la` alone -/

@[simp] theorem State.setKept_pending (s : State) (l : Fin 8) (q : List Request) : (s.setKept l q).pending = s.pending := rfl
@[simp] theorem State.setKept_ac (s : State) (l : Fin 8) (q : List Request) : (s.setKept l q).ac = s.ac := rfl
@[simp] theorem State.setKept_ps (s : State) (l : Fin 8) (q : List Request) : (s.setKept l q).ps = s.ps := rfl
@[simp] theorem State.setKept_ic (s : State) (l : Fin 8) (q : List Request) : (s.setKept l q).ic = s.ic := rfl
@[simp] theorem State.setKept_zs (s : State) (l : Fin 8) (q : List Request) : (s.setKept l q).zs = s.zs := rfl
@[simp] theorem State.setKept_vr (s : State) (l : Fin 8) (q : List Request) : (s.setKept l q).vr = s.vr := rfl
@[simp] theorem State.setKept_rg (s : State) (l : Fin 8) (q : List Request) : (s.setKept l q).rg = s.rg := rfl
@[simp] theorem State.setKept_tb (s : State) (l : Fin 8) (q : List Request) : (s.setKept l q).tb = s.tb := rfl
@[simp] theorem State.setKept_rw (s : State) (l : Fin 8) (q : List Request) : (s.setKept l q).rw = s.rw := rfl
@[simp] theorem State.setKept_mem (s : State) (l : Fin 8) (q : List Request) : (s.setKept l q).mem = s.mem := rfl
@[simp] theorem State.setKept_resetAsserted (s : State) (l : Fin 8) (q : List Request) : (s.setKept l q).resetAsserted = s.resetAsserted := rfl
@[simp] theorem State.setKept_holdReq (s : State) (l : Fin 8) (q : List Request) : (s.setKept l q).holdReq = s.holdReq := rfl
@[simp] theorem State.setKept_freeCount (s : State) (l : Fin 8) (q : List Request) : (s.setKept l q).freeCount = s.freeCount := rfl

/-! ## `State.present` changes `la` alone -/

@[simp] theorem State.present_pending (s : State) (l : Fin 9) (a : Access) : (s.present l a).pending = s.pending := rfl
@[simp] theorem State.present_ac (s : State) (l : Fin 9) (a : Access) : (s.present l a).ac = s.ac := rfl
@[simp] theorem State.present_ps (s : State) (l : Fin 9) (a : Access) : (s.present l a).ps = s.ps := rfl
@[simp] theorem State.present_ic (s : State) (l : Fin 9) (a : Access) : (s.present l a).ic = s.ic := rfl
@[simp] theorem State.present_zs (s : State) (l : Fin 9) (a : Access) : (s.present l a).zs = s.zs := rfl
@[simp] theorem State.present_vr (s : State) (l : Fin 9) (a : Access) : (s.present l a).vr = s.vr := rfl
@[simp] theorem State.present_rg (s : State) (l : Fin 9) (a : Access) : (s.present l a).rg = s.rg := rfl
@[simp] theorem State.present_tb (s : State) (l : Fin 9) (a : Access) : (s.present l a).tb = s.tb := rfl
@[simp] theorem State.present_rw (s : State) (l : Fin 9) (a : Access) : (s.present l a).rw = s.rw := rfl
@[simp] theorem State.present_mem (s : State) (l : Fin 9) (a : Access) : (s.present l a).mem = s.mem := rfl
@[simp] theorem State.present_resetAsserted (s : State) (l : Fin 9) (a : Access) : (s.present l a).resetAsserted = s.resetAsserted := rfl
@[simp] theorem State.present_holdReq (s : State) (l : Fin 9) (a : Access) : (s.present l a).holdReq = s.holdReq := rfl
@[simp] theorem State.present_freeCount (s : State) (l : Fin 9) (a : Access) : (s.present l a).freeCount = s.freeCount := rfl

/-! ## `State.setZone` changes `zs` alone -/

@[simp] theorem State.setZone_pending (s : State) (z : Fin 24) (x : Zone) : (s.setZone z x).pending = s.pending := rfl
@[simp] theorem State.setZone_la (s : State) (z : Fin 24) (x : Zone) : (s.setZone z x).la = s.la := rfl
@[simp] theorem State.setZone_ac (s : State) (z : Fin 24) (x : Zone) : (s.setZone z x).ac = s.ac := rfl
@[simp] theorem State.setZone_ps (s : State) (z : Fin 24) (x : Zone) : (s.setZone z x).ps = s.ps := rfl
@[simp] theorem State.setZone_ic (s : State) (z : Fin 24) (x : Zone) : (s.setZone z x).ic = s.ic := rfl
@[simp] theorem State.setZone_vr (s : State) (z : Fin 24) (x : Zone) : (s.setZone z x).vr = s.vr := rfl
@[simp] theorem State.setZone_rg (s : State) (z : Fin 24) (x : Zone) : (s.setZone z x).rg = s.rg := rfl
@[simp] theorem State.setZone_tb (s : State) (z : Fin 24) (x : Zone) : (s.setZone z x).tb = s.tb := rfl
@[simp] theorem State.setZone_rw (s : State) (z : Fin 24) (x : Zone) : (s.setZone z x).rw = s.rw := rfl
@[simp] theorem State.setZone_mem (s : State) (z : Fin 24) (x : Zone) : (s.setZone z x).mem = s.mem := rfl
@[simp] theorem State.setZone_resetAsserted (s : State) (z : Fin 24) (x : Zone) : (s.setZone z x).resetAsserted = s.resetAsserted := rfl
@[simp] theorem State.setZone_holdReq (s : State) (z : Fin 24) (x : Zone) : (s.setZone z x).holdReq = s.holdReq := rfl
@[simp] theorem State.setZone_freeCount (s : State) (z : Fin 24) (x : Zone) : (s.setZone z x).freeCount = s.freeCount := rfl

/-! ## `State.updZone` changes `zs` alone -/

@[simp] theorem State.updZone_pending (s : State) (z : Fin 24) (f : Zone → Zone) : (s.updZone z f).pending = s.pending := rfl
@[simp] theorem State.updZone_la (s : State) (z : Fin 24) (f : Zone → Zone) : (s.updZone z f).la = s.la := rfl
@[simp] theorem State.updZone_ac (s : State) (z : Fin 24) (f : Zone → Zone) : (s.updZone z f).ac = s.ac := rfl
@[simp] theorem State.updZone_ps (s : State) (z : Fin 24) (f : Zone → Zone) : (s.updZone z f).ps = s.ps := rfl
@[simp] theorem State.updZone_ic (s : State) (z : Fin 24) (f : Zone → Zone) : (s.updZone z f).ic = s.ic := rfl
@[simp] theorem State.updZone_vr (s : State) (z : Fin 24) (f : Zone → Zone) : (s.updZone z f).vr = s.vr := rfl
@[simp] theorem State.updZone_rg (s : State) (z : Fin 24) (f : Zone → Zone) : (s.updZone z f).rg = s.rg := rfl
@[simp] theorem State.updZone_tb (s : State) (z : Fin 24) (f : Zone → Zone) : (s.updZone z f).tb = s.tb := rfl
@[simp] theorem State.updZone_rw (s : State) (z : Fin 24) (f : Zone → Zone) : (s.updZone z f).rw = s.rw := rfl
@[simp] theorem State.updZone_mem (s : State) (z : Fin 24) (f : Zone → Zone) : (s.updZone z f).mem = s.mem := rfl
@[simp] theorem State.updZone_resetAsserted (s : State) (z : Fin 24) (f : Zone → Zone) : (s.updZone z f).resetAsserted = s.resetAsserted := rfl
@[simp] theorem State.updZone_holdReq (s : State) (z : Fin 24) (f : Zone → Zone) : (s.updZone z f).holdReq = s.holdReq := rfl
@[simp] theorem State.updZone_freeCount (s : State) (z : Fin 24) (f : Zone → Zone) : (s.updZone z f).freeCount = s.freeCount := rfl

/-! ## `State.setWindow` changes `zs` alone -/

@[simp] theorem State.setWindow_pending (s : State) (w : Fin 64) (x : Window) : (s.setWindow w x).pending = s.pending := rfl
@[simp] theorem State.setWindow_la (s : State) (w : Fin 64) (x : Window) : (s.setWindow w x).la = s.la := rfl
@[simp] theorem State.setWindow_ac (s : State) (w : Fin 64) (x : Window) : (s.setWindow w x).ac = s.ac := rfl
@[simp] theorem State.setWindow_ps (s : State) (w : Fin 64) (x : Window) : (s.setWindow w x).ps = s.ps := rfl
@[simp] theorem State.setWindow_ic (s : State) (w : Fin 64) (x : Window) : (s.setWindow w x).ic = s.ic := rfl
@[simp] theorem State.setWindow_vr (s : State) (w : Fin 64) (x : Window) : (s.setWindow w x).vr = s.vr := rfl
@[simp] theorem State.setWindow_rg (s : State) (w : Fin 64) (x : Window) : (s.setWindow w x).rg = s.rg := rfl
@[simp] theorem State.setWindow_tb (s : State) (w : Fin 64) (x : Window) : (s.setWindow w x).tb = s.tb := rfl
@[simp] theorem State.setWindow_rw (s : State) (w : Fin 64) (x : Window) : (s.setWindow w x).rw = s.rw := rfl
@[simp] theorem State.setWindow_mem (s : State) (w : Fin 64) (x : Window) : (s.setWindow w x).mem = s.mem := rfl
@[simp] theorem State.setWindow_resetAsserted (s : State) (w : Fin 64) (x : Window) : (s.setWindow w x).resetAsserted = s.resetAsserted := rfl
@[simp] theorem State.setWindow_holdReq (s : State) (w : Fin 64) (x : Window) : (s.setWindow w x).holdReq = s.holdReq := rfl
@[simp] theorem State.setWindow_freeCount (s : State) (w : Fin 64) (x : Window) : (s.setWindow w x).freeCount = s.freeCount := rfl

/-! ## `State.setFeed` changes `vr` alone -/

@[simp] theorem State.setFeed_pending (s : State) (f : Fin 32) (x : Feed) : (s.setFeed f x).pending = s.pending := rfl
@[simp] theorem State.setFeed_la (s : State) (f : Fin 32) (x : Feed) : (s.setFeed f x).la = s.la := rfl
@[simp] theorem State.setFeed_ac (s : State) (f : Fin 32) (x : Feed) : (s.setFeed f x).ac = s.ac := rfl
@[simp] theorem State.setFeed_ps (s : State) (f : Fin 32) (x : Feed) : (s.setFeed f x).ps = s.ps := rfl
@[simp] theorem State.setFeed_ic (s : State) (f : Fin 32) (x : Feed) : (s.setFeed f x).ic = s.ic := rfl
@[simp] theorem State.setFeed_zs (s : State) (f : Fin 32) (x : Feed) : (s.setFeed f x).zs = s.zs := rfl
@[simp] theorem State.setFeed_rg (s : State) (f : Fin 32) (x : Feed) : (s.setFeed f x).rg = s.rg := rfl
@[simp] theorem State.setFeed_tb (s : State) (f : Fin 32) (x : Feed) : (s.setFeed f x).tb = s.tb := rfl
@[simp] theorem State.setFeed_rw (s : State) (f : Fin 32) (x : Feed) : (s.setFeed f x).rw = s.rw := rfl
@[simp] theorem State.setFeed_mem (s : State) (f : Fin 32) (x : Feed) : (s.setFeed f x).mem = s.mem := rfl
@[simp] theorem State.setFeed_resetAsserted (s : State) (f : Fin 32) (x : Feed) : (s.setFeed f x).resetAsserted = s.resetAsserted := rfl
@[simp] theorem State.setFeed_holdReq (s : State) (f : Fin 32) (x : Feed) : (s.setFeed f x).holdReq = s.holdReq := rfl
@[simp] theorem State.setFeed_freeCount (s : State) (f : Fin 32) (x : Feed) : (s.setFeed f x).freeCount = s.freeCount := rfl

/-! ## `State.settleStalls` changes `vr` alone -/

@[simp] theorem State.settleStalls_pending (s : State) (c : Bool) : (s.settleStalls c).pending = s.pending := rfl
@[simp] theorem State.settleStalls_la (s : State) (c : Bool) : (s.settleStalls c).la = s.la := rfl
@[simp] theorem State.settleStalls_ac (s : State) (c : Bool) : (s.settleStalls c).ac = s.ac := rfl
@[simp] theorem State.settleStalls_ps (s : State) (c : Bool) : (s.settleStalls c).ps = s.ps := rfl
@[simp] theorem State.settleStalls_ic (s : State) (c : Bool) : (s.settleStalls c).ic = s.ic := rfl
@[simp] theorem State.settleStalls_zs (s : State) (c : Bool) : (s.settleStalls c).zs = s.zs := rfl
@[simp] theorem State.settleStalls_rg (s : State) (c : Bool) : (s.settleStalls c).rg = s.rg := rfl
@[simp] theorem State.settleStalls_tb (s : State) (c : Bool) : (s.settleStalls c).tb = s.tb := rfl
@[simp] theorem State.settleStalls_rw (s : State) (c : Bool) : (s.settleStalls c).rw = s.rw := rfl
@[simp] theorem State.settleStalls_mem (s : State) (c : Bool) : (s.settleStalls c).mem = s.mem := rfl
@[simp] theorem State.settleStalls_resetAsserted (s : State) (c : Bool) : (s.settleStalls c).resetAsserted = s.resetAsserted := rfl
@[simp] theorem State.settleStalls_holdReq (s : State) (c : Bool) : (s.settleStalls c).holdReq = s.holdReq := rfl
@[simp] theorem State.settleStalls_freeCount (s : State) (c : Bool) : (s.settleStalls c).freeCount = s.freeCount := rfl

/-! ## `State.setPath` changes `ic` alone -/

@[simp] theorem State.setPath_pending (s : State) (r : Fin 12) (p : Path) (x : PathState) : (s.setPath r p x).pending = s.pending := rfl
@[simp] theorem State.setPath_la (s : State) (r : Fin 12) (p : Path) (x : PathState) : (s.setPath r p x).la = s.la := rfl
@[simp] theorem State.setPath_ac (s : State) (r : Fin 12) (p : Path) (x : PathState) : (s.setPath r p x).ac = s.ac := rfl
@[simp] theorem State.setPath_ps (s : State) (r : Fin 12) (p : Path) (x : PathState) : (s.setPath r p x).ps = s.ps := rfl
@[simp] theorem State.setPath_zs (s : State) (r : Fin 12) (p : Path) (x : PathState) : (s.setPath r p x).zs = s.zs := rfl
@[simp] theorem State.setPath_vr (s : State) (r : Fin 12) (p : Path) (x : PathState) : (s.setPath r p x).vr = s.vr := rfl
@[simp] theorem State.setPath_rg (s : State) (r : Fin 12) (p : Path) (x : PathState) : (s.setPath r p x).rg = s.rg := rfl
@[simp] theorem State.setPath_tb (s : State) (r : Fin 12) (p : Path) (x : PathState) : (s.setPath r p x).tb = s.tb := rfl
@[simp] theorem State.setPath_rw (s : State) (r : Fin 12) (p : Path) (x : PathState) : (s.setPath r p x).rw = s.rw := rfl
@[simp] theorem State.setPath_mem (s : State) (r : Fin 12) (p : Path) (x : PathState) : (s.setPath r p x).mem = s.mem := rfl
@[simp] theorem State.setPath_resetAsserted (s : State) (r : Fin 12) (p : Path) (x : PathState) : (s.setPath r p x).resetAsserted = s.resetAsserted := rfl
@[simp] theorem State.setPath_holdReq (s : State) (r : Fin 12) (p : Path) (x : PathState) : (s.setPath r p x).holdReq = s.holdReq := rfl
@[simp] theorem State.setPath_freeCount (s : State) (r : Fin 12) (p : Path) (x : PathState) : (s.setPath r p x).freeCount = s.freeCount := rfl

/-! ## `State.setEntry` changes `ic` alone -/

@[simp] theorem State.setEntry_pending (s : State) (g : RingId) (k : Nat) (e : Entry) : (s.setEntry g k e).pending = s.pending := rfl
@[simp] theorem State.setEntry_la (s : State) (g : RingId) (k : Nat) (e : Entry) : (s.setEntry g k e).la = s.la := rfl
@[simp] theorem State.setEntry_ac (s : State) (g : RingId) (k : Nat) (e : Entry) : (s.setEntry g k e).ac = s.ac := rfl
@[simp] theorem State.setEntry_ps (s : State) (g : RingId) (k : Nat) (e : Entry) : (s.setEntry g k e).ps = s.ps := rfl
@[simp] theorem State.setEntry_zs (s : State) (g : RingId) (k : Nat) (e : Entry) : (s.setEntry g k e).zs = s.zs := rfl
@[simp] theorem State.setEntry_vr (s : State) (g : RingId) (k : Nat) (e : Entry) : (s.setEntry g k e).vr = s.vr := rfl
@[simp] theorem State.setEntry_rg (s : State) (g : RingId) (k : Nat) (e : Entry) : (s.setEntry g k e).rg = s.rg := rfl
@[simp] theorem State.setEntry_tb (s : State) (g : RingId) (k : Nat) (e : Entry) : (s.setEntry g k e).tb = s.tb := rfl
@[simp] theorem State.setEntry_rw (s : State) (g : RingId) (k : Nat) (e : Entry) : (s.setEntry g k e).rw = s.rw := rfl
@[simp] theorem State.setEntry_mem (s : State) (g : RingId) (k : Nat) (e : Entry) : (s.setEntry g k e).mem = s.mem := rfl
@[simp] theorem State.setEntry_resetAsserted (s : State) (g : RingId) (k : Nat) (e : Entry) : (s.setEntry g k e).resetAsserted = s.resetAsserted := rfl
@[simp] theorem State.setEntry_holdReq (s : State) (g : RingId) (k : Nat) (e : Entry) : (s.setEntry g k e).holdReq = s.holdReq := rfl
@[simp] theorem State.setEntry_freeCount (s : State) (g : RingId) (k : Nat) (e : Entry) : (s.setEntry g k e).freeCount = s.freeCount := rfl

/-! ## `State.dropHeld` changes `rg` alone -/

@[simp] theorem State.dropHeld_pending (s : State) (l : Fin 8) : (s.dropHeld l).pending = s.pending := rfl
@[simp] theorem State.dropHeld_la (s : State) (l : Fin 8) : (s.dropHeld l).la = s.la := rfl
@[simp] theorem State.dropHeld_ac (s : State) (l : Fin 8) : (s.dropHeld l).ac = s.ac := rfl
@[simp] theorem State.dropHeld_ps (s : State) (l : Fin 8) : (s.dropHeld l).ps = s.ps := rfl
@[simp] theorem State.dropHeld_ic (s : State) (l : Fin 8) : (s.dropHeld l).ic = s.ic := rfl
@[simp] theorem State.dropHeld_zs (s : State) (l : Fin 8) : (s.dropHeld l).zs = s.zs := rfl
@[simp] theorem State.dropHeld_vr (s : State) (l : Fin 8) : (s.dropHeld l).vr = s.vr := rfl
@[simp] theorem State.dropHeld_tb (s : State) (l : Fin 8) : (s.dropHeld l).tb = s.tb := rfl
@[simp] theorem State.dropHeld_rw (s : State) (l : Fin 8) : (s.dropHeld l).rw = s.rw := rfl
@[simp] theorem State.dropHeld_mem (s : State) (l : Fin 8) : (s.dropHeld l).mem = s.mem := rfl
@[simp] theorem State.dropHeld_resetAsserted (s : State) (l : Fin 8) : (s.dropHeld l).resetAsserted = s.resetAsserted := rfl
@[simp] theorem State.dropHeld_holdReq (s : State) (l : Fin 8) : (s.dropHeld l).holdReq = s.holdReq := rfl
@[simp] theorem State.dropHeld_freeCount (s : State) (l : Fin 8) : (s.dropHeld l).freeCount = s.freeCount := rfl

/-! ## `State.countExpiry` changes `rg` alone -/

@[simp] theorem State.countExpiry_pending (s : State) (l : Fin 8) : (s.countExpiry l).pending = s.pending := rfl
@[simp] theorem State.countExpiry_la (s : State) (l : Fin 8) : (s.countExpiry l).la = s.la := rfl
@[simp] theorem State.countExpiry_ac (s : State) (l : Fin 8) : (s.countExpiry l).ac = s.ac := rfl
@[simp] theorem State.countExpiry_ps (s : State) (l : Fin 8) : (s.countExpiry l).ps = s.ps := rfl
@[simp] theorem State.countExpiry_ic (s : State) (l : Fin 8) : (s.countExpiry l).ic = s.ic := rfl
@[simp] theorem State.countExpiry_zs (s : State) (l : Fin 8) : (s.countExpiry l).zs = s.zs := rfl
@[simp] theorem State.countExpiry_vr (s : State) (l : Fin 8) : (s.countExpiry l).vr = s.vr := rfl
@[simp] theorem State.countExpiry_tb (s : State) (l : Fin 8) : (s.countExpiry l).tb = s.tb := rfl
@[simp] theorem State.countExpiry_rw (s : State) (l : Fin 8) : (s.countExpiry l).rw = s.rw := rfl
@[simp] theorem State.countExpiry_mem (s : State) (l : Fin 8) : (s.countExpiry l).mem = s.mem := rfl
@[simp] theorem State.countExpiry_resetAsserted (s : State) (l : Fin 8) : (s.countExpiry l).resetAsserted = s.resetAsserted := rfl
@[simp] theorem State.countExpiry_holdReq (s : State) (l : Fin 8) : (s.countExpiry l).holdReq = s.holdReq := rfl
@[simp] theorem State.countExpiry_freeCount (s : State) (l : Fin 8) : (s.countExpiry l).freeCount = s.freeCount := rfl

/-! ## `State.countPeriod` changes `tb` alone -/

@[simp] theorem State.countPeriod_pending (s : State) : (s.countPeriod).pending = s.pending := rfl
@[simp] theorem State.countPeriod_la (s : State) : (s.countPeriod).la = s.la := rfl
@[simp] theorem State.countPeriod_ac (s : State) : (s.countPeriod).ac = s.ac := rfl
@[simp] theorem State.countPeriod_ps (s : State) : (s.countPeriod).ps = s.ps := rfl
@[simp] theorem State.countPeriod_ic (s : State) : (s.countPeriod).ic = s.ic := rfl
@[simp] theorem State.countPeriod_zs (s : State) : (s.countPeriod).zs = s.zs := rfl
@[simp] theorem State.countPeriod_vr (s : State) : (s.countPeriod).vr = s.vr := rfl
@[simp] theorem State.countPeriod_rg (s : State) : (s.countPeriod).rg = s.rg := rfl
@[simp] theorem State.countPeriod_rw (s : State) : (s.countPeriod).rw = s.rw := rfl
@[simp] theorem State.countPeriod_mem (s : State) : (s.countPeriod).mem = s.mem := rfl
@[simp] theorem State.countPeriod_resetAsserted (s : State) : (s.countPeriod).resetAsserted = s.resetAsserted := rfl
@[simp] theorem State.countPeriod_holdReq (s : State) : (s.countPeriod).holdReq = s.holdReq := rfl
@[simp] theorem State.countPeriod_freeCount (s : State) : (s.countPeriod).freeCount = s.freeCount := rfl

/-! ## `State.countPulse` changes `tb` alone -/

@[simp] theorem State.countPulse_pending (s : State) : (s.countPulse).pending = s.pending := rfl
@[simp] theorem State.countPulse_la (s : State) : (s.countPulse).la = s.la := rfl
@[simp] theorem State.countPulse_ac (s : State) : (s.countPulse).ac = s.ac := rfl
@[simp] theorem State.countPulse_ps (s : State) : (s.countPulse).ps = s.ps := rfl
@[simp] theorem State.countPulse_ic (s : State) : (s.countPulse).ic = s.ic := rfl
@[simp] theorem State.countPulse_zs (s : State) : (s.countPulse).zs = s.zs := rfl
@[simp] theorem State.countPulse_vr (s : State) : (s.countPulse).vr = s.vr := rfl
@[simp] theorem State.countPulse_rg (s : State) : (s.countPulse).rg = s.rg := rfl
@[simp] theorem State.countPulse_rw (s : State) : (s.countPulse).rw = s.rw := rfl
@[simp] theorem State.countPulse_mem (s : State) : (s.countPulse).mem = s.mem := rfl
@[simp] theorem State.countPulse_resetAsserted (s : State) : (s.countPulse).resetAsserted = s.resetAsserted := rfl
@[simp] theorem State.countPulse_holdReq (s : State) : (s.countPulse).holdReq = s.holdReq := rfl
@[simp] theorem State.countPulse_freeCount (s : State) : (s.countPulse).freeCount = s.freeCount := rfl

/-! ## `State.enqueue` changes `rw` alone -/

@[simp] theorem State.enqueue_pending (s : State) (r : Report) : (s.enqueue r).pending = s.pending := rfl
@[simp] theorem State.enqueue_la (s : State) (r : Report) : (s.enqueue r).la = s.la := rfl
@[simp] theorem State.enqueue_ac (s : State) (r : Report) : (s.enqueue r).ac = s.ac := rfl
@[simp] theorem State.enqueue_ps (s : State) (r : Report) : (s.enqueue r).ps = s.ps := rfl
@[simp] theorem State.enqueue_ic (s : State) (r : Report) : (s.enqueue r).ic = s.ic := rfl
@[simp] theorem State.enqueue_zs (s : State) (r : Report) : (s.enqueue r).zs = s.zs := rfl
@[simp] theorem State.enqueue_vr (s : State) (r : Report) : (s.enqueue r).vr = s.vr := rfl
@[simp] theorem State.enqueue_rg (s : State) (r : Report) : (s.enqueue r).rg = s.rg := rfl
@[simp] theorem State.enqueue_tb (s : State) (r : Report) : (s.enqueue r).tb = s.tb := rfl
@[simp] theorem State.enqueue_mem (s : State) (r : Report) : (s.enqueue r).mem = s.mem := rfl
@[simp] theorem State.enqueue_resetAsserted (s : State) (r : Report) : (s.enqueue r).resetAsserted = s.resetAsserted := rfl
@[simp] theorem State.enqueue_holdReq (s : State) (r : Report) : (s.enqueue r).holdReq = s.holdReq := rfl
@[simp] theorem State.enqueue_freeCount (s : State) (r : Report) : (s.enqueue r).freeCount = s.freeCount := rfl

/-! ## `State.loseRecord` changes `rw` alone -/

@[simp] theorem State.loseRecord_pending (s : State) : (s.loseRecord).pending = s.pending := rfl
@[simp] theorem State.loseRecord_la (s : State) : (s.loseRecord).la = s.la := rfl
@[simp] theorem State.loseRecord_ac (s : State) : (s.loseRecord).ac = s.ac := rfl
@[simp] theorem State.loseRecord_ps (s : State) : (s.loseRecord).ps = s.ps := rfl
@[simp] theorem State.loseRecord_ic (s : State) : (s.loseRecord).ic = s.ic := rfl
@[simp] theorem State.loseRecord_zs (s : State) : (s.loseRecord).zs = s.zs := rfl
@[simp] theorem State.loseRecord_vr (s : State) : (s.loseRecord).vr = s.vr := rfl
@[simp] theorem State.loseRecord_rg (s : State) : (s.loseRecord).rg = s.rg := rfl
@[simp] theorem State.loseRecord_tb (s : State) : (s.loseRecord).tb = s.tb := rfl
@[simp] theorem State.loseRecord_mem (s : State) : (s.loseRecord).mem = s.mem := rfl
@[simp] theorem State.loseRecord_resetAsserted (s : State) : (s.loseRecord).resetAsserted = s.resetAsserted := rfl
@[simp] theorem State.loseRecord_holdReq (s : State) : (s.loseRecord).holdReq = s.holdReq := rfl
@[simp] theorem State.loseRecord_freeCount (s : State) : (s.loseRecord).freeCount = s.freeCount := rfl

/-! ## `State.discardQueue` changes `rw` alone -/

@[simp] theorem State.discardQueue_pending (s : State) : (s.discardQueue).pending = s.pending := rfl
@[simp] theorem State.discardQueue_la (s : State) : (s.discardQueue).la = s.la := rfl
@[simp] theorem State.discardQueue_ac (s : State) : (s.discardQueue).ac = s.ac := rfl
@[simp] theorem State.discardQueue_ps (s : State) : (s.discardQueue).ps = s.ps := rfl
@[simp] theorem State.discardQueue_ic (s : State) : (s.discardQueue).ic = s.ic := rfl
@[simp] theorem State.discardQueue_zs (s : State) : (s.discardQueue).zs = s.zs := rfl
@[simp] theorem State.discardQueue_vr (s : State) : (s.discardQueue).vr = s.vr := rfl
@[simp] theorem State.discardQueue_rg (s : State) : (s.discardQueue).rg = s.rg := rfl
@[simp] theorem State.discardQueue_tb (s : State) : (s.discardQueue).tb = s.tb := rfl
@[simp] theorem State.discardQueue_mem (s : State) : (s.discardQueue).mem = s.mem := rfl
@[simp] theorem State.discardQueue_resetAsserted (s : State) : (s.discardQueue).resetAsserted = s.resetAsserted := rfl
@[simp] theorem State.discardQueue_holdReq (s : State) : (s.discardQueue).holdReq = s.holdReq := rfl
@[simp] theorem State.discardQueue_freeCount (s : State) : (s.discardQueue).freeCount = s.freeCount := rfl

/-! ## `State.takeInHand` changes `rw` alone -/

@[simp] theorem State.takeInHand_pending (s : State) (r : Record) (q : List Record) : (s.takeInHand r q).pending = s.pending := rfl
@[simp] theorem State.takeInHand_la (s : State) (r : Record) (q : List Record) : (s.takeInHand r q).la = s.la := rfl
@[simp] theorem State.takeInHand_ac (s : State) (r : Record) (q : List Record) : (s.takeInHand r q).ac = s.ac := rfl
@[simp] theorem State.takeInHand_ps (s : State) (r : Record) (q : List Record) : (s.takeInHand r q).ps = s.ps := rfl
@[simp] theorem State.takeInHand_ic (s : State) (r : Record) (q : List Record) : (s.takeInHand r q).ic = s.ic := rfl
@[simp] theorem State.takeInHand_zs (s : State) (r : Record) (q : List Record) : (s.takeInHand r q).zs = s.zs := rfl
@[simp] theorem State.takeInHand_vr (s : State) (r : Record) (q : List Record) : (s.takeInHand r q).vr = s.vr := rfl
@[simp] theorem State.takeInHand_rg (s : State) (r : Record) (q : List Record) : (s.takeInHand r q).rg = s.rg := rfl
@[simp] theorem State.takeInHand_tb (s : State) (r : Record) (q : List Record) : (s.takeInHand r q).tb = s.tb := rfl
@[simp] theorem State.takeInHand_mem (s : State) (r : Record) (q : List Record) : (s.takeInHand r q).mem = s.mem := rfl
@[simp] theorem State.takeInHand_resetAsserted (s : State) (r : Record) (q : List Record) : (s.takeInHand r q).resetAsserted = s.resetAsserted := rfl
@[simp] theorem State.takeInHand_holdReq (s : State) (r : Record) (q : List Record) : (s.takeInHand r q).holdReq = s.holdReq := rfl
@[simp] theorem State.takeInHand_freeCount (s : State) (r : Record) (q : List Record) : (s.takeInHand r q).freeCount = s.freeCount := rfl

/-! ## `State.dropHand` changes `rw` alone -/

@[simp] theorem State.dropHand_pending (s : State) : (s.dropHand).pending = s.pending := rfl
@[simp] theorem State.dropHand_la (s : State) : (s.dropHand).la = s.la := rfl
@[simp] theorem State.dropHand_ac (s : State) : (s.dropHand).ac = s.ac := rfl
@[simp] theorem State.dropHand_ps (s : State) : (s.dropHand).ps = s.ps := rfl
@[simp] theorem State.dropHand_ic (s : State) : (s.dropHand).ic = s.ic := rfl
@[simp] theorem State.dropHand_zs (s : State) : (s.dropHand).zs = s.zs := rfl
@[simp] theorem State.dropHand_vr (s : State) : (s.dropHand).vr = s.vr := rfl
@[simp] theorem State.dropHand_rg (s : State) : (s.dropHand).rg = s.rg := rfl
@[simp] theorem State.dropHand_tb (s : State) : (s.dropHand).tb = s.tb := rfl
@[simp] theorem State.dropHand_mem (s : State) : (s.dropHand).mem = s.mem := rfl
@[simp] theorem State.dropHand_resetAsserted (s : State) : (s.dropHand).resetAsserted = s.resetAsserted := rfl
@[simp] theorem State.dropHand_holdReq (s : State) : (s.dropHand).holdReq = s.holdReq := rfl
@[simp] theorem State.dropHand_freeCount (s : State) : (s.dropHand).freeCount = s.freeCount := rfl

/-! ## `State.markReadWrite` changes `rw` alone -/

@[simp] theorem State.markReadWrite_pending (s : State) : (s.markReadWrite).pending = s.pending := rfl
@[simp] theorem State.markReadWrite_la (s : State) : (s.markReadWrite).la = s.la := rfl
@[simp] theorem State.markReadWrite_ac (s : State) : (s.markReadWrite).ac = s.ac := rfl
@[simp] theorem State.markReadWrite_ps (s : State) : (s.markReadWrite).ps = s.ps := rfl
@[simp] theorem State.markReadWrite_ic (s : State) : (s.markReadWrite).ic = s.ic := rfl
@[simp] theorem State.markReadWrite_zs (s : State) : (s.markReadWrite).zs = s.zs := rfl
@[simp] theorem State.markReadWrite_vr (s : State) : (s.markReadWrite).vr = s.vr := rfl
@[simp] theorem State.markReadWrite_rg (s : State) : (s.markReadWrite).rg = s.rg := rfl
@[simp] theorem State.markReadWrite_tb (s : State) : (s.markReadWrite).tb = s.tb := rfl
@[simp] theorem State.markReadWrite_mem (s : State) : (s.markReadWrite).mem = s.mem := rfl
@[simp] theorem State.markReadWrite_resetAsserted (s : State) : (s.markReadWrite).resetAsserted = s.resetAsserted := rfl
@[simp] theorem State.markReadWrite_holdReq (s : State) : (s.markReadWrite).holdReq = s.holdReq := rfl
@[simp] theorem State.markReadWrite_freeCount (s : State) : (s.markReadWrite).freeCount = s.freeCount := rfl

/-! ## `State.withPlan` changes `ps` alone -/

@[simp] theorem State.withPlan_pending (s : State) (ps : PlanShadow) : (s.withPlan ps).pending = s.pending := rfl
@[simp] theorem State.withPlan_la (s : State) (ps : PlanShadow) : (s.withPlan ps).la = s.la := rfl
@[simp] theorem State.withPlan_ac (s : State) (ps : PlanShadow) : (s.withPlan ps).ac = s.ac := rfl
@[simp] theorem State.withPlan_ic (s : State) (ps : PlanShadow) : (s.withPlan ps).ic = s.ic := rfl
@[simp] theorem State.withPlan_zs (s : State) (ps : PlanShadow) : (s.withPlan ps).zs = s.zs := rfl
@[simp] theorem State.withPlan_vr (s : State) (ps : PlanShadow) : (s.withPlan ps).vr = s.vr := rfl
@[simp] theorem State.withPlan_rg (s : State) (ps : PlanShadow) : (s.withPlan ps).rg = s.rg := rfl
@[simp] theorem State.withPlan_tb (s : State) (ps : PlanShadow) : (s.withPlan ps).tb = s.tb := rfl
@[simp] theorem State.withPlan_rw (s : State) (ps : PlanShadow) : (s.withPlan ps).rw = s.rw := rfl
@[simp] theorem State.withPlan_mem (s : State) (ps : PlanShadow) : (s.withPlan ps).mem = s.mem := rfl
@[simp] theorem State.withPlan_resetAsserted (s : State) (ps : PlanShadow) : (s.withPlan ps).resetAsserted = s.resetAsserted := rfl
@[simp] theorem State.withPlan_holdReq (s : State) (ps : PlanShadow) : (s.withPlan ps).holdReq = s.holdReq := rfl
@[simp] theorem State.withPlan_freeCount (s : State) (ps : PlanShadow) : (s.withPlan ps).freeCount = s.freeCount := rfl

/-! ## `State.copyLanded` changes `ps` alone -/

@[simp] theorem State.copyLanded_pending (s : State) (r : Request) : (s.copyLanded r).pending = s.pending := State.withPlan_pending s _
@[simp] theorem State.copyLanded_la (s : State) (r : Request) : (s.copyLanded r).la = s.la := State.withPlan_la s _
@[simp] theorem State.copyLanded_ac (s : State) (r : Request) : (s.copyLanded r).ac = s.ac := State.withPlan_ac s _
@[simp] theorem State.copyLanded_ic (s : State) (r : Request) : (s.copyLanded r).ic = s.ic := State.withPlan_ic s _
@[simp] theorem State.copyLanded_zs (s : State) (r : Request) : (s.copyLanded r).zs = s.zs := State.withPlan_zs s _
@[simp] theorem State.copyLanded_vr (s : State) (r : Request) : (s.copyLanded r).vr = s.vr := State.withPlan_vr s _
@[simp] theorem State.copyLanded_rg (s : State) (r : Request) : (s.copyLanded r).rg = s.rg := State.withPlan_rg s _
@[simp] theorem State.copyLanded_tb (s : State) (r : Request) : (s.copyLanded r).tb = s.tb := State.withPlan_tb s _
@[simp] theorem State.copyLanded_rw (s : State) (r : Request) : (s.copyLanded r).rw = s.rw := State.withPlan_rw s _
@[simp] theorem State.copyLanded_mem (s : State) (r : Request) : (s.copyLanded r).mem = s.mem := State.withPlan_mem s _
@[simp] theorem State.copyLanded_resetAsserted (s : State) (r : Request) : (s.copyLanded r).resetAsserted = s.resetAsserted := State.withPlan_resetAsserted s _
@[simp] theorem State.copyLanded_holdReq (s : State) (r : Request) : (s.copyLanded r).holdReq = s.holdReq := State.withPlan_holdReq s _
@[simp] theorem State.copyLanded_freeCount (s : State) (r : Request) : (s.copyLanded r).freeCount = s.freeCount := State.withPlan_freeCount s _

/-! ## `State.copyUnsettled` changes `ps` alone -/

@[simp] theorem State.copyUnsettled_pending (s : State) (r : Request) : (s.copyUnsettled r).pending = s.pending := State.withPlan_pending s _
@[simp] theorem State.copyUnsettled_la (s : State) (r : Request) : (s.copyUnsettled r).la = s.la := State.withPlan_la s _
@[simp] theorem State.copyUnsettled_ac (s : State) (r : Request) : (s.copyUnsettled r).ac = s.ac := State.withPlan_ac s _
@[simp] theorem State.copyUnsettled_ic (s : State) (r : Request) : (s.copyUnsettled r).ic = s.ic := State.withPlan_ic s _
@[simp] theorem State.copyUnsettled_zs (s : State) (r : Request) : (s.copyUnsettled r).zs = s.zs := State.withPlan_zs s _
@[simp] theorem State.copyUnsettled_vr (s : State) (r : Request) : (s.copyUnsettled r).vr = s.vr := State.withPlan_vr s _
@[simp] theorem State.copyUnsettled_rg (s : State) (r : Request) : (s.copyUnsettled r).rg = s.rg := State.withPlan_rg s _
@[simp] theorem State.copyUnsettled_tb (s : State) (r : Request) : (s.copyUnsettled r).tb = s.tb := State.withPlan_tb s _
@[simp] theorem State.copyUnsettled_rw (s : State) (r : Request) : (s.copyUnsettled r).rw = s.rw := State.withPlan_rw s _
@[simp] theorem State.copyUnsettled_mem (s : State) (r : Request) : (s.copyUnsettled r).mem = s.mem := State.withPlan_mem s _
@[simp] theorem State.copyUnsettled_resetAsserted (s : State) (r : Request) : (s.copyUnsettled r).resetAsserted = s.resetAsserted := State.withPlan_resetAsserted s _
@[simp] theorem State.copyUnsettled_holdReq (s : State) (r : Request) : (s.copyUnsettled r).holdReq = s.holdReq := State.withPlan_holdReq s _
@[simp] theorem State.copyUnsettled_freeCount (s : State) (r : Request) : (s.copyUnsettled r).freeCount = s.freeCount := State.withPlan_freeCount s _

/-! ## `State.withHoldReq` changes `holdReq` alone -/

@[simp] theorem State.withHoldReq_pending (s : State) (b : Bool) : (s.withHoldReq b).pending = s.pending := rfl
@[simp] theorem State.withHoldReq_la (s : State) (b : Bool) : (s.withHoldReq b).la = s.la := rfl
@[simp] theorem State.withHoldReq_ac (s : State) (b : Bool) : (s.withHoldReq b).ac = s.ac := rfl
@[simp] theorem State.withHoldReq_ps (s : State) (b : Bool) : (s.withHoldReq b).ps = s.ps := rfl
@[simp] theorem State.withHoldReq_ic (s : State) (b : Bool) : (s.withHoldReq b).ic = s.ic := rfl
@[simp] theorem State.withHoldReq_zs (s : State) (b : Bool) : (s.withHoldReq b).zs = s.zs := rfl
@[simp] theorem State.withHoldReq_vr (s : State) (b : Bool) : (s.withHoldReq b).vr = s.vr := rfl
@[simp] theorem State.withHoldReq_rg (s : State) (b : Bool) : (s.withHoldReq b).rg = s.rg := rfl
@[simp] theorem State.withHoldReq_tb (s : State) (b : Bool) : (s.withHoldReq b).tb = s.tb := rfl
@[simp] theorem State.withHoldReq_rw (s : State) (b : Bool) : (s.withHoldReq b).rw = s.rw := rfl
@[simp] theorem State.withHoldReq_mem (s : State) (b : Bool) : (s.withHoldReq b).mem = s.mem := rfl
@[simp] theorem State.withHoldReq_resetAsserted (s : State) (b : Bool) : (s.withHoldReq b).resetAsserted = s.resetAsserted := rfl
@[simp] theorem State.withHoldReq_freeCount (s : State) (b : Bool) : (s.withHoldReq b).freeCount = s.freeCount := rfl

/-! ## `State.withPending` changes `pending` alone -/

@[simp] theorem State.withPending_la (s : State) (q : List Instr) : (s.withPending q).la = s.la := rfl
@[simp] theorem State.withPending_ac (s : State) (q : List Instr) : (s.withPending q).ac = s.ac := rfl
@[simp] theorem State.withPending_ps (s : State) (q : List Instr) : (s.withPending q).ps = s.ps := rfl
@[simp] theorem State.withPending_ic (s : State) (q : List Instr) : (s.withPending q).ic = s.ic := rfl
@[simp] theorem State.withPending_zs (s : State) (q : List Instr) : (s.withPending q).zs = s.zs := rfl
@[simp] theorem State.withPending_vr (s : State) (q : List Instr) : (s.withPending q).vr = s.vr := rfl
@[simp] theorem State.withPending_rg (s : State) (q : List Instr) : (s.withPending q).rg = s.rg := rfl
@[simp] theorem State.withPending_tb (s : State) (q : List Instr) : (s.withPending q).tb = s.tb := rfl
@[simp] theorem State.withPending_rw (s : State) (q : List Instr) : (s.withPending q).rw = s.rw := rfl
@[simp] theorem State.withPending_mem (s : State) (q : List Instr) : (s.withPending q).mem = s.mem := rfl
@[simp] theorem State.withPending_resetAsserted (s : State) (q : List Instr) : (s.withPending q).resetAsserted = s.resetAsserted := rfl
@[simp] theorem State.withPending_holdReq (s : State) (q : List Instr) : (s.withPending q).holdReq = s.holdReq := rfl
@[simp] theorem State.withPending_freeCount (s : State) (q : List Instr) : (s.withPending q).freeCount = s.freeCount := rfl

/-! ## `State.scramble` changes `mem`, `freeCount` alone -/

@[simp] theorem State.scramble_pending (s : State) (r : Request) : (s.scramble r).pending = s.pending := rfl
@[simp] theorem State.scramble_la (s : State) (r : Request) : (s.scramble r).la = s.la := rfl
@[simp] theorem State.scramble_ac (s : State) (r : Request) : (s.scramble r).ac = s.ac := rfl
@[simp] theorem State.scramble_ps (s : State) (r : Request) : (s.scramble r).ps = s.ps := rfl
@[simp] theorem State.scramble_ic (s : State) (r : Request) : (s.scramble r).ic = s.ic := rfl
@[simp] theorem State.scramble_zs (s : State) (r : Request) : (s.scramble r).zs = s.zs := rfl
@[simp] theorem State.scramble_vr (s : State) (r : Request) : (s.scramble r).vr = s.vr := rfl
@[simp] theorem State.scramble_rg (s : State) (r : Request) : (s.scramble r).rg = s.rg := rfl
@[simp] theorem State.scramble_tb (s : State) (r : Request) : (s.scramble r).tb = s.tb := rfl
@[simp] theorem State.scramble_rw (s : State) (r : Request) : (s.scramble r).rw = s.rw := rfl
@[simp] theorem State.scramble_resetAsserted (s : State) (r : Request) : (s.scramble r).resetAsserted = s.resetAsserted := rfl
@[simp] theorem State.scramble_holdReq (s : State) (r : Request) : (s.scramble r).holdReq = s.holdReq := rfl

/-! ## `State.setGroupPtr` and `State.setHead`, which split -/

@[simp] theorem State.setGroupPtr_pending (s : State) (u : Bool) (l : Fin 9) : (s.setGroupPtr u l).pending = s.pending := by
  cases u <;> rfl
@[simp] theorem State.setGroupPtr_ac (s : State) (u : Bool) (l : Fin 9) : (s.setGroupPtr u l).ac = s.ac := by
  cases u <;> rfl
@[simp] theorem State.setGroupPtr_ps (s : State) (u : Bool) (l : Fin 9) : (s.setGroupPtr u l).ps = s.ps := by
  cases u <;> rfl
@[simp] theorem State.setGroupPtr_ic (s : State) (u : Bool) (l : Fin 9) : (s.setGroupPtr u l).ic = s.ic := by
  cases u <;> rfl
@[simp] theorem State.setGroupPtr_zs (s : State) (u : Bool) (l : Fin 9) : (s.setGroupPtr u l).zs = s.zs := by
  cases u <;> rfl
@[simp] theorem State.setGroupPtr_vr (s : State) (u : Bool) (l : Fin 9) : (s.setGroupPtr u l).vr = s.vr := by
  cases u <;> rfl
@[simp] theorem State.setGroupPtr_rg (s : State) (u : Bool) (l : Fin 9) : (s.setGroupPtr u l).rg = s.rg := by
  cases u <;> rfl
@[simp] theorem State.setGroupPtr_tb (s : State) (u : Bool) (l : Fin 9) : (s.setGroupPtr u l).tb = s.tb := by
  cases u <;> rfl
@[simp] theorem State.setGroupPtr_rw (s : State) (u : Bool) (l : Fin 9) : (s.setGroupPtr u l).rw = s.rw := by
  cases u <;> rfl
@[simp] theorem State.setGroupPtr_mem (s : State) (u : Bool) (l : Fin 9) : (s.setGroupPtr u l).mem = s.mem := by
  cases u <;> rfl
@[simp] theorem State.setGroupPtr_resetAsserted (s : State) (u : Bool) (l : Fin 9) : (s.setGroupPtr u l).resetAsserted = s.resetAsserted := by
  cases u <;> rfl
@[simp] theorem State.setGroupPtr_holdReq (s : State) (u : Bool) (l : Fin 9) : (s.setGroupPtr u l).holdReq = s.holdReq := by
  cases u <;> rfl
@[simp] theorem State.setGroupPtr_freeCount (s : State) (u : Bool) (l : Fin 9) : (s.setGroupPtr u l).freeCount = s.freeCount := by
  cases u <;> rfl
@[simp] theorem State.setHead_pending (s : State) (h : SSN) (g : RingId) : (s.setHead h g).pending = s.pending := by
  cases g <;> rfl
@[simp] theorem State.setHead_la (s : State) (h : SSN) (g : RingId) : (s.setHead h g).la = s.la := by
  cases g <;> rfl
@[simp] theorem State.setHead_ac (s : State) (h : SSN) (g : RingId) : (s.setHead h g).ac = s.ac := by
  cases g <;> rfl
@[simp] theorem State.setHead_ps (s : State) (h : SSN) (g : RingId) : (s.setHead h g).ps = s.ps := by
  cases g <;> rfl
@[simp] theorem State.setHead_zs (s : State) (h : SSN) (g : RingId) : (s.setHead h g).zs = s.zs := by
  cases g <;> rfl
@[simp] theorem State.setHead_vr (s : State) (h : SSN) (g : RingId) : (s.setHead h g).vr = s.vr := by
  cases g <;> rfl
@[simp] theorem State.setHead_rg (s : State) (h : SSN) (g : RingId) : (s.setHead h g).rg = s.rg := by
  cases g <;> rfl
@[simp] theorem State.setHead_tb (s : State) (h : SSN) (g : RingId) : (s.setHead h g).tb = s.tb := by
  cases g <;> rfl
@[simp] theorem State.setHead_rw (s : State) (h : SSN) (g : RingId) : (s.setHead h g).rw = s.rw := by
  cases g <;> rfl
@[simp] theorem State.setHead_mem (s : State) (h : SSN) (g : RingId) : (s.setHead h g).mem = s.mem := by
  cases g <;> rfl
@[simp] theorem State.setHead_resetAsserted (s : State) (h : SSN) (g : RingId) : (s.setHead h g).resetAsserted = s.resetAsserted := by
  cases g <;> rfl
@[simp] theorem State.setHead_holdReq (s : State) (h : SSN) (g : RingId) : (s.setHead h g).holdReq = s.holdReq := by
  cases g <;> rfl
@[simp] theorem State.setHead_freeCount (s : State) (h : SSN) (g : RingId) : (s.setHead h g).freeCount = s.freeCount := by
  cases g <;> rfl

/-! ## Reading after writing -/

@[simp] theorem State.lane_setLane (s : State) (l : Fin 9) (x : LaneState) : (s.setLane l x).lane l = x := by
  simp [State.lane, State.setLane]

theorem State.lane_setLane_of_ne (s : State) {l k : Fin 9} (x : LaneState) (h : l ≠ k) :
    (s.setLane l x).lane k = s.lane k := by
  have : l.val ≠ k.val := fun e => h (Fin.ext e)
  simp [State.lane, State.setLane, this]

theorem State.lane_setLane_eq (s : State) (l k : Fin 9) (x : LaneState) :
    (s.setLane l x).lane k = if l = k then x else s.lane k := by
  split
  · next h => subst h; simp
  · next h => exact s.lane_setLane_of_ne x h

@[simp] theorem State.zone_setZone (s : State) (z : Fin 24) (x : Zone) : (s.setZone z x).zone z = x := by
  simp [State.zone, State.setZone]

theorem State.zone_setZone_eq (s : State) (z k : Fin 24) (x : Zone) :
    (s.setZone z x).zone k = if z = k then x else s.zone k := by
  simp [State.zone, State.setZone, Vector.getElem_set, Fin.ext_iff]

theorem State.zone_updZone_eq (s : State) (z k : Fin 24) (f : Zone → Zone) :
    (s.updZone z f).zone k = if z = k then f (s.zone z) else s.zone k :=
  s.zone_setZone_eq z k _

@[simp] theorem State.window_setWindow (s : State) (w : Fin 64) (x : Window) :
    (s.setWindow w x).window w = x := by
  simp [State.window, State.setWindow]

theorem State.window_setWindow_eq (s : State) (w k : Fin 64) (x : Window) :
    (s.setWindow w x).window k = if w = k then x else s.window k := by
  simp [State.window, State.setWindow, Vector.getElem_set, Fin.ext_iff]

@[simp] theorem State.feed_setFeed (s : State) (f : Fin 32) (x : Feed) : (s.setFeed f x).feed f = x := by
  simp [State.feed, State.setFeed]

theorem State.feed_setFeed_eq (s : State) (f k : Fin 32) (x : Feed) :
    (s.setFeed f x).feed k = if f = k then x else s.feed k := by
  simp [State.feed, State.setFeed, Vector.getElem_set, Fin.ext_iff]

@[simp] theorem State.response_respond (s : State) (l : Fin 8) (r : Response) :
    (s.respond l r).la.responses[l] = some r := by
  simp [State.respond]

@[simp] theorem State.zone_setWindow (s : State) (w : Fin 64) (x : Window) (z : Fin 24) :
    (s.setWindow w x).zone z = s.zone z := rfl

@[simp] theorem State.window_setZone (s : State) (z : Fin 24) (x : Zone) (w : Fin 64) :
    (s.setZone z x).window w = s.window w := rfl

@[simp] theorem State.window_updZone (s : State) (z : Fin 24) (f : Zone → Zone) (w : Fin 64) :
    (s.updZone z f).window w = s.window w := rfl

@[simp] theorem State.lane_setPort (s : State) (p : Port) (k : Fin 9) : (s.setPort p).lane k = s.lane k := rfl

@[simp] theorem State.lane_respond (s : State) (l : Fin 8) (r : Response) (k : Fin 9) : (s.respond l r).lane k = s.lane k := rfl

@[simp] theorem State.lane_setKept (s : State) (l : Fin 8) (q : List Request) (k : Fin 9) : (s.setKept l q).lane k = s.lane k := rfl

@[simp] theorem State.lane_setGroupPtr (s : State) (u : Bool) (l k : Fin 9) :
    (s.setGroupPtr u l).lane k = s.lane k := by
  cases u <;> rfl

/-! ## Functions of one block alone -/

theorem State.lane_congr {s t : State} (h : t.la = s.la) (k : Fin 9) : t.lane k = s.lane k := by
  simp [State.lane, h]

theorem State.zone_congr {s t : State} (h : t.zs = s.zs) (z : Fin 24) : t.zone z = s.zone z := by
  simp [State.zone, h]

theorem State.window_congr {s t : State} (h : t.zs = s.zs) (w : Fin 64) : t.window w = s.window w := by
  simp [State.window, h]

theorem State.feed_congr {s t : State} (h : t.vr = s.vr) (f : Fin 32) : t.feed f = s.feed f := by
  simp [State.feed, h]

theorem State.setup_congr {s t : State} (h : t.ps = s.ps) : t.setup = s.setup := by
  simp [State.setup, h]

theorem State.isConfig_congr {s t : State} (h : t.ps = s.ps) : t.isConfig = s.isConfig := by
  simp [State.isConfig, h]

theorem State.isRunning_congr {s t : State} (h : t.ps = s.ps) : t.isRunning = s.isRunning := by
  simp [State.isRunning, h]

end Sys2Proof.Machine
end

