-- ==== Sys2Proof/Laws/Scheduling.lean ====
section
/-! SUPPORT. What the Zone Scheduler's and the View Resolver's operations leave alone: each changes zones, windows,
(feeds) and the Report Writer's queue and flags, nothing else. -/

namespace Sys2Proof.Machine

/-- What handing reports does to the Report Writer: the queue grows at its back, within its capacity,
and the two loss flags may become set (R188). -/
structure Reported (a b : ReportWriter) : Prop where
  hand : b.hand = a.hand
  writeIndex : b.writeIndex = a.writeIndex
  readIndex : b.readIndex = a.readIndex
  readWrite : b.readWrite = a.readWrite
  queue : a.queue <+: b.queue
  room : b.queue.length ≤ max a.queue.length Config.queueCapacity
  overrun : a.overrun = true → b.overrun = true
  discardSince : a.discardSince = true → b.discardSince = true

theorem Reported.refl (a : ReportWriter) : Reported a a :=
  ⟨rfl, rfl, rfl, rfl, List.prefix_rfl, by omega, id, id⟩

theorem Reported.trans {a b c : ReportWriter} (h : Reported a b) (k : Reported b c) : Reported a c where
  hand := k.hand.trans h.hand
  writeIndex := k.writeIndex.trans h.writeIndex
  readIndex := k.readIndex.trans h.readIndex
  readWrite := k.readWrite.trans h.readWrite
  queue := h.queue.trans k.queue
  room := by have h1 := h.room; have h2 := k.room; omega
  overrun := k.overrun ∘ h.overrun
  discardSince := k.discardSince ∘ h.discardSince

/-- Only zones, windows, feeds and handed reports may differ; no window opens, and the logs stay
bounded. -/
structure Scheduled (s t : State) : Prop where
  pending : t.pending = s.pending
  la : t.la = s.la
  ac : t.ac = s.ac
  ps : t.ps = s.ps
  ic : t.ic = s.ic
  rg : t.rg = s.rg
  tb : t.tb = s.tb
  mem : t.mem = s.mem
  resetAsserted : t.resetAsserted = s.resetAsserted
  holdReq : t.holdReq = s.holdReq
  freeCount : t.freeCount = s.freeCount
  rw : Reported s.rw t.rw
  opens : ∀ w, (t.window w).status.open? = true → (s.window w).status.open? = true
  logs : s.LogsBounded → t.LogsBounded

theorem Scheduled.refl (s : State) : Scheduled s s :=
  ⟨rfl, rfl, rfl, rfl, rfl, rfl, rfl, rfl, rfl, rfl, rfl, .refl _, fun _ => id, id⟩

theorem Scheduled.trans {a b c : State} (h : Scheduled a b) (k : Scheduled b c) : Scheduled a c where
  pending := k.pending.trans h.pending
  la := k.la.trans h.la
  ac := k.ac.trans h.ac
  ps := k.ps.trans h.ps
  ic := k.ic.trans h.ic
  rg := k.rg.trans h.rg
  tb := k.tb.trans h.tb
  mem := k.mem.trans h.mem
  resetAsserted := k.resetAsserted.trans h.resetAsserted
  holdReq := k.holdReq.trans h.holdReq
  freeCount := k.freeCount.trans h.freeCount
  rw := h.rw.trans k.rw
  opens := fun w e => h.opens w (k.opens w e)
  logs := k.logs ∘ h.logs

/-- Only zones, windows and handed reports may differ, and no zone is set or unset. -/
structure Zoned (s t : State) : Prop where
  scheduled : Scheduled s t
  vr : t.vr = s.vr
  set : ∀ z, (t.zone z).timeline.isSome = (s.zone z).timeline.isSome

theorem Zoned.refl (s : State) : Zoned s s := ⟨.refl s, rfl, fun _ => rfl⟩

theorem Zoned.trans {a b c : State} (h : Zoned a b) (k : Zoned b c) : Zoned a c :=
  ⟨h.scheduled.trans k.scheduled, k.vr.trans h.vr, fun z => (k.set z).trans (h.set z)⟩

theorem Zoned.foldl {α : Type} {f : State → α → State} (h : ∀ s x, Zoned s (f s x)) (l : List α)
    (s : State) : Zoned s (l.foldl f s) := by
  induction l generalizing s with
  | nil => exact .refl s
  | cons x l ih => exact (h s x).trans (ih (f s x))

theorem Scheduled.foldl {α : Type} {f : State → α → State} (h : ∀ s x, Scheduled s (f s x))
    (l : List α) (s : State) : Scheduled s (l.foldl f s) := by
  induction l generalizing s with
  | nil => exact .refl s
  | cons x l ih => exact (h s x).trans (ih (f s x))

/-! ## Reports -/

/-- Handing a report changes the Report Writer alone. -/
theorem State.hand_changes (s : State) (r : Report) : s.hand r = { s with rw := (s.hand r).rw } := by
  unfold State.hand
  repeat' split
  all_goals rfl

theorem State.reported_hand (s : State) (r : Report) : Reported s.rw (s.hand r).rw := by
  have key : ∀ t : State, t.rw = s.rw → Reported s.rw t.rw := fun t h => h ▸ Reported.refl _
  unfold State.hand
  split
  · split
    · next h =>
      simp only [Bool.and_eq_true, decide_eq_true_eq] at h
      exact ⟨rfl, rfl, rfl, rfl, List.prefix_append _ _, by simp [State.enqueue]; omega, id, id⟩
    · exact .refl _
  · split
    · exact .refl _
    · split
      · next h => exact ⟨rfl, rfl, rfl, rfl, List.prefix_append _ _, by simp [State.enqueue]; omega, id, id⟩
      · exact ⟨rfl, rfl, rfl, rfl, List.prefix_rfl, by simp [State.loseRecord], fun _ => rfl, fun _ => rfl⟩

theorem State.zoned_hand (s : State) (r : Report) : Zoned s (s.hand r) := by
  rw [s.hand_changes r]
  exact ⟨⟨rfl, rfl, rfl, rfl, rfl, rfl, rfl, rfl, rfl, rfl, rfl, s.reported_hand r, fun _ => id, id⟩,
    rfl, fun _ => rfl⟩

theorem State.zs_hand (s : State) (r : Report) : (s.hand r).zs = s.zs := by
  rw [s.hand_changes r]

/-! ## Single updates -/

theorem State.scheduled_setZone (s : State) (z : Fin 24) (x : Zone)
    (h : s.LogsBounded → ∀ l, x.timeline = some l →
      1 ≤ l.log.length ∧ l.log.length ≤ Config.logCapacity) : Scheduled s (s.setZone z x) := by
  refine ⟨rfl, rfl, rfl, rfl, rfl, rfl, rfl, rfl, rfl, rfl, rfl, .refl _, fun _ => id, fun hs k l e => ?_⟩
  rw [State.zone_setZone_eq] at e
  split at e
  · exact h hs l e
  · exact hs k l e

/-- A change of a zone that leaves its timeline as it is. -/
theorem State.zoned_updZone (s : State) (z : Fin 24) (f : Zone → Zone)
    (h : ∀ x, (f x).timeline = x.timeline) : Zoned s (s.updZone z f) := by
  refine ⟨s.scheduled_setZone z _ fun hs l e => hs z l (by rw [← h]; exact e), rfl, fun k => ?_⟩
  rw [State.zone_updZone_eq]
  split
  · next e => subst e; rw [h]
  · rfl

/-- A change of a set zone's timeline whose log stays bounded. -/
theorem State.zoned_withTimeline (s : State) (z : Fin 24) (t t' : Timeline)
    (h : (s.zone z).timeline = some t)
    (hl : 1 ≤ t.log.length ∧ t.log.length ≤ Config.logCapacity →
      1 ≤ t'.log.length ∧ t'.log.length ≤ Config.logCapacity) :
    Zoned s (s.updZone z (fun x => x.withTimeline t')) := by
  refine ⟨s.scheduled_setZone z _ fun hs l e => ?_, rfl, fun k => ?_⟩
  · cases e; exact hl (hs z t h)
  · rw [State.zone_updZone_eq]
    split
    · next e => subst e; simp [Zone.withTimeline, h]
    · rfl

/-- A change of a window that does not open it. -/
theorem State.zoned_setWindow (s : State) (w : Fin 64) (x : Window)
    (h : x.status.open? = true → (s.window w).status.open? = true) : Zoned s (s.setWindow w x) := by
  refine ⟨⟨rfl, rfl, rfl, rfl, rfl, rfl, rfl, rfl, rfl, rfl, rfl, .refl _, fun k e => ?_, id⟩, rfl,
    fun _ => rfl⟩
  rw [State.window_setWindow_eq] at e
  split at e
  · next e' => subst e'; exact h e
  · exact e

theorem State.scheduled_setFeed (s : State) (f : Fin 32) (x : Feed) : Scheduled s (s.setFeed f x) :=
  ⟨rfl, rfl, rfl, rfl, rfl, rfl, rfl, rfl, rfl, rfl, rfl, .refl _, fun _ => id, id⟩

/-! ## Logs -/

theorem length_retire (n : SSN) (log : List Run) :
    (retire n log).length ≤ log.length ∧ (1 ≤ log.length → 1 ≤ (retire n log).length) := by
  induction log with
  | nil => simp [retire]
  | cons r1 log ih =>
    cases log with
    | nil => simp [retire]
    | cons r2 rest =>
      simp only [retire]
      split
      · exact ⟨by have := ih.1; simp only [List.length_cons] at this ⊢; omega, fun _ => ih.2 (by simp)⟩
      · simp

theorem length_mapOpenRun (f : Run → Run) (log : List Run) :
    (mapOpenRun f log).length = log.length := by
  induction log with
  | nil => rfl
  | cons r1 log ih =>
    cases log with
    | nil => rfl
    | cons r2 rest => simp only [mapOpenRun, List.length_cons] at ih ⊢; omega

/-! ## Zones and windows -/

theorem State.zoned_handWindowState (s : State) (w : Fin 64) (n : WindowNews)
    (r : Option RejectReason) : Zoned s (s.handWindowState w n r) :=
  s.zoned_hand _

theorem State.zoned_leaveWindow (s : State) (w : Fin 64) (z : Fin 24) : Zoned s (s.leaveWindow w z) := by
  unfold State.leaveWindow
  split
  · exact s.zoned_updZone z _ fun _ => rfl
  · exact .refl s

theorem State.zoned_giveOutcome (s : State) (w : Fin 64) (z : Fin 24) (o : ZoneOutcome) (n : SSN) :
    Zoned s (s.giveOutcome w z o n) := by
  unfold State.giveOutcome
  split
  · exact .refl s
  · refine Zoned.trans ?_ (State.zoned_hand _ _)
    refine Zoned.trans ?_ (State.zoned_leaveWindow _ w z)
    exact s.zoned_setWindow w _ id

theorem State.zoned_settleWindow (s : State) (su : Setup) (w : Fin 64) :
    Zoned s (s.settleWindow su w) := by
  unfold State.settleWindow
  dsimp only
  split
  · next h =>
    split
    · exact (s.zoned_setWindow w _ fun _ => h).trans (State.zoned_handWindowState _ _ _ _)
    · split
      · exact (s.zoned_setWindow w _ fun _ => h).trans (State.zoned_handWindowState _ _ _ _)
      · exact .refl s
  · exact .refl s

theorem State.zoned_goLive (s : State) (w : Fin 64) : Zoned s (s.goLive w) := by
  unfold State.goLive
  split
  · next h =>
    refine (s.zoned_setWindow w _ fun _ => ?_).trans (State.zoned_handWindowState _ _ _ _)
    rw [h]; rfl
  · exact .refl s

theorem State.zoned_outcomeAndSettle (s : State) (su : Setup) (w : Fin 64) (z : Fin 24)
    (o : ZoneOutcome) (n : SSN) : Zoned s (s.outcomeAndSettle su w z o n) :=
  (s.zoned_giveOutcome w z o n).trans (State.zoned_settleWindow _ su w)

theorem State.zoned_advanceTrail (s : State) (z : Fin 24) (n : SSN) : Zoned s (s.advanceTrail z n) := by
  unfold State.advanceTrail
  split
  · next t ht =>
    split
    · refine s.zoned_withTimeline z t _ ht fun h => ?_
      exact ⟨(length_retire n t.log).2 h.1, (length_retire n t.log).1.trans h.2⟩
    · exact .refl s
  · exact .refl s

theorem State.scheduled_setZoneAt (s : State) (z : Fin 24) (n : SSN) : Scheduled s (s.setZoneAt z n) :=
  s.scheduled_setZone z _ fun _ l e => by
    cases e
    exact ⟨by simp [Timeline.startingAt], by simp [Timeline.startingAt, Config.logCapacity]⟩

/-- The zone without its timeline, before any outcome of its unsetting. -/
theorem State.scheduled_clearTimeline (s : State) (z : Fin 24) :
    Scheduled s (s.updZone z (fun x => { x with timeline := none })) :=
  s.scheduled_setZone z _ fun _ l e => by cases e

theorem State.scheduled_unsetZone (s : State) (su : Setup) (z : Fin 24) :
    Scheduled s (s.unsetZone su z) := by
  unfold State.unsetZone
  refine (s.scheduled_clearTimeline z).trans ?_
  cases (s.zone z).status.window? with
  | none => exact .refl _
  | some w => exact (State.zoned_outcomeAndSettle _ su w z _ _).scheduled

theorem State.zoned_unattendWindow (s : State) (su : Setup) (n : SSN) (w : Fin 64) :
    Zoned s (s.unattendWindow su n w) := by
  unfold State.unattendWindow
  split
  · exact (Zoned.foldl (fun s z => s.zoned_giveOutcome w z _ n) _ s).trans
      (State.zoned_settleWindow _ su w)
  · exact .refl s

theorem State.zoned_nationalHeadAdvance (s : State) (su : Setup) (n : SSN) :
    Zoned s (s.nationalHeadAdvance su n) :=
  Zoned.foldl (fun s w => s.zoned_unattendWindow su n w) _ s

theorem State.zoned_cancelZone (s : State) (w : Fin 64) (z : Fin 24) : Zoned s (s.cancelZone w z) := by
  unfold State.cancelZone
  split
  · exact .refl s
  · split
    · split
      · exact s.zoned_updZone z _ fun _ => rfl
      · exact s.zoned_giveOutcome w z _ _
    · split
      · exact .refl s
      · exact s.zoned_giveOutcome w z _ _
    · exact s.zoned_giveOutcome w z _ _

theorem State.zoned_cancelWindow (s : State) (su : Setup) (w : Fin 64) :
    Zoned s (s.cancelWindow su w) :=
  (Zoned.foldl (fun s z => s.zoned_cancelZone w z) _ s).trans (State.zoned_settleWindow _ su w)

theorem State.zoned_takeHold (s : State) (k : HoldKind) (z : Fin 24) : Zoned s (s.takeHold k z) := by
  unfold State.takeHold
  split
  · exact .refl s
  · exact s.zoned_giveOutcome _ z _ _
  · exact s.zoned_updZone z _ fun _ => rfl
  · split
    · exact s.zoned_updZone z _ fun _ => rfl
    · exact .refl s

theorem State.zoned_takeHolds (s : State) (su : Setup) (k : HoldKind) (l : List (Fin 24)) :
    Zoned s (s.takeHolds su k l) :=
  (Zoned.foldl (fun s z => s.zoned_takeHold k z) l s).trans
    (Zoned.foldl (fun s w => s.zoned_settleWindow su w) _ _)

theorem State.zoned_updZones (s : State) (l : List (Fin 24)) (f : Zone → Zone)
    (h : ∀ x, (f x).timeline = x.timeline) : Zoned s (s.updZones l f) :=
  Zoned.foldl (fun s z => s.zoned_updZone z f h) l s

/-! ## Decided slots -/

theorem State.zoned_appendRun (s : State) (su : Setup) (z : Fin 24) (m : SSN) (src : RunSource)
    (w : Fin 64) (c : RunCause) : Zoned s (s.appendRun su z m src w c).1 := by
  unfold State.appendRun
  split
  · exact .refl s
  · next t ht =>
    split
    · split
      · exact .refl s
      · refine Zoned.trans ?_ (State.zoned_hand _ _)
        exact s.zoned_withTimeline z t _ ht id
    · next hl =>
      refine (s.zoned_withTimeline z t _ ht fun _ => ?_).trans (State.zoned_hand _ _)
      simp only [List.length_append, List.length_singleton]
      omega

theorem State.zoned_returnNational (s : State) (su : Setup) (z : Fin 24) (m : SSN) (w : Fin 64)
    (c : RunCause) (o : ZoneOutcome) : Zoned s (s.returnNational su z m w c o).1 := by
  have h := s.zoned_appendRun su z m .national w c
  unfold State.returnNational
  split
  · next t e => rw [e] at h; exact h.trans (State.zoned_outcomeAndSettle _ su w z o m)
  · next t e => rw [e] at h; exact h

theorem State.zoned_armStep (s : State) (su : Setup) (z : Fin 24) (m : SSN) :
    Zoned s (s.armStep su z m) := by
  unfold State.armStep
  split
  · split
    · split
      · exact s.zoned_outcomeAndSettle su _ z _ m
      · split
        · exact s.zoned_updZone z _ fun _ => rfl
        · exact s.zoned_outcomeAndSettle su _ z _ m
    · exact .refl s
  · exact .refl s

theorem State.zoned_giveMissed (s : State) (su : Setup) (z : Fin 24) (m : SSN) (w : Fin 64) :
    Zoned s (s.giveMissed su z m w) :=
  (s.zoned_giveOutcome w z _ m).trans ((State.zoned_goLive _ w).trans (State.zoned_settleWindow _ su w))

theorem State.zoned_settleArming (s : State) (z : Fin 24) : Zoned s (s.settleArming z) := by
  unfold State.settleArming
  split
  · exact s.zoned_goLive _
  · exact s.zoned_goLive _
  · exact .refl s

theorem State.zoned_missStep (s : State) (su : Setup) (z : Fin 24) (m : SSN) :
    Zoned s (s.missStep su z m) := by
  unfold State.missStep
  split
  · split
    · exact s.zoned_giveMissed su z m _
    · exact .refl s
  · exact .refl s

theorem State.zoned_entryStep (s : State) (su : Setup) (z : Fin 24) (m : SSN) :
    Zoned s (s.entryStep su z m).1 := by
  unfold State.entryStep
  split
  · dsimp only
    split
    · split
      · split
        · next w r hst hz hm o en want hs o2 p hp =>
          have h := fun w => s.zoned_appendRun su z m (.regional p) w .entry
          split
          · next t e =>
            have h := h w
            rw [e] at h
            dsimp only at h ⊢
            exact h.trans (t.zoned_updZone z _ fun _ => rfl)
          · next t e =>
            have h := h w
            rw [e] at h
            exact h
        · exact .refl s
      · exact .refl s
    · exact .refl s
  · exact .refl s

theorem State.zoned_endStep (s : State) (z : Fin 24) (m : SSN) : Zoned s (s.endStep z m) := by
  unfold State.endStep
  split
  · split
    · exact s.zoned_updZone z _ fun _ => rfl
    · exact .refl s
  · exact .refl s

theorem State.zoned_returnStep (s : State) (su : Setup) (z : Fin 24) (m : SSN) :
    Zoned s (s.returnStep su z m).1 := by
  unfold State.returnStep
  split
  · exact s.zoned_returnNational su z m _ _ _
  · dsimp only
    repeat' split
    all_goals first
      | exact s.zoned_returnNational su z m _ _ _
      | exact .refl s
  · exact .refl s

theorem State.zoned_entrySteps (s : State) (su : Setup) (z : Fin 24) (m : SSN) :
    Zoned s (s.entrySteps su z m).1 := by
  unfold State.entrySteps
  exact (s.zoned_armStep su z m).trans <| (State.zoned_missStep _ su z m).trans <|
    (State.zoned_entryStep _ su z m).trans <| State.zoned_settleArming _ z

theorem State.zoned_stateSteps (s : State) (su : Setup) (z : Fin 24) (m : SSN) :
    Zoned s (s.stateSteps su z m).1 := by
  unfold State.stateSteps
  exact (s.zoned_entrySteps su z m).trans <| (State.zoned_endStep _ z m).trans <|
    State.zoned_returnStep _ su z m

theorem State.zoned_clearConceal (s : State) (z : Fin 24) : Zoned s (s.clearConceal z) :=
  s.zoned_updZone z _ fun _ => rfl

theorem State.zoned_forcedReturn (s : State) (su : Setup) (z : Fin 24) (m : SSN) (w : Fin 64) :
    Zoned s (s.forcedReturn su z m w) :=
  s.zoned_returnNational su z m w _ _

theorem State.zoned_concealSlot (s : State) (su : Setup) (z : Fin 24) (m : SSN) (w : Fin 64)
    (fresh : Bool) : Zoned s (s.concealSlot su z m w fresh) := by
  unfold State.concealSlot State.concealAt
  refine (s.zoned_updZone z _ (fun _ => rfl) : Zoned s (s.countConceal z)).trans ?_
  split
  · exact State.zoned_forcedReturn _ su z m w
  · split
    · exact State.zoned_appendRun _ su z m _ w _
    · exact .refl _

theorem State.zoned_regionalSlot (s : State) (su : Setup) (z : Fin 24) (m : SSN) (w : Fin 64)
    (r : Fin 12) (p : Path) (want : Tag) : Zoned s (s.regionalSlot su z m w r p want) := by
  have h := s.zoned_appendRun su z m (.regional (otherPath p)) w .pathChange
  unfold State.regionalSlot
  split
  · exact s.zoned_clearConceal z
  · split
    · split
      · next t e => rw [e] at h; exact h.trans (State.zoned_clearConceal _ z)
      · next t e => rw [e] at h; exact h.trans (State.zoned_concealSlot _ su z m w false)
    · exact s.zoned_concealSlot su z m w true

theorem State.zoned_concealedSlot (s : State) (su : Setup) (z : Fin 24) (m : SSN) (w : Fin 64)
    (r : Fin 12) (want : Tag) : Zoned s (s.concealedSlot su z m w r want) := by
  unfold State.concealedSlot
  split
  · next p hp =>
    have h := s.zoned_appendRun su z m (.regional p) w .resume
    split
    · next t e => rw [e] at h; exact h.trans (State.zoned_clearConceal _ z)
    · next t e => rw [e] at h; exact h.trans (State.zoned_concealSlot _ su z m w false)
  · exact s.zoned_concealSlot su z m w false

theorem State.zoned_inWindowSlot (s : State) (su : Setup) (z : Fin 24) (m : SSN) (w : Fin 64) :
    Zoned s (s.inWindowSlot su z m w) := by
  unfold State.inWindowSlot
  split
  · exact s.zoned_forcedReturn su z m w
  · split
    · split
      · exact s.zoned_regionalSlot su z m w _ _ _
      · exact s.zoned_concealedSlot su z m w _ _
      · exact .refl s
    · exact .refl s

theorem State.zoned_chooseSource (s : State) (su : Setup) (z : Fin 24) (m : SSN) :
    Zoned s (s.chooseSource su z m) := by
  unfold State.chooseSource
  split
  · exact s.zoned_inWindowSlot su z m _
  · exact s.zoned_inWindowSlot su z m _
  · exact .refl s

theorem State.zoned_closeSlot (s : State) (su : Setup) (z : Fin 24) (m : SSN) :
    Zoned s (s.closeSlot su z m) := by
  unfold State.closeSlot
  split
  · exact .refl s
  · next t ht =>
    refine s.zoned_withTimeline z t _ ht fun h => ?_
    simpa only [length_mapOpenRun] using h

theorem State.zoned_decideSlot (s : State) (su : Setup) (z : Fin 24) (m : SSN) :
    Zoned s (s.decideSlot su z m) := by
  refine (s.zoned_stateSteps su z m).trans ?_
  unfold State.decideSlot State.settleSlot
  split
  · exact State.zoned_closeSlot _ su z m
  · exact (State.zoned_chooseSource _ su z m).trans (State.zoned_closeSlot _ su z m)

theorem State.zoned_decideSlots (su : Setup) (z : Fin 24) (k : Nat) (s : State) :
    Zoned s (State.decideSlots su z k s) := by
  induction k generalizing s with
  | zero => exact .refl s
  | succ k ih =>
    simp only [State.decideSlots]
    split
    · exact .refl s
    · next t ht =>
      exact Zoned.trans (s.zoned_decideSlot su z (t.horizon + 1)) (ih _)

theorem State.zoned_decideTo (s : State) (su : Setup) (z : Fin 24) (n : SSN) :
    Zoned s (s.decideTo su z n) := by
  unfold State.decideTo
  split
  · exact .refl s
  · split
    · exact State.zoned_decideSlots su z _ s
    · exact .refl s

/-! ## Feeds -/

theorem State.zoned_recomputeTrail (s : State) (su : Setup) (z : Fin 24) :
    Zoned s (s.recomputeTrail su z) := by
  unfold State.recomputeTrail
  split
  · exact s.zoned_advanceTrail z _
  · exact .refl s

theorem State.scheduled_zoneLeft (s : State) (su : Setup) (z : Fin 24) :
    Scheduled s (s.zoneLeft su z) := by
  unfold State.zoneLeft
  split
  · exact s.scheduled_unsetZone su z
  · exact (s.zoned_recomputeTrail su z).scheduled

theorem State.zoned_handFeedState (s : State) (su : Setup) (f : Fin 32) (n : SSN)
    (b a : FeedNews) (r : FeedReason) (k : Nat) : Zoned s (s.handFeedState su f n b a r k) :=
  s.zoned_hand _

theorem State.scheduled_dropFeed (s : State) (su : Setup) (f : Fin 32) (p : Position)
    (x : FeedStatus) (r : FeedReason) : Scheduled s (s.dropFeed su f p x r) :=
  (s.zoned_handFeedState su f _ _ _ r _).scheduled.trans (State.scheduled_setFeed _ _ _)

theorem State.scheduled_leaveAttached (s : State) (su : Setup) (f : Fin 32) (p : Position)
    (x : FeedStatus) (r : FeedReason) : Scheduled s (s.leaveAttached su f p x r) := by
  unfold State.leaveAttached
  refine (s.scheduled_dropFeed su f p x r).trans ?_
  split
  · exact State.scheduled_zoneLeft _ su _
  · exact .refl _

theorem State.scheduled_slip (s : State) (su : Setup) (r : FeedReason) (f : Fin 32) :
    Scheduled s (s.slip su r f) := by
  unfold State.slip
  split
  · exact s.scheduled_leaveAttached su f _ _ r
  · exact .refl s

theorem State.scheduled_slipAll (s : State) (su : Setup) (r : FeedReason) (l : List (Fin 32)) :
    Scheduled s (s.slipAll su r l) :=
  Scheduled.foldl (fun s f => s.scheduled_slip su r f) l s

theorem State.scheduled_attachFeed (s : State) (su : Setup) (f : Fin 32) (n : SSN) :
    Scheduled s (s.attachFeed su f n) := by
  unfold State.attachFeed
  split
  · exact .refl s
  · next z hz =>
    have h : Scheduled s (if (s.zone z).timeline.isNone then s.setZoneAt z n else s) := by
      split
      · exact s.scheduled_setZoneAt z n
      · exact .refl s
    exact (h.trans (State.scheduled_setFeed _ _ _)).trans
      (State.zoned_handFeedState _ su f _ _ _ _ _).scheduled

theorem State.scheduled_detachFeed (s : State) (su : Setup) (f : Fin 32) :
    Scheduled s (s.detachFeed su f) := by
  unfold State.detachFeed
  split
  · exact s.scheduled_leaveAttached su f _ _ _
  · exact (s.zoned_handFeedState su f _ _ _ _ _).scheduled.trans (State.scheduled_setFeed _ _ _)
  · exact .refl s

theorem State.scheduled_stopFeed (s : State) (su : Setup) (f : Fin 32) :
    Scheduled s (s.stopFeed su f) := by
  unfold State.stopFeed
  split
  · exact s.scheduled_dropFeed su f _ _ _
  · exact (s.zoned_handFeedState su f _ _ _ _ _).scheduled.trans (State.scheduled_setFeed _ _ _)
  · exact .refl s

theorem State.scheduled_completeFeed (s : State) (su : Setup) (f : Fin 32) (n : SSN) :
    Scheduled s (s.completeFeed su f n) := by
  unfold State.completeFeed
  split
  · exact (s.scheduled_setFeed f _).trans (State.zoned_recomputeTrail _ su _).scheduled
  · exact .refl s

theorem State.scheduled_spreadRule (s : State) (su : Setup) (z : Fin 24) (f : Fin 32) (n : SSN) :
    Scheduled s (s.spreadRule su z f n) := by
  unfold State.spreadRule
  split
  · split
    · exact s.scheduled_slipAll su _ _
    · exact .refl s
  · exact .refl s

theorem State.scheduled_prepareRead (s : State) (su : Setup) (z : Fin 24) (f : Fin 32) (n : SSN)
    (reread : Bool) : Scheduled s (s.prepareRead su z f n reread) := by
  unfold State.prepareRead
  split
  · split
    · exact (s.scheduled_spreadRule su z f n).trans (State.zoned_decideTo _ su z n).scheduled
    · exact .refl s
  · exact .refl s

theorem State.scheduled_moveNext (s : State) (f : Fin 32) (n : SSN) (reread : Bool) :
    Scheduled s (s.moveNext f n reread) := by
  unfold State.moveNext
  split
  · split
    · exact .refl s
    · exact s.scheduled_setFeed f _
  · exact .refl s

end Sys2Proof.Machine
end

