-- ==== Sys2Proof/Laws/Deciding.lean ====
section
/-! SUPPORT. What deciding a slot leaves alone: every other zone, the zone's trail, and every block but the Zone
Scheduler and the Report Writer; and that it moves the zone's horizon to the slot. -/

namespace Sys2Proof.Machine

/-- The acts at a slot of zone `z`, before its horizon moves: no other zone changes, `z` keeps horizon and
trail, and only the Zone Scheduler and the Report Writer change. -/
structure Slotted (z : Fin 24) (s t : State) : Prop where
  zones : ∀ k, k ≠ z → t.zone k = s.zone k
  timeline : ∀ x, (s.zone z).timeline = some x →
    ∃ y, (t.zone z).timeline = some y ∧ y.horizon = x.horizon ∧ y.trail = x.trail
  changes : t = { s with zs := t.zs, rw := t.rw }

theorem Slotted.refl (z : Fin 24) (s : State) : Slotted z s s :=
  ⟨fun _ _ => rfl, fun x h => ⟨x, h, rfl, rfl⟩, rfl⟩

theorem Slotted.trans {z : Fin 24} {a b c : State} (h : Slotted z a b) (k : Slotted z b c) :
    Slotted z a c where
  zones := fun i hi => (k.zones i hi).trans (h.zones i hi)
  timeline := fun x hx => by
    obtain ⟨y, hy, h1, h2⟩ := h.timeline x hx
    obtain ⟨w, hw, h3, h4⟩ := k.timeline y hy
    exact ⟨w, hw, h3.trans h1, h4.trans h2⟩
  changes := by rw [k.changes, h.changes]

/-! ## One zone changed -/

theorem State.zone_updZone (s : State) (z : Fin 24) (f : Zone → Zone) :
    (s.updZone z f).zone z = f (s.zone z) := Vector.getElem_set_self ..

theorem State.zone_updZone_ne (s : State) (z k : Fin 24) (f : Zone → Zone) (h : k ≠ z) :
    (s.updZone z f).zone k = s.zone k := by
  simp [State.updZone, State.zone, State.setZone, Fin.val_ne_of_ne (Ne.symm h)]

theorem State.slotted_updZone (s : State) (z : Fin 24) (f : Zone → Zone)
    (hf : ∀ x, (s.zone z).timeline = some x →
      ∃ y, (f (s.zone z)).timeline = some y ∧ y.horizon = x.horizon ∧ y.trail = x.trail) :
    Slotted z s (s.updZone z f) :=
  ⟨fun k hk => s.zone_updZone_ne z k f hk, fun x h => by rw [s.zone_updZone]; exact hf x h, rfl⟩

theorem State.slotted_status (s : State) (z : Fin 24) (f : Zone → Zone)
    (hf : ∀ x, (f x).timeline = x.timeline) : Slotted z s (s.updZone z f) :=
  s.slotted_updZone z f (fun x h => ⟨x, by rw [hf]; exact h, rfl, rfl⟩)

/-! ## Reports, outcomes and windows -/

theorem State.slotted_hand (s : State) (z : Fin 24) (r : Report) : Slotted z s (s.hand r) := by
  rw [s.hand_changes r]
  exact ⟨fun _ _ => rfl, fun x h => ⟨x, h, rfl, rfl⟩, rfl⟩

theorem State.slotted_setWindow (s : State) (z : Fin 24) (w : Fin 64) (x : Window) :
    Slotted z s (s.setWindow w x) := ⟨fun _ _ => rfl, fun x h => ⟨x, h, rfl, rfl⟩, rfl⟩

theorem State.slotted_giveOutcome (s : State) (z : Fin 24) (w : Fin 64) (o : ZoneOutcome) (n : SSN) :
    Slotted z s (s.giveOutcome w z o n) := by
  unfold State.giveOutcome
  split
  · exact .refl ..
  · refine Slotted.trans ?_ (State.slotted_hand ..)
    refine Slotted.trans (b := s.recordOutcome w z o) (State.slotted_setWindow ..) ?_
    unfold State.leaveWindow
    split
    · exact State.slotted_status _ _ _ (fun _ => rfl)
    · exact .refl ..

theorem State.slotted_settleWindow (s : State) (z : Fin 24) (su : Setup) (w : Fin 64) :
    Slotted z s (s.settleWindow su w) := by
  unfold State.settleWindow
  dsimp only
  repeat' split
  all_goals first
    | exact .refl ..
    | exact (State.slotted_setWindow ..).trans (State.slotted_hand ..)

theorem State.slotted_goLive (s : State) (z : Fin 24) (w : Fin 64) : Slotted z s (s.goLive w) := by
  unfold State.goLive
  split
  · exact (State.slotted_setWindow ..).trans (State.slotted_hand ..)
  · exact .refl ..

theorem State.slotted_outcome (s : State) (z : Fin 24) (su : Setup) (w : Fin 64) (o : ZoneOutcome)
    (n : SSN) : Slotted z s (s.outcomeAndSettle su w z o n) :=
  (s.slotted_giveOutcome z w o n).trans (State.slotted_settleWindow ..)

/-! ## Appending runs -/

theorem State.slotted_appendRun (s : State) (su : Setup) (z : Fin 24) (m : SSN) (so : RunSource)
    (w : Fin 64) (c : RunCause) : Slotted z s (s.appendRun su z m so w c).1 := by
  unfold State.appendRun
  split
  · exact .refl ..
  · next t ht =>
    repeat' split
    all_goals first
      | exact .refl ..
      | refine Slotted.trans (s.slotted_updZone z _ ?_) (State.slotted_hand ..)
        intro x hx
        rw [ht] at hx
        cases hx
        exact ⟨_, rfl, rfl, rfl⟩

theorem Slotted.of_append {z : Fin 24} {s t : State} {su : Setup} {m : SSN} {so : RunSource} {w : Fin 64}
    {c : RunCause} {b : Bool} (h : s.appendRun su z m so w c = (t, b)) : Slotted z s t := by
  have := s.slotted_appendRun su z m so w c
  rw [h] at this
  exact this

theorem State.slotted_returnNational (s : State) (su : Setup) (z : Fin 24) (m : SSN) (w : Fin 64)
    (c : RunCause) (o : ZoneOutcome) : Slotted z s (s.returnNational su z m w c o).1 := by
  unfold State.returnNational
  split
  · next h => exact (Slotted.of_append h).trans (State.slotted_outcome ..)
  · next h => exact .of_append h

/-! ## The state steps -/

theorem State.slotted_armStep (s : State) (su : Setup) (z : Fin 24) (m : SSN) :
    Slotted z s (s.armStep su z m) := by
  unfold State.armStep
  split
  · split
    · split
      · exact s.slotted_outcome ..
      · split
        · exact s.slotted_status _ _ (fun _ => rfl)
        · exact s.slotted_outcome ..
    · exact .refl ..
  · exact .refl ..

theorem State.slotted_missStep (s : State) (su : Setup) (z : Fin 24) (m : SSN) :
    Slotted z s (s.missStep su z m) := by
  unfold State.missStep State.giveMissed
  repeat' split
  all_goals first
    | exact .refl ..
    | exact (s.slotted_giveOutcome ..).trans ((State.slotted_goLive ..).trans (State.slotted_settleWindow ..))

theorem State.slotted_settleArming (s : State) (z : Fin 24) : Slotted z s (s.settleArming z) := by
  unfold State.settleArming
  split
  · exact s.slotted_goLive ..
  · exact s.slotted_goLive ..
  · exact .refl ..

theorem State.slotted_entryStep (s : State) (su : Setup) (z : Fin 24) (m : SSN) :
    Slotted z s (s.entryStep su z m).1 := by
  unfold State.entryStep
  dsimp only
  repeat' split
  all_goals first
    | exact .refl ..
    | next h => exact .of_append h
    | next h =>
      refine (Slotted.of_append h).trans ?_
      dsimp only
      exact State.slotted_status _ _ _ (fun _ => rfl)

theorem State.slotted_endStep (s : State) (z : Fin 24) (m : SSN) : Slotted z s (s.endStep z m) := by
  unfold State.endStep
  split
  · split
    · exact s.slotted_status _ _ (fun _ => rfl)
    · exact .refl ..
  · exact .refl ..

theorem State.slotted_returnStep (s : State) (su : Setup) (z : Fin 24) (m : SSN) :
    Slotted z s (s.returnStep su z m).1 := by
  unfold State.returnStep
  dsimp only
  repeat' split
  all_goals first | exact .refl .. | exact s.slotted_returnNational ..

theorem State.slotted_entrySteps (s : State) (su : Setup) (z : Fin 24) (m : SSN) :
    Slotted z s (s.entrySteps su z m).1 := by
  unfold State.entrySteps
  exact ((s.slotted_armStep su z m).trans (State.slotted_missStep _ su z m)).trans
    ((State.slotted_entryStep _ su z m).trans (State.slotted_settleArming _ z))

theorem State.slotted_stateSteps (s : State) (su : Setup) (z : Fin 24) (m : SSN) :
    Slotted z s (s.stateSteps su z m).1 := by
  unfold State.stateSteps
  exact (s.slotted_entrySteps su z m).trans
    ((State.slotted_endStep _ z m).trans (State.slotted_returnStep _ su z m))

/-! ## The source of a slot -/

theorem State.slotted_concealSlot (s : State) (su : Setup) (z : Fin 24) (m : SSN) (w : Fin 64) (b : Bool) :
    Slotted z s (s.concealSlot su z m w b) := by
  unfold State.concealSlot State.concealAt
  refine Slotted.trans (b := s.countConceal z) (s.slotted_status _ _ (fun _ => rfl)) ?_
  repeat' split
  all_goals first
    | exact State.slotted_returnNational ..
    | exact State.slotted_appendRun ..
    | exact .refl ..

/-- What follows an append of a regional run: the conceal count is cleared, or the slot is concealed. -/
theorem Slotted.clear {z : Fin 24} {s t : State} {su : Setup} {m : SSN} {so : RunSource} {w : Fin 64}
    {c : RunCause} {b : Bool} (h : s.appendRun su z m so w c = (t, b)) : Slotted z s (t.clearConceal z) :=
  (Slotted.of_append h).trans (t.slotted_status _ _ (fun _ => rfl))

theorem State.slotted_regionalSlot (s : State) (su : Setup) (z : Fin 24) (m : SSN) (w : Fin 64)
    (r : Fin 12) (p : Path) (want : Tag) : Slotted z s (s.regionalSlot su z m w r p want) := by
  unfold State.regionalSlot
  split
  · exact s.slotted_status _ _ (fun _ => rfl)
  · split
    · split
      · next h => exact .clear h
      · next h => exact (Slotted.of_append h).trans (State.slotted_concealSlot ..)
    · exact s.slotted_concealSlot ..

theorem State.slotted_concealedSlot (s : State) (su : Setup) (z : Fin 24) (m : SSN) (w : Fin 64)
    (r : Fin 12) (want : Tag) : Slotted z s (s.concealedSlot su z m w r want) := by
  unfold State.concealedSlot
  split
  · split
    · next h => exact .clear h
    · next h => exact (Slotted.of_append h).trans (State.slotted_concealSlot ..)
  · exact s.slotted_concealSlot ..

theorem State.slotted_inWindowSlot (s : State) (su : Setup) (z : Fin 24) (m : SSN) (w : Fin 64) :
    Slotted z s (s.inWindowSlot su z m w) := by
  unfold State.inWindowSlot
  split
  · exact s.slotted_returnNational ..
  · split
    · split
      · exact s.slotted_regionalSlot ..
      · exact s.slotted_concealedSlot ..
      · exact .refl ..
    · exact .refl ..

theorem State.slotted_chooseSource (s : State) (su : Setup) (z : Fin 24) (m : SSN) :
    Slotted z s (s.chooseSource su z m) := by
  unfold State.chooseSource
  split
  · exact s.slotted_inWindowSlot ..
  · exact s.slotted_inWindowSlot ..
  · exact .refl ..

/-! ## One slot -/

/-- A decided slot: no other zone changes, a set zone's horizon is the slot and its trail stays, and only the
Zone Scheduler and the Report Writer change (R131). -/
theorem State.decideSlot_moves (s : State) (su : Setup) (z : Fin 24) (m : SSN) :
    (∀ k, k ≠ z → (s.decideSlot su z m).zone k = s.zone k) ∧
    (∀ x, (s.zone z).timeline = some x →
      ∃ y, ((s.decideSlot su z m).zone z).timeline = some y ∧ y.horizon = m ∧ y.trail = x.trail) ∧
    s.decideSlot su z m = { s with zs := (s.decideSlot su z m).zs, rw := (s.decideSlot su z m).rw } := by
  unfold State.decideSlot State.settleSlot
  generalize ht : (if (s.stateSteps su z m).2 = true then (s.stateSteps su z m).1
    else (s.stateSteps su z m).1.chooseSource su z m) = t
  have h : Slotted z s t := by
    rw [← ht]
    split
    · exact s.slotted_stateSteps ..
    · exact (s.slotted_stateSteps ..).trans (State.slotted_chooseSource ..)
  unfold State.closeSlot
  split
  · next hn =>
    refine ⟨h.zones, fun x hx => ?_, h.changes⟩
    obtain ⟨y, hy, _⟩ := h.timeline x hx
    rw [hn] at hy
    cases hy
  · next y' hy' =>
    refine ⟨fun k hk => (State.zone_updZone_ne _ _ _ _ hk).trans (h.zones k hk), fun x hx => ?_, ?_⟩
    · obtain ⟨y, hy, h1, h2⟩ := h.timeline x hx
      rw [hy'] at hy
      cases hy
      rw [State.zone_updZone]
      exact ⟨_, rfl, rfl, h2⟩
    · show ({ t with zs := _ } : State) = _
      rw [h.changes]
      rfl

/-! ## Whether an append is made -/

/-- A log with room takes the run (R140). -/
theorem State.appendRun_room (s : State) (su : Setup) (z : Fin 24) (m : SSN) (so : RunSource) (w : Fin 64)
    (c : RunCause) {t : Timeline} (ht : (s.zone z).timeline = some t) (h : t.log.length < 32) :
    ∃ x, s.appendRun su z m so w c = (x, true) := by
  unfold State.appendRun
  rw [ht]
  dsimp only
  rw [if_neg (show ¬ Config.logCapacity ≤ t.log.length from Nat.not_le.2 h)]
  exact ⟨_, rfl⟩

/-- A full log does not (R141). -/
theorem State.appendRun_full (s : State) (su : Setup) (z : Fin 24) (m : SSN) (so : RunSource) (w : Fin 64)
    (c : RunCause) {t : Timeline} (ht : (s.zone z).timeline = some t) (h : 32 ≤ t.log.length) :
    ∃ x, s.appendRun su z m so w c = (x, false) := by
  unfold State.appendRun
  rw [ht]
  dsimp only
  rw [if_pos (show Config.logCapacity ≤ t.log.length from h)]
  split <;> exact ⟨_, rfl⟩

/-- With a full log a return to national is its attempted append (R104, R141). -/
theorem State.returnNational_full (s : State) (su : Setup) (z : Fin 24) (m : SSN) (w : Fin 64) (c : RunCause)
    (o : ZoneOutcome) {t : Timeline} (ht : (s.zone z).timeline = some t) (h : 32 ≤ t.log.length) :
    s.returnNational su z m w c o = s.appendRun su z m .national w c := by
  obtain ⟨x, hx⟩ := s.appendRun_full su z m .national w c ht h
  unfold State.returnNational
  rw [hx]

end Sys2Proof.Machine
end

