-- ==== Sys2Proof/Laws/Memory.lean ====
section
/-! SUPPORT. Sparse data and carriage memory: what a lookup gives after an update, that every operation keeps the
canonical form, and what every byte reads as after a write. -/

namespace Sys2Proof.Machine

/-! ## Lookup -/

theorem lookup_insertAt {β : Type} (m : List (Nat × β)) (a b : Nat) (x : β) :
    lookup (insertAt m a x) b = if a = b then some x else lookup m b := by
  induction m with
  | nil => simp [insertAt, lookup]
  | cons c m ih =>
    obtain ⟨k, v⟩ := c
    simp only [insertAt]
    split
    · rfl
    · split
      · next h => subst h; simp only [lookup]; split <;> rfl
      · next h1 h2 =>
        simp only [lookup, ih]
        split
        · next h3 => subst h3; simp [h2]
        · rfl

theorem lookup_eraseAt_of_ne {β : Type} (m : List (Nat × β)) {a b : Nat} (h : a ≠ b) :
    lookup (eraseAt m a) b = lookup m b := by
  induction m with
  | nil => rfl
  | cons c m ih =>
    obtain ⟨k, v⟩ := c
    simp only [eraseAt]
    split
    · next e => subst e; simp [lookup, h]
    · simp only [lookup, ih]

theorem lookup_none_of_forall_lt {β : Type} (m : List (Nat × β)) (a : Nat) (h : ∀ c ∈ m, a < c.1) :
    lookup m a = none := by
  induction m with
  | nil => rfl
  | cons c m ih =>
    obtain ⟨k, v⟩ := c
    have hk : a < k := h (k, v) (by simp)
    simp only [lookup]
    rw [if_neg (by omega)]
    exact ih (fun c hc => h c (by simp [hc]))

theorem lookup_eraseAt_self {β : Type} (m : List (Nat × β)) (a : Nat) (h : RisingKeys m) :
    lookup (eraseAt m a) a = none := by
  induction m with
  | nil => rfl
  | cons c m ih =>
    obtain ⟨k, v⟩ := c
    obtain ⟨h1, h2⟩ := List.pairwise_cons.mp h
    simp only [eraseAt]
    split
    · next e => subst e; exact lookup_none_of_forall_lt m a h1
    · next e => simp only [lookup]; rw [if_neg (fun e' => e e'.symm)]; exact ih h2

/-! ## Rising keys -/

theorem mem_insertAt {β : Type} {m : List (Nat × β)} {a : Nat} {x : β} {c : Nat × β}
    (h : c ∈ insertAt m a x) : c = (a, x) ∨ c ∈ m := by
  induction m with
  | nil => simpa [insertAt] using h
  | cons d m ih =>
    obtain ⟨k, v⟩ := d
    simp only [insertAt] at h
    split at h
    · simpa using h
    · split at h
      · rcases List.mem_cons.mp h with h | h
        · exact .inl h
        · exact .inr (by simp [h])
      · rcases List.mem_cons.mp h with h | h
        · exact .inr (by simp [h])
        · rcases ih h with h | h
          · exact .inl h
          · exact .inr (by simp [h])

theorem risingKeys_insertAt {β : Type} (m : List (Nat × β)) (a : Nat) (x : β) (h : RisingKeys m) :
    RisingKeys (insertAt m a x) := by
  induction m with
  | nil => simp [insertAt, RisingKeys]
  | cons c m ih =>
    obtain ⟨k, v⟩ := c
    obtain ⟨h1, h2⟩ := List.pairwise_cons.mp h
    simp only [insertAt]
    split
    · next e =>
      refine List.pairwise_cons.mpr ⟨?_, h⟩
      intro d hd
      rcases List.mem_cons.mp hd with hd | hd
      · subst hd; exact e
      · exact lt_trans e (h1 d hd)
    · split
      · next e => subst e; exact List.pairwise_cons.mpr ⟨h1, h2⟩
      · next e1 e2 =>
        refine List.pairwise_cons.mpr ⟨?_, ih h2⟩
        intro d hd
        rcases mem_insertAt hd with hd | hd
        · subst hd; show k < a; omega
        · exact h1 d hd

theorem eraseAt_sublist {β : Type} (m : List (Nat × β)) (a : Nat) : (eraseAt m a).Sublist m := by
  induction m with
  | nil => exact .slnil
  | cons c m ih =>
    obtain ⟨k, v⟩ := c
    simp only [eraseAt]
    split
    · exact List.sublist_cons_self _ _
    · exact ih.cons_cons _

theorem risingKeys_eraseAt {β : Type} (m : List (Nat × β)) (a : Nat) (h : RisingKeys m) :
    RisingKeys (eraseAt m a) :=
  h.sublist (eraseAt_sublist m a)

/-! ## The canonical form -/

theorem Memory.wf_iff (m : Memory) :
    Memory.wf m = true ↔ RisingKeys m ∧ ∀ c ∈ m, c.2 ≠ unwrittenByte := by
  simp [Memory.wf]

theorem Memory.rising {m : Memory} (h : Memory.wf m = true) : RisingKeys m := (m.wf_iff.mp h).1

theorem Memory.wf_writeByte {m : Memory} (a : Nat) (b : Byte) (h : Memory.wf m = true) :
    Memory.wf (writeByte m a b) = true := by
  obtain ⟨h1, h2⟩ := m.wf_iff.mp h
  unfold writeByte
  split
  · exact (Memory.wf_iff _).mpr
      ⟨risingKeys_eraseAt m a h1, fun c hc => h2 c ((eraseAt_sublist m a).subset hc)⟩
  · next hb =>
    refine (Memory.wf_iff _).mpr ⟨risingKeys_insertAt m a b h1, fun c hc => ?_⟩
    rcases mem_insertAt hc with hc | hc
    · subst hc; exact hb
    · exact h2 c hc

theorem Memory.wf_writeBytes {m : Memory} (a : Nat) (bs : List Byte) (h : Memory.wf m = true) :
    Memory.wf (writeBytes m a bs) = true := by
  induction bs generalizing m a with
  | nil => exact h
  | cons b bs ih => exact ih (a + 1) (Memory.wf_writeByte a b h)

theorem mem_of_lookup {β : Type} {m : List (Nat × β)} {a : Nat} {x : β}
    (h : lookup m a = some x) : (a, x) ∈ m := by
  induction m with
  | nil => simp [lookup] at h
  | cons c m ih =>
    obtain ⟨k, v⟩ := c
    simp only [lookup] at h
    split at h
    · next e => subst e; simp at h; subst h; simp
    · exact List.mem_cons_of_mem _ (ih h)

/-! ## Reading after writing -/

theorem readByte_writeByte_of_ne (m : Memory) {a x : Nat} (b : Byte) (h : a ≠ x) :
    readByte (writeByte m a b) x = readByte m x := by
  unfold readByte writeByte
  split
  · rw [lookup_eraseAt_of_ne m h]
  · rw [lookup_insertAt, if_neg h]

theorem readByte_writeByte_self {m : Memory} (a : Nat) (b : Byte) (h : RisingKeys m) :
    readByte (writeByte m a b) a = b := by
  unfold readByte writeByte
  split
  · next hb => rw [lookup_eraseAt_self m a h, hb]; rfl
  · rw [lookup_insertAt, if_pos rfl]; rfl

theorem risingKeys_writeByte {m : Memory} (a : Nat) (b : Byte) (h : RisingKeys m) :
    RisingKeys (writeByte m a b) := by
  unfold writeByte
  split
  · exact risingKeys_eraseAt m a h
  · exact risingKeys_insertAt m a b h

theorem risingKeys_writeBytes {m : Memory} (a : Nat) (bs : List Byte) (h : RisingKeys m) :
    RisingKeys (writeBytes m a bs) := by
  induction bs generalizing m a with
  | nil => exact h
  | cons b bs ih => exact ih (a + 1) (risingKeys_writeByte a b h)

/-- Every byte outside the bytes written reads as before. -/
theorem readByte_writeBytes_outside (m : Memory) (a x : Nat) (bs : List Byte)
    (h : x < a ∨ a + bs.length ≤ x) : readByte (writeBytes m a bs) x = readByte m x := by
  induction bs generalizing m a with
  | nil => rfl
  | cons b bs ih =>
    simp only [List.length_cons] at h
    simp only [writeBytes]
    rw [ih (writeByte m a b) (a + 1) (by omega), readByte_writeByte_of_ne m b (by omega)]

/-- Every byte written reads as written. -/
theorem readByte_writeBytes_inside {m : Memory} (a x : Nat) (bs : List Byte) (hm : RisingKeys m)
    (h1 : a ≤ x) (h2 : x < a + bs.length) : readByte (writeBytes m a bs) x = bs.getD (x - a) 0 := by
  induction bs generalizing m a with
  | nil => simp at h2; omega
  | cons b bs ih =>
    simp only [List.length_cons] at h2
    simp only [writeBytes]
    rcases Nat.eq_or_lt_of_le h1 with e | e
    · subst e
      rw [readByte_writeBytes_outside _ _ _ _ (by omega), readByte_writeByte_self a b hm]
      simp
    · rw [ih (a + 1) (risingKeys_writeByte a b hm) (by omega) (by omega)]
      have : x - a = (x - (a + 1)) + 1 := by omega
      rw [this]; rfl

/-! ## Answered and abandoned accesses -/

theorem Memory.wf_landed {m : Memory} (r : Request) (h : Memory.wf m = true) :
    Memory.wf (landed m r) = true :=
  Memory.wf_writeBytes _ _ h

theorem State.wf_settleMemory {s : State} (r : Request) (answer : MemAnswer)
    (h : Memory.wf s.mem = true) : Memory.wf (s.settleMemory r answer).mem = true := by
  cases answer
  · exact Memory.wf_landed r h
  · exact Memory.wf_writeBytes _ _ h

theorem length_freeBytes (k n : Nat) : (freeBytes k n).length = n := by simp [freeBytes]

/-- An answered access changes no byte outside the request's data. -/
theorem State.readByte_settleMemory (s : State) (r : Request) (answer : MemAnswer) (x : Nat)
    (h : x < r.base ∨ r.base + r.body.data.length ≤ x) :
    readByte (s.settleMemory r answer).mem x = readByte s.mem x := by
  cases answer
  · exact readByte_writeBytes_outside _ _ _ _ h
  · exact readByte_writeBytes_outside _ _ _ _ (by rw [length_freeBytes]; exact h)

theorem State.settleMemory_changes (s : State) (r : Request) (answer : MemAnswer) :
    s.settleMemory r answer =
      { s with
        mem := (s.settleMemory r answer).mem
        freeCount := (s.settleMemory r answer).freeCount } := by
  cases answer <;> rfl

end Sys2Proof.Machine
end

