-- ==== Sys2Proof/Laws/Arbiter.lean ====
section
/-! SUPPORT. What granting, answering, accepting, holding and releasing leave alone, and which accesses they bring
to the memory port. -/

namespace Sys2Proof.Machine

/-- Lane `l` has access `a` at the memory port, waiting or in progress. -/
def State.Presents (s : State) (l : Fin 9) (a : Access) : Prop := (s.lane l).presented? = some a

theorem State.mem_presented (s : State) (l : Fin 9) (a : Access) :
    (l, a) ∈ s.presented ↔ s.Presents l a := by
  simp only [State.presented, State.Presents, List.mem_filterMap, List.mem_finRange, true_and,
    Option.map_eq_some_iff]
  constructor
  · rintro ⟨k, b, hb, e⟩
    cases e
    exact hb
  · intro h
    exact ⟨l, a, h, rfl⟩

/-! ## Grants -/

/-- Only the port, the pointers and WAITING lanes that become ACTIVE may differ. -/
structure Arbitrated (s t : State) : Prop where
  changes : t = { s with la := t.la }
  presented : ∀ l, (t.lane l).presented? = (s.lane l).presented?
  idle : ∀ l, (t.lane l).idle? = (s.lane l).idle?
  kept : t.la.kept = s.la.kept
  responses : t.la.responses = s.la.responses

theorem Arbitrated.refl (s : State) : Arbitrated s s := ⟨rfl, fun _ => rfl, fun _ => rfl, rfl, rfl⟩

theorem Arbitrated.trans {a b c : State} (h : Arbitrated a b) (k : Arbitrated b c) : Arbitrated a c where
  changes := by rw [k.changes, h.changes]
  presented := fun l => (k.presented l).trans (h.presented l)
  idle := fun l => (k.idle l).trans (h.idle l)
  kept := k.kept.trans h.kept
  responses := k.responses.trans h.responses

theorem State.arbitrated_setPort (s : State) (p : Port) : Arbitrated s (s.setPort p) :=
  ⟨rfl, fun _ => rfl, fun _ => rfl, rfl, rfl⟩

theorem State.arbitrated_setGroupPtr (s : State) (u : Bool) (l : Fin 9) :
    Arbitrated s (s.setGroupPtr u l) := by
  cases u <;> exact ⟨rfl, fun _ => rfl, fun _ => rfl, rfl, rfl⟩

theorem State.arbitrated_activate (s : State) (l : Fin 9) (a : Access) (h : s.lane l = .waiting a) :
    Arbitrated s (s.setLane l (.active a)) := by
  refine ⟨rfl, fun k => ?_, fun k => ?_, rfl, rfl⟩
  · rw [State.lane_setLane_eq]
    split
    · next e => subst e; rw [h]; rfl
    · rfl
  · rw [State.lane_setLane_eq]
    split
    · next e => subst e; rw [h]; rfl
    · rfl

theorem State.arbitrated_grantTo (s : State) (l : Fin 9) (n : Nat) : Arbitrated s (s.grantTo l n) := by
  unfold State.grantTo
  split
  · next a h =>
    exact ((s.arbitrated_activate l a h).trans (State.arbitrated_setPort _ _)).trans
      (State.arbitrated_setGroupPtr _ _ _)
  · exact .refl s

theorem State.arbitrated_grantFree (s : State) : Arbitrated s s.grantFree := by
  unfold State.grantFree
  split
  · exact s.arbitrated_grantTo _ _
  · exact .refl s

theorem State.arbitrated_settlePort (s : State) : Arbitrated s s.settlePort := by
  unfold State.settlePort
  split
  · exact .refl s
  · exact s.arbitrated_grantFree
  · split
    · exact s.arbitrated_grantTo _ _
    · split
      · exact (s.arbitrated_setPort _).trans (State.arbitrated_grantFree _)
      · exact .refl s

theorem State.arbitrated_closePort (s : State) (g : Grant) (x : MemAnswer) :
    Arbitrated s (s.closePort g x) := by
  unfold State.closePort
  exact (s.arbitrated_setPort _).trans (State.arbitrated_settlePort _)

theorem State.arbitrated_endReservation (s : State) (l : Fin 9) : Arbitrated s (s.endReservation l) := by
  unfold State.endReservation
  split
  · split
    · exact s.arbitrated_setPort _
    · exact .refl s
  · exact .refl s

/-- An arbitration leaves the held list alone. -/
theorem Arbitrated.rg {s t : State} (h : Arbitrated s t) : t.rg = s.rg := by rw [h.changes]

/-- An answer without memory changes the Lane Arbiter alone. -/
theorem State.answer_changes (s : State) (l : Fin 8) (x : Status) (d : List Byte) :
    s.answer l x d = { s with la := (s.answer l x d).la } := by
  have h := (State.arbitrated_endReservation
    ((s.setLane (ext l) .idle).respond l { status := x, data := d }) (ext l)).trans
      (State.arbitrated_settlePort _)
  exact h.changes

/-! ## Acts -/

/-- Two held writes agree in all but their timer and expiries. -/
def HeldWrite.Same (h k : HeldWrite) : Prop :=
  k.lane = h.lane ∧ k.ring = h.ring ∧ k.slot = h.slot ∧ k.old = h.old ∧ k.new = h.new ∧ k.req = h.req

theorem HeldWrite.Same.refl (h : HeldWrite) : h.Same h := ⟨rfl, rfl, rfl, rfl, rfl, rfl⟩

theorem HeldWrite.Same.trans {a b c : HeldWrite} (h : a.Same b) (k : b.Same c) : a.Same c :=
  ⟨k.1.trans h.1, k.2.1.trans h.2.1, k.2.2.1.trans h.2.2.1, k.2.2.2.1.trans h.2.2.2.1,
    k.2.2.2.2.1.trans h.2.2.2.2.1, k.2.2.2.2.2.trans h.2.2.2.2.2⟩

/-- The accesses that the held writes of a list may become when they are released (R86, R173). -/
def ReleasedFrom (held : List HeldWrite) (l : Fin 9) (a : Access) : Prop :=
  ∃ h ∈ held, l = ext h.lane ∧ a.req = h.req ∧ (a.kind = .ring h.ring h.slot ∨ a.kind = .released)

/-- An act inside a step that takes no request: what it leaves alone, and that the accesses it brings
to the port are held writes of a list, released. -/
structure Acted (held : List HeldWrite) (s t : State) : Prop where
  pending : t.pending = s.pending
  ac : t.ac = s.ac
  ps : t.ps = s.ps
  tb : t.tb = s.tb
  mem : t.mem = s.mem
  resetAsserted : t.resetAsserted = s.resetAsserted
  holdReq : t.holdReq = s.holdReq
  freeCount : t.freeCount = s.freeCount
  rw : Reported s.rw t.rw
  opens : ∀ w, (t.window w).status.open? = true → (s.window w).status.open? = true
  logs : s.LogsBounded → t.LogsBounded
  kept : t.la.kept = s.la.kept
  responses : t.la.responses = s.la.responses
  heldFrom : ∀ h ∈ t.rg.held, ∃ k ∈ s.rg.held, k.Same h
  presents : ∀ l a, t.Presents l a → s.Presents l a ∨ ReleasedFrom held l a

theorem Acted.refl (held : List HeldWrite) (s : State) : Acted held s s :=
  ⟨rfl, rfl, rfl, rfl, rfl, rfl, rfl, rfl, .refl _, fun _ => id, id, rfl, rfl,
    fun h e => ⟨h, e, .refl h⟩, fun _ _ => .inl⟩

theorem Acted.trans {held : List HeldWrite} {a b c : State} (h : Acted held a b) (k : Acted held b c) :
    Acted held a c where
  pending := k.pending.trans h.pending
  ac := k.ac.trans h.ac
  ps := k.ps.trans h.ps
  tb := k.tb.trans h.tb
  mem := k.mem.trans h.mem
  resetAsserted := k.resetAsserted.trans h.resetAsserted
  holdReq := k.holdReq.trans h.holdReq
  freeCount := k.freeCount.trans h.freeCount
  rw := h.rw.trans k.rw
  opens := fun w e => h.opens w (k.opens w e)
  logs := k.logs ∘ h.logs
  kept := k.kept.trans h.kept
  responses := k.responses.trans h.responses
  heldFrom := fun x e => by
    obtain ⟨y, hy, e1⟩ := k.heldFrom x e
    obtain ⟨z, hz, f1⟩ := h.heldFrom y hy
    exact ⟨z, hz, f1.trans e1⟩
  presents := fun l x e => by
    rcases k.presents l x e with e | e
    · exact h.presents l x e
    · exact .inr e

/-- The list of held writes may be exchanged for one whose writes are the same but for timers. -/
theorem Acted.of_same {held held' : List HeldWrite} {s t : State} (h : Acted held s t)
    (e : ∀ x ∈ held, ∃ y ∈ held', y.Same x) : Acted held' s t :=
  { h with
    presents := fun l a p => by
      rcases h.presents l a p with p | ⟨x, hx, e1, e2, e3⟩
      · exact .inl p
      · obtain ⟨y, hy, f1, f2, f3, f4, f5, f6⟩ := e x hx
        exact .inr ⟨y, hy, by rw [e1, f1], by rw [e2, f6], by rw [← f2, ← f3]; exact e3⟩ }

theorem Scheduled.acted {s t : State} (h : Scheduled s t) (held : List HeldWrite) : Acted held s t where
  pending := h.pending
  ac := h.ac
  ps := h.ps
  tb := h.tb
  mem := h.mem
  resetAsserted := h.resetAsserted
  holdReq := h.holdReq
  freeCount := h.freeCount
  rw := h.rw
  opens := h.opens
  logs := h.logs
  kept := by rw [h.la]
  responses := by rw [h.la]
  heldFrom := fun x e => ⟨x, h.rg ▸ e, .refl x⟩
  presents := fun l a e => .inl (by unfold State.Presents at *; rwa [State.lane_congr h.la] at e)

theorem Arbitrated.acted {s t : State} (h : Arbitrated s t) (held : List HeldWrite) :
    Acted held s t := by
  have c := h.changes
  refine ⟨by rw [c], by rw [c], by rw [c], by rw [c], by rw [c], by rw [c], by rw [c], by rw [c],
    by rw [c]; exact .refl _, fun w e => by rw [c] at e; exact e, fun e => by rw [c]; exact e,
    h.kept, h.responses, fun x e => ⟨x, by rw [c] at e; exact e, .refl x⟩,
    fun l a e => .inl ?_⟩
  unfold State.Presents at *
  rwa [h.presented] at e

/-- A change of the Ingest Checker alone. -/
theorem State.acted_ic (s : State) (x : IngestChecker) (held : List HeldWrite) :
    Acted held s { s with ic := x } :=
  ⟨rfl, rfl, rfl, rfl, rfl, rfl, rfl, rfl, .refl _, fun _ => id, id, rfl, rfl,
    fun h e => ⟨h, e, .refl h⟩, fun _ _ => .inl⟩

/-- A change of the held list that only takes writes out or moves their timers. -/
theorem State.acted_rg (s : State) (x : RingGuard) (held : List HeldWrite)
    (h : ∀ y ∈ x.held, ∃ k ∈ s.rg.held, k.Same y) : Acted held s { s with rg := x } :=
  ⟨rfl, rfl, rfl, rfl, rfl, rfl, rfl, rfl, .refl _, fun _ => id, id, rfl, rfl, h, fun _ _ => .inl⟩

/-! ## Acceptance and release -/

theorem State.presents_present (s : State) (l k : Fin 9) (a b : Access)
    (h : (s.present l a).Presents k b) : s.Presents k b ∨ (k = l ∧ b = a) := by
  unfold State.Presents State.present at *
  rw [State.lane_setLane_eq] at h
  split at h
  · next e => cases h; exact .inr ⟨e.symm, rfl⟩
  · exact .inl h

/-- Presenting a held write's request. -/
theorem State.acted_present (s : State) (l : Fin 9) (a : Access) (held : List HeldWrite)
    (h : ReleasedFrom held l a) : Acted held s (s.present l a) := by
  refine ⟨rfl, rfl, rfl, rfl, rfl, rfl, rfl, rfl, .refl _, fun _ => id, id, rfl, rfl,
    fun h e => ⟨h, e, .refl h⟩, fun k b e => ?_⟩
  rcases s.presents_present l k a b e with e | ⟨rfl, rfl⟩
  · exact .inl e
  · exact .inr h

/-- The head's move changes the Ingest Checker, and with the national head what the Zone Scheduler
owns (R92, R122). -/
theorem State.acted_moveHead (s : State) (su : Setup) (g : RingId) (m : SSN) (held : List HeldWrite) :
    Acted held s (s.moveHead su g m) := by
  unfold State.moveHead
  split
  · cases g with
    | national => exact (s.acted_ic _ held).trans ((State.zoned_nationalHeadAdvance _ su m).scheduled.acted held)
    | regional r p => exact s.acted_ic _ held
  · exact .refl held s

theorem State.rg_moveHead (s : State) (su : Setup) (g : RingId) (m : SSN) :
    (s.moveHead su g m).rg = s.rg := by
  unfold State.moveHead
  split
  · cases g with
    | national => exact (State.zoned_nationalHeadAdvance _ su m).scheduled.rg
    | regional r p => rfl
  · rfl

theorem State.la_moveHead (s : State) (su : Setup) (g : RingId) (m : SSN) :
    (s.moveHead su g m).la = s.la := by
  unfold State.moveHead
  split
  · cases g with
    | national => exact (State.zoned_nationalHeadAdvance _ su m).scheduled.la
    | regional r p => rfl
  · rfl

theorem State.vr_moveHead (s : State) (su : Setup) (g : RingId) (m : SSN) :
    (s.moveHead su g m).vr = s.vr := by
  unfold State.moveHead
  split
  · cases g with
    | national => exact (State.zoned_nationalHeadAdvance _ su m).vr
    | regional r p => rfl
  · rfl

theorem State.set_moveHead (s : State) (su : Setup) (g : RingId) (m : SSN) (z : Fin 24) :
    ((s.moveHead su g m).zone z).timeline.isSome = (s.zone z).timeline.isSome := by
  unfold State.moveHead
  split
  · cases g with
    | national => exact (State.zoned_nationalHeadAdvance (s.setHead m .national) su m).set z
    | regional r p => rfl
  · rfl

/-- A held write is accepted at its release (R86). -/
theorem State.acted_acceptRingWrite (s : State) (su : Setup) (l : Fin 8) (g : RingId) (k : Nat)
    (r : Request) (held : List HeldWrite)
    (h : ReleasedFrom held (ext l) { req := r, kind := .ring g k }) :
    Acted held s (s.acceptRingWrite su l g k r) := by
  unfold State.acceptRingWrite
  exact ((s.acted_ic _ held).trans (State.acted_moveHead _ su g _ held)).trans
    (State.acted_present _ _ _ held h)

theorem State.acted_dropHeld (s : State) (l : Fin 8) (held : List HeldWrite) :
    Acted held s (s.dropHeld l) :=
  s.acted_rg _ held fun y e => ⟨y, (List.mem_filter.mp e).1, .refl y⟩

theorem State.acted_release (s : State) (su : Setup) (h : HeldWrite) (held : List HeldWrite)
    (e : h ∈ held) : Acted held s (s.release su h) := by
  unfold State.release
  dsimp only
  refine (s.acted_dropHeld h.lane held).trans ?_
  split
  · exact State.acted_acceptRingWrite _ su _ _ _ _ held ⟨h, e, rfl, rfl, .inl rfl⟩
  · exact State.acted_present _ _ _ held ⟨h, e, rfl, rfl, .inr rfl⟩

theorem State.acted_examineList (su : Setup) (l held : List HeldWrite) (s : State)
    (e : ∀ h ∈ l, h ∈ held) : Acted held s (State.examineList su l s) := by
  induction l generalizing s with
  | nil => exact .refl held s
  | cons h l ih =>
    simp only [State.examineList]
    split
    · exact ih s (fun x hx => e x (by simp [hx]))
    · exact (s.acted_release su h held (e h (by simp))).trans (ih _ (fun x hx => e x (by simp [hx])))

/-- An examination of the held list brings its writes to the port and changes nothing else but the
Ingest Checker, zones, windows and reports (R172). -/
theorem State.acted_examine (s : State) (su : Setup) : Acted s.rg.held s (s.examine su) :=
  State.acted_examineList su _ _ s fun _ => id

theorem State.acted_examineAfter {b a : State} (su : Setup) (held : List HeldWrite)
    (h : Acted held b a) (e : a.rg.held = held) : Acted held b (State.examineAfter b a su) := by
  unfold State.examineAfter
  split
  · exact h.trans (e ▸ a.acted_examine su)
  · exact h

theorem State.acted_countExpiry (s : State) (l : Fin 8) (held : List HeldWrite) :
    Acted held s (s.countExpiry l) := by
  refine s.acted_rg _ held fun y e => ?_
  obtain ⟨x, hx, e⟩ := List.mem_map.mp e
  refine ⟨x, hx, ?_⟩
  subst e
  split <;> exact ⟨rfl, rfl, rfl, rfl, rfl, rfl⟩

theorem State.acted_expireHold (s : State) (su : Setup) (h : HeldWrite) :
    Acted s.rg.held s (s.expireHold su h) := by
  unfold State.expireHold
  dsimp only
  have h1 := (s.scheduled_slipAll su .holdExpired
    (if s.isRunning then s.expiryFeeds su h else [])).acted s.rg.held
  have h2 := h1.trans (State.acted_countExpiry _ h.lane s.rg.held)
  have h3 := h2.trans ((State.zoned_hand _ (.holdExpired h.lane h.ring h.slot h.old h.new
    (if s.isRunning then s.expiryFeeds su h else []).length (h.expiries + 1))).scheduled.acted s.rg.held)
  exact h3.trans ((State.acted_examine _ su).of_same h3.heldFrom)

end Sys2Proof.Machine
end

