-- ==== Sys2Proof/Laws/Taking.lean ====
section
/-! SUPPORT. What taking a request at a lane port leaves alone, and which access it may bring to the memory port
(R18, R43, R50). -/

namespace Sys2Proof.Machine

/-- What the taking of a request may do to the Report Writer: reports are handed, and a read index
write may be marked as outstanding. -/
structure ReportedTaking (a b : ReportWriter) : Prop where
  hand : b.hand = a.hand
  writeIndex : b.writeIndex = a.writeIndex
  readIndex : b.readIndex = a.readIndex
  queue : a.queue <+: b.queue
  room : b.queue.length ≤ max a.queue.length Config.queueCapacity

theorem Reported.taking {a b : ReportWriter} (h : Reported a b) : ReportedTaking a b :=
  ⟨h.hand, h.writeIndex, h.readIndex, h.queue, h.room⟩

theorem ReportedTaking.refl (a : ReportWriter) : ReportedTaking a a := (Reported.refl a).taking

theorem ReportedTaking.trans {a b c : ReportWriter} (h : ReportedTaking a b) (k : ReportedTaking b c) :
    ReportedTaking a c :=
  ⟨k.hand.trans h.hand, k.writeIndex.trans h.writeIndex, k.readIndex.trans h.readIndex,
    h.queue.trans k.queue, by have h1 := h.room; have h2 := k.room; omega⟩

/-- The access that the taking of request `r` may bring to the port, by its owner (R50): a write that is
no plan write lies outside the plan area, a plan write inside it and under no lock. -/
def State.FreshAccess (s : State) (r : Request) (a : Access) : Prop :=
  r.formOk = true ∧
    match a.kind with
    | .plain => a.req = r ∧ (r.body.data = [] ∨ s.planExtent.has r.base = false)
    | .plan _ => a.req = r ∧ s.planExtent.has r.base = true ∧ (∃ d, r.body = .write d) ∧
        s.planLocked r = false
    | .ring _ _ => a.req = r ∧ s.planExtent.has r.base = false
    | .view _ => a.req.body = .read 256
    | _ => False

/-- What taking request `r` of lane `l` leaves alone, and what it may bring to the port or the held
list. -/
structure Took (l : Fin 8) (r : Request) (s t : State) : Prop where
  pending : t.pending = s.pending
  ac : t.ac = s.ac
  ps : t.ps = s.ps
  tb : t.tb = s.tb
  mem : t.mem = s.mem
  resetAsserted : t.resetAsserted = s.resetAsserted
  holdReq : t.holdReq = s.holdReq
  freeCount : t.freeCount = s.freeCount
  rw : ReportedTaking s.rw t.rw
  opens : ∀ w, (t.window w).status.open? = true → (s.window w).status.open? = true
  logs : s.LogsBounded → t.LogsBounded
  kept : t.la.kept = s.la.kept
  heldFrom : ∀ h ∈ t.rg.held, (∃ k ∈ s.rg.held, k.Same h) ∨
    (h.lane = l ∧ h.req = r ∧ r.formOk = true ∧ s.planExtent.has r.base = false)
  presents : ∀ k a, t.Presents k a →
    s.Presents k a ∨ ReleasedFrom s.rg.held k a ∨ (k = ext l ∧ s.FreshAccess r a)

theorem Acted.took {l : Fin 8} {r : Request} {s t : State} (h : Acted s.rg.held s t) : Took l r s t :=
  { pending := h.pending, ac := h.ac, ps := h.ps, tb := h.tb, mem := h.mem,
    resetAsserted := h.resetAsserted, holdReq := h.holdReq, freeCount := h.freeCount,
    rw := h.rw.taking, opens := h.opens, logs := h.logs, kept := h.kept,
    heldFrom := fun x e => .inl (h.heldFrom x e),
    presents := fun k a e => (h.presents k a e).imp id .inl }

/-- An act after the taking, which releases no held write of its own. -/
theorem Took.act {l : Fin 8} {r : Request} {s t u : State} (h : Took l r s t) (k : Acted [] t u) :
    Took l r s u where
  pending := k.pending.trans h.pending
  ac := k.ac.trans h.ac
  ps := k.ps.trans h.ps
  tb := k.tb.trans h.tb
  mem := k.mem.trans h.mem
  resetAsserted := k.resetAsserted.trans h.resetAsserted
  holdReq := k.holdReq.trans h.holdReq
  freeCount := k.freeCount.trans h.freeCount
  rw := h.rw.trans k.rw.taking
  opens := fun w e => h.opens w (k.opens w e)
  logs := k.logs ∘ h.logs
  kept := k.kept.trans h.kept
  heldFrom := fun x e => by
    obtain ⟨y, hy, e1⟩ := k.heldFrom x e
    rcases h.heldFrom y hy with ⟨z, hz, f⟩ | ⟨e2, e3, e4⟩
    · exact .inl ⟨z, hz, f.trans e1⟩
    · exact .inr ⟨e1.1.trans e2, e1.2.2.2.2.2.trans e3, e4⟩
  presents := fun j a e => by
    rcases k.presents j a e with e | ⟨x, hx, _⟩
    · exact h.presents j a e
    · simp at hx

theorem Took.port {l : Fin 8} {r : Request} {s t : State} (h : Took l r s t) : Took l r s t.settlePort :=
  h.act ((t.arbitrated_settlePort).acted [])

/-- Setting a lane to a state in which it presents nothing. -/
theorem State.acted_setLane_off (s : State) (l : Fin 9) (x : LaneState) (held : List HeldWrite)
    (h : x.presented? = none) : Acted held s (s.setLane l x) := by
  refine ⟨rfl, rfl, rfl, rfl, rfl, rfl, rfl, rfl, .refl _, fun _ => id, id, rfl, rfl,
    fun h e => ⟨h, e, .refl h⟩, fun k b e => .inl ?_⟩
  unfold State.Presents at *
  rw [State.lane_setLane_eq] at e
  split at e
  · rw [h] at e; cases e
  · exact e

/-- Presenting a fresh access. -/
theorem State.took_present (s : State) (l : Fin 8) (r : Request) (a : Access) (h : s.FreshAccess r a) :
    Took l r s (s.present (ext l) a) := by
  refine ⟨rfl, rfl, rfl, rfl, rfl, rfl, rfl, rfl, .refl _, fun _ => id, id, rfl,
    fun h e => .inl ⟨h, e, .refl h⟩, fun k b e => ?_⟩
  rcases s.presents_present (ext l) k a b e with e | ⟨rfl, rfl⟩
  · exact .inl e
  · exact .inr (.inr ⟨rfl, h⟩)

/-! ## Answers -/

/-- An answer without memory changes the lane and the port alone. -/
theorem State.acted_answer_but_responses (s : State) (l : Fin 8) (x : Status) (d : List Byte) :
    Took l r s (s.answer l x d) := by
  unfold State.answer
  have h1 : Took l r s (s.setLane (ext l) .idle) := (s.acted_setLane_off (ext l) .idle _ rfl).took
  have h2 : Took l r s ((s.setLane (ext l) .idle).respond l { status := x, data := d }) :=
    { h1 with }
  exact (h2.act ((State.arbitrated_endReservation _ _).acted [])).port

theorem Took.refuse {l : Fin 8} {q : Request} {s t : State} (h : Took l q s t) (r : Request)
    (reason : RefusalReason) (n : SSN) : Took l q s (t.refuse l r reason n) := by
  unfold State.refuse State.answer
  have h1 := h.act ((t.zoned_hand (.accessRefused l r.body.dir r.addr reason n)).scheduled.acted [])
  have h2 := h1.act (State.acted_setLane_off _ (ext l) .idle [] rfl)
  have h3 : Took l q s
      (((t.hand (.accessRefused l r.body.dir r.addr reason n)).setLane (ext l) .idle).respond l
        { status := .refused, data := r.body.blank }) := { h2 with }
  exact (h3.act ((State.arbitrated_endReservation _ _).acted [])).port

theorem Took.answer {l : Fin 8} {q : Request} {s t : State} (h : Took l q s t) (x : Status)
    (d : List Byte) : Took l q s (t.answer l x d) := by
  unfold State.answer
  have h2 := h.act (State.acted_setLane_off t (ext l) .idle [] rfl)
  have h3 : Took l q s ((t.setLane (ext l) .idle).respond l { status := x, data := d }) := { h2 with }
  exact (h3.act ((State.arbitrated_endReservation _ _).acted [])).port

/-! ## Plan writes -/

theorem State.took_takePlanWrite (s : State) (l : Fin 8) (r : Request) (hf : r.formOk = true)
    (hp : s.planExtent.has r.base = true) (hw : ∃ d, r.body = .write d) :
    Took l r s (s.takePlanWrite l r) := by
  unfold State.takePlanWrite
  split
  · exact ((Acted.refl _ s).took).refuse r _ _
  · next hl =>
    have hl : s.planLocked r = false := by simpa using hl
    have fresh : ∀ b, s.FreshAccess r { req := r, kind := .plan b } := fun b => ⟨hf, rfl, hp, hw, hl⟩
    split
    · split
      · split
        · exact ((Acted.refl _ s).took).refuse r _ _
        · refine Took.port ?_
          have h := s.took_present l r _ (fresh true)
          exact { h with rw := ⟨rfl, rfl, rfl, List.prefix_rfl, by simp [State.markReadWrite]⟩ }
      · exact (s.took_present l r _ (fresh false)).port
    · exact (s.took_present l r _ (fresh false)).port

/-! ## Ring writes -/

theorem State.took_acceptRingWrite (s : State) (su : Setup) (l : Fin 8) (g : RingId) (k : Nat)
    (r : Request) (hf : r.formOk = true) (hp : s.planExtent.has r.base = false) :
    Took l r s (s.acceptRingWrite su l g k r) := by
  unfold State.acceptRingWrite
  dsimp only
  have h1 : Acted s.rg.held s (s.setEntry g k (arrivingEntry g (s.head g) r.body.data)) :=
    s.acted_ic _ s.rg.held
  have h2 := h1.trans (State.acted_moveHead _ su g (cellSsn r.body.data) s.rg.held)
  have e : ((s.setEntry g k (arrivingEntry g (s.head g) r.body.data)).moveHead su g
      (cellSsn r.body.data)).planExtent = s.planExtent := by
    simp [State.planExtent, State.planBase, (State.acted_moveHead (s.setEntry g k
      (arrivingEntry g (s.head g) r.body.data)) su g (cellSsn r.body.data) []).ac]
  have h3 := State.took_present _ l r { req := r, kind := .ring g k }
    (show State.FreshAccess ((s.setEntry g k (arrivingEntry g (s.head g) r.body.data)).moveHead su g
      (cellSsn r.body.data)) r _ from ⟨hf, rfl, by rw [e]; exact hp⟩)
  refine ⟨h3.pending.trans h2.pending, h3.ac.trans h2.ac, h3.ps.trans h2.ps, h3.tb.trans h2.tb,
    h3.mem.trans h2.mem, h3.resetAsserted.trans h2.resetAsserted, h3.holdReq.trans h2.holdReq,
    h3.freeCount.trans h2.freeCount, h2.rw.taking.trans h3.rw,
    fun w e => h2.opens w (h3.opens w e), h3.logs ∘ h2.logs, h3.kept.trans h2.kept,
    fun x ex => ?_, fun j a ea => ?_⟩
  · refine .inl (h2.heldFrom x ?_)
    exact ex
  · rcases State.presents_present _ (ext l) j _ a ea with ea | ⟨rfl, rfl⟩
    · rcases h2.presents j a ea with ea | ea
      · exact .inl ea
      · exact .inr (.inl ea)
    · exact .inr (.inr ⟨rfl, hf, rfl, hp⟩)

theorem State.took_holdWrite (s : State) (l : Fin 8) (g : RingId) (k : Nat) (n : SSN) (r : Request)
    (hf : r.formOk = true) (hp : s.planExtent.has r.base = false) :
    Took l r s (s.holdWrite l g k n r) := by
  have h := (s.acted_setLane_off (ext l) (.held r) s.rg.held rfl).took (l := l) (r := r)
  refine { h with heldFrom := fun x e => ?_ }
  rcases List.mem_append.mp e with e | e
  · exact .inl ⟨x, e, .refl x⟩
  · simp only [List.mem_singleton] at e
    subst e
    exact .inr ⟨rfl, rfl, hf, hp⟩

theorem State.took_takeRingWrite (s : State) (su : Setup) (l : Fin 8) (g : RingId) (r : Request)
    (hf : r.formOk = true) (hp : s.planExtent.has r.base = false) :
    Took l r s (s.takeRingWrite su l g r) := by
  unfold State.takeRingWrite
  dsimp only
  split
  · exact ((Acted.refl _ s).took).refuse r _ _
  · exact ((s.took_holdWrite l g _ _ r hf hp).act ((State.arbitrated_endReservation _ _).acted [])).port
  · exact (s.took_acceptRingWrite su l g _ r hf hp).port

/-! ## View reads -/

theorem State.scheduled_served (s : State) (su : Setup) (f : Fin 32) (z : Fin 24) (n : SSN)
    (reread : Bool) : Scheduled s ((s.prepareRead su z f n reread).moveNext f n reread) :=
  (s.scheduled_prepareRead su z f n reread).trans (State.scheduled_moveNext _ f n reread)

theorem State.acted_examineAfter_list (b a : State) (su : Setup) :
    Acted a.rg.held a (State.examineAfter b a su) := by
  unfold State.examineAfter
  split
  · exact a.acted_examine su
  · exact .refl _ a

/-- An examination after the taking, which may release held writes the state before it had. -/
theorem Took.examine {l : Fin 8} {r : Request} {s t u : State} (h : Took l r s t)
    (k : Acted t.rg.held t u) (e : t.rg.held = s.rg.held) : Took l r s u where
  pending := k.pending.trans h.pending
  ac := k.ac.trans h.ac
  ps := k.ps.trans h.ps
  tb := k.tb.trans h.tb
  mem := k.mem.trans h.mem
  resetAsserted := k.resetAsserted.trans h.resetAsserted
  holdReq := k.holdReq.trans h.holdReq
  freeCount := k.freeCount.trans h.freeCount
  rw := h.rw.trans k.rw.taking
  opens := fun w e => h.opens w (k.opens w e)
  logs := k.logs ∘ h.logs
  kept := k.kept.trans h.kept
  heldFrom := fun x ex => by
    obtain ⟨y, hy, e1⟩ := k.heldFrom x ex
    rw [e] at hy
    exact .inl ⟨y, hy, e1⟩
  presents := fun j a ea => by
    rcases k.presents j a ea with ea | ea
    · exact h.presents j a ea
    · rw [e] at ea; exact .inr (.inl ea)

theorem State.took_serveRead (s : State) (su : Setup) (l : Fin 8) (f : Fin 32) (z : Fin 24)
    (r : Request) (n : SSN) (reread : Bool) (hf : r.formOk = true) :
    Took l r s (s.serveRead su l f z r n reread) := by
  have h1 := s.scheduled_served su f z n reread
  unfold State.serveRead
  dsimp only
  split
  · next g tag hg =>
    refine Took.port ?_
    have h2 : Took l r s (((s.prepareRead su z f n reread).moveNext f n reread).redirect su l f n r.link
        g tag (((s.prepareRead su z f n reread).moveNext f n reread).contentFor su z n).2) := by
      have h2 := (h1.trans (State.scheduled_setFeed _ f
        { ((s.prepareRead su z f n reread).moveNext f n reread).feed f with
          inFlight := some
            { ssn := n, ring := g, addr := BitVec.ofNat 36 (su.slotAddr g (su.slotOf g n))
              patchTag := tag
              setBreak := (((s.prepareRead su z f n reread).moveNext f n reread).contentFor su z n).2
              counting := true } })).acted s.rg.held
      have h3 := h2.took (l := l) (r := r)
      refine { h3 with presents := fun j a ea => ?_ }
      rcases State.presents_present _ (ext l) j _ a ea with ea | ⟨rfl, rfl⟩
      · exact h3.presents j a ea
      · exact .inr (.inr ⟨rfl, hf, rfl⟩)
    refine h2.port.examine (State.acted_examineAfter_list _ _ su) ?_
    exact (congrArg RingGuard.held (State.arbitrated_settlePort _).rg).trans
      (congrArg RingGuard.held h1.rg)
  · next hg =>
    have h2 := h1.trans (State.scheduled_completeFeed _ su f n)
    exact (((h2.acted s.rg.held).took (l := l) (r := r)).examine
      (State.acted_examineAfter_list _ _ su) (congrArg RingGuard.held h2.rg)).answer _ _

theorem State.took_takeViewRead (s : State) (su : Setup) (l : Fin 8) (f : Fin 32) (r : Request)
    (hf : r.formOk = true) : Took l r s (s.takeViewRead su l f r) := by
  have refused := fun reason n => ((Acted.refl s.rg.held s).took (l := l) (r := r)).refuse r reason n
  unfold State.takeViewRead
  split
  · exact refused _ _
  · split
    · exact refused _ _
    · split
      · exact refused _ _
      · exact refused _ _
      · split
        · exact s.took_serveRead su l f _ r _ _ hf
        · exact refused _ _
        · exact refused _ _

/-! ## Taking a request -/

theorem State.classify_plan (s : State) (x : Nat) : s.classify x = .plan ↔ s.planExtent.has x = true := by
  unfold State.classify
  split
  · next h => simp [h]
  · next h =>
    simp only [h]
    have key : ∀ l : List Extent, (∀ e ∈ l, e.area ≠ .plan) → areaAmong l x ≠ .plan := by
      intro l hl
      unfold areaAmong
      split
      · next e he => exact hl e (List.mem_of_find?_eq_some he)
      · simp
    have hm : ∀ su : Setup, ∀ e ∈ su.areaMap, e.area ≠ .plan := by
      intro su e he
      simp only [Setup.areaMap, List.mem_append, List.mem_singleton, List.mem_flatMap, List.mem_map] at he
      rcases he with ((he | ⟨_, _, _, _, he⟩) | ⟨_, _, he⟩) | he
      · rw [he]; simp
      · rw [← he]; simp
      · rw [← he]; simp
      · rw [he]; simp
    constructor
    · intro h'
      exfalso
      split at h'
      · cases h'
      · exact key _ (hm _) h'
      · next su _ => exact key _ (fun e he => hm su e (List.mem_filter.mp he).1) h'
    · intro h'; cases h'

theorem State.took_takePlain (s : State) (l : Fin 8) (r : Request) (hf : r.formOk = true)
    (h : r.body.data = [] ∨ s.planExtent.has r.base = false) : Took l r s (s.takePlain l r) :=
  (s.took_present l r { req := r, kind := .plain } ⟨hf, rfl, h⟩).port

theorem State.took_route (s : State) (l : Fin 8) (r : Request) (hf : r.formOk = true) :
    Took l r s (s.route l r (s.classify r.base)) := by
  have hc := s.classify_plan r.base
  unfold State.route
  split
  · next d e1 e2 => exact s.took_takePlanWrite l r hf (hc.mp e1) ⟨_, e2⟩
  · next d su e1 e2 e3 =>
    refine s.took_takeRingWrite su l _ r hf ?_
    rw [e1] at hc; simpa using hc
  · next g p d su e1 e2 e3 =>
    refine s.took_takeRingWrite su l _ r hf ?_
    rw [e1] at hc; simpa using hc
  · exact s.took_takeViewRead _ l _ r hf
  · next h1 h2 h3 h4 =>
    refine s.took_takePlain l r hf ?_
    cases hb : r.body with
    | read n => exact .inl rfl
    | write d =>
      right
      by_contra hp
      have := hc.mpr (by simpa using hp)
      exact h1 d this hb

/-- Taking a request of a lane (R18, R20, R44, R47 to R50). -/
theorem State.took_takeRequest (s : State) (l : Fin 8) (r : Request) : Took l r s (s.takeRequest l r) := by
  have h0 := (s.acted_setLane_off (ext l) (.taken r) s.rg.held rfl).took (l := l) (r := r)
  unfold State.takeRequest
  dsimp only
  split
  · exact h0.refuse r _ _
  · next hf =>
    have hf : r.formOk = true := by simpa using hf
    split
    · exact h0.refuse r _ _
    · split
      · exact h0.refuse r _ _
      · have h1 := (s.setLane (ext l) (.taken r)).took_route l r hf
        refine { h1 with presents := fun j a ea => ?_ }
        rcases h1.presents j a ea with ea | ea | ea
        · exact h0.presents j a ea
        · exact .inr (.inl ea)
        · exact .inr (.inr ea)

end Sys2Proof.Machine
end

