-- ==== Sys2Proof/Laws/Steps.lean ====
section
/-! SUPPORT. What whole commands leave alone: the requests kept waiting, the end of a completion, plan writes, run
states, the Timebase, the Report Writer; and that every command answers with a next state. -/

namespace Sys2Proof.Machine

/-! ## What no act inside a step changes -/

/-- The queue of commands, the straps, the reset line, HOLD_REQ, carriage memory and its free counter
are as before. -/
structure Calm (s t : State) : Prop where
  pending : t.pending = s.pending
  ac : t.ac = s.ac
  mem : t.mem = s.mem
  resetAsserted : t.resetAsserted = s.resetAsserted
  holdReq : t.holdReq = s.holdReq
  freeCount : t.freeCount = s.freeCount

theorem Calm.refl (s : State) : Calm s s := ⟨rfl, rfl, rfl, rfl, rfl, rfl⟩

theorem Calm.trans {a b c : State} (h : Calm a b) (k : Calm b c) : Calm a c :=
  ⟨k.pending.trans h.pending, k.ac.trans h.ac, k.mem.trans h.mem,
    k.resetAsserted.trans h.resetAsserted, k.holdReq.trans h.holdReq, k.freeCount.trans h.freeCount⟩

theorem Acted.calm {held : List HeldWrite} {s t : State} (h : Acted held s t) : Calm s t :=
  ⟨h.pending, h.ac, h.mem, h.resetAsserted, h.holdReq, h.freeCount⟩

theorem Scheduled.calm {s t : State} (h : Scheduled s t) : Calm s t := (h.acted []).calm

theorem Zoned.calm {s t : State} (h : Zoned s t) : Calm s t := h.scheduled.calm

theorem Arbitrated.calm {s t : State} (h : Arbitrated s t) : Calm s t := (h.acted []).calm

theorem Took.calm {l : Fin 8} {r : Request} {s t : State} (h : Took l r s t) : Calm s t :=
  ⟨h.pending, h.ac, h.mem, h.resetAsserted, h.holdReq, h.freeCount⟩

theorem State.calm_hand (s : State) (r : Report) : Calm s (s.hand r) := (s.zoned_hand r).calm

theorem State.calm_setLane (s : State) (l : Fin 9) (x : LaneState) : Calm s (s.setLane l x) :=
  ⟨rfl, rfl, rfl, rfl, rfl, rfl⟩

theorem State.calm_settlePort (s : State) : Calm s s.settlePort := s.arbitrated_settlePort.calm

theorem State.calm_closePort (s : State) (g : Grant) (x : MemAnswer) : Calm s (s.closePort g x) :=
  (s.arbitrated_closePort g x).calm

theorem Calm.foldl {α : Type} {f : State → α → State} (h : ∀ s x, Calm s (f s x)) (l : List α)
    (s : State) : Calm s (l.foldl f s) := by
  induction l generalizing s with
  | nil => exact .refl s
  | cons x l ih => exact (h s x).trans (ih (f s x))

/-! ## Requests and completions -/

theorem State.calm_takeKept (l : Fin 8) (q : List Request) (s : State) :
    Calm s (State.takeKept l q s) := by
  induction q generalizing s with
  | nil => exact ⟨rfl, rfl, rfl, rfl, rfl, rfl⟩
  | cons r q ih =>
    simp only [State.takeKept]
    split
    · exact (s.took_takeRequest l r).calm.trans (ih _)
    · exact ⟨rfl, rfl, rfl, rfl, rfl, rfl⟩

theorem State.calm_presentRequest (s : State) (l : Fin 8) (r : Request) :
    Calm s (s.presentRequest l r) :=
  State.calm_takeKept l _ s

theorem State.calm_enterConfig (s : State) : Calm s s.enterConfig := ⟨rfl, rfl, rfl, rfl, rfl, rfl⟩

theorem State.calm_enterIfDue (s : State) : Calm s s.enterIfDue := by
  unfold State.enterIfDue
  split
  · exact s.calm_enterConfig
  · exact .refl s

/-- The end of an external completion (R19, R33). -/
theorem State.calm_finish (s : State) (l : Fin 8) (g : Grant) (x : MemAnswer) (d : List Byte) :
    Calm s (s.finish l g x d) := by
  unfold State.finish
  dsimp only
  have h : Calm s ((s.setLane (ext l) .idle).respond l { status := answerStatus x, data := d }) :=
    ⟨rfl, rfl, rfl, rfl, rfl, rfl⟩
  exact (h.trans ((State.calm_enterIfDue _).trans (State.calm_closePort _ g x))).trans
    (State.calm_takeKept l _ _)

theorem State.calm_reportFault (s : State) (l : Fin 8) (a : Access) (x : MemAnswer) :
    Calm s (s.reportFault l a x) := by
  cases x
  · exact .refl s
  · exact s.calm_hand _

/-- What an answered access does to memory, and that the MEMORY_FAULT report changes the Report Writer
alone. -/
theorem State.answered_mem (s : State) (l : Fin 8) (a : Access) (x : MemAnswer) :
    (s.answered l a x).mem = (s.settleMemory a.req x).mem :=
  (State.calm_reportFault _ l a x).mem

theorem State.answered_pending (s : State) (l : Fin 8) (a : Access) (x : MemAnswer) :
    (s.answered l a x).pending = s.pending := by
  refine (State.calm_reportFault _ l a x).pending.trans ?_
  cases x <;> rfl

/-! ## Plan writes and commands -/

theorem State.calm_withPlan (s : State) (ps : PlanShadow) : Calm s (s.withPlan ps) :=
  ⟨rfl, rfl, rfl, rfl, rfl, rfl⟩

theorem State.calm_withZones (s : State) (zs : ZoneScheduler) : Calm s (s.withZones zs) :=
  ⟨rfl, rfl, rfl, rfl, rfl, rfl⟩

theorem State.calm_setWindow (s : State) (w : Fin 64) (x : Window) : Calm s (s.setWindow w x) :=
  ⟨rfl, rfl, rfl, rfl, rfl, rfl⟩

theorem State.calm_rejectSubmit (s : State) (w : Fin 64) (x : RejectReason) :
    Calm s (s.rejectSubmit w x) := by
  unfold State.rejectSubmit
  exact (s.calm_setWindow w _).trans (State.zoned_handWindowState _ w _ _).calm

theorem State.calm_acceptSubmit (s : State) (w : Fin 64) : Calm s (s.acceptSubmit w) := by
  unfold State.acceptSubmit
  exact (s.calm_setWindow w _).trans (State.zoned_handWindowState _ w _ _).calm

theorem State.calm_submitRecord (s : State) (l : Fin 9) (w : Fin 64) : Calm s (s.submitRecord l w) := by
  unfold State.submitRecord
  split
  · split
    · exact s.calm_rejectSubmit w _
    · exact s.calm_acceptSubmit w
  · exact s.calm_rejectSubmit w _

theorem State.calm_submitRecords (s : State) (l : Fin 9) (r : Request) :
    Calm s (s.submitRecords l r) :=
  Calm.foldl (fun s w => s.calm_submitRecord l w) _ s

theorem State.calm_handResult (s : State) (c : CommandRec) (x : CommandResult) :
    Calm s (s.handResult c x) :=
  s.calm_hand _

theorem State.calm_commitSetup (s : State) : Calm s s.commitSetup := by
  unfold State.commitSetup
  dsimp only
  split
  · exact s.calm_hand _
  · refine Calm.trans (b := s.commitState (setupOfCopy s.ps.planCopy)) ⟨rfl, rfl, rfl, rfl, rfl, rfl⟩ ?_
    split
    · exact (State.calm_hand _ _).trans (State.calm_hand _ _)
    · exact State.calm_hand _ _

theorem State.calm_doCommit (s : State) : Calm s s.doCommit := by
  unfold State.doCommit
  split
  · exact s.calm_commitSetup
  · exact s.calm_handResult _ _

theorem State.calm_reportStopped (s : State) (w : Fin 64) : Calm s (s.reportStopped w) := by
  unfold State.reportStopped
  split
  · exact (s.zoned_handWindowState w _ _).calm
  · exact .refl s

theorem State.calm_stopZones (s : State) : Calm s s.stopZones :=
  (Calm.foldl State.calm_reportStopped _ s).trans (State.calm_withZones _ _)

theorem State.calm_stopSetup (s : State) (su : Setup) : Calm s (s.stopSetup su) := by
  unfold State.stopSetup
  dsimp only
  refine Calm.trans ?_ (State.acted_examine _ su).calm
  refine Calm.trans ?_ (Calm.foldl (fun s f => (s.scheduled_stopFeed su f).calm) _ _)
  exact (State.calm_withPlan s _).trans (State.calm_stopZones _)

theorem State.calm_doStop (s : State) (su : Setup) (c : CommandRec) : Calm s (s.doStop su c) :=
  (s.calm_handResult c _).trans (State.calm_stopSetup _ su)

theorem State.calm_doCancel (s : State) (su : Setup) (c : CommandRec) : Calm s (s.doCancel su c) := by
  unfold State.doCancel
  split
  · exact s.calm_handResult c _
  · dsimp only
    split
    · exact (s.calm_handResult c _).trans (State.zoned_cancelWindow _ su _).calm
    · exact s.calm_handResult c _

theorem State.zoned_holdZones (s : State) (su : Setup) (zs : ZoneSet) (k : HoldKind) :
    Zoned s (s.holdZones su zs k) := by
  unfold State.holdZones
  refine Zoned.trans ?_ (State.zoned_takeHolds _ su k _)
  refine Zoned.trans ?_ (State.zoned_hand _ _)
  exact s.zoned_updZones _ _ fun _ => rfl

theorem State.calm_doHold (s : State) (su : Setup) (c : CommandRec) : Calm s (s.doHold su c) := by
  unfold State.doHold
  split
  · exact s.calm_handResult c _
  · split
    · exact (s.calm_handResult c _).trans (State.zoned_holdZones _ su _ _).calm
    · exact s.calm_handResult c _

theorem State.calm_doRelease (s : State) (su : Setup) (c : CommandRec) : Calm s (s.doRelease su c) := by
  unfold State.doRelease
  split
  · refine Calm.trans ?_ (State.calm_hand _ _)
    refine Calm.trans (s.calm_handResult c .accepted) ?_
    exact (State.zoned_updZones _ (zonesIn c.arg1) Zone.commandReleased fun _ => rfl).calm
  · exact s.calm_handResult c _

theorem State.calm_doAttach (s : State) (su : Setup) (c : CommandRec) : Calm s (s.doAttach su c) := by
  unfold State.doAttach
  split
  · exact s.calm_handResult c _
  · dsimp only
    split
    · exact (s.calm_handResult c _).trans (State.scheduled_attachFeed _ su _ _).calm
    · exact s.calm_handResult c _

theorem State.calm_doDetach (s : State) (su : Setup) (c : CommandRec) : Calm s (s.doDetach su c) := by
  unfold State.doDetach
  split
  · exact s.calm_handResult c _
  · dsimp only
    split
    · refine Calm.trans ?_ (State.acted_examineAfter_list _ _ su).calm
      refine Calm.trans ?_ (State.scheduled_detachFeed _ su _).calm
      exact s.calm_handResult c _
    · exact s.calm_handResult c _

theorem State.calm_inRunning (s : State) (f : Setup → CommandRec → State)
    (h : ∀ su c, Calm s (f su c)) : Calm s (s.inRunning f) := by
  unfold State.inRunning
  split
  · exact h _ _
  · exact s.calm_handResult _ _

/-! ## The Timebase and the expiries -/

theorem State.calm_tickAll (s : State) (su : Setup) : Calm s (s.tickAll su) :=
  ⟨rfl, rfl, rfl, rfl, rfl, rfl⟩

theorem State.calm_refclk (s : State) : Calm s s.refclk := by
  unfold State.refclk
  split
  · exact .refl s
  · split <;> exact ⟨rfl, rfl, rfl, rfl, rfl, rfl⟩

theorem State.calm_expireLink (s : State) (su : Setup) : Calm s (s.expireLink su) := by
  unfold State.expireLink
  split
  · split
    · exact (s.arbitrated_setPort _).calm.trans (State.calm_settlePort _)
    · exact .refl s
  · exact .refl s

theorem State.calm_setHealth (s : State) (r : Fin 12) (p : Path) (h : Health) :
    Calm s (s.setHealth r p h) := by
  unfold State.setHealth
  dsimp only
  split
  · exact .refl s
  · refine Calm.trans ?_ (State.calm_hand _ _)
    exact ⟨rfl, rfl, rfl, rfl, rfl, rfl⟩

theorem State.calm_expireSilence (s : State) (su : Setup) (r : Fin 12) (p : Path) :
    Calm s (s.expireSilence su r p) := by
  unfold State.expireSilence
  split
  · split
    · refine Calm.trans ?_ (State.calm_setHealth _ r p _)
      exact ⟨rfl, rfl, rfl, rfl, rfl, rfl⟩
    · exact .refl s
  · exact .refl s

theorem State.calm_expireHoldOf (s : State) (su : Setup) (l : Fin 8) : Calm s (s.expireHoldOf su l) := by
  unfold State.expireHoldOf
  split
  · exact (s.acted_expireHold su _).calm.trans (State.calm_settlePort _)
  · exact .refl s

theorem State.calm_loseReference (s : State) : Calm s s.loseReference := by
  unfold State.loseReference State.handReference
  refine Calm.trans ?_ (State.calm_hand _ _)
  exact ⟨rfl, rfl, rfl, rfl, rfl, rfl⟩

theorem State.calm_expirePulse (s : State) (su : Setup) : Calm s (s.expirePulse su) := by
  unfold State.expirePulse
  split
  · exact .refl s
  · split
    · exact s.calm_loseReference
    · exact .refl s
  · exact .refl s

theorem State.calm_reportPulse (s : State) (su : Setup) (b : RefState) : Calm s (s.reportPulse su b) := by
  have h : Calm s (if b = .locked then s else s.handReference b .locked) := by
    split
    · exact .refl s
    · exact s.calm_hand _
  unfold State.reportPulse
  dsimp only
  split
  · exact h.trans (State.calm_hand _ _)
  · exact h

theorem State.calm_stallCheck (s : State) (su : Setup) (b : RefState) : Calm s (s.stallCheck su b) := by
  unfold State.stallCheck
  dsimp only
  refine Calm.trans (b := s.settleStalls (b == .locked && su.stallPulses != 0))
    ⟨rfl, rfl, rfl, rfl, rfl, rfl⟩ ?_
  split
  · exact Calm.foldl (fun s f => (s.scheduled_slip su .stall f).calm.trans
      ((State.acted_examineAfter_list _ _ su).calm.trans (State.calm_settlePort _))) _ _
  · exact .refl _

theorem State.calm_takePulse (s : State) (su : Setup) : Calm s (s.takePulse su) := by
  unfold State.takePulse
  refine Calm.trans (b := s.countPulse) ⟨rfl, rfl, rfl, rfl, rfl, rfl⟩ ?_
  exact (State.calm_reportPulse _ su _).trans (State.calm_stallCheck _ su _)

/-! ## The Report Writer -/

theorem State.calm_takeReport (s : State) : Calm s s.takeReport := by
  unfold State.takeReport
  split
  · exact .refl s
  · split
    · exact ⟨rfl, rfl, rfl, rfl, rfl, rfl⟩
    · split <;> exact ⟨rfl, rfl, rfl, rfl, rfl, rfl⟩

theorem State.calm_endDrain (s : State) (su : Setup) : Calm s (s.endDrain su) := by
  unfold State.endDrain
  dsimp only
  split
  · split
    · exact ⟨rfl, rfl, rfl, rfl, rfl, rfl⟩
    · refine Calm.trans ?_ (State.calm_settlePort _)
      exact ⟨rfl, rfl, rfl, rfl, rfl, rfl⟩
  · refine Calm.trans ?_ (State.calm_settlePort _)
    exact ⟨rfl, rfl, rfl, rfl, rfl, rfl⟩

theorem State.calm_recordAnswered (s : State) (su : Setup) (x : MemAnswer) :
    Calm s (s.recordAnswered su x) := by
  cases x
  · exact ⟨rfl, rfl, rfl, rfl, rfl, rfl⟩
  · unfold State.recordAnswered State.recordFailed
    dsimp only
    split <;> exact ⟨rfl, rfl, rfl, rfl, rfl, rfl⟩

theorem State.calm_indexWordDone (s : State) : Calm s s.indexWordDone := by
  unfold State.indexWordDone
  dsimp only
  split <;> exact ⟨rfl, rfl, rfl, rfl, rfl, rfl⟩

/-! ## Every command answers with a next state -/

/-- No command ends in a fault or a refusal. -/
theorem exec_answers (c : Instr) (s : State) : ∃ t, exec c s = .next t := by
  cases c with
  | planWriteComplete answer => cases answer <;> exact ⟨_, rfl⟩
  | plainAccessComplete answer =>
    simp only [exec, execPlainAccessComplete]; repeat' split
    all_goals exact ⟨_, rfl⟩
  | readIndexWrite answer =>
    simp only [exec, execReadIndexWrite]; repeat' split
    all_goals exact ⟨_, rfl⟩
  | ringWriteComplete answer =>
    simp only [exec, execRingWriteComplete]; repeat' split
    all_goals exact ⟨_, rfl⟩
  | viewReadComplete answer =>
    simp only [exec, execViewReadComplete]; repeat' split
    all_goals exact ⟨_, rfl⟩
  | recordWriteComplete answer =>
    simp only [exec, execRecordWriteComplete]; repeat' split
    all_goals exact ⟨_, rfl⟩
  | writeIndexWordComplete answer =>
    simp only [exec, execWriteIndexWordComplete]; repeat' split
    all_goals exact ⟨_, rfl⟩
  | _ => exact ⟨_, rfl⟩

end Sys2Proof.Machine
end

