-- ==== Sys2Proof/Laws/Statements.lean ====
section
/-! SUPPORT. How the shared operations bring about what the statements say of two states: memory after an answer,
plan writes landed, grants, refusals and presentations. -/

namespace Sys2Proof.Machine

/-! ## Memory and the copies -/

theorem State.memoryAfter_settleMemory (s : State) (r : Request) (x : MemAnswer) :
    s.MemoryAfter (s.settleMemory r x) r x := by
  refine ⟨?_, fun k hk => s.readByte_settleMemory r x k hk⟩
  rintro rfl hc i hi
  show readByte (writeBytes s.mem r.base r.body.data) (r.base + i) = _
  rw [readByte_writeBytes_inside _ _ _ (Memory.rising hc) (by omega) (by omega)]
  simp [hi]

/-- Memory after an answer depends on memory alone. -/
theorem State.MemoryAfter.of_mem {s t u : State} {r : Request} {x : MemAnswer}
    (h : s.MemoryAfter t r x) (e : u.mem = t.mem) : s.MemoryAfter u r x :=
  ⟨fun hx hc i hi => by rw [e]; exact h.inside hx hc i hi, fun k hk => by rw [e]; exact h.outside k hk⟩

theorem State.answered_memoryAfter (s : State) (l : Fin 8) (a : Access) (x : MemAnswer) :
    s.MemoryAfter (s.answered l a x) a.req x :=
  (s.memoryAfter_settleMemory a.req x).of_mem (s.answered_mem l a x)

theorem PlanShadow.mem_unknown_landed (ps : PlanShadow) (off : Nat) (data : List Byte) (w : Nat) :
    w ∈ (ps.landed off data).unknown ↔ w ∈ ps.unknown ∧ overlaps off data.length (8 * w) 8 = false := by
  simp [PlanShadow.landed, List.mem_filter]

theorem PlanShadow.readByte_landed (ps : PlanShadow) (off : Nat) (data : List Byte)
    (h : RisingKeys ps.planCopy) (i : Nat) (hi : i < copyEnd) :
    readByte (ps.landed off data).planCopy i =
      if off ≤ i ∧ i < off + data.length then data.getD (i - off) 0 else readByte ps.planCopy i := by
  simp only [PlanShadow.landed]
  split
  · next hr =>
    rw [readByte_writeBytes_inside _ _ _ h hr.1 (by rw [List.length_take]; omega)]
    simp only [List.getD_eq_getElem?_getD, List.getElem?_take]
    rw [if_pos (by omega)]
  · next hr =>
    exact readByte_writeBytes_outside _ _ _ _ (by rw [List.length_take]; omega)

theorem PlanShadow.mem_unknown_unsettled (ps : PlanShadow) (off len w : Nat) :
    w ∈ (ps.unsettled off len).unknown ↔
      w < 1024 ∧ (w ∈ ps.unknown ∨ overlaps off len (8 * w) 8 = true) := by
  simp only [PlanShadow.unsettled, List.mem_filter, List.mem_range, Bool.or_eq_true,
    List.contains_iff_mem]

/-- A plan write answered OKAY, with its copies brought up to date. -/
theorem State.planLanded_copyLanded (s : State) (l : Fin 8) (a : Access) :
    s.PlanLanded ((s.answered l a .okay).copyLanded a.req) a.req where
  memory := (s.memoryAfter_settleMemory a.req .okay).of_mem rfl
  copy := fun h i hi => PlanShadow.readByte_landed s.ps _ _ h i hi
  known := fun w => PlanShadow.mem_unknown_landed s.ps _ _ w
  run := rfl
  rest := fun p hp => by cases p <;> first | rfl | simp at hp

/-- What a completed plan write of the row does, up to its action. -/
theorem State.Completes.planAct {s : State} {l : Fin 8} {g : Grant} {a : Access} {row : PlanRow}
    (h : s.Completes l g a row) (act : Fin 8 → Request → State → State) :
    s.planAct row act =
      (act l a.req ((s.answered l a .okay).copyLanded a.req)).finish l g .okay [] := by
  simp only [State.planAct, h.access, h.kind, h.row, if_true, State.completePlan]

/-! ## Grants -/

theorem State.mem_waitingIn (s : State) (l : Fin 9) (u : Bool) :
    l ∈ s.waitingIn u ↔ s.Waits l ∧ s.isUrgent l = u := by
  simp [State.waitingIn, State.Waits]

theorem State.grantedTo_grantTo (s : State) (l : Fin 9) (n : Nat) (h : s.Waits l) :
    s.GrantedTo (s.grantTo l n) l n := by
  obtain ⟨a, ha⟩ : ∃ a, s.lane l = .waiting a := by
    unfold State.Waits at h
    cases hl : s.lane l <;> rw [hl] at h <;> simp [LaneState.waiting?] at h
    exact ⟨_, rfl⟩
  have e : s.grantTo l n = ((s.setLane l (.active a)).setPort
      (.busy { lane := l, link := a.req.link && !s.isConfig, count := n })).setGroupPtr
        (s.isUrgent l) l := by
    simp [State.grantTo, ha]
  rw [e]
  refine ⟨⟨a, ha, ?_, ?_⟩, ?_, ?_, ?_, ?_, ?_, ?_⟩
  · cases s.isUrgent l <;> simp [State.setGroupPtr, State.setPort, State.lane, State.setLane]
  · cases s.isUrgent l <;> rfl
  · intro k hk
    cases s.isUrgent l <;>
      simp [State.setGroupPtr, State.setPort, State.lane, State.setLane,
        Fin.val_ne_of_ne (Ne.symm hk)]
  · cases s.isUrgent l <;> rfl
  · cases s.isUrgent l <;> rfl
  · cases s.isUrgent l <;> rfl
  · cases s.isUrgent l <;> rfl
  · intro p hp
    cases s.isUrgent l <;> cases p <;> first | rfl | simp at hp

/-- The lane picked is WAITING, and urgent exactly when an urgent lane waits. -/
theorem State.pick_waits (s : State) (l : Fin 9) (h : s.pick = some l) :
    s.Waits l ∧ s.isUrgent l = !(s.waitingIn true).isEmpty := by
  unfold State.pick at h
  dsimp only at h
  have hm : l ∈ s.waitingIn (!(s.waitingIn true).isEmpty) := by
    unfold pickLane at h
    split at h
    · exact List.mem_of_head? h
    · simpa using List.find?_some h
  exact (s.mem_waitingIn _ _).1 hm

theorem State.grantTo_lanes (s : State) (l : Fin 9) (n : Nat) (k : Fin 9) :
    s.LaneOrGranted (s.grantTo l n) k := by
  by_cases h : s.Waits l
  · have g := s.grantedTo_grantTo l n h
    obtain ⟨a, ha, hb, _⟩ := g.active
    by_cases hk : k = l
    · subst hk; exact .inr ⟨a, ha, hb⟩
    · exact .inl (g.lanes k hk)
  · left
    unfold State.grantTo
    split
    · next a ha => exact absurd (by simp [State.Waits, ha, LaneState.waiting?]) h
    · rfl

/-- The Lane Arbiter does no more than grant. -/
theorem State.settlePort_lanes (s : State) (k : Fin 9) : s.LaneOrGranted s.settlePort k := by
  unfold State.settlePort State.grantFree
  split
  · exact .inl rfl
  · split
    · exact s.grantTo_lanes _ _ k
    · exact .inl rfl
  · split
    · exact s.grantTo_lanes _ _ k
    · split
      · split
        · exact (s.setPort .free).grantTo_lanes _ _ k
        · exact .inl rfl
      · exact .inl rfl

/-- No reservation begins at a grant. -/
theorem State.settlePort_reserved (s : State) (x : Reservation) (h : s.settlePort.la.port = .reserved x) :
    s.la.port = .reserved x := by
  unfold State.settlePort State.grantFree at h
  have grant : ∀ (t : State) l n, (t.grantTo l n).la.port = .reserved x → t.la.port = .reserved x := by
    intro t l n ht
    unfold State.grantTo at ht
    split at ht
    · cases hu : t.isUrgent l <;> rw [hu] at ht <;> simp [State.setGroupPtr, State.setPort] at ht
    · exact ht
  split at h
  · exact h
  · split at h
    · exact grant _ _ _ h
    · exact h
  · split at h
    · exact grant _ _ _ h
    · split at h
      · split at h
        · have := grant _ _ _ h
          simp [State.setPort] at this
        · simp [State.setPort] at h
      · exact h

/-- Every lane stands in the cyclic order, so a group with a WAITING lane has one picked. -/
theorem pickLane_isSome (mode : GroupMode) (ptr : Fin 9) (lanes : List (Fin 9)) (h : lanes ≠ []) :
    ∃ l, pickLane mode ptr lanes = some l := by
  obtain ⟨k, hk⟩ := List.exists_mem_of_ne_nil _ h
  cases mode with
  | fixed =>
    cases lanes with
    | nil => exact absurd rfl h
    | cons a l => exact ⟨a, rfl⟩
  | rotating =>
    have all : ∀ ptr k : Fin 9, k ∈ rotation ptr := by decide
    refine Option.isSome_iff_exists.mp (List.find?_isSome.mpr ⟨k, all ptr k, ?_⟩)
    simpa using hk

/-- The Lane Arbiter meets a change as the statements have it. -/
theorem State.portSettled_settlePort (s : State) : s.PortSettled s.settlePort := by
  have free : ∀ l, s.pick = some l → s.GrantedTo ((s.setPort .free).grantFree) l 1 := by
    intro l h
    have e : (s.setPort .free).grantFree = (s.setPort .free).grantTo l 1 := by
      have : (s.setPort .free).pick = some l := h
      unfold State.grantFree; rw [this]
    have g := (s.setPort .free).grantedTo_grantTo l 1 (s.pick_waits l h).1
    rw [e]
    exact
      { active := g.active, lanes := g.lanes, urgentPtr := g.urgentPtr, normalPtr := g.normalPtr
        kept := g.kept, responses := g.responses
        rest := fun p hp => by have := g.rest p hp; cases p <;> first | exact this | simp at hp }
  refine ⟨fun h1 h2 => ?_, fun l h1 h2 => ?_, fun g h => ?_, fun r h => ⟨fun hw => ?_, fun hw hu k hk hku => ?_,
    fun hw hn => ?_⟩⟩
  · simp only [State.settlePort, h1, State.grantFree, h2]
  · simp only [State.settlePort, h1, State.grantFree, h2]
    exact s.grantedTo_grantTo l 1 (s.pick_waits l h2).1
  · simp only [State.settlePort, h]
  · unfold State.settlePort
    rw [h]
    dsimp only
    rw [if_pos (show _ = true from hw)]
    exact s.grantedTo_grantTo _ _ hw
  · have waits : s.waitingIn true ≠ [] := List.ne_nil_of_mem ((s.mem_waitingIn k true).2 ⟨hk, hku⟩)
    have he : (!(s.waitingIn true).isEmpty) = true := by simpa using waits
    obtain ⟨l, hl⟩ := pickLane_isSome (s.groupMode true) (s.groupPtr true) _ waits
    have hp : s.pick = some l := by unfold State.pick; dsimp only; rw [he]; exact hl
    refine ⟨l, hp, (s.pick_waits l hp).2.trans he, ?_⟩
    unfold State.settlePort
    rw [h]
    dsimp only
    rw [if_neg (show ¬ (_ = true) from hw), if_pos (by rw [hu, he]; rfl)]
    exact free l hp
  · unfold State.settlePort
    rw [h]
    dsimp only
    rw [if_neg (show ¬ (_ = true) from hw), if_neg]
    intro c
    simp only [Bool.and_eq_true, Bool.not_eq_true', List.isEmpty_eq_false_iff] at c
    rcases hn with hn | hn
    · rw [hn] at c; simp at c
    · obtain ⟨k, hk⟩ := List.exists_mem_of_ne_nil _ c.2
      have := (s.mem_waitingIn k true).1 hk
      rw [hn k this.1] at this
      simp at this

/-- What the port makes of a state whose Lane Arbiter is the one given. -/
theorem State.settledFrom_settlePort (s : State) (la : LaneArbiter) (h : s.la = la) :
    s.settlePort.SettledFrom la := by
  have e : ({ s.settlePort with la := la } : State) = s := by
    rw [(s.arbitrated_settlePort).changes, ← h]
  unfold State.SettledFrom
  rw [e]
  exact s.portSettled_settlePort

/-- What a completion leaves of the port: FREE or, where R27 makes one, a reservation, and then settled. -/
theorem State.settledFrom_closePort (s : State) (g : Grant) (x : MemAnswer) (la : LaneArbiter) (h : s.la = la) :
    (s.makesReservation g x = false → (s.closePort g x).SettledFrom { la with port := .free }) ∧
    (s.makesReservation g x = true → (s.closePort g x).SettledFrom { la with
      port := .reserved { lane := g.lane, urgent := s.isUrgent g.lane, wait := 0, count := g.count } }) := by
  subst h
  refine ⟨fun h => ?_, fun h => ?_⟩ <;> unfold State.closePort <;> rw [h] <;>
    exact State.settledFrom_settlePort _ _ rfl

/-- A lane's reservation ends, the rest of the Lane Arbiter staying (R28). -/
theorem State.la_endReservation (s : State) (l : Fin 9) :
    (s.endReservation l).la = { s.la with port := s.la.port.without l } := by
  unfold State.endReservation Port.without
  cases h : s.la.port with
  | reserved r =>
    by_cases hr : r.lane = l
    · simp only [if_pos hr]; rfl
    · simp only [if_neg hr, ← h]
  | _ => simp only [← h]

/-- A second state given to a lane replaces the first. -/
theorem State.setLane_setLane (s : State) (l : Fin 9) (x y : LaneState) :
    ((s.setLane l x).setLane l y).la = (s.setLane l y).la := by
  simp [State.setLane]

/-! ## Answers -/

/-- Settling the port after lane `l` has changed leaves the others as `OthersKept` says. -/
theorem State.othersKept_settlePort {s t : State} {l : Fin 8}
    (lanes : ∀ k, k ≠ ext l → t.lane k = s.lane k) (kept : t.la.kept = s.la.kept)
    (responses : ∀ k : Fin 8, k ≠ l → t.la.responses[k] = s.la.responses[k]) :
    s.OthersKept t.settlePort l where
  lanes := fun k hk => by
    have := t.settlePort_lanes k
    unfold State.LaneOrGranted at this ⊢
    rw [lanes k hk] at this
    exact this
  kept := t.arbitrated_settlePort.kept.trans kept
  responses := fun k hk => by rw [t.arbitrated_settlePort.responses]; exact responses k hk

theorem State.endReservation_port (s : State) (l : Fin 9) (x : Reservation)
    (h : (s.endReservation l).la.port = .reserved x) : x.lane ≠ l := by
  unfold State.endReservation at h
  split at h
  · next r hr =>
    split at h
    · simp [State.setPort] at h
    · next hn => rw [hr] at h; cases h; exact hn
  · next hn => exact absurd h (hn x)

/-- What a handing does to the Report Writer depends on the run state, the ticks and the Report Writer alone. -/
theorem State.hand_rw_congr {s t : State} (r : Report) (ps : t.ps = s.ps) (tb : t.tb = s.tb)
    (rw : t.rw = s.rw) : (t.hand r).rw = (s.hand r).rw := by
  unfold State.hand State.isConfig
  rw [ps, rw]
  unfold State.enqueue State.loseRecord
  rw [rw, tb]
  repeat' split
  all_goals first | rfl | exact rw

/-- A request of lane `l` that is refused after the port has taken it. -/
theorem State.refusedAs_refuse (s : State) (l : Fin 8) (q r : Request) (reason : RefusalReason)
    (ssn : SSN) :
    s.RefusedAs ((s.setLane (ext l) (.taken q)).refuse l r reason ssn) l r reason ssn := by
  have hrw := State.hand_rw_congr (s := s) (t := s.setLane (ext l) (.taken q))
    (.accessRefused l r.body.dir r.addr reason ssn) rfl rfl rfl
  unfold State.refuse State.answer
  rw [State.hand_changes, hrw]
  generalize hx : (s.hand (.accessRefused l r.body.dir r.addr reason ssn)).rw = x at *
  generalize hv : (({ s.setLane (ext l) (.taken q) with rw := x } : State).setLane (ext l) .idle).respond l
    { status := .refused, data := r.body.blank } = v
  have er := v.arbitrated_endReservation (ext l)
  have set := (v.endReservation (ext l)).arbitrated_settlePort
  have all := er.trans set
  have idle : v.lane (ext l) = .idle := by
    rw [← hv]; exact Vector.getElem_set_self ..
  have others : ∀ k, k ≠ ext l → v.lane k = s.lane k := by
    intro k hk
    rw [← hv]
    simp [State.lane, State.respond, State.setLane, Fin.val_ne_of_ne (Ne.symm hk)]
  have erl : ∀ k, (v.endReservation (ext l)).lane k = v.lane k := by
    intro k; unfold State.endReservation; split
    · split <;> rfl
    · rfl
  have responses : ∀ k : Fin 8, k ≠ l → v.la.responses[k] = s.la.responses[k] := by
    intro k hk
    rw [← hv]
    simp [State.respond, State.setLane, Fin.val_ne_of_ne (Ne.symm hk)]
  refine ⟨?_, ?_, ?_, ?_, ?_, ?_, ?_⟩
  · rw [all.responses, ← hv]
    exact Vector.getElem_set_self ..
  · have := (v.endReservation (ext l)).settlePort_lanes (ext l)
    rcases this with h | ⟨a, h, _⟩
    · rw [h, erl, idle]
    · rw [erl, idle] at h; cases h
  · rw [hx, all.changes, ← hv]; rfl
  · intro y hy
    exact v.endReservation_port (ext l) y ((v.endReservation (ext l)).settlePort_reserved y hy)
  · exact State.othersKept_settlePort (fun k hk => (erl k).trans (others k hk))
      (er.kept.trans (by rw [← hv]; rfl)) (fun k hk => by rw [er.responses]; exact responses k hk)
  · refine State.settledFrom_settlePort _ _ ?_
    rw [State.la_endReservation, ← hv]
    simp [State.respond, State.setLane, LaneArbiter.delivered, LaneArbiter.withLane]
  · intro p hp
    rw [all.changes, ← hv]
    cases p <;> first | rfl | simp at hp

/-- A lane whose access is presented is WAITING, or granted at once. -/
theorem State.present_lanes (s : State) (l : Fin 9) (a : Access) :
    (s.present l a).settlePort.lane l = .waiting a ∨ (s.present l a).settlePort.lane l = .active a := by
  have w : (s.present l a).lane l = .waiting a := Vector.getElem_set_self ..
  rcases (s.present l a).settlePort_lanes l with h | ⟨b, h, k⟩
  · exact .inl (h.trans w)
  · rw [w] at h; cases h; exact .inr k

/-- A request presented untouched: WAITING or granted, nothing else of lane `l` changed. -/
theorem State.presentedAs_present (s : State) (l : Fin 8) (q : Request) (a : Access) :
    s.PresentedAs (((s.setLane (ext l) (.taken q)).present (ext l) a).settlePort) l a where
  lane := State.present_lanes _ _ a
  response := by rw [(State.arbitrated_settlePort _).responses]; rfl
  others := State.othersKept_settlePort (fun k hk => by
    simp [State.lane, State.present, State.setLane, Fin.val_ne_of_ne (Ne.symm hk)]) rfl (fun _ _ => rfl)
  port := State.settledFrom_settlePort _ _ (s.setLane_setLane ..)

/-- Presenting a request changes the Lane Arbiter alone. -/
theorem State.sameBut_present (s : State) (l : Fin 8) (q : Request) (a : Access) :
    s.SameBut (((s.setLane (ext l) (.taken q)).present (ext l) a).settlePort) [.la] := by
  intro p hp
  rw [(State.arbitrated_settlePort _).changes]
  cases p <;> first | rfl | simp at hp

/-- A port that takes a request carries it out at once. -/
theorem State.Takes.exec {s : State} {l : Fin 8} (h : s.Takes l) (d : Direction) (addr : Addr) (n : Nat)
    (link : Bool) (data : List Byte) :
    Machine.exec (.laneRequest l d addr n link data) s =
      .next (s.takeRequest l (makeRequest d addr n link data)) := by
  have k := (s.took_takeRequest l (makeRequest d addr n link data)).kept
  show Host.Outcome.next _ = _
  rw [if_neg (by simp [h.released])]
  simp only [State.presentRequest, h.none, List.nil_append, State.takeKept, h.idle, LaneState.idle?,
    if_true, State.setKept]
  congr 1
  have : (s.takeRequest l (makeRequest d addr n link data)).la.kept[l] = [] := by rw [k]; exact h.none
  conv_lhs => rw [← this]
  simp

/-! ## Layouts, runs and paths -/

/-- A field of the copies is the number its bytes spell. -/
theorem bigEndian_readBytes (m : Memory) (a n : Nat) : bigEndian (readByte m) a n = fieldAt m a n := by
  unfold bigEndian fieldAt readBytes beNat
  rw [List.foldl_map]

theorem fieldAt_lt (m : Memory) (a n : Nat) : fieldAt m a n < 256 ^ n := by
    rw [← bigEndian_readBytes]
    unfold bigEndian
    induction n with
    | zero => simp
    | succ n ih => 
      rw [List.range_succ, List.foldl_append]
      simp only [List.foldl_cons, List.foldl_nil]
      have := (readByte m (a+n)).isLt
      rw [pow_succ]; omega

theorem coveringRun_covers (n : SSN) (log : List Run) (run : Run) (h : coveringRun n log = some run) :
    Covers log n run := by
  induction log with
  | nil => cases h
  | cons r rest ih =>
    cases rest with
    | nil =>
      simp only [coveringRun, Option.some.injEq] at h
      exact ⟨0, by simp [h], fun j r hj => absurd hj (by omega), fun r e => by simp at e⟩
    | cons next rest =>
      simp only [coveringRun] at h
      split at h
      · next hn =>
        obtain ⟨i, hi, before, after⟩ := ih h
        refine ⟨i + 1, hi, fun j r' hj e => ?_, after⟩
        cases j with
        | zero =>
          simp only [Nat.zero_add, List.getElem?_cons_succ, List.getElem?_cons_zero,
            Option.some.injEq] at e
          rw [← e]; exact hn
        | succ j => exact before j r' (by omega) (by simpa using e)
      · next hn =>
        cases h
        exact ⟨0, rfl, fun j r hj => absurd hj (by omega), fun r e => by
          simp only [Nat.zero_add, List.getElem?_cons_succ, List.getElem?_cons_zero,
            Option.some.injEq] at e
          rw [← e]; simpa using hn⟩

theorem Covers.unique {log : List Run} {n : SSN} {a b : Run} (h : Covers log n a) (k : Covers log n b) :
    a = b := by
  obtain ⟨i, hi, h1, h2⟩ := h
  obtain ⟨j, hj, k1, k2⟩ := k
  have bound : ∀ {m : Nat} {x : Run}, log[m]? = some x → m < log.length :=
    fun e => (List.getElem?_eq_some_iff.mp e).1
  rcases Nat.lt_trichotomy i j with l | rfl | l
  · have := bound hj
    obtain ⟨r, hr⟩ : ∃ r, log[i + 1]? = some r := ⟨_, List.getElem?_eq_getElem (by omega)⟩
    exact absurd (k1 i r l hr) (by simp [h2 r hr])
  · rw [hi] at hj; exact Option.some.inj hj
  · have := bound hi
    obtain ⟨r, hr⟩ : ∃ r, log[j + 1]? = some r := ⟨_, List.getElem?_eq_getElem (by omega)⟩
    exact absurd (h1 j r l hr) (by simp [k2 r hr])

theorem coveringRun_isSome (n : SSN) (r : Run) (log : List Run) : (coveringRun n (r :: log)).isSome = true := by
  induction log generalizing r with
  | nil => rfl
  | cons x log ih =>
    simp only [coveringRun]
    split
    · exact ih x
    · rfl

/-- The run a log's covering gives is the run that covers the SSN. -/
theorem coveringRun_iff (n : SSN) (log : List Run) (run : Run) :
    coveringRun n log = some run ↔ Covers log n run := by
  refine ⟨coveringRun_covers n log run, fun h => ?_⟩
  cases log with
  | nil => obtain ⟨i, hi, _⟩ := h; simp at hi
  | cons r log =>
    obtain ⟨x, hx⟩ := Option.isSome_iff_exists.mp (coveringRun_isSome n r log)
    rw [hx, (coveringRun_covers n _ x hx).unique h]

/-- The path chosen among candidates is the one R108 prefers. -/
theorem State.prefers_preferPath (s : State) (r : Fin 12) (preferred p : Path) (cands : List Path)
    (h : s.preferPath r preferred cands = some p) : s.Prefers r preferred (· ∈ cands) p := by
  unfold State.preferPath at h
  dsimp only at h
  have pool : ∀ x, x ∈ (if (cands.filter (fun p => (s.path r p).health == .live)).isEmpty then cands
      else cands.filter (fun p => (s.path r p).health == .live)) ↔ x ∈ cands ∧
        ((s.path r x).health = .live ∨ ∀ q ∈ cands, (s.path r q).health ≠ .live) := by
    intro x
    split
    · next e =>
      simp only [List.isEmpty_iff, List.filter_eq_nil_iff, beq_iff_eq] at e
      exact ⟨fun hx => ⟨hx, .inr e⟩, fun hx => hx.1⟩
    · next e =>
      simp only [List.isEmpty_iff, List.filter_eq_nil_iff, beq_iff_eq, not_forall, not_not] at e
      obtain ⟨q, hq, hl⟩ := e
      simp only [List.mem_filter, beq_iff_eq]
      exact ⟨fun hx => ⟨hx.1, .inl hx.2⟩, fun hx => ⟨hx.1, hx.2.resolve_right (fun k => k q hq hl)⟩⟩
  generalize (if (cands.filter (fun p => (s.path r p).health == .live)).isEmpty then cands
      else cands.filter (fun p => (s.path r p).health == .live)) = ps at h pool
  have hp : p ∈ ps := by
    split at h
    · next e => cases h; simpa using e
    · exact List.mem_of_head? h
  have hm := (pool p).1 hp
  refine ⟨hm.1, hm.2, fun q hq hne same => ?_⟩
  have hq' : q ∈ ps := (pool q).2 ⟨hq, hm.2.imp same.mpr id⟩
  split at h
  · cases h; rfl
  · next e =>
    have e : preferred ∉ ps := by simpa using e
    cases p <;> cases q <;> cases preferred <;> simp_all

end Sys2Proof.Machine
end

