-- ==== Sys2Proof/Laws/Outcomes.lean ====
section
/-! SUPPORT. The shared operations over outcomes, windows, holds and feeds that leave their zones do what the
statements' relations say (R99 to R101, R114, R116, R121, R122, R126, R130, R150). -/

namespace Sys2Proof.Machine

/-! ## Acts in turn -/

/-- A fold whose every step is an act makes the acts in turn. -/
theorem InTurn.foldl {α : Type} {act : α → State → State → Prop} {f : State → α → State}
    (h : ∀ s x, act x s (f s x)) (l : List α) (s : State) : InTurn act l s (l.foldl f s) := by
  induction l generalizing s with
  | nil => rfl
  | cons x l ih => exact ⟨_, h s x, ih _⟩

/-! ## Outcomes and windows -/

theorem State.window_hand (s : State) (r : Report) (w : Fin 64) : (s.hand r).window w = s.window w := by
  rw [s.hand_changes r]; rfl

theorem State.zone_hand (s : State) (r : Report) (z : Fin 24) : (s.hand r).zone z = s.zone z := by
  rw [s.hand_changes r]; rfl

theorem State.givenOutcome_giveOutcome (s : State) (w : Fin 64) (z : Fin 24) (o : ZoneOutcome) (n : SSN) :
    s.GivenOutcome (s.giveOutcome w z o n) w z o n := by
  refine ⟨fun h => if_pos h, fun h => ?_⟩
  have e : s.giveOutcome w z o n = ((s.recordOutcome w z o).leaveWindow w z).hand
      (.zoneOutcome w (s.windowRegionByte w) z n o) := if_neg (by simp [h])
  have leave : ∀ t : State, (t.leaveWindow w z).rw = t.rw ∧ (t.leaveWindow w z).ps = t.ps ∧
      (t.leaveWindow w z).tb = t.tb ∧ ∀ v, (t.leaveWindow w z).window v = t.window v := by
    intro t; unfold State.leaveWindow; split <;> exact ⟨rfl, rfl, rfl, fun _ => rfl⟩
  obtain ⟨l1, l2, l3, l4⟩ := leave (s.recordOutcome w z o)
  have win := fun v => (s.recordOutcome w z o |>.leaveWindow w z).window_hand
    (.zoneOutcome w (s.windowRegionByte w) z n o) v
  have zone := fun k => (s.recordOutcome w z o |>.leaveWindow w z).zone_hand
    (.zoneOutcome w (s.windowRegionByte w) z n o) k
  rw [e]
  refine ⟨?_, fun v hv => ?_, fun hz => ?_, fun hz => ?_, fun k hk => ?_, ?_, fun p hp => ?_⟩
  · rw [win, l4]; exact (State.window_setWindow_eq ..).trans (if_pos rfl)
  · rw [win, l4]; exact (State.window_setWindow_eq ..).trans (if_neg (Ne.symm hv))
  · rw [zone]
    have : (s.recordOutcome w z o).leaveWindow w z =
        (s.recordOutcome w z o).updZone z Zone.toNational := if_pos hz
    rw [this, State.zone_updZone]; rfl
  · rw [zone]
    have : (s.recordOutcome w z o).leaveWindow w z = s.recordOutcome w z o := if_neg hz
    rw [this]; rfl
  · rw [zone]
    unfold State.leaveWindow
    split
    · exact State.zone_updZone_ne _ _ _ _ hk
    · rfl
  · exact State.hand_rw_congr _ l2 l3 l1
  · rw [State.hand_changes]
    unfold State.leaveWindow
    split <;> cases p <;> first | rfl | simp at hp

/-- A window set to another state, with its report. -/
theorem State.windowBecame (s : State) (w : Fin 64) (x : WindowStatus) (news : WindowNews) :
    s.WindowBecame ((s.setWindow w { s.window w with status := x }).handWindowState w news none) w x news := by
  unfold State.handWindowState
  refine ⟨?_, fun v hv => ?_, fun z => ?_, ?_, fun p hp => ?_⟩
  · rw [State.window_hand]; exact (State.window_setWindow_eq ..).trans (if_pos rfl)
  · rw [State.window_hand]; exact (State.window_setWindow_eq ..).trans (if_neg (Ne.symm hv))
  · rw [State.zone_hand]; rfl
  · exact State.hand_rw_congr _ rfl rfl rfl
  · rw [State.hand_changes]; cases p <;> first | rfl | simp at hp

theorem WindowStatus.open?_iff (w : WindowStatus) : w.open? = true ↔ w = .pending ∨ w = .live := by
  cases w <;> simp [WindowStatus.open?]

theorem State.windowMoved_settleWindow (s : State) (su : Setup) (w : Fin 64) :
    s.WindowMoved (s.settleWindow su w) su w := by
  have all : (s.windowZones su w).all (fun z => (s.window w).outcomes[z].isSome) = true ↔
      ∀ z ∈ s.windowZones su w, (s.window w).outcomes[z].isSome = true := by simp [List.all_eq_true]
  have any : (s.windowZones su w).any (fun z => (s.window w).outcomes[z].isSome ||
        (s.zone z).status.window? == some w) = true ↔
      ∃ z ∈ s.windowZones su w, (s.window w).outcomes[z].isSome = true ∨
        (s.zone z).status.window? = some w := by
    simp [List.any_eq_true]
  unfold State.WindowMoved State.settleWindow
  dsimp only
  rw [← WindowStatus.open?_iff, ← all, ← any]
  refine ⟨fun h1 h2 => ?_, fun h1 h2 h3 => ?_, fun h1 h2 => ?_⟩
  · rw [if_pos h1, if_pos h2]; exact s.windowBecame w _ _
  · rw [if_pos (by rw [h1]; rfl), if_neg h2, if_pos (by rw [h1, h3]; rfl)]
    exact s.windowBecame w _ _
  · split
    · next ho =>
      rw [if_neg (fun c => h1 ⟨ho, c⟩), if_neg (fun c => h2 ?_)]
      simpa using c
    · rfl

theorem State.statusBecame_updZone (s : State) (z : Fin 24) (x : ZoneStatus) :
    s.StatusBecame (s.updZone z (fun y => { y with status := x })) z x where
  zone := s.zone_updZone z _
  zones := fun k hk => s.zone_updZone_ne z k _ hk
  windows := fun _ => rfl
  rest := fun p hp => by cases p <;> first | rfl | simp at hp

theorem State.horizonOrZero_eq (s : State) (z : Fin 24) :
    s.horizonOrZero z = ((s.zone z).timeline.map (·.horizon)).getD 0 := by
  unfold State.horizonOrZero; split <;> simp_all

/-! ## Holds and cancels -/

theorem State.holdTaken_takeHold (s : State) (kind : HoldKind) (z : Fin 24) :
    State.HoldTaken kind z s (s.takeHold kind z) := by
  unfold State.HoldTaken State.takeHold
  rw [← State.horizonOrZero_eq]
  cases (s.zone z).status with
  | national => rfl
  | armed w => exact s.givenOutcome_giveOutcome ..
  | regional w => exact s.statusBecame_updZone ..
  | returning w c hard =>
    match kind, hard with
    | .hard, false => exact ⟨fun _ _ => s.statusBecame_updZone .., fun h => by simp at h⟩
    | .hard, true => exact ⟨fun _ h => by simp at h, fun _ => rfl⟩
    | .soft, _ => exact ⟨fun h => by simp at h, fun _ => rfl⟩

theorem State.holdsTaken_takeHolds (s : State) (su : Setup) (kind : HoldKind) (zones : List (Fin 24)) :
    s.HoldsTaken (s.takeHolds su kind zones) su kind zones :=
  ⟨_, InTurn.foldl (fun s z => s.holdTaken_takeHold kind z) zones s,
    InTurn.foldl (fun s w => s.windowMoved_settleWindow su w) _ _⟩

theorem State.cancelReached_cancelZone (s : State) (w : Fin 64) (z : Fin 24) :
    State.CancelReached w z s (s.cancelZone w z) := by
  unfold State.CancelReached State.cancelZone
  rw [← State.horizonOrZero_eq]
  refine ⟨fun h => if_pos h, fun h => ?_⟩
  rw [if_neg (by simp [h])]
  cases hs : (s.zone z).status with
  | national => exact ⟨by simp, by simp, fun _ _ => s.givenOutcome_giveOutcome ..⟩
  | armed v => exact ⟨by simp, by simp, fun _ _ => s.givenOutcome_giveOutcome ..⟩
  | regional v =>
    by_cases hv : v = w
    · subst hv; simpa using s.statusBecame_updZone z (.returning v .cancel false)
    · simpa [hv] using s.givenOutcome_giveOutcome ..
  | returning v c hard =>
    by_cases hv : v = w
    · subst hv; simp
    · simpa [hv] using s.givenOutcome_giveOutcome ..

theorem State.windowUnattended_unattendWindow (s : State) (su : Setup) (n : SSN) (w : Fin 64) :
    State.WindowUnattended su n w s (s.unattendWindow su n w) := by
  unfold State.WindowUnattended State.unattendWindow
  rw [← WindowStatus.open?_iff]
  refine ⟨fun h => ?_, fun h => if_neg (fun c => h (by simpa using c))⟩
  rw [if_pos (by simp [h])]
  exact ⟨_, InTurn.foldl (fun s z => s.givenOutcome_giveOutcome w z .unattended n) _ s,
    State.windowMoved_settleWindow ..⟩

/-! ## Feeds that leave their zones -/

theorem State.trailFollowed_recomputeTrail (s : State) (su : Setup) (z : Fin 24)
    (h : s.attachedFeeds su z ≠ []) : s.TrailFollowed (s.recomputeTrail su z) su z := by
  obtain ⟨x, hx⟩ : ∃ x, least (s.lasts su z) = some x := by
    have : s.lasts su z ≠ [] := by
      obtain ⟨f, hf⟩ := List.exists_mem_of_ne_nil _ h
      have ha := hf
      simp only [State.attachedFeeds, List.mem_filter, Bool.and_eq_true, Option.isSome_iff_exists] at ha
      obtain ⟨_, ⟨p, hp⟩, _⟩ := ha
      exact List.ne_nil_of_mem (List.mem_filterMap.mpr ⟨f, hf, by rw [hp]; rfl⟩)
    cases hl : s.lasts su z with
    | nil => exact absurd hl this
    | cons a l => exact ⟨_, rfl⟩
  have e : s.recomputeTrail su z = s.advanceTrail z x := by
    unfold State.recomputeTrail; rw [hx]
  rw [e]
  unfold State.advanceTrail
  cases ht : (s.zone z).timeline with
  | none =>
    have e : s.zone z = { s.zone z with timeline := none } := by rw [← ht]
    exact ⟨⟨x, hx, by rw [ht, Option.map_none]; exact e⟩, fun _ _ => rfl, fun _ => rfl, fun p _ => by cases p <;> rfl⟩
  | some t =>
    dsimp only
    split
    · next hp =>
      exact ⟨⟨x, hx, by rw [State.zone_updZone, ht, Option.map_some, if_pos hp]; rfl⟩,
        fun k hk => s.zone_updZone_ne z k _ hk, fun _ => rfl, fun p hp => by
          cases p <;> first | rfl | simp at hp⟩
    · next hp =>
      have e : s.zone z = { s.zone z with timeline := some t } := by rw [← ht]
      exact ⟨⟨x, hx, by rw [ht, Option.map_some, if_neg hp]; exact e⟩, fun _ _ => rfl, fun _ => rfl,
        fun p _ => by cases p <;> rfl⟩

/-- What completing a read of `n` does to the zones: the feed has its new position, then the trail follows (R161). -/
theorem State.trailFollowed_completeFeed (s : State) (su : Setup) (f : Fin 32) (z : Fin 24) (n : SSN) (p : Position)
    (hf : (s.feed f).status = .attached p) (hz : su.feedZone f = some z) :
    ({ s with vr := (s.completeFeed su f n).vr } : State).TrailFollowed (s.completeFeed su f n) su z := by
  have e : s.completeFeed su f n = (s.setFeed f { s.feed f with
      status := .attached { p with last := n, readDone := true, readSincePulse := true } }).recomputeTrail
        su z := by
    unfold State.completeFeed; rw [hf, hz]
  have followed := State.trailFollowed_recomputeTrail (s.setFeed f { s.feed f with
      status := .attached { p with last := n, readDone := true, readSincePulse := true } }) su z (by
    refine List.ne_nil_of_mem (a := f) ?_
    simp [State.attachedFeeds, State.feed, State.setFeed, FeedStatus.position?, hz])
  have vr := followed.rest .vr (by decide)
  rw [e, vr]
  exact followed

theorem State.zoneUnset_unsetZone (s : State) (su : Setup) (z : Fin 24) :
    s.ZoneUnset (s.unsetZone su z) su z := by
  refine ⟨s.updZone z (fun x => { x with timeline := none }), s.zone_updZone z _,
    fun k hk => s.zone_updZone_ne z k _ hk, fun _ => rfl, fun p hp => by
      cases p <;> first | rfl | simp at hp, fun h => ?_, fun w h => ?_⟩
  · unfold State.unsetZone; rw [h]
  · unfold State.unsetZone; rw [h, ← State.horizonOrZero_eq]
    exact ⟨_, State.givenOutcome_giveOutcome .., State.windowMoved_settleWindow ..⟩

theorem State.zoneLeft_zoneLeft (s : State) (su : Setup) (z : Fin 24) : s.ZoneLeft (s.zoneLeft su z) su z := by
  unfold State.ZoneLeft State.zoneLeft
  refine ⟨fun h => ?_, fun h => ?_⟩
  · rw [if_neg (by simpa using h)]; exact s.trailFollowed_recomputeTrail su z h
  · rw [if_pos (by simpa using h)]; exact s.zoneUnset_unsetZone su z

/-- A feed record set with its report. -/
theorem State.feedChanged_setFeed (s : State) (su : Setup) (f : Fin 32) (x : Feed) (n : SSN) (b : FeedNews)
    (r : FeedReason) :
    s.FeedChanged ((s.handFeedState su f n b x.status.news r (s.attachedBeside su f)).setFeed f x) su f x n b r where
  feed := Vector.getElem_set_self ..
  feeds := fun k hk => by
    unfold State.handFeedState
    rw [State.hand_changes]
    simp [State.feed, State.setFeed, Fin.val_ne_of_ne (Ne.symm hk)]
  report := ⟨s.attachedBeside su f, rfl, fun z hz => by unfold State.attachedBeside; rw [hz],
    fun hz => by unfold State.attachedBeside; rw [hz]⟩
  rest := fun p hp => by
    unfold State.handFeedState
    rw [State.hand_changes]
    cases p <;> first | rfl | simp at hp

theorem State.leftAttached_leaveAttached (s : State) (su : Setup) (f : Fin 32) (p : Position)
    (target : FeedStatus) (r : FeedReason) (h : (s.feed f).status = .attached p) :
    State.LeftAttached su target r f s (s.leaveAttached su f p target r) := by
  unfold State.LeftAttached State.leaveAttached State.dropFeed
  rw [h]
  refine ⟨_, s.feedChanged_setFeed su f
    { status := target, inFlight := (s.feed f).inFlight.map InFlight.uncounted } p.last .attached r,
    fun z hz => ?_, fun hz => ?_⟩
  · rw [hz]; exact State.zoneLeft_zoneLeft ..
  · rw [hz]

theorem State.leftAttached_slip (s : State) (su : Setup) (r : FeedReason) (f : Fin 32) :
    State.LeftAttached su .slipped r f s (s.slip su r f) := by
  unfold State.slip
  split
  · next h => exact s.leftAttached_leaveAttached su f _ _ r h
  · next h =>
    unfold State.LeftAttached
    split
    · next p hp => exact absurd hp (h p)
    · rfl

theorem State.feedStopped_stopFeed (s : State) (su : Setup) (f : Fin 32) :
    State.FeedStopped su f s (s.stopFeed su f) := by
  unfold State.FeedStopped State.stopFeed State.dropFeed
  cases (s.feed f).status with
  | attached p =>
    dsimp only
    exact s.feedChanged_setFeed su f
      { status := .detached, inFlight := (s.feed f).inFlight.map InFlight.uncounted } p.last
        .attached .stop
  | slipped =>
    dsimp only
    exact s.feedChanged_setFeed su f { s.feed f with status := .detached } 0 .slipped .stop
  | detached => rfl

end Sys2Proof.Machine
end

