-- ==== Sys2Proof/Laws/Accepting.lean ====
section
/-! SUPPORT. Outcomes given to zones, ring writes accepted, held writes examined and released, and the entry to
CONFIG, as the statements have them. -/

namespace Sys2Proof.Machine

/-! ## Outcomes (R100, R122) -/

/-- What a round of outcomes leaves alone: the copies, the run state and every zone's timeline. -/
structure Timed (s t : State) : Prop where
  ps : t.ps = s.ps
  timelines : ∀ z, (t.zone z).timeline = (s.zone z).timeline

theorem Timed.refl (s : State) : Timed s s := ⟨rfl, fun _ => rfl⟩

theorem Timed.trans {a b c : State} (h : Timed a b) (k : Timed b c) : Timed a c :=
  ⟨k.ps.trans h.ps, fun z => (k.timelines z).trans (h.timelines z)⟩

theorem State.timed_hand (s : State) (r : Report) : Timed s (s.hand r) := by
  rw [s.hand_changes r]; exact ⟨rfl, fun _ => rfl⟩

theorem State.timed_leaveWindow (s : State) (w : Fin 64) (z : Fin 24) : Timed s (s.leaveWindow w z) := by
  unfold State.leaveWindow
  split
  · refine ⟨rfl, fun k => ?_⟩
    by_cases h : k = z
    · subst h; rw [State.zone_updZone]; rfl
    · rw [State.zone_updZone_ne _ _ _ _ h]
  · exact .refl s

theorem State.timed_giveOutcome (s : State) (w : Fin 64) (z : Fin 24) (o : ZoneOutcome) (n : SSN) :
    Timed s (s.giveOutcome w z o n) := by
  unfold State.giveOutcome
  split
  · exact .refl s
  · refine Timed.trans ?_ (State.timed_hand _ _)
    exact Timed.trans (b := s.recordOutcome w z o) ⟨rfl, fun _ => rfl⟩ (State.timed_leaveWindow ..)

/-- The windows after an outcome: it is kept where there was none, and no status changes (R100). -/
theorem State.window_giveOutcome (s : State) (w k : Fin 64) (z : Fin 24) (o : ZoneOutcome) (n : SSN) :
    (s.giveOutcome w z o n).window k =
      if k = w ∧ (s.window w).outcomes[z] = none then
        { s.window w with outcomes := (s.window w).outcomes.set z (some o) }
      else s.window k := by
  unfold State.giveOutcome
  split
  · next h => rw [if_neg]; rintro ⟨_, e⟩; rw [e] at h; cases h
  · next h =>
    have e : (s.window w).outcomes[z] = none := by simpa using h
    have leave : ∀ t : State, (t.leaveWindow w z).window k = t.window k := by
      intro t; unfold State.leaveWindow; split <;> rfl
    rw [State.window_hand, leave, State.recordOutcome, State.window_setWindow_eq]
    by_cases hk : w = k
    · rw [if_pos hk, if_pos ⟨hk.symm, e⟩]
    · rw [if_neg hk, if_neg (fun c => hk c.1.symm)]

/-- The outcomes after an outcome: the zone's where there was none, and no other (R100). -/
theorem State.outcomes_giveOutcome (s : State) (w k : Fin 64) (z y : Fin 24) (o : ZoneOutcome) (n : SSN) :
    ((s.giveOutcome w z o n).window k).outcomes[y] =
      if k = w ∧ y = z ∧ (s.window k).outcomes[y] = none then some o else (s.window k).outcomes[y] := by
  have e := congrArg (fun x : Window => x.outcomes[y]) (s.window_giveOutcome w k z o n)
  refine e.trans ?_
  by_cases hk : k = w
  · subst hk
    by_cases hy : y = z
    · subst hy
      by_cases ho : (s.window k).outcomes[y] = none
      · rw [if_pos ⟨rfl, ho⟩, if_pos ⟨rfl, rfl, ho⟩]
        exact Vector.getElem_set_self ..
      · rw [if_neg (fun c => ho c.2), if_neg (fun c => ho c.2.2)]
    · have : ((s.window k).outcomes.set z.val (some o))[y] = (s.window k).outcomes[y] := by
        simp [Fin.val_ne_of_ne (Ne.symm hy)]
      split
      · simpa [hy] using this
      · simp [hy]
  · simp [hk]

/-- Settling a window's state leaves outcomes, timelines and every other window alone. -/
theorem State.settleWindow_keeps (s : State) (su : Setup) (w : Fin 64) :
    Timed s (s.settleWindow su w) ∧ (∀ k, k ≠ w → (s.settleWindow su w).window k = s.window k) ∧
      ∀ z : Fin 24, ((s.settleWindow su w).window w).outcomes[z] = (s.window w).outcomes[z] := by
  have key : ∀ (x : WindowStatus) r, let t := (s.setWindow w { s.window w with status := x }).hand r
      Timed s t ∧ (∀ k, k ≠ w → t.window k = s.window k) ∧
        ∀ z : Fin 24, (t.window w).outcomes[z] = (s.window w).outcomes[z] := by
    intro x r
    refine ⟨Timed.trans (b := s.setWindow w { s.window w with status := x }) ⟨rfl, fun _ => rfl⟩
      (State.timed_hand _ _), fun k hk => ?_, fun z => ?_⟩
    · rw [State.window_hand, State.window_setWindow_eq, if_neg (Ne.symm hk)]
    · have e := (State.window_hand (s.setWindow w { s.window w with status := x }) r w).trans
        ((State.window_setWindow_eq ..).trans (if_pos rfl))
      exact (congrArg (fun x : Window => x.outcomes[z]) e).trans rfl
  unfold State.settleWindow
  dsimp only
  repeat' split
  all_goals first
    | exact key _ _
    | exact ⟨.refl s, fun _ _ => rfl, fun _ => rfl⟩

/-- A round of one outcome over several zones: each that held none is given it (R100). -/
theorem State.foldl_giveOutcome (w : Fin 64) (o : ZoneOutcome) (n : SSN) (zs : List (Fin 24)) (s : State) :
    let t := zs.foldl (fun s z => s.giveOutcome w z o n) s
    Timed s t ∧ (∀ k, k ≠ w → t.window k = s.window k) ∧ (t.window w).status = (s.window w).status ∧
      ∀ z : Fin 24, (t.window w).outcomes[z] =
        if z ∈ zs ∧ (s.window w).outcomes[z] = none then some o else (s.window w).outcomes[z] := by
  induction zs generalizing s with
  | nil => exact ⟨.refl s, fun _ _ => rfl, rfl, fun z => by simp⟩
  | cons y zs ih =>
    obtain ⟨h1, h2, h3, h4⟩ := ih (s.giveOutcome w y o n)
    have win := fun k => s.window_giveOutcome w k y o n
    refine ⟨(s.timed_giveOutcome w y o n).trans h1, fun k hk => ?_, ?_, fun z => (h4 z).trans ?_⟩
    · exact (h2 k hk).trans ((win k).trans (if_neg (fun c => hk c.1)))
    · refine h3.trans ((congrArg (·.status) (win w)).trans ?_)
      split <;> rfl
    · have out := s.outcomes_giveOutcome w w y z o n
      by_cases e : (s.window w).outcomes[z] = none <;> by_cases hz : z = y <;>
        simp only [e, hz, true_and, and_true, and_false, if_false, List.mem_cons,
          true_or, false_or] at out ⊢ <;> simp_all

/-- UNATTENDED for one window (R122). -/
theorem State.unattendWindow_gives (s : State) (su : Setup) (n : SSN) (w : Fin 64) :
    let t := s.unattendWindow su n w
    Timed s t ∧ (∀ k, k ≠ w → t.window k = s.window k) ∧
      ∀ z : Fin 24, (t.window w).outcomes[z] =
        if (s.window w).status.open? = true ∧ precedes (s.windowRec w).finish n = true ∧
            z ∈ s.windowZones su w ∧ (s.zone z).timeline = none ∧ (s.window w).outcomes[z] = none then
          some .unattended
        else (s.window w).outcomes[z] := by
  unfold State.unattendWindow
  dsimp only
  split
  · next h =>
    simp only [Bool.and_eq_true] at h
    obtain ⟨h1, h2, h3, h4⟩ := State.foldl_giveOutcome w .unattended n
      ((s.windowZones su w).filter (fun z => (s.zone z).timeline.isNone)) s
    obtain ⟨k1, k2, k3⟩ := State.settleWindow_keeps (((s.windowZones su w).filter
      (fun z => (s.zone z).timeline.isNone)).foldl (fun s z => s.giveOutcome w z .unattended n) s) su w
    refine ⟨h1.trans k1, fun k hk => (k2 k hk).trans (h2 k hk), fun z => (k3 z).trans ((h4 z).trans ?_)⟩
    simp only [List.mem_filter, Option.isNone_iff_eq_none, h.1, h.2, true_and, and_assoc]
  · next h =>
    refine ⟨.refl s, fun _ _ => rfl, fun z => ?_⟩
    exact (if_neg (fun c => h (by simp [c.1, c.2.1]))).symm

theorem State.foldl_unattendWindow (su : Setup) (n : SSN) (ws : List (Fin 64)) (hn : ws.Nodup) (s : State) :
    let t := ws.foldl (fun s w => s.unattendWindow su n w) s
    Timed s t ∧ ∀ (w : Fin 64) (z : Fin 24), (t.window w).outcomes[z] =
      if w ∈ ws ∧ (s.window w).status.open? = true ∧ precedes (s.windowRec w).finish n = true ∧
          z ∈ s.windowZones su w ∧ (s.zone z).timeline = none ∧ (s.window w).outcomes[z] = none then
        some .unattended
      else (s.window w).outcomes[z] := by
  induction ws generalizing s with
  | nil => exact ⟨.refl s, fun w z => by simp⟩
  | cons v ws ih =>
    obtain ⟨hv, hn⟩ := List.nodup_cons.mp hn
    obtain ⟨g1, g2, g3⟩ := s.unattendWindow_gives su n v
    obtain ⟨h1, h2⟩ := ih hn (s.unattendWindow su n v)
    refine ⟨g1.trans h1, fun w z => (h2 w z).trans ?_⟩
    have rec' : (s.unattendWindow su n v).windowRec w = s.windowRec w := by
      unfold State.windowRec; rw [g1.ps]
    have zs' : (s.unattendWindow su n v).windowZones su w = s.windowZones su w := by
      unfold State.windowZones; rw [rec']
    rw [rec', zs', g1.timelines]
    by_cases hw : w = v
    · subst hw
      refine (if_neg (fun c => hv c.1)).trans ((g3 z).trans ?_)
      simp
    · have e : ((s.unattendWindow su n v).window w).outcomes[z] = (s.window w).outcomes[z] :=
        congrArg (fun x : Window => x.outcomes[z]) (g2 w hw)
      simp only [g2 w hw, List.mem_cons, hw, false_or]

/-- An advance of the national head (R122). -/
theorem State.nationalHeadAdvance_gives (s : State) (su : Setup) (n : SSN) :
    let t := s.nationalHeadAdvance su n
    Timed s t ∧ ∀ (w : Fin 64) (z : Fin 24), (t.window w).outcomes[z] =
      if (s.window w).status.open? = true ∧ precedes (s.windowRec w).finish n = true ∧
          z ∈ s.windowZones su w ∧ (s.zone z).timeline = none ∧ (s.window w).outcomes[z] = none then
        some .unattended
      else (s.window w).outcomes[z] := by
  have h := State.foldl_unattendWindow su n (List.finRange 64) (List.nodup_finRange 64) s
  exact ⟨h.1, fun w z => (h.2 w z).trans (by simp only [List.mem_finRange, true_and])⟩

/-! ## Acceptance (R85, R92) -/

theorem pathIndex_inj {r r' : Fin 12} {p p' : Path} (h : pathIndex r p = pathIndex r' p') : r = r' ∧ p = p' := by
  cases p <;> cases p' <;> simp [pathIndex, Fin.ext_iff] at h ⊢ <;> omega

theorem State.path_setPath (s : State) (r r' : Fin 12) (p p' : Path) (x : PathState) :
    (s.setPath r p x).path r' p' = if pathIndex r p = pathIndex r' p' then x else s.path r' p' := by
  simp only [State.path, State.setPath, Fin.getElem_fin, Vector.getElem_set]
  simp [Fin.ext_iff]

/-- An acceptance shows in the Ingest Checker, the Zone Scheduler and the reports alone. -/
theorem State.Accepted.of_parts {s t u : State} {su : Setup} {ring : RingId} {k : Nat} {cell : List Byte}
    (h : s.Accepted t su ring k cell) (ic : u.ic = t.ic) (zs : u.zs = t.zs)
    (rw' : u.rw = t.rw) : s.Accepted u su ring k cell := by
  have e1 : ∀ r k, u.entry r k = t.entry r k := fun _ _ => by unfold State.entry; rw [ic]
  have e2 : ∀ r, u.head r = t.head r := fun r => by cases r <;> simp only [State.head, State.path, ic]
  have e3 : ∀ r p, u.path r p = t.path r p := fun _ _ => by unfold State.path; rw [ic]
  have e4 : ∀ z, u.zone z = t.zone z := fun _ => by unfold State.zone; rw [zs]
  have e5 : ∀ w, u.window w = t.window w := fun _ => by unfold State.window; rw [zs]
  exact
    { entry := (e1 ..).trans h.entry
      entries := fun r k hk => (e1 ..).trans (h.entries r k hk)
      head := (e2 _).trans h.head
      heads := fun r hr => (e2 r).trans (h.heads r hr)
      paths := fun r p => by rw [e3]; exact h.paths r p
      timelines := fun z => by rw [e4]; exact h.timelines z
      advance := by
        refine ⟨fun c => ?_, fun c => ?_⟩
        · obtain ⟨a, b, a1, a2, a3, a4, acts, b1, b2⟩ := h.advance.1 c
          exact ⟨a, b, a1, a2, a3, a4, acts, zs.trans b1, rw'.trans b2⟩
        · exact (h.advance.2 c).imp zs.trans rw'.trans
      outcomes := fun w z => by
        have e : (u.window w).outcomes[z] = (t.window w).outcomes[z] :=
          congrArg (fun x : Window => x.outcomes[z]) (e5 w)
        refine ⟨fun c => e.trans ((h.outcomes w z).1 c), fun c => e.trans ((h.outcomes w z).2 c)⟩ }

/-- A moved head (R92): the directory and the rest of every path stay. -/
theorem State.setHead_keeps (s : State) (n : SSN) (ring : RingId) :
    let t := s.setHead n ring
    (∀ r k, t.entry r k = s.entry r k) ∧ t.head ring = some n ∧ (∀ r, r ≠ ring → t.head r = s.head r) ∧
      (∀ r p, (t.path r p).score = (s.path r p).score ∧ (t.path r p).health = (s.path r p).health ∧
        (t.path r p).timer = (s.path r p).timer) ∧ t.zs = s.zs ∧ t.ps = s.ps ∧ t.tb = s.tb ∧ t.rw = s.rw := by
  cases ring with
  | national =>
    refine ⟨fun _ _ => rfl, rfl, fun r hr => ?_, fun _ _ => ⟨rfl, rfl, rfl⟩, rfl, rfl, rfl, rfl⟩
    cases r with
    | national => exact absurd rfl hr
    | regional r p => rfl
  | regional r p =>
    have path := fun r' p' => s.path_setPath r r' p p' { s.path r p with head := some n }
    refine ⟨fun _ _ => rfl, ?_, fun r' hr => ?_, fun r' p' => ?_, rfl, rfl, rfl, rfl⟩
    · exact congrArg (·.head) ((path r p).trans (if_pos rfl))
    · cases r' with
      | national => rfl
      | regional r' p' =>
        refine congrArg (·.head) ((path r' p').trans (if_neg (fun h => hr ?_)))
        obtain ⟨rfl, rfl⟩ := pathIndex_inj h
        rfl
    · have e := path r' p'
      by_cases h : pathIndex r p = pathIndex r' p'
      · obtain ⟨rfl, rfl⟩ := pathIndex_inj h
        rw [if_pos rfl] at e
        exact ⟨congrArg (·.score) e, congrArg (·.health) e, congrArg (·.timer) e⟩
      · rw [if_neg h] at e
        exact ⟨congrArg (·.score) e, congrArg (·.health) e, congrArg (·.timer) e⟩

/-- The acceptance of a ring write (R85, R86, R92, R122). -/
theorem State.accepted_acceptRingWrite (s : State) (su : Setup) (l : Fin 8) (ring : RingId) (k : Nat)
    (r : Request) : s.Accepted (s.acceptRingWrite su l ring k r) su ring k r.body.data := by
  unfold State.acceptRingWrite
  dsimp only
  generalize r.body.data = cell
  generalize he : arrivingEntry ring (s.head ring) cell = e
  have ent : ∀ ring' k', (s.setEntry ring k e).entry ring' k' =
      if dirKey ring k = dirKey ring' k' then some e else s.entry ring' k' := fun ring' k' =>
    lookup_insertAt ..
  have own : (s.setEntry ring k e).entry ring k = some e := by rw [ent, if_pos rfl]
  have others : ∀ ring' k', dirKey ring' k' ≠ dirKey ring k →
      (s.setEntry ring k e).entry ring' k' = s.entry ring' k' := by
    intro r' k' h
    rw [ent, if_neg (Ne.symm h)]
  refine State.Accepted.of_parts (t := (s.setEntry ring k e).moveHead su ring (cellSsn cell)) ?_ rfl rfl rfl
  have head : (s.setEntry ring k e).head ring = s.head ring := by cases ring <;> rfl
  obtain ⟨h1, h2, h3, h4, h5, h6, h7, h8⟩ := (s.setEntry ring k e).setHead_keeps (cellSsn cell) ring
  unfold State.moveHead
  rw [head]
  by_cases adv : headAdvances (s.head ring) (cellSsn cell) = true
  · rw [if_pos adv]
    have moved : (match s.head ring with
        | none => some (cellSsn cell)
        | some h => if precedes h (cellSsn cell) then some (cellSsn cell) else some h) =
        some (cellSsn cell) := by
      unfold headAdvances at adv
      split at adv <;> simp_all
    have base : s.Accepted ((s.setEntry ring k e).setHead (cellSsn cell) ring) su ring k cell ∨
        ring = .national := by
      cases ring with
      | national => exact .inr rfl
      | regional r p =>
        refine .inl
          { entry := (h1 ..).trans (own.trans (by rw [← he]; rfl))
            entries := fun r' k' h => (h1 ..).trans (others r' k' h)
            head := h2.trans moved.symm
            heads := fun r' hr => (h3 r' hr).trans (by cases r' <;> rfl)
            paths := h4
            timelines := fun z => rfl
            advance := ⟨fun c => absurd c.1 (by simp), fun _ => ⟨rfl, rfl⟩⟩
            outcomes := fun w z => ⟨fun c => absurd c.1 (by simp), fun _ => rfl⟩ }
    cases ring with
    | regional r p => exact base.resolve_right (by simp)
    | national =>
      generalize (s.setEntry .national k e).setHead (cellSsn cell) .national = v at *
      obtain ⟨g1, g2⟩ := v.nationalHeadAdvance_gives su (cellSsn cell)
      have ic : (v.nationalHeadAdvance su (cellSsn cell)).ic = v.ic :=
        (State.zoned_nationalHeadAdvance v su (cellSsn cell)).scheduled.ic
      have e1 : ∀ r k, (v.nationalHeadAdvance su (cellSsn cell)).entry r k = v.entry r k := fun _ _ => by
        unfold State.entry; rw [ic]
      have e2 : ∀ r, (v.nationalHeadAdvance su (cellSsn cell)).head r = v.head r := fun r => by
        cases r <;> simp only [State.head, State.path, ic]
      have e3 : ∀ r p, (v.nationalHeadAdvance su (cellSsn cell)).path r p = v.path r p := fun _ _ => by
        unfold State.path; rw [ic]
      have window : ∀ w, v.window w = s.window w := fun w => by unfold State.window; rw [h5]; rfl
      have zone : ∀ z, v.zone z = s.zone z := fun w => by unfold State.zone; rw [h5]; rfl
      have record : ∀ w, v.windowRec w = s.windowRec w := fun w => by
        unfold State.windowRec; rw [h6]; rfl
      have zones : ∀ w, v.windowZones su w = s.windowZones su w := fun w => by
        unfold State.windowZones; rw [record]
      exact
        { entry := (e1 ..).trans ((h1 ..).trans (own.trans (by rw [← he]; rfl)))
          entries := fun r' k' h => (e1 ..).trans ((h1 ..).trans (others r' k' h))
          head := (e2 _).trans (h2.trans moved.symm)
          heads := fun r' hr => (e2 r').trans ((h3 r' hr).trans (by cases r' <;> rfl))
          paths := fun r p => by rw [e3]; exact h4 r p
          timelines := fun z => (g1.timelines z).trans (by rw [zone])
          advance := ⟨fun _ => ⟨v, _, h5, h6, h7, h8,
              InTurn.foldl (fun s w => s.windowUnattended_unattendWindow su (cellSsn cell) w) _ v, rfl, rfl⟩,
            fun c => absurd ⟨rfl, fun h hh => by rw [hh] at adv; exact adv⟩ c⟩
          outcomes := fun w z => by
            have o : (v.window w).outcomes[z] = (s.window w).outcomes[z] :=
              congrArg (fun x : Window => x.outcomes[z]) (window w)
            have g := g2 w z
            simp only [record, zones, zone, window, WindowStatus.open?_iff] at g
            refine ⟨fun c => g.trans (if_pos ⟨c.2.2.1, c.2.2.2.1, c.2.2.2.2.1, c.2.2.2.2.2.1, c.2.2.2.2.2.2⟩),
              fun c => g.trans (if_neg (fun d => c ⟨rfl, fun h hh => ?_, d.1, d.2.1, d.2.2.1, d.2.2.2.1,
                d.2.2.2.2⟩))⟩
            rw [hh] at adv
            exact adv }
  · rw [if_neg adv]
    have still : (match s.head ring with
        | none => some (cellSsn cell)
        | some h => if precedes h (cellSsn cell) then some (cellSsn cell) else some h) = s.head ring := by
      unfold headAdvances at adv
      split at adv <;> simp_all
    exact
      { entry := own.trans (by rw [← he]; rfl)
        entries := others
        head := head.trans still.symm
        heads := fun r' _ => by cases r' <;> rfl
        paths := fun _ _ => ⟨rfl, rfl, rfl⟩
        timelines := fun _ => rfl
        advance := ⟨fun c => absurd (show headAdvances (s.head ring) (cellSsn cell) = true from by
          unfold headAdvances
          split
          · rfl
          · next x hx => exact c.2 x hx) adv, fun _ => ⟨rfl, rfl⟩⟩
        outcomes := fun w z => ⟨fun c => absurd c.2.1 (fun h => adv (by
          unfold headAdvances
          split
          · rfl
          · next x hx => exact h x hx)), fun _ => rfl⟩ }

/-- Nothing outside the zones, the Ingest Checker and the reports moves with a head. -/
theorem State.sameBut_moveHead (s : State) (su : Setup) (ring : RingId) (n : SSN) :
    s.SameBut (s.moveHead su ring n) [.ic, .zs, .rw] := by
  intro p hp
  unfold State.moveHead
  split
  · cases ring with
    | national =>
      have h := State.zoned_nationalHeadAdvance (s.setHead n .national) su n
      cases p with
      | ic => simp at hp
      | zs => simp at hp
      | rw => simp at hp
      | vr => exact h.vr
      | pending => exact h.scheduled.pending
      | la => exact h.scheduled.la
      | ac => exact h.scheduled.ac
      | ps => exact h.scheduled.ps
      | rg => exact h.scheduled.rg
      | tb => exact h.scheduled.tb
      | mem => exact h.scheduled.mem
      | resetAsserted => exact h.scheduled.resetAsserted
      | holdReq => exact h.scheduled.holdReq
      | freeCount => exact h.scheduled.freeCount
    | regional r p' => cases p <;> first | rfl | (exfalso; simp at hp)
  · cases p <;> rfl

/-! ## Examination and release (R172, R173) -/

theorem State.heldBack_iff (s : State) (su : Setup) (h : HeldWrite) :
    s.heldBack su h = true ↔ s.StillHeld su h := by
  unfold State.heldBack State.StillHeld State.drainHold
  split
  · next r => simp only [r, true_and, Bool.true_eq_false, false_and, or_false]
  · next r =>
    have r : s.isRunning = false := by simpa using r
    simp only [r, Bool.false_eq_true, false_and, false_or, true_and, List.any_eq_true, List.mem_finRange]
    constructor
    · rintro ⟨f, h'⟩
      split at h'
      · next rd e => exact ⟨f, rd, e, by simpa using h'⟩
      · cases h'
    · rintro ⟨f, rd, e, h1, h2⟩
      exact ⟨f, by rw [e]; simp [h1, h2]⟩

/-- A held write's release, as the statements have it (R86, R173). -/
theorem State.releasedAs_release (s : State) (su : Setup) (h : HeldWrite) :
    s.ReleasedAs (s.release su h) su h := by
  have run : (s.dropHeld h.lane).isRunning = s.isRunning := rfl
  unfold State.release
  dsimp only
  rw [run]
  cases hr : s.isRunning with
  | true =>
    rw [if_pos rfl]
    have acc := (s.dropHeld h.lane).accepted_acceptRingWrite su h.lane h.ring h.slot h.req
    have mv := ((s.dropHeld h.lane).setEntry h.ring h.slot
      (arrivingEntry h.ring ((s.dropHeld h.lane).head h.ring) h.req.body.data)).sameBut_moveHead su h.ring
        (cellSsn h.req.body.data)
    unfold State.acceptRingWrite at acc ⊢
    dsimp only at acc ⊢
    generalize State.moveHead _ su h.ring (cellSsn h.req.body.data) = u at acc mv ⊢
    have la : u.la = s.la := mv .la (by simp)
    refine
      { list := congrArg (·.held) (mv .rg (by simp) : u.rg = _)
        lane := by rw [hr]; exact Vector.getElem_set_self ..
        lanes := fun k hk => ?_
        arbiter := ?_
        accepted := fun _ => ⟨acc.entry, acc.entries, acc.head, acc.heads, acc.paths, acc.timelines,
          acc.advance, acc.outcomes⟩
        unaccepted := fun c => absurd (hr.symm.trans c) (by simp)
        rest := fun p hp => ?_ }
    · simp [State.lane, State.present, State.setLane, Fin.val_ne_of_ne (Ne.symm hk), la]
    · simp [State.present, State.setLane, la]
    · cases p <;> first
        | (exfalso; simp at hp; done)
        | exact mv .pending (by simp)
        | exact mv .ac (by simp)
        | exact mv .ps (by simp)
        | exact mv .vr (by simp)
        | exact mv .tb (by simp)
        | exact mv .mem (by simp)
        | exact mv .resetAsserted (by simp)
        | exact mv .holdReq (by simp)
        | exact mv .freeCount (by simp)
  | false =>
    rw [if_neg (by simp)]
    exact
      { list := rfl
        lane := by rw [hr]; exact Vector.getElem_set_self ..
        lanes := fun k hk => by
          simp [State.lane, State.present, State.setLane, State.dropHeld, Fin.val_ne_of_ne (Ne.symm hk)]
        arbiter := rfl
        accepted := fun c => absurd (hr.symm.trans c) (by simp)
        unaccepted := fun _ p hp => by cases p <;> first | rfl | (exfalso; simp at hp)
        rest := fun p hp => by cases p <;> first | rfl | (exfalso; simp at hp) }

/-- An examination of a list, write by write (R172). -/
theorem State.examined_examineList (su : Setup) (l : List HeldWrite) (s : State) :
    State.Examined su l s (State.examineList su l s) := by
  induction l generalizing s with
  | nil => rfl
  | cons h l ih =>
    by_cases e : s.heldBack su h = true
    · refine ⟨s, ⟨fun _ => rfl, fun c => absurd ((s.heldBack_iff su h).1 e) c⟩, ?_⟩
      simpa only [State.examineList, State.Examined, e, if_true] using ih s
    · refine ⟨s.release su h, ⟨fun c => absurd ((s.heldBack_iff su h).2 c) e,
        fun _ => s.releasedAs_release su h⟩, ?_⟩
      simpa only [State.examineList, State.Examined, if_neg e] using ih (s.release su h)

/-! ## Entry to CONFIG (R66) -/

/-- An entry to CONFIG, as the statements have it (R66). -/
theorem State.enteredConfig_enterConfig (s : State) (idle : ∀ g, s.la.port ≠ .busy g) :
    s.EnteredConfig s.enterConfig where
  run := rfl
  reservation := fun r => by
    show (match s.la.port with | .reserved _ => Port.free | p => p) ≠ _
    split
    · simp
    · next n => exact fun c => n r c
  urgentPtr := rfl
  normalPtr := by
    show 0 = match (match s.la.port with | .reserved _ => Port.free | p => p) with
      | .busy g => g.lane | _ => 0
    cases h : s.la.port with
    | busy g => exact absurd h (idle g)
    | _ => rfl
  entries := fun _ _ => rfl
  heads := fun ring => by
    cases ring with
    | national => rfl
    | regional r p =>
      have : ∀ r, (State.reset.path r .a).head = none ∧ (State.reset.path r .b).head = none := by
        decide +kernel
      cases p
      · exact (this r).1
      · exact (this r).2
  paths := fun r p => by
    have : ∀ r, (State.reset.path r .a = PathState.reset) ∧ State.reset.path r .b = PathState.reset := by
      decide +kernel
    have e : s.enterConfig.path r p = PathState.reset := by
      cases p
      · exact (this r).1
      · exact (this r).2
    rw [e]
    exact ⟨rfl, rfl, rfl⟩
  windows := fun _ => rfl
  zones := fun z => by
    have e : s.enterConfig.zone z = (s.zone z).configured := Vector.getElem_map ..
    rw [e]
    exact ⟨rfl, rfl, rfl, rfl, rfl⟩
  feeds := fun f => by
    have : ∀ f, (State.reset.feed f).status = .detached ∧ (State.reset.feed f).inFlight = none := by
      decide +kernel
    exact this f
  timebase := rfl
  reports := ⟨rfl, rfl, rfl, rfl⟩
  readWrite := by
    show s.rw.readWrite.overtake = _
    cases s.rw.readWrite <;> rfl
  irq := by
    show (_ && _) = false
    rfl
  rest := fun p hp => by cases p <;> first | rfl | (exfalso; simp at hp)
end Sys2Proof.Machine
end

