-- ==== Sys2Proof/WellFormed.lean ====
section
/-! DEFINITION. What a command's operands must satisfy beyond their types. -/

namespace Sys2Proof

/-- A WRITE carries as many data bytes as its length, a READ carries none (section 2.1).
Every other operand is kept in range by its type; the form rules of R20 are no part of this,
since the part itself answers a request that breaks them. -/
def Instr.wellFormed : Instr → Bool
  | .laneRequest _ .write _ length _ data => data.length == length
  | .laneRequest _ .read _ _ _ data => data.isEmpty
  | _ => true

end Sys2Proof
end

