-- ==== Sys2Proof/Tests/Slice0.lean ====
section
/-! SUPPORT. The model's own tests: the checks of WellFormed, tables and worked values of the manual, one step of
the commands, and for every obligation with hypotheses states and operands that meet them. -/

open Sys2Proof Sys2Proof.Machine

namespace Sys2Proof.Tests

set_option Elab.async false

/-! ## Ill-formed commands -/

/-- Ill-formed: a WRITE whose data is not as long as its length (section 2.1). -/
theorem test_write_data_length :
    Instr.wellFormed (.laneRequest 0 .write 0 16 false [1]) = false := by decide

/-- Ill-formed: a READ that carries data (section 2.1). -/
theorem test_read_carries_no_data :
    Instr.wellFormed (.laneRequest 0 .read 0 8 false [1]) = false := by decide

/-! ## States to test with -/

/-- A small valid setup: lane 0 CONTROL, 1 to 3 INGEST (1 national, 2 and 3 the paths of region 0), 4 EMISSION
and URGENT, 5 NONE, 6 CONTROL and URGENT, 7 CONTROL; one region, one zone, two feeds, the second
without a lane. -/
def small : Setup :=
  { natBase := 0x100000, regBase := 0x200000, viewBase := 0x400000, reportBase := 0x600000
    nr := 256, rs := 256, reportSize := 64, tickDiv := 1, spreadMax := 16, armLead := 16
    entryGrace := 4, returnGrace := 4, holdLimit := 2, pulseTimeout := 2, jumpMax := 3
    linkWait := 2, stallPulses := 2, pulseReport := true, urgentOrder := 1, normalOrder := 0
    natLane := 1
    lanes := #v[⟨1, false⟩, ⟨2, false⟩, ⟨2, false⟩, ⟨2, false⟩, ⟨3, true⟩, ⟨0, false⟩, ⟨1, true⟩,
      ⟨1, false⟩]
    regions := (Vector.replicate 12 ⟨false, 0, 0, 0⟩).set 0 ⟨true, 2, 3, 0⟩
    zones := (Vector.replicate 24 ⟨false, 0⟩).set 0 ⟨true, 0⟩
    feeds := ((Vector.replicate 32 ⟨false, 0, 0⟩).set 0 ⟨true, 0, 4⟩).set 1 ⟨true, 0, 0xFF⟩
    profiles := Vector.replicate 4 ⟨4, 2, 10, 5, 3⟩ }

/-- A window record: region 0, pair (5, 9), conceal limit 2, slots 100 to 200, action SUBMIT. -/
def recordBytes : List Byte :=
  [1, 0, 0, 0, 2, 1, 0, 0] ++ beBytes 4 100 ++ beBytes 4 200 ++ beBytes 2 5 ++ beBytes 2 9

/-- The copies with that record as record 0. -/
def copy0 : Memory := writeBytes [] 0x1000 recordBytes

/-- A state in which the small setup is in force and every plan word known. -/
def inForce (run : RunState) : State :=
  State.reset.withPlan
    { run := run, planCopy := copy0, unknown := [], drainFlag := false, stopTicket := 7 }

def running : State := inForce (.running small)
def stopping : State := inForce (.stopping small)
def config : State := inForce .config

def writeOf (addr : Addr) (data : List Byte) : Request :=
  { addr := addr, body := .write data, link := false }

def readOf (addr : Addr) (n : Nat) : Request := { addr := addr, body := .read n, link := false }

def zeros (n : Nat) : List Byte := List.replicate n 0

/-- The grant of the first access of a sequence. -/
def granted (l : Fin 9) : Grant := { lane := l, link := false, count := 1 }

/-- The state with an access in progress. -/
def busy (s : State) (l : Fin 9) (a : Access) : State :=
  (s.setLane l (.active a)).setPort (.busy (granted l))

/-- A plan write of lane 0. -/
def plan (addr : Addr) (data : List Byte) : Access := { req := writeOf addr data, kind := .plan false }

/-- A write of the command record. -/
def commandOf (code : Byte) (arg1 arg2 : Nat) : Access :=
  plan 0x2000 ([code, 0, 0, 7, 0, 0, 0, 0] ++ beBytes 4 arg1 ++ beBytes 4 arg2)

/-- Zone 0 in a state, with an open run, horizon and trail. -/
def withZone0 (s : State) (status : ZoneStatus) (source : RunSource) (horizon trail : SSN) : State :=
  s.setZone 0 { Zone.reset with
    status := status
    timeline := some
      { horizon := horizon
        trail := trail
        log := [{ first := trail, source := source, cause := .attach, window := none }]
        logFull := false } }

/-- Zone 0 with another log. -/
def withLog (s : State) (log : List Run) : State :=
  s.updZone 0 (fun x => { x with timeline := x.timeline.map (fun t => { t with log := log }) })

/-- A run of window 0 with its pair. -/
def runOf (first : SSN) (source : RunSource) (cause : RunCause) (brk : Option SSN) : Run :=
  { first := first
    source := source
    cause := cause
    window := some { window := 0, pairs := [(5, 9)], concealNational := true, breaks := [brk] } }

/-- Window 0 in a state, no zone with an outcome. -/
def withWindow0 (s : State) (status : WindowStatus) : State :=
  s.setWindow 0 { Window.reset with status := status }

/-- Feed 0 attached with its next SSN and last. -/
def attachedAt (next last : SSN) : FeedStatus :=
  .attached { next := next, last := last, readDone := true, readSincePulse := true, stall := 0 }

def withFeed0 (s : State) (status : FeedStatus) (read : Option InFlight) : State :=
  s.setFeed 0 { status := status, inFlight := read }

/-- A GOOD entry. -/
def good (n : SSN) (tag : Tag) : Entry :=
  { state := .good, ssn := n, tag := tag, splice := true, late := 0 }

/-- A cell with an SSN, its mark right. -/
def cellOf (n : SSN) : List Byte := [0xA7, 0, 0, 5, 0, 0] ++ beBytes 4 n.toNat ++ zeros 246

/-- A log of 32 runs. -/
def full : List Run :=
  List.replicate 32 { first := 0, source := .national, cause := .attach, window := none }

/-- A held write of lane 2 on slot 0 of ring (0, A). -/
def held0 (timer : Nat) : HeldWrite :=
  { lane := 2, ring := .regional 0 .a, slot := 0, old := 0, new := 256
    req := writeOf 0x200000 (cellOf 256), timer := timer, expiries := 0 }

def withHeld (s : State) (timer : Nat) : State :=
  { s.setLane 2 (.held (held0 timer).req) with rg := { held := [held0 timer] } }

/-- A read in flight of the slot that the held write waits for. -/
def reading0 : InFlight :=
  { ssn := 0, ring := .regional 0 .a, addr := 0x200000, patchTag := none, setBreak := false
    counting := false }

/-! ## Tables and worked values of the manual -/

set_option maxRecDepth 20000 in
/-- The check of the payload of a null cell (R11). -/
theorem test_null_cell_check : cellCheck nullPayload = 0xDB36 := by decide +kernel

/-- The examples of serial order (section 1.5). -/
theorem test_serial_order :
    precedes 0xFFFFFFF0 0x10 = true ∧ precedes 0x10 0xFFFFFFF0 = false ∧ atOrBefore 5 5 = true ∧
    unordered 0 0x80000000 = true ∧ atOrBefore 0 0x80000000 = false ∧
    precedes 0x7FFFFFFF 0x80000000 = true ∧ between 0xFFFFFFF0 0xFFFFFFFE 0x10 = true ∧
    between 0xFFFFFFF0 0x20 0x10 = false := by decide +kernel

/-- The examples of the form check (section 2.2). -/
theorem test_form_check :
    (readOf 0x100000100 256).formOk = true ∧ (readOf 0x1000001C0 64).formOk = true ∧
    (readOf 0x1000001D0 64).formOk = false ∧ (readOf 0x100000004 24).formOk = false ∧
    (readOf 0x100000000 0).formOk = false ∧ (readOf 0x100000000 260).formOk = false := by
  decide +kernel

/-- The bytes of a ZONE_OUTCOME record (section 12.7): kind 5, window 3, region 1, zone 2, tick, SSN,
outcome ABORTED. -/
theorem test_record_bytes :
    ({ tick := 0x01020304, report := .zoneOutcome 3 1 2 0x0A0B0C0D .aborted } : Record).bytes =
      [5, 3, 1, 2, 0, 0, 0, 0, 1, 2, 3, 4, 10, 11, 12, 13, 4] ++ zeros 15 := by decide +kernel

/-- The small setup passes COMMIT validation. -/
theorem test_small_setup_is_valid : config.validateSetup small = none := by decide +kernel

/-! ## States and operands that meet the hypotheses of the obligations -/

/-- An access in progress, and a command that ends none. -/
theorem witness_CommandsAnswerAndKeepMemory :
    (busy running 0 (plan 0x3000 (zeros 8))).inProgress =
      some (granted 0, plan 0x3000 (zeros 8)) ∧ endsAccess .tick = false := by decide +kernel

/-- RESET_N asserted and released; the plan area's last byte. -/
theorem witness_ResetNReleasePlacesPlanArea :
    ({ running with resetAsserted := true } : State).resetAsserted = true ∧
    running.resetAsserted = false ∧ running.planBase ≤ 65535 ∧ 65535 < running.planBase + 65536 := by
  decide +kernel

/-- A set of SSNs that wraps, its span one below 2^31. -/
def wrapping : List SSN := [5, 0xFFFFFFFE, 0xFFFFFFF0, 0x7FFFFFEF]

theorem witness_SerialOrder_least :
    wrapping ≠ [] ∧ (∀ x ∈ wrapping, (x - 0xFFFFFFF0#32).toNat < 2 ^ 31) ∧
      least wrapping = some 0xFFFFFFF0#32 := by
  refine ⟨by decide +kernel, ?_, by decide +kernel⟩
  simp [wrapping]

/-- A cell 2^31 away from the SSN its entry holds. -/
theorem witness_SerialOrder :
    let s := running.setEntry .national 0 (good 0 5)
    let cell := cellOf 0x80000000
    cell.length = 256 ∧ cellMark cell = 0xA7 ∧ small.slotOf .national (cellSsn cell) = 0 ∧
    s.entry .national 0 = some (good 0 5) ∧ unordered (cellSsn cell) (good 0 5).ssn = true := by
  decide +kernel

theorem witness_ServedCellBytes : (zeros 256).length = 256 := by decide +kernel

/-- Nothing waits; the FIXED normal group picks its lowest lane; the ROTATING urgent group comes first; CONFIG. -/
theorem witness_GrantOrder :
    let a := plan 0x3000 (zeros 8)
    let s := (running.present 0 a).present 2 a
    running.pick = none ∧
    (s.pick = some 0 ∧ s.groupMode (s.isUrgent 0) = .fixed) ∧
    ((s.present 6 a).pick = some 6 ∧
      (s.present 6 a).groupMode ((s.present 6 a).isUrgent 6) = .rotating) ∧
    config.isConfig = true := by decide +kernel

/-- The port FREE with and without a requester, BUSY, RESERVED for a lane that waits, for a NORMAL lane with an
URGENT request waiting, and for one with none. -/
theorem witness_PortIsGranted :
    let a := plan 0x3000 (zeros 8)
    let kept : Reservation := { lane := 1, urgent := false, wait := 0, count := 1 }
    let reserved := running.setPort (.reserved kept)
    (running.la.port = .free ∧ running.pick = none) ∧
    (running.present 1 a).pick = some 1 ∧
    (busy running 0 a).la.port = .busy (granted 0) ∧
    reserved.la.port = .reserved kept ∧
    (reserved.present 1 a).Waits 1 ∧
    (¬ (reserved.present 6 a).Waits 1 ∧ (reserved.present 6 a).Waits 6 ∧
      (reserved.present 6 a).isUrgent 6 = true) ∧
    ¬ reserved.Waits 1 ∧ ∀ k, reserved.Waits k → reserved.isUrgent k = false := by
  unfold State.Waits
  decide +kernel

/-- An entry to CONFIG due or not; a completion that makes a reservation, at count 7, and one at count 8. -/
theorem witness_AccessEnds :
    (∀ n, ({ lane := 4, link := true, count := n } : Grant).lane = ext 4) ∧
    running.entryDue = false ∧
    (stopping.withPlan { stopping.ps with drainFlag := true }).entryDue = true ∧
    running.isConfig = false ∧ running.isUrgent (ext 4) = true ∧ 7 < 8 ∧ ¬ 8 < 8 ∧
    (running.resetAsserted = false ∧ running.lane (ext 4) = .idle ∧ running.la.kept[(4 : Fin 8)] = []) ∧
    (running.setLane (ext 4) (.taken (readOf 0 8))).lane (ext 4) ≠ .idle := by
  refine ⟨fun _ => rfl, ?_⟩
  decide +kernel

theorem witness_NoNinthLinkedAccess :
    ({ lane := 4, link := true, count := 8 } : Grant).count = 8 := rfl

/-- The wait at LINK_WAIT and one below it; no requester and one. -/
theorem witness_LinkWaitExpires :
    let kept := fun n => ({ lane := 1, urgent := false, wait := n, count := 1 } : Reservation)
    let s := fun n => running.setPort (.reserved (kept n))
    ((s 2).setup = some small ∧ (s 2).la.port = .reserved (kept 2) ∧ small.linkWait ≤ 2 ∧
      (s 2).pick = none) ∧
    ((s 2).present 0 (plan 0x3000 (zeros 8))).pick = some 0 ∧
    (s 1).la.port = .reserved (kept 1) ∧ 1 < small.linkWait := by decide +kernel

theorem witness_RequestIsKeptWaiting :
    let s := running.present 0 (plan 0x3000 (zeros 8))
    s.resetAsserted = false ∧ s.lane (ext 0) ≠ .idle ∧
    ({ s with resetAsserted := true } : State).resetAsserted = true := by decide +kernel

/-- An idle lane that keeps no request takes one. -/
theorem takes_running (l : Fin 8) : running.Takes l := by
  revert l
  have : ∀ l : Fin 8, running.lane (ext l) = .idle ∧ running.la.kept[l] = [] := by decide +kernel
  exact fun l => ⟨rfl, (this l).1, (this l).2⟩

/-- One lane of every class; form, class and rights each fail for a request that passes what comes before. -/
theorem witness_RightsAndRefusals :
    (config.isConfig = true ∧ running.setup = some small) ∧
    (small.classOf 5 = some .none ∧ small.classOf 0 = some .control ∧
      small.classOf 1 = some .ingest ∧ small.classOf 4 = some .emission) ∧
    (running.Takes 0 ∧ (makeRequest .read 0 260 false []).formOk = false) ∧
    (running.Takes 5 ∧ (makeRequest .read 0 256 false []).formOk = true) ∧
    (running.laneClass 0 ≠ .none ∧
      running.may 0 (running.classify (0x400000 : Addr).toNat) .read = false) :=
  ⟨by decide +kernel, by decide +kernel, ⟨takes_running 0, by decide +kernel⟩,
    ⟨takes_running 5, by decide +kernel⟩, by decide +kernel⟩

/-- The last byte of the plan area and the first after it; the areas' first and last bytes. -/
theorem witness_AddressClassification :
    running.classify 0xFFFF = .plan ∧ running.classify 0x10000 = .plain ∧
    running.classify 0x100000 = .national ∧ running.classify 0x10FFFF = .national ∧
    running.classify 0x110000 = .plain ∧ running.classify 0x210000 = .regional 0 .b ∧
    running.classify 0x400000 = .view 0 ∧ running.classify 0x600000 = .report ∧
    stopping.classify 0x100000 = .plain ∧ stopping.classify 0x400000 = .view 0 ∧
    config.classify 0x100000 = .plain := by decide +kernel

/-- A WRITE of plain memory and a READ of the plan area. -/
theorem witness_PlainRequestPresented :
    running.Takes 0 ∧ (makeRequest .write 0x10000 8 false []).formOk = true ∧
    running.may 0 (running.classify (0x10000 : Addr).toNat) .write = true ∧
    running.laneClass 0 ≠ .none ∧ running.classify (0x10000 : Addr).toNat = .plain ∧
    running.may 0 (running.classify (0xFF00 : Addr).toNat) .read = true ∧
    running.classify (0xFF00 : Addr).toNat = .plan := by
  refine ⟨takes_running 0, ?_⟩
  decide +kernel

/-- The setup block's last word is locked and the next word not; a PENDING window's record is locked; a read
index at the write index is in range, one past it not. -/
theorem witness_PlanWriteTaken :
    let word := fun (a : Addr) data => makeRequest .write a 8 false data
    let pending := withWindow0 running .pending
    (running.Takes 0 ∧ (word 0x1000 []).formOk = true ∧ running.classify 0x1000 = .plan ∧
      running.may 0 .plan .write = true ∧ running.laneClass 0 ≠ .none) ∧
    (running.isConfig = false ∧ running.covers (word 0x0FF8 []) 0 4096 = true ∧
      running.covers (word 0x1000 []) 0 4096 = false) ∧
    ((pending.window 0).status.open? = true ∧
      pending.covers (word 0x1038 []) (windowOffset 0) 64 = true ∧
      pending.covers (word 0x1040 []) (windowOffset 0) 64 = false) ∧
    (∀ w, (running.window w).status.open? = false) ∧
    running.covers (word 0x20F8 []) readIndexWord 8 = false ∧
    running.covers (word 0x2100 []) readIndexWord 8 = true ∧
    (let index := fun n a data => bigEndian (fun i => (makeRequest .write a n false data).body.data.getD i 0)
      (0x2100 - (a.toNat - running.planBase)) 4
     index 8 0x2100 [0, 0, 0, 0] = 0 ∧ index 8 0x2100 [0, 0, 0, 1] = 1 ∧
      index 16 0x20F8 (zeros 8 ++ [0, 0, 1, 2]) = 258) ∧
    (running.rw.writeIndex + small.reportSize - running.rw.readIndex) % small.reportSize <
      (1 + small.reportSize - running.rw.readIndex) % small.reportSize := by
  refine ⟨⟨takes_running 0, ?_⟩, ?_⟩ <;> decide +kernel

/-- A plain READ in progress. -/
theorem witness_PlainAccessCompletes :
    (busy running 0 ⟨readOf 0x10000 8, .plain⟩).externalInProgress =
      some (0, granted 0, ⟨readOf 0x10000 8, .plain⟩) := by decide +kernel

/-- A plan write of lane 0 in progress. -/
theorem completes (s : State) (a : Access) (row : PlanRow)
    (access : (busy s 0 a).externalInProgress = some (0, granted 0, a)) (kind : a.kind = .plan false)
    (h : (busy s 0 a).planRow a.req = row) : (busy s 0 a).Completes 0 (granted 0) a row :=
  ⟨access, kind, h⟩

theorem witness_PlanWriteCompletes :
    (busy running 0 (plan 0x3000 (zeros 8))).Completes 0 (granted 0) (plan 0x3000 (zeros 8)) .plain :=
  completes _ _ _ (by decide +kernel) (by decide +kernel) (by decide +kernel)

/-- A read index write outstanding, and one overtaken by an entry to CONFIG. -/
theorem witness_ReadIndexWriteCompletes :
    let a : Access := { req := writeOf 0x2100 (zeros 8), kind := .plan true }
    let s := busy running.markReadWrite 0 a
    (s.externalInProgress = some (0, granted 0, a) ∧ s.rw.readWrite = .outstanding) ∧
    s.rw.readWrite.overtake ≠ .outstanding := by decide +kernel

/-- The write of a control word with SUBMIT; outside RUNNING; in RUNNING accepted and rejected. -/
theorem witness_SubmitExaminesRecords :
    let a := plan 0x1000 recordBytes
    (busy running 0 a).Completes 0 (granted 0) a .submit ∧ stopping.isRunning = false ∧
    running.ps.run = .running small ∧ running.validateSubmit small 0 0 = none ∧
    (withWindow0 running .pending).validateSubmit small 0 0 = some .overlap :=
  ⟨completes _ _ _ (by decide +kernel) (by decide +kernel) (by decide +kernel), by decide +kernel,
    by decide +kernel, by decide +kernel, by decide +kernel⟩

/-- Each of the eight results comes about, at the boundary of its check: a region code of 12, no pairs, an end at
the start plus ENTRY_GRACE and one after it, a horizon that ends one and two slots before the start, and one 2^31 and
2^31 − 1 slots before it. -/
theorem witness_SubmitChecksInOrder :
    let changed := fun (i : Nat) (b : Byte) =>
      running.withPlan { running.ps with planCopy := writeByte copy0 (0x1000 + i) b }
    let result := fun (s : State) => s.validateSubmit small 0 0
    result (running.withPlan { running.ps with unknown := [512] }) = some .unsettled ∧
    result (changed 1 12) = some .region ∧ result (changed 5 0) = some .tags ∧
    result (changed 15 104) = some .span ∧ result (changed 15 105) = none ∧
    result (withZone0 running .national .national 99 99) = some .tooLate ∧
    result (withZone0 running .national .national 98 98) = none ∧
    result (withZone0 running .national .national (100 - 0x80000000) 0) = some .tooLate ∧
    result (withZone0 running .national .national (100 - 0x7FFFFFFF) 0) = none ∧
    result (withWindow0 running .pending) = some .overlap ∧
    result (changed 3 2) = some .mode := by decide +kernel

/-- COMMIT in CONFIG, with copies that fail validation; the small setup's own validation passes. -/
theorem witness_CommitTaken :
    let a := commandOf 1 0 0
    let u := (busy config 0 a).copyLanded a.req
    (busy config 0 a).Completes 0 (granted 0) a (.command 1) ∧ config.ps.run = .config ∧
    u.validateSetup (setupOfCopy u.ps.planCopy) = some (.ringSize, 0x020) :=
  ⟨completes _ _ _ (by decide +kernel) (by decide +kernel) (by decide +kernel), by decide +kernel,
    by decide +kernel⟩

/-- The bytes of a setup block that passes validation: one CONTROL lane, one INGEST lane, nothing enabled. -/
def smallestBlock : Memory :=
  writeBytes (writeBytes (writeBytes (writeBytes [] 0x000
      (beBytes 8 0x100000 ++ beBytes 8 0x200000 ++ beBytes 8 0x400000 ++ beBytes 8 0x600000 ++
        beBytes 2 256 ++ beBytes 2 256 ++ beBytes 2 64 ++ beBytes 2 0 ++ beBytes 2 16 ++
        beBytes 2 16 ++ beBytes 2 0 ++ beBytes 2 0 ++ beBytes 2 1 ++ beBytes 2 1 ++
        [0, 1, 0, 0, 0, 0, 1])) 0x040 [1, 0, 0, 0, 2]) 0x200 [1, 1, 2, 1, 0, 1, 0, 0, 1, 1, 2, 1, 0, 1])
    0x210 [1, 1, 2, 1, 0, 1, 0, 0, 1, 1, 2, 1, 0, 1]

/-- COMMIT in CONFIG, with copies that pass validation. -/
theorem witness_CommitTaken_valid :
    let s := config.withPlan { config.ps with planCopy := smallestBlock }
    let a := commandOf 1 0 0
    let u := (busy s 0 a).copyLanded a.req
    (busy s 0 a).Completes 0 (granted 0) a (.command 1) ∧ s.ps.run = .config ∧
    u.validateSetup (setupOfCopy u.ps.planCopy) = none :=
  ⟨completes _ _ _ (by decide +kernel) (by decide +kernel) (by decide +kernel), by decide +kernel,
    by decide +kernel⟩

/-- A setup that passes, and one that fails each check, at the boundary of its range where it has one: the first
field or word that fails is named. -/
theorem witness_CommittedSetupIsValid :
    let s := config
    let fails := fun (s : State) su => s.validateSetup su
    let write := fun kind => ({ req := writeOf 0x100000 (zeros 8), kind := kind } : Access)
    s.validateSetup small = none ∧
    fails (s.withPlan { s.ps with unknown := [512, 511] }) small = some (.unsettled, 0xFF8) ∧
    fails (s.present 0 (plan 0x10 (zeros 8))) small = some (.unsettled, 0x010) ∧
    fails (s.present 0 (write .plain)) small = some (.unsettled, 0x000) ∧
    fails s { small with reportBase := 2 ^ 36 - 64 * 32 } = none ∧
    fails s { small with reportBase := 2 ^ 36 - 64 * 32 + 256 } = some (.areaRange, 0x018) ∧
    fails s { small with natBase := 2 ^ 36, nr := 0 } = some (.areaRange, 0x000) ∧
    fails s { small with reportBase := 0x100000 } = some (.areaOverlap, 0x018) ∧
    fails s { small with nr := 128, rs := 128 } = some (.ringSize, 0x020) ∧
    fails s { small with urgentOrder := 2, natLane := 8 } = some (.laneRole, 0x038) ∧
    fails s { small with regions := small.regions.set 0 ⟨true, 2, 2, 4⟩ } = some (.regionDef, 0x082) ∧
    fails s { small with zones := small.zones.set 1 ⟨true, 1⟩ } = some (.zoneDef, 0x105) ∧
    fails s { small with feeds := small.feeds.set 2 ⟨true, 5, 0xFF⟩ } = some (.feedDef, 0x189) ∧
    fails s { small with profiles := small.profiles.set 3 ⟨65, 2, 10, 5, 3⟩ } =
      some (.profileDef, 0x218) ∧
    fails s { small with spreadMax := 128 } = none ∧
    fails s { small with spreadMax := 129 } = some (.timingDef, 0x028) := by decide +kernel

/-- A held write, its lane HELD. -/
theorem heldLanes (s : State) (n : Nat) : (withHeld s n).HeldLanes := by
  constructor
  · intro h hh
    simp only [withHeld, List.mem_singleton] at hh
    subst hh
    exact Vector.getElem_set_self ..
  · simp [withHeld]

/-- STOP in RUNNING with a write held. -/
theorem witness_StopTaken :
    let s := busy (withHeld running 1) 0 (commandOf 2 0 0)
    s.Completes 0 (granted 0) (commandOf 2 0 0) (.command 2) ∧ s.ps.run = .running small ∧
      s.HeldLanes := by
  refine ⟨completes _ _ _ (by decide +kernel) (by decide +kernel) (by decide +kernel), by decide +kernel,
    ?_⟩
  constructor
  · intro h hh
    have : h = held0 1 := by simpa [busy, withHeld, State.setPort, State.setLane] using hh
    subst this
    decide +kernel
  · decide +kernel

/-- A code past the commands; each command in a run state that does not allow it. -/
theorem witness_CommandTurnedAway :
    (busy running 0 (commandOf 8 0 0)).Completes 0 (granted 0) (commandOf 8 0 0) .badCommand ∧
    ((busy running 0 (commandOf 1 0 0)).Completes 0 (granted 0) (commandOf 1 0 0) (.command 1) ∧
      running.isConfig = false) ∧
    ∀ n : Fin 6, stopping.isRunning = false ∧
      (busy stopping 0 (commandOf (BitVec.ofNat 8 (n.val + 2)) 0 0)).Completes 0 (granted 0)
        (commandOf (BitVec.ofNat 8 (n.val + 2)) 0 0) (.command (n.val + 2)) := by
  refine ⟨completes _ _ _ (by decide +kernel) (by decide +kernel) (by decide +kernel),
    ⟨completes _ _ _ (by decide +kernel) (by decide +kernel) (by decide +kernel), by decide +kernel⟩,
    fun n => ⟨by decide +kernel, ?_⟩⟩
  have : ∀ n : Fin 6,
      let a := commandOf (BitVec.ofNat 8 (n.val + 2)) 0 0
      (busy stopping 0 a).externalInProgress = some (0, granted 0, a) ∧ a.kind = .plan false ∧
      (busy stopping 0 a).planRow a.req = .command (n.val + 2) := by decide +kernel
  exact ⟨(this n).1, (this n).2.1, (this n).2.2⟩

/-- A CANCEL of windows 64 and 0; window 0 in each state, its zone without an outcome in each state. -/
theorem witness_CancelTaken :
    let argument := fun (arg : Nat) => (running.copyLanded (commandOf 3 arg 0).req).command.arg1.toNat
    let zone := fun x => ((withZone0 (withWindow0 running .live) x .national 50 50).zone 0).status
    ((busy running 0 (commandOf 3 0 0)).Completes 0 (granted 0) (commandOf 3 0 0) (.command 3) ∧
      running.ps.run = .running small) ∧
    (argument 64 = 64 ∧ argument 0 = (0 : Fin 64).val ∧ argument 63 = (63 : Fin 64).val) ∧
    (∀ x, ((withWindow0 running x).window 0).status = x) ∧
    ((running.windowRec 0).regionByte = 0 ∧ small.zones[0].region = 0) ∧
    ((0 : Fin 24) ∈ running.windowZones small 0 ∧ (running.window 0).outcomes[0] = none) ∧
    ((zone .national).window? ≠ some 0 ∧ zone (.armed 0) = .armed 0 ∧
      zone (.regional 0) = .regional 0 ∧
      zone (.returning 0 .hold true) = .returning 0 .hold true) := by
  refine ⟨⟨completes _ _ _ (by decide +kernel) (by decide +kernel) (by decide +kernel),
    by decide +kernel⟩, by decide +kernel, fun x => ?_, by decide +kernel, by decide +kernel, by decide +kernel⟩
  cases x <;> decide +kernel

/-- HOLD and RELEASE of zone 0, of no zone, of zone 24 and of a zone that is not enabled; both kinds and a value
that is neither; the zone in each state. -/
theorem witness_HoldAndReleaseTaken :
    let arg := fun n => ((running.copyLanded (commandOf 4 n 1).req).command.arg1)
    let kind := fun n => ((running.copyLanded (commandOf 4 1 n).req).command.arg2)
    ((busy running 0 (commandOf 4 1 1)).Completes 0 (granted 0) (commandOf 4 1 1) (.command 4) ∧
      (busy running 0 (commandOf 5 1 0)).Completes 0 (granted 0) (commandOf 5 1 0) (.command 5) ∧
      running.ps.run = .running small) ∧
    ((arg 1 ≠ 0 ∧ (arg 1).toNat < 2 ^ 24 ∧
        ∀ z : Fin 24, (arg 1).getLsbD z.val = true → small.zones[z].enabled = true) ∧
      ¬ arg 0 ≠ 0 ∧ ¬ (arg (2 ^ 24)).toNat < 2 ^ 24 ∧ small.zones[1].enabled = false) ∧
    (kind 1 = 1 ∧ kind 2 = 2 ∧ kind 0 ≠ 1 ∧ kind 0 ≠ 2 ∧ kind 3 ≠ 1 ∧ kind 3 ≠ 2) ∧
    (∀ x ∈ [WindowStatus.pending, .live], ((withWindow0 running x).window 0).status = x) ∧
    0 ∈ running.windowZones small 0 ∧
    ∀ x ∈ [ZoneStatus.national, .armed 0, .regional 0, .returning 0 .windowEnd false,
        .returning 0 .hold true],
      ((withZone0 running x .national 50 50).zone 0).status = x ∧
        (running.window 0).outcomes[0] = none := by
  refine ⟨⟨completes _ _ _ (by decide +kernel) (by decide +kernel) (by decide +kernel),
    completes _ _ _ (by decide +kernel) (by decide +kernel) (by decide +kernel), by decide +kernel⟩,
    by decide +kernel, by decide +kernel, by decide +kernel, by decide +kernel, by decide +kernel⟩

/-- ATTACH of feed 0 with its zone unset, set with the start in range at both ends and just outside it, of feed 0
attached, and of the feed without a lane. -/
theorem witness_AttachTaken :
    let u := running.copyLanded (commandOf 6 0 60).req
    let set := withZone0 running .national .national 60 50
    ((busy running 0 (commandOf 6 0 60)).Completes 0 (granted 0) (commandOf 6 0 60) (.command 6) ∧
      running.ps.run = .running small) ∧
    (u.command.arg1.toNat = (0 : Fin 32).val ∧ u.command.arg2 = 60 ∧
      (small.feedLane 0).isSome = true ∧ small.feedZone 0 = some 0 ∧
      (small.feedLane 1).isSome = false ∧ (running.zone 0).timeline = none ∧
      (running.feed 0).status = .detached) ∧
    (∃ t, (set.zone 0).timeline = some t ∧ precedes t.trail 51 = true ∧
      atOrBefore 61 (t.horizon + 1) = true ∧ precedes t.trail 50 = false ∧
      atOrBefore 62 (t.horizon + 1) = false) ∧
    ((withFeed0 running (attachedAt 60 59) none).feed 0).status = attachedAt 60 59 := by
  refine ⟨⟨completes _ _ _ (by decide +kernel) (by decide +kernel) (by decide +kernel),
    by decide +kernel⟩, by decide +kernel, ⟨_, rfl, ?_⟩, by decide +kernel⟩
  decide +kernel

/-- DETACH of feed 0 in each state, alone in its zone and beside another feed; of a feed that is not enabled. -/
theorem witness_DetachTaken :
    let u := running.copyLanded (commandOf 7 0 0).req
    let one := withFeed0 (withZone0 running .national .national 60 50) (attachedAt 60 59) none
    let two := one.setFeed 1 { status := attachedAt 55 54, inFlight := none }
    ((busy running 0 (commandOf 7 0 0)).Completes 0 (granted 0) (commandOf 7 0 0) (.command 7) ∧
      running.ps.run = .running small) ∧
    (u.command.arg1.toNat = (0 : Fin 32).val ∧ small.feedZone 0 = some 0 ∧
      small.feeds[2].enabled = false) ∧
    (∀ x ∈ [FeedStatus.detached, .slipped, attachedAt 60 59],
      ((withFeed0 running x none).feed 0).status = x) ∧
    (one.attachedFeeds small 0).filter (fun k => k != 0) = [] ∧
    (two.attachedFeeds small 0).filter (fun k => k != 0) = [1] ∧
    ((one.zone 0).timeline.isSome = true ∧
      precedes 50 54 = true ∧ precedes 50 50 = false) := by
  refine ⟨⟨completes _ _ _ (by decide +kernel) (by decide +kernel) (by decide +kernel),
    by decide +kernel⟩, by decide +kernel, by decide +kernel, by decide +kernel, by decide +kernel,
    by decide +kernel⟩

/-- Each of the seven steps ends a ring write: a short cell, a wrong mark, another slot, an EMPTY entry, an older
SSN, the pinned SSN again, a newer SSN over a pinned one, and one over an SSN that is not pinned. -/
theorem witness_RingWriteSteps :
    let s := running.setEntry .national 0 (good 256 5)
    let pinned := withZone0 s .national .national 256 256
    let check := fun (s : State) k cell => s.checkRingWrite small .national k cell
    check s 0 (zeros 248) = .refused .partialCell ∧
    check s 0 (zeros 256) = .refused .malformed ∧
    check s 1 (cellOf 256) = .refused .misplaced ∧ check running 0 (cellOf 256) = .accepted ∧
    check s 0 (cellOf 0) = .refused .stale ∧ check pinned 0 (cellOf 256) = .refused .rewrite ∧
    check pinned 0 (cellOf 512) = .heldBack 256 ∧ check s 0 (cellOf 512) = .accepted ∧
    check s 0 (cellOf 256) = .accepted := by decide +kernel

/-- SSNs at the trail, at the horizon and just outside; runs on both sides of a run's first SSN; a front run that
began 2^31 slots before the trail. -/
theorem witness_PinnedTest :
    let s := withZone0 running .national (.regional .a) 60 50
    let two := withLog s [runOf 50 (.regional .a) .entry none, runOf 56 (.regional .b) .pathChange none]
    let old := withLog s [runOf (50 - 0x80000000) (.regional .a) .entry none]
    s.isRunning = true ∧ s.pinned small .national 50 = true ∧ s.pinned small .national 60 = true ∧
    s.pinned small .national 49 = false ∧ s.pinned small .national 61 = false ∧
    s.pinned small (.regional 0 .a) 60 = true ∧ s.pinned small (.regional 0 .b) 60 = false ∧
    (two.pinned small (.regional 0 .a) 55 = true ∧ two.pinned small (.regional 0 .a) 56 = false ∧
      two.pinned small (.regional 0 .b) 56 = true) ∧
    (old.pinned small (.regional 0 .a) 50 = true ∧ old.pinned small (.regional 0 .a) 60 = true) := by
  decide +kernel

/-- A ring write of the national lane and one of path A's lane; refused, held and accepted; a window whose end the
national head passes, its zone unset. -/
theorem witness_RingWriteTaken :
    let s := running.setEntry .national 0 (good 256 5)
    let live := withWindow0 running .live
    running.RingRequest small 1 .national (makeRequest .write 0x100000 256 false (cellOf 256)) ∧
    running.RingRequest small 2 (.regional 0 .a)
      (makeRequest .write 0x200000 256 false (cellOf 256)) ∧
    s.checkRingWrite small .national 0 (cellOf 0) = .refused .stale ∧
    (withZone0 s .national .national 256 256).checkRingWrite small .national 0 (cellOf 512) =
      .heldBack 256 ∧
    running.checkRingWrite small .national 0 (cellOf 256) = .accepted ∧
    (live.head .national = none ∧ (live.window 0).status = .live ∧
      precedes (live.windowRec 0).finish 256 = true ∧ 0 ∈ live.windowZones small 0 ∧
      (live.zone 0).timeline = none ∧ (live.window 0).outcomes[0] = none ∧
      precedes (live.windowRec 0).finish 200 = false) :=
  ⟨⟨takes_running 1, by decide +kernel, by decide +kernel, by decide +kernel, by decide +kernel⟩,
    ⟨takes_running 2, by decide +kernel, by decide +kernel, by decide +kernel, by decide +kernel⟩,
    by decide +kernel⟩

set_option maxRecDepth 20000 in
/-- An accepted ring write in progress with its entry ARRIVING; a released one. -/
theorem witness_RingWriteCompletes :
    let e := arrivingEntry (.regional 0 .a) none (cellOf 256)
    let a : Access := { req := writeOf 0x200000 (cellOf 256), kind := .ring (.regional 0 .a) 0 }
    let b : Access := { req := writeOf 0x200000 (cellOf 256), kind := .released }
    let s := busy (running.setEntry (.regional 0 .a) 0 e) 2 a
    (s.externalInProgress = some (2, granted 2, a) ∧ s.setup = some small ∧
      s.entry (.regional 0 .a) 0 = some e ∧ e.state = .arriving .mismatch false) ∧
    (busy stopping 2 b).externalInProgress = some (2, granted 2, b) ∧
    stopping.setup = some small := by decide +kernel

/-- The silence timer at silence_limit, one below it, and stopped. -/
theorem witness_SilenceLimitExpires :
    let s := fun n => running.setPath 0 .a { PathState.reset with health := .live, timer := some n }
    (s 3).setup = some small ∧ ((s 3).path 0 .a).timer = some 3 ∧
    ((s 2).path 0 .a).timer = some 2 ∧ (small.profileOf 0).silenceLimit = 3 ∧
    (running.path 0 .a).timer = none := by decide +kernel

/-- A held write's timer at HOLD_LIMIT and one below it; its old SSN still read, pinned by a zone whose feed lags,
and not held back. -/
theorem witness_HoldLimitExpires :
    (∀ n, (withHeld running n).setup = some small ∧ (withHeld running n).HeldLanes ∧
      held0 n ∈ (withHeld running n).rg.held ∧ small.holdLimit = 2) ∧
    (withFeed0 (withHeld running 2) .slipped (some reading0)).heldBack small (held0 2) = true ∧
    (withHeld running 2).heldBack small (held0 2) = false ∧
    (∀ s : State, ∀ z t, (s.zone z).timeline = some t → t.trail = t.horizon →
      s.RangePinned small .national t.trail z) ∧
    (let s := withZone0 (withFeed0 (withHeld running 2) (attachedAt 1 0) none) .national (.regional .a) 4 0
     s.rangePins small (.regional 0 .a) 0 0 = true ∧ s.expiryFeeds small (held0 2) = [0]) :=
  ⟨fun n => ⟨rfl, heldLanes _ n, List.mem_singleton.mpr rfl, rfl⟩, by decide +kernel, by decide +kernel,
    fun s z t h e => ⟨t, h, by simp [e, atOrBefore], by simp [distance], trivial⟩, by decide +kernel⟩

/-- A view read of slot d from a feed whose next is 256, for every kind of d; the requests that are refused. -/
theorem witness_ViewReadInterpretedOrRefused :
    let p : Position := { next := 256, last := 255, readDone := true, readSincePulse := true, stall := 0 }
    let r := makeRequest .read 0x400000 256 false []
    (small.nr = 256 ∧ small.jumpMax ≤ 64 ∧ small.interpretRead p 0 = .serve 256 false ∧
      small.interpretRead p 255 = .serve 255 true ∧
      small.interpretRead { p with readDone := false } 255 = .refused .sequence ∧
      small.interpretRead p 3 = .serve 259 false ∧ small.interpretRead p 4 = .refused .jump ∧
      small.interpretRead p 254 = .refused .jump) ∧
    running.ViewRequest small 4 0 r ∧ running.ps.run = .running small ∧
    stopping.ps.run = .stopping small ∧ stopping.classify 0x400000 = .view 0 ∧
    ∀ x ∈ [FeedStatus.detached, .slipped, .attached p], ((withFeed0 running x none).feed 0).status = x :=
  ⟨by decide +kernel, ⟨takes_running 4, by decide +kernel, by decide +kernel, by decide +kernel,
    by decide +kernel⟩, by decide +kernel⟩

/-- View reads that are served a null cell and a ring cell, past the horizon, at it, and again. -/
theorem witness_ViewReadServed :
    let p : Position := { next := 256, last := 255, readDone := true, readSincePulse := true, stall := 0 }
    let s := withFeed0 (withZone0 running .national .national 255 255) (.attached p) none
    let stored := s.setEntry .national 0 (good 256 5)
    let r := makeRequest .read 0x400000 256 false []
    (s.ViewRequest small 4 0 r ∧ s.ps.run = .running small ∧ (s.feed 0).status = .attached p ∧
      small.feedZone 0 = some 0 ∧ (s.zone 0).timeline.isSome = true ∧ s.HeldLanes) ∧
    (small.interpretRead p 0 = .serve 256 false ∧ small.interpretRead p 255 = .serve 255 true) ∧
    (((s.prepareRead small 0 0 256 false).contentFor small 0 256).1.origin small 0 = none ∧
      ((stored.prepareRead small 0 0 256 false).contentFor small 0 256).1.origin small 0 =
        some (.national, none)) ∧
    (∀ q, (s.feed 0).status = .attached q → between 255 q.last 255 = true) :=
  ⟨⟨⟨⟨rfl, by decide +kernel, by decide +kernel⟩, by decide +kernel, by decide +kernel,
    by decide +kernel, by decide +kernel⟩, rfl, by decide +kernel, by decide +kernel, by decide +kernel,
    fun h hh => absurd hh List.not_mem_nil, List.nodup_nil⟩, by decide +kernel, by decide +kernel, by
    rintro q ⟨⟩; decide +kernel⟩

/-- The spread rule at its boundary: a trail SPREAD_MAX before the SSN slips no feed, one slot more slips the
feed that is there, whose last the trail is then no longer. -/
theorem witness_ViewReadServed_spread :
    let s := fun last => (withFeed0 (withZone0 running .national .national 255 last)
      (attachedAt 256 255) none).setFeed 1 { status := attachedAt (last + 1) last, inFlight := none }
    let prepared := fun last => (s last).prepareRead small 0 0 256 false
    (small.spreadMax = 16 ∧ small.feedZone 1 = some 0) ∧
    ((256 - 240 : SSN).toNat = 16 ∧ (prepared 240).feed 1 = (s 240).feed 1) ∧
    ((256 - 239 : SSN).toNat = 17 ∧ precedes 239 (256 - 16) = true ∧ between 239 239 255 = true ∧
      ((prepared 239).feed 1).status = .slipped ∧
      ((prepared 239).zone 0).timeline.map (·.trail) = some 255) := by decide +kernel

/-- A redirected view read in progress that counts, and one whose feed has slipped. -/
theorem witness_ViewReadCompletes :
    let rd : InFlight :=
      { ssn := 256, ring := .national, addr := 0x100000, patchTag := none, setBreak := false
        counting := true }
    let a : Access := { req := readOf 0x100000 256, kind := .view 0 }
    let s := fun x => busy (withFeed0 (withZone0 running .national .national 256 255) x (some rd)) 4 a
    ((s (attachedAt 257 255)).externalInProgress = some (4, granted 4, a) ∧
      (s (attachedAt 257 255)).setup = some small ∧
      ((s (attachedAt 257 255)).feed 0).inFlight = some rd ∧ small.feedZone 0 = some 0 ∧
      ((s (attachedAt 257 255)).zone 0).timeline.isSome = true) ∧
    ((s .slipped).externalInProgress = some (4, granted 4, a) ∧
      ((s .slipped).feed 0).inFlight = some rd ∧ rd.uncounted.counting = false) ∧
    (a.req.body = .read 256 ∧ precedes 255 rd.ssn = true) := by decide +kernel

/-- A zone decided past its horizon, one that is not, and an unset zone; a slot whose national cell is served by a
run that bears breaks, with its entry of the break list absent and present, and by a path change. -/
theorem witness_DecisionMovesHorizon :
    let s := (withZone0 running .national .national 60 50).setEntry .national 61 (good 61 5)
    let closed := fun cause brk => (((withLog s [runOf 50 .national cause brk]).closeSlot small 0 61).zone 0).timeline.map (·.log)
    (∃ t, (s.zone 0).timeline = some t ∧ precedes t.horizon 61 = true ∧
      precedes t.horizon 60 = false) ∧ (running.zone 0).timeline = none ∧
    closed .endReturn none = some [runOf 50 .national .endReturn (some 61)] ∧
    closed .endReturn (some 60) = some [runOf 50 .national .endReturn (some 60)] ∧
    closed .pathChange none = some [runOf 50 .national .pathChange none] ∧
    (runOf 50 .national .endReturn (some 61)).breakFalls 5 61 = true ∧
    (runOf 50 .national .endReturn (some 61)).breakFalls 6 61 = false ∧
    (s.zone 0).status = .national :=
  ⟨⟨_, rfl, by decide +kernel⟩, by decide +kernel⟩

/-- A window due at the start minus ARM_LEAD and not one slot before; two due windows, the second with the least
start; the zone held; a path ready and none. -/
theorem witness_ArmingResults :
    let s := withZone0 (withWindow0 running .pending) .national .national 83 83
    let both := (s.setWindow 1 { Window.reset with status := .live }).withPlan { s.ps with
      planCopy := writeBytes s.ps.planCopy 0x1040 (recordBytes.set 11 90) }
    let ready := s.setPath 0 .a { PathState.reset with health := .live, head := some 100 }
    (s.zone 0).status = .national ∧ s.dueWindow small 0 84 = some 0 ∧ s.dueWindow small 0 83 = none ∧
    (both.due small 0 84 0 = true ∧ both.due small 0 84 1 = true ∧ both.dueWindow small 0 84 = some 1 ∧
      precedes (both.windowRec 1).start (both.windowRec 0).start = true) ∧
    small.zoneRegion 0 = some 0 ∧
    ((s.updZone 0 (fun x => { x with pinHold := true })).zone 0).pinHold = true ∧
    ready.contributionReady 0 100 = true ∧ ready.contributionReady 0 101 = false := by decide +kernel

/-- A slot at which an ARMED zone may enter, one after it has missed, and a full log. -/
theorem witness_EntryAndMiss :
    let s := withZone0 (withWindow0 running .live) (.armed 0) .national 99 99
    let both := (s.setEntry .national 100 (good 100 5)).setEntry (.regional 0 .a) 100 (good 100 9)
    ((s.zone 0).status = .armed 0 ∧ small.zoneRegion 0 = some 0 ∧
      (s.zone 0).timeline.isSome = true ∧ (s.window 0).outcomes[0] = none) ∧
    (precedes ((s.windowRec 0).start + BitVec.ofNat 32 small.entryGrace) 105 = true ∧
      precedes ((s.windowRec 0).start + BitVec.ofNat 32 small.entryGrace) 104 = false) ∧
    (∃ en want er, both.usableEntry small .national 0 100 = some en ∧
      pairedTag (both.windowRec 0).pairs en.tag = some want ∧
      both.usableEntry small (.regional 0 .a) 0 100 = some er ∧ er.tag = want ∧ er.splice = true) ∧
    full.length = 32 ∧
    (let two := both.setEntry (.regional 0 .b) 100 (good 100 9)
     two.candidates small 0 100 0 9 = [.a, .b] ∧
      (two.entryStep small 0 100).1.zone 0 ≠ two.zone 0) ∧
    (withWindow0 running .pending).windowZones small 0 = [0] ∧
    running.windowZones { small with zones := small.zones.set 1 ⟨true, 0⟩ } 0 = [0, 1] :=
  ⟨by decide +kernel, by decide +kernel,
    ⟨good 100 5, 9, good 100 9, by decide +kernel, by decide +kernel, by decide +kernel, rfl, rfl⟩,
    by decide +kernel⟩

/-- A zone at the slot before its window's end and at the end; one that returns: hard, at a splice point, after
the grace, and neither. -/
theorem witness_ReturnsToNational :
    let s := fun c hard => withZone0 (withWindow0 running .live) (.returning 0 c hard) (.regional .a) 199 99
    let spliced := (s .windowEnd false).setEntry .national 200 (good 200 5)
    (∀ c ∈ [ReturnCause.windowEnd, .cancel, .hold], ∀ hard,
      ((s c hard).zone 0).status = .returning 0 c hard ∧ ((s c hard).zone 0).timeline.isSome = true ∧
      ((s c hard).window 0).outcomes[0] = none) ∧
    (∃ e, spliced.usableEntry small .national 0 200 = some e ∧
      (pairedTag (spliced.windowRec 0).pairs e.tag).isSome = true ∧ e.splice = true) ∧
    (let inEffect := withZone0 (withWindow0 running .live) (.regional 0) (.regional .a) 199 99
     (((withLog (s .hold true) full).zone 0).timeline.map (·.log.length)) = some 32 ∧
      (inEffect.zone 0).status = .regional 0 ∧ atOrBefore (inEffect.windowRec 0).finish 199 = false ∧
      atOrBefore (inEffect.windowRec 0).finish 200 = true) ∧
    precedes ((running.windowRec 0).finish + BitVec.ofNat 32 small.returnGrace) 205 = true ∧
    precedes ((running.windowRec 0).finish + BitVec.ofNat 32 small.returnGrace) 204 = false :=
  ⟨by decide +kernel, ⟨good 200 5, by decide +kernel⟩, by decide +kernel⟩

/-- Window 0 in effect in zone 0 from path A, its conceal limit 2, the national cell of slot 150 a set tag. -/
def inWindow : State :=
  (withZone0 (withWindow0 running .live) (.regional 0) (.regional .a) 149 99).setEntry .national 150 (good 150 5)

/-- That state with conceal count `n`. -/
def counted (s : State) (n : Nat) : State := s.updZone 0 (fun x => { x with conceal := n })

/-- That state with a regional cell of slot 150 on a path. -/
def servedBy (s : State) (p : Path) : State := s.setEntry (.regional 0 p) 150 (good 150 9)

/-- That state with its open run concealed. -/
def concealed : State := withLog inWindow [runOf 99 .conceal .conceal none]

/-- The same with a full log. -/
def fullLog : State := withLog inWindow (full.set 31 (runOf 99 .conceal .conceal none))

/-- What slot 150 makes of a state: the conceal count, the runs in the log, the open source, the log-full episode. -/
def sourced (s : State) : Nat × Option (Nat × RunSource × Bool) :=
  let x := (s.chooseSource small 0 150).zone 0
  (x.conceal, x.timeline.map (fun t => (t.log.length, t.openSource, t.logFull)))

/-- A window in effect, its slot a set tag and the next slot none; the open run of path A and concealed. -/
theorem witness_SourceInsideWindow :
    (inWindow.zone 0).status = .regional 0 ∧ small.zoneRegion 0 = some 0 ∧
    ((inWindow.zone 0).timeline.map (·.openSource)) = some (.regional .a) ∧
    ((concealed.zone 0).timeline.map (·.openSource)) = some .conceal ∧
    (inWindow.window 0).outcomes[0] = none ∧ (inWindow.windowRec 0).limit = 2 ∧
    inWindow.usableEntry small .national 0 150 = some (good 150 5) ∧
    inWindow.usableEntry small .national 0 151 = none ∧
    pairedTag (inWindow.windowRec 0).pairs 5 = some 9 := by decide +kernel

/-- The rows of the source table (7.3.2), the conceal count below its limit, at it and past it: a forced return
pending; the open run's path, the other path, neither; a concealed slot that a path resumes and that none does; a
full log. -/
theorem test_source_rows :
    [counted inWindow 3, counted (servedBy inWindow .a) 2, counted (servedBy inWindow .b) 2,
      counted inWindow 1, counted inWindow 2, servedBy concealed .b, counted concealed 1,
      counted (servedBy fullLog .b) 1].map sourced =
    [(0, some (2, .national, false)), (0, some (1, .regional .a, false)),
      (0, some (2, .regional .b, false)), (2, some (2, .conceal, false)),
      (0, some (2, .national, false)), (0, some (2, .regional .b, false)),
      (2, some (1, .conceal, false)), (2, some (32, .conceal, true))] := by decide +kernel

/-- A log with room, and a full one. -/
theorem witness_AppendOrFullLog :
    let t : Timeline := { horizon := 60, trail := 50, log := full, logFull := false }
    ((withZone0 running .national .national 60 50).zone 0).timeline.isSome = true ∧
    ((running.updZone 0 (fun x => x.withTimeline t)).zone 0).timeline = some t ∧
    32 ≤ t.log.length ∧ full.tail.length < 32 := by decide +kernel

/-- No usable national entry and one; entries with the zone in the late set, BAD, of another SSN, and with another zone
in the late set; a run outside windows, of a pair and of no pair, by each source. -/
theorem witness_ServedContentRule :
    let s := (withZone0 running .national .national 100 100).setEntry .national 150 (good 150 5)
    let kept : RunWindow := { window := 0, pairs := [(5, 9)], concealNational := true, breaks := [none] }
    s.usableEntry small .national 0 151 = none ∧
    s.usableEntry small .national 0 150 = some (good 150 5) ∧ pairedTag kept.pairs 5 = some 9 ∧
    pairedTag kept.pairs 6 = none ∧ small.zoneRegion 0 = some 0 ∧
    (s.setEntry (.regional 0 .a) 150 (good 150 9)).usableEntry small (.regional 0 .a) 0 150 =
      some (good 150 9) ∧
    s.usableEntry small (.regional 0 .a) 0 150 = none ∧
    (∀ e ∈ [{ good 150 5 with late := 1 }, { good 150 5 with state := .bad }, good 406 5],
      (s.setEntry .national 150 e).usableEntry small .national 0 150 = none) ∧
    (s.setEntry .national 150 { good 150 5 with late := 2 }).usableEntry small .national 0 150 =
      some { good 150 5 with late := 2 } := by decide +kernel

/-- The query at the trail, at the horizon and just outside; on both sides of a run's first SSN; and with a front
run that began 2^31 slots before the trail. -/
theorem witness_ServedContentRule_query :
    let front := runOf (50 - 0x80000000) .national .endReturn none
    let later := runOf 56 (.regional .a) .entry none
    let s := withLog (withZone0 running .national .national 60 50) [front, later]
    s.queryRun 0 49 = none ∧ s.queryRun 0 50 = some front ∧ s.queryRun 0 55 = some front ∧
    s.queryRun 0 56 = some later ∧ s.queryRun 0 60 = some later ∧ s.queryRun 0 61 = none ∧
    running.queryRun 0 50 = none := by decide +kernel

theorem witness_RetirementRule :
    ((withZone0 running .national .national 60 50).zone 0).timeline.isSome = true := by decide +kernel

/-- CONFIG and RUNNING, the prescaler at TICK_DIV and one below it. -/
theorem witness_TickCounts :
    config.setup = none ∧ running.setup = some small ∧ running.pending = [] ∧
    running.tb.prescaler < small.tickDiv ∧ small.tickDiv ≤ running.countPeriod.tb.prescaler := by
  decide +kernel

/-- The pulse timeout at PULSE_TIMEOUT and one below it; a feed with its stall count one below STALL_PULSES. -/
theorem witness_ReferenceChanges :
    let s := fun n => ({ running with tb := { running.tb with
      pulseTimeout := some n, refState := .locked } } : State)
    (s 2).setup = some small ∧ (s 2).tb.refState ≠ .lost ∧ (s 2).tb.pulseTimeout = some 2 ∧
    small.pulseTimeout = 2 ∧ (s 1).tb.pulseTimeout = some 1 ∧
    ((withFeed0 (s 1) (.attached
      { next := 5, last := 4, readDone := true, readSincePulse := false, stall := 1 }) none).feed 0).status =
      .attached { next := 5, last := 4, readDone := true, readSincePulse := false, stall := 1 } ∧
    1 + 1 = small.stallPulses ∧
    (let stalling := withFeed0 (s 1) (.attached
      { next := 5, last := 4, readDone := true, readSincePulse := false, stall := 1 }) none
     (stalling.settleStalls true).stalledFeeds small = [0] ∧
      (stalling.settleStalls false).stalledFeeds small = []) := by decide +kernel

/-- Both levels, in CONFIG and RUNNING; the zone of the setup in each state. -/
theorem witness_HoldReqFollowed :
    ({ running with holdReq := true } : State).holdReq = true ∧ running.holdReq = false ∧
    config.setup = none ∧ running.setup = some small ∧ small.zones[0].enabled = true ∧
    small.zones[1].enabled = false ∧
    (∀ x ∈ [ZoneStatus.national, .armed 0, .regional 0, .returning 0 .cancel false,
        .returning 0 .hold true],
      ((withZone0 running x .national 50 50).zone 0).status = x ∧
        (running.window 0).outcomes[0] = none) := by decide +kernel

/-- Every run state and drain flag, the queue with 15 records and with 16, a kind queued in CONFIG and one not. -/
theorem witness_ReportHanded :
    let queued := fun (s : State) n => ({ s with rw := { s.rw with
      queue := List.replicate n { tick := 0, report := .setupResult 0 .ok 0 } } } : State)
    ((queued running 15).rw.queue.length < 16 ∧ 16 ≤ (queued running 16).rw.queue.length) ∧
    (running.isConfig = false ∧ running.ps.drainFlag = false) ∧
    (stopping.withPlan { stopping.ps with drainFlag := true }).ps.drainFlag = true ∧
    config.isConfig = true ∧ (Report.setupResult 0 .ok 0).queuedInConfig = true ∧
    (Report.memoryFault 0 .read 0).queuedInConfig = false := by decide +kernel

/-- A drained state with room in the ring, one with a full ring and a port that is not BUSY, and one with an
access in progress. -/
theorem witness_DrainEnds :
    let filled := fun (s : State) => ({ s with rw := { s.rw with writeIndex := 63 } } : State)
    let a := plan 0x3000 (zeros 8)
    stopping.ps.run = .stopping small ∧ stopping.drained = true ∧ stopping.ringFull small = false ∧
    (filled stopping).drained = true ∧ (filled stopping).ringFull small = true ∧
    (filled stopping).la.port = .free ∧
    ((busy (filled stopping) 0 a).drained = true ∧
      (busy (filled stopping) 0 a).la.port = .busy (granted 0)) ∧
    (withHeld stopping 0).drained = false := by decide +kernel

/-- A queue with a record, in CONFIG and RUNNING, the ring with room and full. -/
theorem witness_ReportTaken :
    let r : Record := { tick := 0, report := .setupResult 0 .ok 0 }
    let queued := fun (s : State) w => ({ s with rw := { s.rw with
      queue := [r], writeIndex := w } } : State)
    (queued running 62).rw.hand = none ∧ (queued running 62).lane reportLane = .idle ∧
    (queued running 62).rw.queue = [r] ∧ (queued running 62).setup = some small ∧
    (queued running 62).ringFull small = false ∧ (queued running 63).ringFull small = true ∧
    (queued config 0).setup = none := by decide +kernel

/-- Each kind of report-lane write in progress. -/
theorem witness_ReportWritesComplete :
    let a := fun kind => ({ req := writeOf 0x600000 (zeros 32), kind := kind } : Access)
    (∀ kind ∈ [AccessKind.standby, .record, .indexWord],
      (busy running 8 (a kind)).inProgress = some (granted 8, a kind)) ∧
    (granted 8).lane = reportLane ∧ running.setup = some small ∧
    stopping.isStopping = true ∧
    (busy running 8 (a .record)).makesReservation (granted 8) .okay = false ∧
    (busy running 8 (a .record)).makesReservation { granted 8 with link := true } .okay = true ∧
    (let put := fun (s : State) w o => ({ s with rw := { s.rw with writeIndex := w, overrun := o } } : State)
     (put running 0 false).irqAsserted = false ∧ (put running 1 false).irqAsserted = true ∧
      (put stopping 0 true).irqAsserted = true ∧ (put config 1 true).irqAsserted = false) := by
  decide +kernel

/-- A state that meets the invariants and takes a step. -/
theorem witness_StepKeepsCapacities :
    running.MemoryCanonical ∧ running.WithinCapacity ∧ step running = .next running.refclk := by
  refine ⟨?_, ⟨?_, ?_, trivial, ?_, ?_⟩, rfl⟩
  · unfold State.MemoryCanonical
    decide +kernel
  · decide +kernel
  · intro z x h
    have : ∀ z, (running.zone z).timeline = none := by decide +kernel
    simp [this] at h
  · exact ⟨fun h hh => absurd hh List.not_mem_nil, List.nodup_nil⟩
  · have : ∀ l : Fin 8, running.la.kept[l] = [] := by decide +kernel
    exact fun l _ => this l

/-- A zone with no feed and none set. -/
theorem witness_StepKeepsZonesFollowFeeds :
    running.ZonesFollowFeeds ∧ step running = .next running.refclk := by
  have zones : ∀ z, (running.zone z).timeline = none := by decide +kernel
  have feeds : ∀ f, (running.feed f).status = .detached := by decide +kernel
  refine ⟨?_, rfl⟩
  show _ ∧ _
  simp [zones, feeds]

/-- Feed 0 attached, its zone set with the horizon SPREAD_MAX after the trail. -/
def attached0 : State := withFeed0 (withZone0 running .national .national 66 50) (attachedAt 51 50) none

theorem attached0_zone (z : Fin 24) (h : z ≠ 0) : (attached0.zone z).timeline = none := by
  have : ∀ z : Fin 24, z ≠ 0 → (attached0.zone z).timeline = none := by decide +kernel
  exact this z h

theorem attached0_feed (f : Fin 32) (h : f ≠ 0) : (attached0.feed f).status = .detached := by
  have : ∀ f : Fin 32, f ≠ 0 → (attached0.feed f).status = .detached := by decide +kernel
  exact this f h

/-- That state meets the laws of R125. -/
theorem witness_StepKeepsZonesFollowFeeds_attached :
    attached0.ZonesFollowFeeds ∧ attached0.FeedsWithinZones ∧ attached0.WithinCapacity ∧
      step attached0 = .next attached0.refclk := by
  have only : ∀ f p, (attached0.feed f).status = .attached p → f = 0 ∧ .attached p = attachedAt 51 50 := by
    intro f p h
    by_cases hf : f = 0
    · subst hf; exact ⟨rfl, h.symm⟩
    · rw [attached0_feed f hf] at h; cases h
  have reads : ∀ f, (attached0.feed f).inFlight = none := by decide +kernel
  refine ⟨⟨fun z => ⟨fun h => ?_, ?_⟩, fun f p h => ?_⟩, ?_, ⟨?_, ?_, trivial, ?_, ?_⟩, rfl⟩
  · by_cases hz : z = 0
    · subst hz; exact ⟨0, _, rfl, by decide +kernel⟩
    · rw [attached0_zone z hz] at h; cases h
  · rintro ⟨f, p, h, hz⟩
    obtain ⟨rfl, -⟩ := only f p h
    cases hz
    decide +kernel
  · obtain ⟨rfl, -⟩ := only f p h
    decide +kernel
  · rintro su ⟨⟩
    refine ⟨by decide +kernel, fun f rd h => ?_, fun z t h => ?_⟩
    · rw [reads f] at h; cases h
    by_cases hz : z = 0
    · subst hz
      cases h
      refine ⟨by decide +kernel, by decide +kernel, ⟨0, _, rfl, by decide +kernel, rfl⟩, fun f p hp _ => ?_⟩
      obtain ⟨rfl, e⟩ := only f p hp
      cases e
      exact ⟨by decide +kernel, fun _ => by decide +kernel, fun rd h => by rw [reads 0] at h; cases h⟩
    · rw [attached0_zone z hz] at h; cases h
  · decide +kernel
  · intro z x h
    by_cases hz : z = 0
    · subst hz; cases h; decide +kernel
    · rw [attached0_zone z hz] at h; cases h
  · exact ⟨fun h hh => absurd hh List.not_mem_nil, List.nodup_nil⟩
  · have : ∀ l : Fin 8, attached0.la.kept[l] = [] := by decide +kernel
    exact fun l _ => this l

/-- Copies that hold nothing are sound, whatever the windows. -/
theorem planSound (zs : ZoneScheduler) : ((State.reset.withPlan
    { run := .running small, planCopy := [], unknown := [], drainFlag := false
      stopTicket := 7 }).withZones zs).PlanSound := by
  have lanes : ∀ l, (State.reset.lane l).presented? = none := by decide +kernel
  have none_presented : ∀ l a, (State.reset.lane l).presented? = some a → False :=
    fun l a ha => absurd ((lanes l).symm.trans ha) (by simp)
  have base : State.reset.planBase + copyEnd ≤ small.reportBase := by decide +kernel
  have index : State.reset.rw.writeIndex < small.reportSize := by decide +kernel
  refine ⟨fun l a ha => (none_presented l a ha).elim, fun h hh => absurd hh List.not_mem_nil, ?_,
    fun w _ _ i _ => rfl, ?_, ?_, fun hr => absurd hr Bool.false_ne_true, ?_⟩
  · intro su hsu
    cases hsu
    exact ⟨by decide, Or.inr base, index⟩
  · exact fun _ => ⟨fun w _ => List.not_mem_nil, fun l a ha => (none_presented l a ha).elim⟩
  · exact fun w _ =>
      ⟨fun k hk => absurd hk List.not_mem_nil, fun l a ha => (none_presented l a ha).elim⟩
  · exact ⟨List.Pairwise.nil, List.Pairwise.nil⟩

/-- A sound state takes a step. -/
theorem witness_StepKeepsPlanSound : ∃ s t : State, s.PlanSound ∧ step s = .next t :=
  ⟨_, _, planSound ZoneScheduler.reset, rfl⟩

/-- A sound state with a setup in force and window 0 PENDING. -/
theorem witness_LockedPlanBytesEqualCopies :
    ∃ s : State, s.PlanSound ∧ s.ps.run ≠ .config ∧ (s.window 0).status = .pending :=
  ⟨_, planSound (withWindow0 running .pending).zs, by decide +kernel, by decide +kernel⟩

/-! ## One step of the commands -/

/-- What a command makes of a state. -/
def after (s : State) (c : Instr) : State :=
  match exec c s with
  | .next t => t
  | _ => s

/-- RESET_N asserted with an access in progress, then released with the straps at 5. -/
theorem test_reset :
    (after (busy running 0 (plan 0x3000 (zeros 8))) .resetNAssert).la.port = .free ∧
    (after (after running .resetNAssert) (.resetNRelease 5)).planBase = 5 * 2 ^ 32 := by
  decide +kernel

/-- A request out of form is refused at once; a plain one is granted the FREE port. -/
theorem test_lane_request :
    (after running (.laneRequest 0 .read 4 8 false [])).la.responses[0] =
      some { status := .refused, data := List.replicate 8 0xFF } ∧
    (after running (.laneRequest 0 .read 0x10000 8 true [])).la.port =
      .busy { lane := 0, link := true, count := 1 } := by decide +kernel

/-- A plain READ answered OKAY returns what memory holds, answered ERROR every byte 0xFF. -/
theorem test_plain_completion :
    let s := { busy running 0 ⟨readOf 0x10000 8, .plain⟩ with mem := [(0x10001, 7)] }
    (after s (.plainAccessComplete .okay)).la.responses[0] =
      some { status := .okay, data := [0, 7, 0, 0, 0, 0, 0, 0] } ∧
    (after s (.plainAccessComplete .error)).la.responses[0] =
      some { status := .fault, data := List.replicate 8 0xFF } := by decide +kernel

/-- A plan write answered ERROR leaves its words unknown. -/
theorem test_plan_write_error :
    (after (busy running 0 (plan 0x1000 (zeros 16))) (.planWriteComplete .error)).ps.unknown =
      [512, 513] := by decide +kernel

/-- A submit makes its record PENDING, with its report. -/
theorem test_submit :
    let t := after (busy running 0 (plan 0x1000 recordBytes)) .submit
    (t.window 0).status = .pending ∧
      t.rw.queue.map (·.report) = [.windowState 0 0 100 .pending none] := by decide +kernel

/-- A COMMIT of a valid setup. -/
theorem test_commit :
    let s := config.withPlan { config.ps with planCopy := smallestBlock }
    let t := after (busy s 0 (commandOf 1 0 0)) .commit
    t.isRunning = true ∧ t.rw.queue.map (·.report) = [.setupResult 7 .ok 0] := by decide +kernel

/-- A STOP cancels a LIVE window and detaches the attached feeds, whose number falls, and the slipped one. -/
theorem test_stop :
    let s := ((withFeed0 (withZone0 (withWindow0 running .live) .national .national 60 50)
      (attachedAt 60 59) none).setFeed 1 { status := attachedAt 51 50, inFlight := none }).setFeed 2
        { status := .slipped, inFlight := none }
    let t := after (busy s 0 (commandOf 2 0 0)) .stop
    t.isStopping = true ∧ (t.zone 0).timeline = none ∧ t.rw.queue.map (·.report) =
      [.commandResult 2 7 0 0 .accepted, .windowState 0 0 100 .cancelled none,
        .feedState 0 0 4 59 .attached .detached .stop 1, .feedState 1 0 0xFF 50 .attached .detached .stop 0,
        .feedState 2 0 0 0 .slipped .detached .stop 0] := by decide +kernel

/-- A CANCEL of a window whose zone is in effect. -/
theorem test_cancel :
    let s := withZone0 (withWindow0 running .live) (.regional 0) (.regional .a) 150 140
    let t := after (busy s 0 (commandOf 3 0 0)) .cancel
    (t.zone 0).status = .returning 0 .cancel false ∧ (t.window 0).status = .live ∧
      t.rw.queue.map (·.report) = [.commandResult 3 7 0 0 .accepted] := by decide +kernel

/-- A HOLD of an ARMED zone closes the window; a RELEASE turns the command hold off. -/
theorem test_hold_and_release :
    let s := withZone0 (withWindow0 running .live) (.armed 0) .national 90 80
    let t := after (busy s 0 (commandOf 4 1 1)) .hold
    (t.zone 0).status = .national ∧ (t.window 0).status = .closed ∧
    (t.zone 0).commandHold = some .hard ∧
    t.rw.queue.map (·.report) = [.commandResult 4 7 0 0 .accepted, .holdState 1 true .command (some .hard),
      .zoneOutcome 0 0 0 90 .heldOff, .windowState 0 0 100 .closed none] ∧
    ((after (busy t 0 (commandOf 5 1 0)) .release).zone 0).commandHold = none := by decide +kernel

/-- An ATTACH sets the zone; the DETACH of its only feed unsets it. -/
theorem test_attach_and_detach :
    let t := after (busy running 0 (commandOf 6 0 60)) .attach
    (t.zone 0).timeline = some (Timeline.startingAt 60) ∧
    ((after (busy t 0 (commandOf 7 0 0)) .detach).zone 0).timeline = none := by decide +kernel

/-- A code that is no command. -/
theorem test_bad_command :
    (after (busy running 0 (commandOf 9 0 0)) .badCommand).rw.queue.map (·.report) =
      [.commandResult 9 7 0 0 .badCommand] := by decide +kernel

/-- A read index write moves the copy. -/
theorem test_read_index :
    let s := { running.markReadWrite with rw := { running.markReadWrite.rw with writeIndex := 3 } }
    let a : Access := { req := writeOf 0x2100 [0, 0, 0, 2, 0, 0, 0, 0], kind := .plan true }
    (after (busy s 0 a) (.readIndexWrite .okay)).rw.readIndex = 2 := by decide +kernel

set_option maxRecDepth 20000 in
/-- A ring write is accepted as ARRIVING, and its completion settles the entry and the path. -/
theorem test_ring_write :
    let t := after running (.laneRequest 2 .write 0x200000 256 false (cellOf 256))
    let v := after t (.ringWriteComplete .okay)
    t.head (.regional 0 .a) = some 256 ∧ (v.entry (.regional 0 .a) 0).map (·.state) = some .bad ∧
    v.path 0 .a = { head := some 256, score := 4, health := .live, timer := some 0 } := by
  decide +kernel

/-- A view read of a slot whose cell is there, its completion patched as the national cell. -/
theorem test_view_read :
    let p : Position := { next := 256, last := 255, readDone := true, readSincePulse := true, stall := 0 }
    let s := (withFeed0 (withZone0 running .national .national 255 255) (.attached p) none).setEntry
      .national 0 (good 256 5)
    let t := after s (.laneRequest 4 .read 0x400000 256 false [])
    (t.lane 4).presented?.map (·.req.addr) = some 0x100000 ∧
    ((after t (.viewReadComplete .okay)).feed 0).status.position?.map (·.last) = some 256 := by
  decide +kernel

/-- A window armed late: entered at the same slot, SWITCH comes before LIVE, and so does the LOG_FULL of a full
log; missed at the same slot as its last zone, the outcome before LIVE and CLOSED. -/
theorem test_late_arming :
    let s := fun (n : SSN) => (withZone0 (withWindow0 running .pending) .national .national n n).setPath 0 .a
      { PathState.reset with health := .live, head := some 200 }
    let both := ((s 99).setEntry .national 100 (good 100 5)).setEntry (.regional 0 .a) 100 (good 100 9)
    (both.decideTo small 0 100).rw.queue.map (·.report) =
      [.switch 0 0 (some 0) 100 (.regional .a) .national .entry 2, .windowState 0 0 100 .live none] ∧
    ((withLog both full).decideTo small 0 100).rw.queue.map (·.report) =
      [.logFull 0 100 (.regional .a) .entry .national 99, .windowState 0 0 100 .live none] ∧
    ((s 104).decideTo small 0 105).rw.queue.map (·.report) =
      [.zoneOutcome 0 0 0 105 .missed, .windowState 0 0 100 .live none,
        .windowState 0 0 100 .closed none] := by decide +kernel

set_option maxRecDepth 20000 in
/-- A detach that moves the trail past a held write's old SSN releases the write, which is accepted; a read in
flight of its slot keeps it held. -/
theorem test_release :
    let s := withZone0 ((withFeed0 (withHeld running 0) (attachedAt 1 0) none).setFeed 1
      { status := attachedAt 5 4, inFlight := none }) .national (.regional .a) 6 0
    let t := after (busy s 0 (commandOf 7 0 0)) .detach
    (t.rg.held = [] ∧ t.head (.regional 0 .a) = some 256 ∧
      (t.lane 2).presented?.map (·.kind) = some (.ring (.regional 0 .a) 0)) ∧
    (after (busy (s.setFeed 2 { status := .slipped, inFlight := some reading0 }) 0 (commandOf 7 0 0))
      .detach).rg.held = [held0 0] := by decide +kernel

set_option maxRecDepth 20000 in
/-- A null cell is answered after the examination of the held list, so that the write it releases has its part in the
grant that follows the end of the reservation: its lane, 2, is before lane 7. -/
theorem test_null_read_releases :
    let s := withZone0 (withFeed0 (withHeld running 0) (attachedAt 1 0) none) .national (.regional .a) 6 0
    let port : Reservation := { lane := 4, urgent := true, wait := 0, count := 1 }
    let t := after ((s.present 7 ⟨readOf 0x10000 8, .plain⟩).setPort (.reserved port))
      (.laneRequest 4 .read 0x400100 256 false [])
    t.la.responses[4].map (·.data) = some (nullCell 1) ∧ t.rg.held = [] ∧
      t.la.port = .busy (granted 2) := by decide +kernel

/-- The expiries at their limits. -/
theorem test_expiries :
    let reserved := running.setPort (.reserved { lane := 1, urgent := false, wait := 2, count := 1 })
    let silent := running.setPath 0 .a { PathState.reset with health := .live, timer := some 3 }
    let lost := { running with tb := { running.tb with pulseTimeout := some 2 } }
    (after reserved .linkWaitExpiry).la.port = .free ∧
    ((after silent (.silenceLimitExpiry 0 .a)).path 0 .a).health = .silent ∧
    (after lost .pulseTimeoutExpiry).tb.refState = .lost ∧
    (after (withHeld running 2) (.holdLimitExpiry 2)).rg.held = [] := by decide +kernel

/-- A tick, a reference pulse, and the two edges of HOLD_REQ. -/
theorem test_time_and_lines :
    (after running .tick).tb.tickCount = 1 ∧ (after running .refPulse).tb.refState = .locked ∧
    ((after running .holdReqAssert).zone 0).pinHold = true ∧
    ((after (after running .holdReqAssert) .holdReqDeassert).zone 0).pinHold = false := by
  decide +kernel

/-- The drain ends, STOPPED is written, and with its index word's write the part is in CONFIG. -/
theorem test_drain_end :
    let t := after stopping .drainEnd
    t.rw.hand.isSome = true ∧
    (after (after t (.recordWriteComplete .okay)) (.writeIndexWordComplete .okay)).ps.run = .config := by
  decide +kernel

/-- A report is taken to the ring slot of the write index. -/
theorem test_report_take :
    let t := after (running.hand (.memoryFault 0 .read 0)) .reportTake
    (t.lane reportLane).presented?.map (·.req.addr) = some 0x600000 ∧
    (after t (.recordWriteComplete .okay)).rw.writeIndex = 1 := by decide +kernel

end Sys2Proof.Tests
end

section
/-! Serial order of slot sequence numbers (R12, R13) and the check of a payload (R8). -/

namespace Sys2Proof.Machine

/-! ## Distances between SSNs (R12, R13) -/

theorem distance_eq_zero_iff (a b : SSN) : distance a b = 0 ↔ a = b := by
  unfold distance; bv_omega

/-- The two ways round from one SSN to another make one whole turn. -/
theorem distance_add_distance_of_ne {a b : SSN} (h : a ≠ b) : distance a b + distance b a = 2 ^ 32 := by
  unfold distance; bv_omega

/-- Seen from one base below both, the way from `a` on to `b` is the difference of their distances. -/
theorem distance_of_base_le {base a b : SSN} (h : distance base a ≤ distance base b) :
    distance a b = distance base b - distance base a := by
  unfold distance at *; bv_omega

/-! ## Serial order (R12) -/

theorem precedes_iff (a b : SSN) : precedes a b = true ↔ 1 ≤ distance a b ∧ distance a b ≤ 2 ^ 31 - 1 := by
  simp only [precedes, decide_eq_true_eq]; omega

@[simp] theorem precedes_self (a : SSN) : precedes a a = false := by
  simp [precedes, distance]

theorem atOrBefore_iff (a b : SSN) : atOrBefore a b = true ↔ a = b ∨ precedes a b = true := by
  simp [atOrBefore]

theorem unordered_iff (a b : SSN) : unordered a b = true ↔ distance a b = 2 ^ 31 := by
  simp [unordered]

theorem ne_of_unordered {a b : SSN} (h : unordered a b = true) : a ≠ b := by
  rw [Ne, ← distance_eq_zero_iff, (unordered_iff a b).mp h]; decide

theorem unordered_symm {a b : SSN} (h : unordered a b = true) : unordered b a = true := by
  have turn := distance_add_distance_of_ne (ne_of_unordered h)
  rw [unordered_iff] at *; omega

theorem precedes_eq_false_of_unordered {a b : SSN} (h : unordered a b = true) : precedes a b = false := by
  simp [precedes, (unordered_iff a b).mp h]

theorem atOrBefore_eq_false_of_unordered {a b : SSN} (h : unordered a b = true) : atOrBefore a b = false := by
  simp [atOrBefore, ne_of_unordered h, precedes_eq_false_of_unordered h]

/-! ## Slots after and before an SSN (R12) -/

theorem toNat_ssnAdd (n : SSN) (k : Nat) : (ssnAdd n k).toNat = (n.toNat + k) % 2 ^ 32 := by
  simp [ssnAdd, BitVec.toNat_add]

theorem ssnAdd_ssnSub (n : SSN) (k : Nat) : ssnAdd (ssnSub n k) k = n := BitVec.sub_add_cancel _ _

/-! ## The least of a set of SSNs within a span below 2^31 (R13) -/

/-- Within a span below 2^31 serial order is the order of the distances from its base. -/
theorem precedes_iff_distance_lt {base a b : SSN} (ha : distance base a < 2 ^ 31) (hb : distance base b < 2 ^ 31) :
    precedes a b = true ↔ distance base a < distance base b := by
  rw [precedes_iff]
  rcases Nat.le_total (distance base a) (distance base b) with h | h
  · rw [distance_of_base_le h]; omega
  · have back := distance_of_base_le h
    by_cases heq : a = b
    · subst heq; simp [distance]
    · have turn := distance_add_distance_of_ne heq
      omega

theorem distance_lesser {base a b : SSN} (ha : distance base a < 2 ^ 31) (hb : distance base b < 2 ^ 31) :
    distance base (lesser a b) = min (distance base a) (distance base b) := by
  unfold lesser
  split
  · next h => rw [precedes_iff_distance_lt hb ha] at h; omega
  · next h => rw [precedes_iff_distance_lt hb ha] at h; omega

theorem lesser_eq_or (a b : SSN) : lesser a b = a ∨ lesser a b = b := by
  unfold lesser; split
  · exact .inr rfl
  · exact .inl rfl

/-- The lesser of all, gone through from `x` on, is `x` or one of them, and none is nearer to the base of the span. -/
theorem foldl_lesser_nearest {base : SSN} (xs : List SSN) (x : SSN)
    (hspan : ∀ y ∈ x :: xs, distance base y < 2 ^ 31) :
    xs.foldl lesser x ∈ x :: xs ∧ ∀ y ∈ x :: xs, distance base (xs.foldl lesser x) ≤ distance base y := by
  induction xs generalizing x with
  | nil => simp
  | cons z zs ih =>
    simp only [List.forall_mem_cons] at hspan
    obtain ⟨hx, hz, hzs⟩ := hspan
    have hmin := distance_lesser hx hz
    obtain ⟨hmem, hle⟩ := ih (lesser x z) (List.forall_mem_cons.mpr ⟨by omega, hzs⟩)
    obtain ⟨hhead, htail⟩ := List.forall_mem_cons.mp hle
    simp only [List.foldl_cons, List.forall_mem_cons]
    refine ⟨?_, by omega, by omega, htail⟩
    rcases List.mem_cons.mp hmem with h | h
    · rw [h]
      rcases lesser_eq_or x z with k | k <;> simp [k]
    · simp [h]

/-- The least of a set within a span below 2^31 is a member that no other member precedes. -/
theorem least_spec {base : SSN} {l : List SSN} (hne : l ≠ []) (hspan : ∀ x ∈ l, distance base x < 2 ^ 31) :
    ∃ y, least l = some y ∧ y ∈ l ∧ ∀ x ∈ l, precedes x y = false := by
  cases l with
  | nil => exact absurd rfl hne
  | cons x xs =>
    obtain ⟨hmem, hle⟩ := foldl_lesser_nearest xs x hspan
    refine ⟨_, rfl, hmem, fun y hy => ?_⟩
    rw [Bool.eq_false_iff, Ne, precedes_iff_distance_lt (hspan y hy) (hspan _ hmem)]
    exact Nat.not_lt.mpr (hle y hy)

/-! ## The ring-write checks of an unordered pair (R12, R81) -/

/-- A whole cell with its mark, at its own slot, is STALE where its SSN is unordered with the SSN the entry holds. -/
theorem State.checkRingWrite_of_unordered {s : State} {su : Setup} {ring : RingId} {k : Nat} {cell : List Byte}
    {e : Entry} (hlen : cell.length = 256) (hmark : cellMark cell = 0xA7) (hslot : su.slotOf ring (cellSsn cell) = k)
    (hentry : s.entry ring k = some e) (hun : unordered (cellSsn cell) e.ssn = true) :
    s.checkRingWrite su ring k cell = .refused .stale := by
  simp [State.checkRingWrite, hlen, hmark, hslot, hentry, hun]

/-- Settles O6: the order by distances, the least by the distance from the span's base, the checks by their steps. -/
theorem serialOrder : Obligations.SerialOrder := by
  refine ⟨fun a b => ⟨precedes_iff a b, distance_eq_zero_iff a b, ?_, atOrBefore_iff a b, fun h => ?_⟩,
    fun n k => ⟨toNat_ssnAdd n k, ssnAdd_ssnSub n k⟩, rfl, fun _ _ hne hspan => least_spec hne hspan,
    fun _ _ _ _ _ _ hlen hmark hslot hentry hun => State.checkRingWrite_of_unordered hlen hmark hslot hentry hun⟩
  · rintro rfl
    exact ⟨precedes_self a, precedes_self a⟩
  · have hab : unordered a b = true := (unordered_iff a b).mpr h
    have hba := unordered_symm hab
    exact ⟨hab, precedes_eq_false_of_unordered hab, precedes_eq_false_of_unordered hba,
      atOrBefore_eq_false_of_unordered hab, atOrBefore_eq_false_of_unordered hba⟩

/-! ## The check, bit by bit (R8) -/

/-- One bit of R8: the register is shifted left, and the polynomial is added where the compared bits differed. -/
theorem crcBit_eq (reg : BitVec 16) (bit : Bool) :
    crcBit reg bit = if bit = reg.getMsbD 0 then reg <<< 1 else (reg <<< 1) ^^^ 0x1021#16 := by
  rw [crcBit, BitVec.msb]
  by_cases h : bit = reg.getMsbD 0
  · simp [h]
  · simp [h, Ne.symm h]

/-- The bits of a byte from its most significant on are the places 7 down to 0 that the model goes through. -/
theorem map_getMsbD_byte (b : Byte) :
    (List.range 8).map (fun i => b.getMsbD i) = [7, 6, 5, 4, 3, 2, 1, 0].map (fun i => b.getLsbD i) := by
  simp [List.range_succ, BitVec.getMsbD_eq_getLsbD]

theorem crcByte_eq_foldl_bits (reg : BitVec 16) (b : Byte) :
    crcByte reg b = ((List.range 8).map (fun i => b.getMsbD i)).foldl crcBit reg := by
  rw [map_getMsbD_byte, List.foldl_map, crcByte]

/-- The check goes through the bits of the payload one after another, byte by byte in address order. -/
theorem cellCheck_eq_foldl_bits (payload : List Byte) :
    cellCheck payload =
      (payload.flatMap (fun b => (List.range 8).map (fun i => b.getMsbD i))).foldl crcBit 0xFFFF#16 := by
  rw [List.foldl_flatMap]
  exact List.foldl_ext _ _ _ fun reg b _ => crcByte_eq_foldl_bits reg b

/-- Settles O7: a payload is all its bits in turn, and each bit moves the register as R8 says. -/
theorem checkIsBitwise : Obligations.CheckIsBitwise := by
  intro payload
  rw [cellCheck_eq_foldl_bits]
  exact List.foldl_ext _ _ _ fun reg bit _ => crcBit_eq reg bit

end Sys2Proof.Machine
end

section
/-! Which lane a FREE port is granted to (R25, R26), and the end of a sequence of eight accesses (R32). -/

namespace Sys2Proof.Machine

/-! ## Groups (R21, R23) -/

@[simp] theorem State.isUrgent_reportLane (s : State) : s.isUrgent reportLane = false := by
  unfold State.isUrgent
  cases s.setup <;> rfl

theorem State.setup_eq_none_of_isConfig {s : State} (h : s.isConfig = true) : s.setup = none := by
  unfold State.isConfig at h
  unfold State.setup
  split at h
  · next hrun => rw [hrun]; rfl
  · contradiction

theorem State.isUrgent_of_isConfig {s : State} (h : s.isConfig = true) (l : Fin 9) : s.isUrgent l = false := by
  simp [State.isUrgent, State.setup_eq_none_of_isConfig h]

theorem State.groupMode_of_isConfig {s : State} (h : s.isConfig = true) (u : Bool) : s.groupMode u = .fixed := by
  simp [State.groupMode, State.setup_eq_none_of_isConfig h]

/-! ## The group that is served (R25) -/

/-- The urgent group is served when one of its lanes waits, the normal group otherwise: never an empty one. -/
theorem State.servedGroup_ne_nil {s : State} {k : Fin 9} (hk : s.Waits k) :
    s.waitingIn (!(s.waitingIn true).isEmpty) ≠ [] := by
  by_cases hurgent : s.waitingIn true = []
  · have hnormal : s.isUrgent k = false := by
      rw [← Bool.not_eq_true]
      intro hu
      exact List.ne_nil_of_mem ((s.mem_waitingIn k true).mpr ⟨hk, hu⟩) hurgent
    rw [hurgent]
    exact List.ne_nil_of_mem ((s.mem_waitingIn k false).mpr ⟨hk, hnormal⟩)
  · rw [List.isEmpty_eq_false_iff.mpr hurgent]
    exact hurgent

theorem State.pick_eq_none_iff (s : State) : s.pick = none ↔ ∀ l, ¬ s.Waits l := by
  constructor
  · intro hnone k hk
    obtain ⟨l, hl⟩ := pickLane_isSome (s.groupMode _) (s.groupPtr _) _ (State.servedGroup_ne_nil hk)
    exact Option.some_ne_none l (hl.symm.trans hnone)
  · intro hidle
    rw [Option.eq_none_iff_forall_ne_some]
    exact fun l hl => hidle l (s.pick_waits l hl).1

/-- The lane picked is the one that the mode of its own group picks among that group's WAITING lanes. -/
theorem State.pickLane_of_pick {s : State} {l : Fin 9} (h : s.pick = some l) :
    pickLane (s.groupMode (s.isUrgent l)) (s.groupPtr (s.isUrgent l)) (s.waitingIn (s.isUrgent l)) = some l := by
  rw [(s.pick_waits l h).2]
  exact h

/-- A NORMAL lane is picked only while no URGENT lane waits (R25). -/
theorem State.no_urgent_waits_of_pick_normal {s : State} {l k : Fin 9} (h : s.pick = some l)
    (hl : s.isUrgent l = false) (hk : s.Waits k) : s.isUrgent k = false := by
  have hempty : s.waitingIn true = [] := by
    have hserved := (s.pick_waits l h).2
    rw [hl] at hserved
    simpa using hserved
  rw [← Bool.not_eq_true]
  intro hu
  exact List.ne_nil_of_mem ((s.mem_waitingIn k true).mpr ⟨hk, hu⟩) hempty

/-! ## The lane a mode picks (R26) -/

/-- What is found first in a list that rises by `f` has the least `f` of all that could be found. -/
theorem le_of_find?_of_rising {α : Type} {f : α → Nat} {p : α → Bool} {xs : List α}
    (hrise : xs.Pairwise (fun x y => f x ≤ f y)) {l k : α} (hfind : xs.find? p = some l)
    (hk : k ∈ xs) (hp : p k = true) : f l ≤ f k := by
  induction xs with
  | nil => cases hk
  | cons x xs ih =>
    obtain ⟨hx, hxs⟩ := List.pairwise_cons.mp hrise
    by_cases hpx : p x = true
    · obtain rfl : x = l := by simpa [hpx] using hfind
      rcases List.mem_cons.mp hk with rfl | hk
      · exact Nat.le_refl _
      · exact hx k hk
    · rcases List.mem_cons.mp hk with rfl | hk
      · exact absurd hp hpx
      · exact ih hxs (by simpa [hpx] using hfind) hk

/-- How far on lane `l` stands in the cyclic order from a pointer: 0 just after it, 8 at it. -/
theorem rotation_place (ptr k : Fin 9) : ((ptr + 1 + k).val + 8 - ptr.val) % 9 = k.val := by
  simp only [Fin.val_add, Fin.val_one]
  omega

theorem rotation_rising (ptr : Fin 9) :
    (rotation ptr).Pairwise (fun a b => (a.val + 8 - ptr.val) % 9 ≤ (b.val + 8 - ptr.val) % 9) := by
  simp only [rotation, List.pairwise_map, rotation_place]
  exact (List.sortedLT_finRange 9).sortedLE.pairwise

theorem mem_rotation (ptr k : Fin 9) : k ∈ rotation ptr :=
  List.mem_map.mpr ⟨k - (ptr + 1), List.mem_finRange _, add_sub_cancel _ _⟩

theorem pickLane_rotating_least {ptr l k : Fin 9} {lanes : List (Fin 9)}
    (h : pickLane .rotating ptr lanes = some l) (hk : k ∈ lanes) :
    (l.val + 8 - ptr.val) % 9 ≤ (k.val + 8 - ptr.val) % 9 :=
  le_of_find?_of_rising (f := fun a => (a.val + 8 - ptr.val) % 9) (rotation_rising ptr) h (mem_rotation ptr k)
    (List.contains_iff_mem.mpr hk)

/-- A FIXED group's WAITING lanes stand in ascending order, and the first is picked. -/
theorem State.pickLane_fixed_least {s : State} {u : Bool} {ptr l k : Fin 9}
    (h : pickLane .fixed ptr (s.waitingIn u) = some l) (hk : k ∈ s.waitingIn u) : l ≤ k := by
  have hfirst : (s.waitingIn u).head? = some l := h
  rw [State.waitingIn, List.head?_filter] at hfirst
  exact le_of_find?_of_rising (f := Fin.val) (List.sortedLT_finRange 9).sortedLE.pairwise hfirst (List.mem_finRange k)
    (List.mem_filter.mp hk).2

/-- Settles O9: the group served is the urgent one if any of its lanes waits, and both modes find the first WAITING
lane of an order that rises, by lane number or by the place after the pointer. -/
theorem grantOrder : Obligations.GrantOrder := by
  intro s
  refine ⟨s.pick_eq_none_iff, fun l h => ?_, s.isUrgent_reportLane,
    fun hc l => ⟨State.isUrgent_of_isConfig hc l, State.groupMode_of_isConfig hc false⟩⟩
  have hpicked := State.pickLane_of_pick h
  refine ⟨(s.pick_waits l h).1, fun hl k hk => State.no_urgent_waits_of_pick_normal h hl hk,
    fun hmode k hk hgroup => ?_, fun hmode k hk hgroup => ?_⟩
  · rw [hmode] at hpicked
    exact State.pickLane_fixed_least hpicked ((s.mem_waitingIn k _).mpr ⟨hk, hgroup⟩)
  · rw [hmode] at hpicked
    exact pickLane_rotating_least hpicked ((s.mem_waitingIn k _).mpr ⟨hk, hgroup⟩)

/-! ## The end of a sequence (R32) -/

/-- A FREE port that has met its requesters is FREE still or BUSY with the first access of a sequence. -/
theorem State.PortSettled.of_free {s t : State} (h : s.PortSettled t) (hfree : s.la.port = .free) :
    t.la.port = .free ∨ ∃ g, t.la.port = .busy g ∧ g.count = 1 := by
  cases hpick : s.pick with
  | none =>
    rw [h.idle hfree hpick]
    exact .inl hfree
  | some l =>
    obtain ⟨a, -, -, hport⟩ := (h.free l hfree hpick).active
    exact .inr ⟨_, hport, rfl⟩

theorem State.makesReservation_eq_false_of_cap_le {s : State} {g : Grant} {x : MemAnswer}
    (h : Config.sequenceCap ≤ g.count) : s.makesReservation g x = false := by
  simp [State.makesReservation, Nat.not_lt.mpr h]

/-- A completion that makes no reservation leaves the port FREE, or granted to the first access of a sequence. -/
theorem State.closePort_of_no_reservation {s : State} {g : Grant} {x : MemAnswer}
    (h : s.makesReservation g x = false) :
    (s.closePort g x).la.port = .free ∨ ∃ g', (s.closePort g x).la.port = .busy g' ∧ g'.count = 1 :=
  State.PortSettled.of_free ((s.settledFrom_closePort g x s.la rfl).1 h) rfl

/-- Settles O12: at count 8 the completion makes no reservation, so the port was FREE when it was next granted. -/
theorem noNinthLinkedAccess : Obligations.NoNinthLinkedAccess := by
  intro s g x hcount
  have hnone : s.makesReservation g x = false := State.makesReservation_eq_false_of_cap_le hcount.ge
  rcases State.closePort_of_no_reservation hnone with hfree | ⟨g₁, hbusy, hone⟩
  · rw [hfree]
    exact ⟨nofun, nofun⟩
  · rw [hbusy]
    exact ⟨nofun, fun g' hg' => Port.busy.inj hg' ▸ hone⟩

end Sys2Proof.Machine
end

section
/-! The seven checks of a submitted record (R73, R74): one Bool per check, what each asks for, and the first that
fails. -/

namespace Sys2Proof.Machine

/-! ## The checks of R73, each by itself -/

/-- Check 2 of R73, region. -/
def WindowRec.regionOk (su : Setup) (wr : WindowRec) : Bool :=
  wr.region.any (fun r => su.regions[r].enabled && !(su.zonesOf r).isEmpty)

/-- Check 5 of R73 for one zone, which may have no horizon yet. -/
def Zone.horizonBefore (zone : Zone) (start : SSN) : Bool :=
  match zone.timeline with
  | some t => startAfter t.horizon start
  | none => true

/-- Check 5 of R73, timing: a record that names no region has no zone to be timed against. -/
def State.startTimely (s : State) (su : Setup) (wr : WindowRec) : Bool :=
  wr.region.all (fun r => (su.zonesOf r).all (fun z => (s.zone z).horizonBefore wr.start))

/-- Check 6 of R73, overlap. -/
def State.disjointFromOpen (s : State) (su : Setup) (wr : WindowRec) : Bool :=
  (List.finRange 64).all (fun v =>
    !((s.window v).status.open? && (s.windowRec v).region == wr.region) ||
      disjoint wr.start (su.graceEnd wr) (s.windowRec v).start (su.graceEnd (s.windowRec v)))

/-- Check 7 of R73, modes. -/
def WindowRec.modesOk (wr : WindowRec) : Bool := decide (wr.mode ≤ 1) && decide (wr.preferred ≤ 1)

/-! ## What each check asks for -/

theorem Setup.mem_zonesOf (su : Setup) (r : Fin 12) (z : Fin 24) : z ∈ su.zonesOf r ↔ su.zoneRegion z = some r := by
  simp [Setup.zonesOf]

theorem toFin?_eq_some_iff {n x : Nat} {i : Fin n} : toFin? n x = some i ↔ x = i.val := by
  unfold toFin?
  split
  · next h => rw [Option.some_inj, Fin.ext_iff]
  · next h => exact iff_of_false nofun (fun hx => h (hx ▸ i.isLt))

/-- A zone belongs to the region it names while it is enabled (R195). -/
theorem Setup.zoneRegion_eq_some_iff (su : Setup) (z : Fin 24) (r : Fin 12) :
    su.zoneRegion z = some r ↔ su.zones[z].enabled = true ∧ su.zones[z].region = r.val := by
  unfold Setup.zoneRegion
  split
  · next h => rw [and_iff_right h, toFin?_eq_some_iff]
  · next h => exact iff_of_false nofun (fun ⟨henabled, _⟩ => h henabled)

theorem disjoint_eq_true_iff (a1 b1 a2 b2 : SSN) :
    disjoint a1 b1 a2 b2 = true ↔ precedes b1 a2 = true ∨ precedes b2 a1 = true := by
  simp [disjoint]

theorem startAfter_iff (horizon start : SSN) :
    startAfter horizon start = true ↔ precedes horizon start = true ∧ precedes (horizon + 1) start = true := by
  simp [startAfter]

theorem Zone.horizonBefore_iff (zone : Zone) (start : SSN) :
    zone.horizonBefore start = true ↔ ∀ t, zone.timeline = some t → startAfter t.horizon start = true := by
  unfold Zone.horizonBefore
  cases zone.timeline <;> simp

theorem State.recordSettled_iff (s : State) (w : Fin 64) (l : Fin 9) :
    s.recordSettled w l = true ↔
      (∀ k ∈ s.ps.unknown, overlaps (windowOffset w) 64 (8 * k) 8 = false) ∧
        ∀ x ∈ s.outstandingPlan, x.1 = l ∨ s.covers x.2.req (windowOffset w) 64 = false := by
  simp [State.recordSettled]

theorem WindowRec.regionOk_iff (su : Setup) (wr : WindowRec) :
    wr.regionOk su = true ↔ ∃ r, wr.region = some r ∧ su.regions[r].enabled = true ∧
      ∃ z : Fin 24, su.zones[z].enabled = true ∧ su.zones[z].region = r.val := by
  have named (r : Fin 12) : (su.zonesOf r).isEmpty = false ↔
      ∃ z : Fin 24, su.zones[z].enabled = true ∧ su.zones[z].region = r.val := by
    simp only [List.isEmpty_eq_false_iff_exists_mem, su.mem_zonesOf, su.zoneRegion_eq_some_iff]
  simp only [WindowRec.regionOk, Option.any_eq_true, Bool.and_eq_true, Bool.not_eq_true', named]

theorem WindowRec.tagsOk_iff (wr : WindowRec) :
    wr.tagsOk = true ↔ (1 ≤ wr.pairCount ∧ wr.pairCount ≤ 4) ∧
      (∀ p ∈ wr.pairs, p.1 ≠ 4095 ∧ p.2 ≠ 4095) ∧
      (wr.pairs.map (·.1)).Nodup ∧ (wr.pairs.map (·.2)).Nodup := by
  simp only [WindowRec.tagsOk, inRange, Bool.and_eq_true, decide_eq_true_eq, List.all_eq_true, bne_iff_ne, and_assoc]

theorem WindowRec.spanOk_iff (su : Setup) (wr : WindowRec) :
    wr.spanOk su = true ↔ precedes (wr.start + BitVec.ofNat 32 su.entryGrace) wr.finish = true ∧
      (wr.finish - wr.start).toNat < 2 ^ 30 :=
  Bool.and_eq_true_iff.trans (and_congr_right' decide_eq_true_iff)

theorem State.startTimely_iff (s : State) (su : Setup) (wr : WindowRec) :
    s.startTimely su wr = true ↔ ∀ r z t, wr.region = some r → su.zoneRegion z = some r →
      (s.zone z).timeline = some t → precedes t.horizon wr.start = true ∧
        precedes (t.horizon + 1) wr.start = true := by
  simp only [State.startTimely, Option.all_eq_true, List.all_eq_true, su.mem_zonesOf, Zone.horizonBefore_iff,
    startAfter_iff]
  exact ⟨fun h r z t hr hz ht => h r hr z hz t ht, fun h r hr z hz t ht => h r z t hr hz ht⟩

theorem State.disjointFromOpen_iff (s : State) (su : Setup) (wr : WindowRec) :
    s.disjointFromOpen su wr = true ↔
      ∀ v, (s.window v).status.open? = true → (s.windowRec v).region = wr.region →
        precedes (su.graceEnd wr) (s.windowRec v).start = true ∨
          precedes (su.graceEnd (s.windowRec v)) wr.start = true := by
  simp only [State.disjointFromOpen, List.all_eq_true, List.mem_finRange, true_imp_iff, Bool.or_eq_true,
    Bool.not_eq_true', ← Bool.not_eq_true, Bool.and_eq_true, beq_iff_eq, disjoint_eq_true_iff,
    ← imp_iff_not_or, and_imp]

theorem WindowRec.modesOk_iff (wr : WindowRec) : wr.modesOk = true ↔ wr.mode ≤ 1 ∧ wr.preferred ≤ 1 := by
  simp only [WindowRec.modesOk, Bool.and_eq_true, decide_eq_true_eq]

/-! ## The first check that fails -/

/-- The reason of the first check that does not pass. -/
def firstRejection : List (RejectReason × Bool) → Option RejectReason
  | [] => none
  | (reason, passes) :: rest => if !passes then some reason else firstRejection rest

theorem firstRejection_nil : firstRejection [] = none := rfl

theorem firstRejection_cons_eq_some_iff (reason x : RejectReason) (passes : Bool) (rest : List (RejectReason × Bool)) :
    firstRejection ((reason, passes) :: rest) = some x ↔
      (reason = x ∧ ¬ passes = true) ∨ (passes = true ∧ firstRejection rest = some x) := by
  cases passes <;> simp [firstRejection]

theorem firstRejection_cons_eq_none_iff (reason : RejectReason) (passes : Bool) (rest : List (RejectReason × Bool)) :
    firstRejection ((reason, passes) :: rest) = none ↔ passes = true ∧ firstRejection rest = none := by
  cases passes <;> simp [firstRejection]

/-- The seven checks of a submitted record with their reasons, in the order of R73. -/
def State.submitChecks (s : State) (su : Setup) (w : Fin 64) (l : Fin 9) : List (RejectReason × Bool) :=
  let wr := s.windowRec w
  [(.unsettled, s.recordSettled w l), (.region, wr.regionOk su), (.tags, wr.tagsOk), (.span, wr.spanOk su),
    (.tooLate, s.startTimely su wr), (.overlap, s.disjointFromOpen su wr), (.mode, wr.modesOk)]

/-- The validation of the model is these seven checks: a record without a region never passes the second. -/
theorem State.validateSubmit_eq_firstRejection (s : State) (su : Setup) (w : Fin 64) (l : Fin 9) :
    s.validateSubmit su w l = firstRejection (s.submitChecks su w l) := by
  simp only [State.validateSubmit, State.submitChecks, WindowRec.regionOk, State.startTimely, State.disjointFromOpen]
  cases (s.windowRec w).region with
  | none => rfl
  | some r =>
    have hregion : (!su.regions[r].enabled || (su.zonesOf r).isEmpty) =
        !(su.regions[r].enabled && !(su.zonesOf r).isEmpty) := by
      rw [Bool.not_and, Bool.not_not]
    simp only [hregion]
    rfl

/-- Settles O23: the result is the reason of the first of the seven checks that fails, and each check passes exactly
when the record meets its condition. -/
theorem submitChecksInOrder : Obligations.SubmitChecksInOrder := by
  intro u su w l wr graceEnd settled region tags span timing overlap modes
  have hsettled : u.recordSettled w l = true ↔ settled := u.recordSettled_iff w l
  have hregion : (u.windowRec w).regionOk su = true ↔ region := wr.regionOk_iff su
  have htags : (u.windowRec w).tagsOk = true ↔ tags := wr.tagsOk_iff
  have hspan : (u.windowRec w).spanOk su = true ↔ span := wr.spanOk_iff su
  have htiming : u.startTimely su (u.windowRec w) = true ↔ timing := u.startTimely_iff su wr
  have hoverlap : u.disjointFromOpen su (u.windowRec w) = true ↔ overlap := u.disjointFromOpen_iff su wr
  have hmodes : (u.windowRec w).modesOk = true ↔ modes := wr.modesOk_iff
  clear_value settled region tags span timing overlap modes
  simp only [State.validateSubmit_eq_firstRejection, State.submitChecks, firstRejection_cons_eq_some_iff,
    firstRejection_cons_eq_none_iff, firstRejection_nil, hsettled, hregion, htags, hspan, htiming, hoverlap, hmodes,
    reduceCtorEq, true_and, false_and, and_false, and_true, or_false, false_or, and_self]

end Sys2Proof.Machine
end

section
/-! The seven steps of a ring write, in order (R81 to R83). -/

namespace Sys2Proof.Machine

/-! ## The cases of serial order exclude each other (R12) -/

/-- The two ways round make one whole turn, so not both are shorter than half of it. -/
theorem precedes_asymm {a b : SSN} (h : precedes a b = true) : precedes b a = false := by
  have hne : a ≠ b := by
    rintro rfl
    simp at h
  have turn := distance_add_distance_of_ne hne
  rw [← Bool.not_eq_true]
  simp only [precedes_iff] at *
  omega

@[simp] theorem unordered_self (a : SSN) : unordered a a = false := by
  rw [← Bool.not_eq_true]
  exact fun h => ne_of_unordered h rfl

theorem unordered_eq_false_of_precedes {a b : SSN} (h : precedes a b = true) : unordered b a = false := by
  rw [← Bool.not_eq_true]
  intro hun
  exact absurd h (by simp [precedes_eq_false_of_unordered (unordered_symm hun)])

/-! ## Steps 1 to 3: the write data alone (R82) -/

theorem State.checkRingWrite_of_partial (s : State) (su : Setup) (ring : RingId) (k : Nat) {cell : List Byte}
    (hlen : cell.length ≠ 256) : s.checkRingWrite su ring k cell = .refused .partialCell := by
  simp [State.checkRingWrite, hlen]

theorem State.checkRingWrite_of_unmarked (s : State) (su : Setup) (ring : RingId) (k : Nat) {cell : List Byte}
    (hlen : cell.length = 256) (hmark : cellMark cell ≠ 0xA7) :
    s.checkRingWrite su ring k cell = .refused .malformed := by
  rw [State.checkRingWrite, if_neg (not_not_intro hlen), if_pos hmark]

theorem State.checkRingWrite_of_misplaced (s : State) {su : Setup} {ring : RingId} {k : Nat} {cell : List Byte}
    (hlen : cell.length = 256) (hmark : cellMark cell = 0xA7) (hslot : su.slotOf ring (cellSsn cell) ≠ k) :
    s.checkRingWrite su ring k cell = .refused .misplaced := by
  simp [State.checkRingWrite, hlen, hmark, hslot]

/-! ## Steps 4 to 7: the entry the slot holds (R83) -/

theorem State.checkRingWrite_of_empty {s : State} {su : Setup} {ring : RingId} {k : Nat} {cell : List Byte}
    (hlen : cell.length = 256) (hmark : cellMark cell = 0xA7) (hslot : su.slotOf ring (cellSsn cell) = k)
    (hempty : s.entry ring k = none) : s.checkRingWrite su ring k cell = .accepted := by
  simp [State.checkRingWrite, hlen, hmark, hslot, hempty]

/-- What steps 4 to 7 make of a write of SSN `m` over an entry that holds `e`. -/
def State.checkOverwrite (s : State) (su : Setup) (ring : RingId) (m e : SSN) : RingWriteOutcome :=
  if precedes m e || unordered m e then .refused .stale
  else if e = m ∧ s.pinned su ring m then .refused .rewrite
  else if precedes e m && s.pinned su ring e then .heldBack e
  else .accepted

theorem State.checkRingWrite_of_entry {s : State} {su : Setup} {ring : RingId} {k : Nat} {cell : List Byte} {e : Entry}
    (hlen : cell.length = 256) (hmark : cellMark cell = 0xA7) (hslot : su.slotOf ring (cellSsn cell) = k)
    (hentry : s.entry ring k = some e) :
    s.checkRingWrite su ring k cell = s.checkOverwrite su ring (cellSsn cell) e.ssn := by
  simp [State.checkRingWrite, State.checkOverwrite, hlen, hmark, hslot, hentry]

section
variable {s : State} {su : Setup} {ring : RingId} {m e : SSN}

theorem State.checkOverwrite_of_stale (hstale : precedes m e = true ∨ unordered m e = true) :
    s.checkOverwrite su ring m e = .refused .stale := by
  simp [State.checkOverwrite, hstale]

/-- An SSN neither precedes itself nor is unordered with itself: a write of the same SSN passes step 4, and only its
pin counts. -/
theorem State.checkOverwrite_same :
    s.checkOverwrite su ring m m = if s.pinned su ring m then .refused .rewrite else .accepted := by
  simp [State.checkOverwrite]

/-- A newer SSN passes steps 4 and 5, since serial order is asymmetric and irreflexive, and only the older one's pin
counts. -/
theorem State.checkOverwrite_of_newer (hnewer : precedes e m = true) :
    s.checkOverwrite su ring m e = if s.pinned su ring e then .heldBack e else .accepted := by
  have hne : e ≠ m := by
    rintro rfl
    simp at hnewer
  simp [State.checkOverwrite, precedes_asymm hnewer, unordered_eq_false_of_precedes hnewer, hne, hnewer]

end

/-- Settles O32: steps 1 to 3 by what they ask of the write data, steps 4 to 7 by where the write's SSN stands in serial
order to the one that the entry holds. -/
theorem ringWriteSteps : Obligations.RingWriteSteps := by
  intro s su ring k cell m result
  refine ⟨s.checkRingWrite_of_partial su ring k, s.checkRingWrite_of_unmarked su ring k, fun hlen hmark =>
    ⟨s.checkRingWrite_of_misplaced hlen hmark, fun hslot =>
      ⟨State.checkRingWrite_of_empty hlen hmark hslot, fun e hentry => ?_⟩⟩⟩
  have hresult : result = s.checkOverwrite su ring m e.ssn := State.checkRingWrite_of_entry hlen hmark hslot hentry
  rw [hresult]
  refine ⟨State.checkOverwrite_of_stale, fun hsame hpinned => ?rewrite, fun hnewer hpinned => ?held,
    fun hstep hfree => ?accepted⟩
  case rewrite => rw [← hsame, State.checkOverwrite_same, if_pos hpinned]
  case held => rw [State.checkOverwrite_of_newer hnewer, if_pos hpinned]
  case accepted =>
    rcases hstep with hsame | hnewer
    · rw [hsame, State.checkOverwrite_same, hfree, if_neg Bool.false_ne_true]
    · rw [State.checkOverwrite_of_newer hnewer, hfree, if_neg Bool.false_ne_true]

end Sys2Proof.Machine
end

section
/-! Which runs retirement removes from a log, and what an advance of a trail does (R126, R129). -/

namespace Sys2Proof.Machine

/-! ## Retirement of a log (R129) -/

/-- How many runs retirement removes: as many as stand, behind the front run, before the first run that begins past
the trail. Every run among these is the successor of one removed. -/
def retiredCount (trail : SSN) (log : List Run) : Nat :=
  log.tail.findIdx (fun r => !atOrBefore r.first trail)

section
variable {trail : SSN} {log : List Run}

theorem retiredCount_of_passed {r1 r2 : Run} {rest : List Run} (h : atOrBefore r2.first trail = true) :
    retiredCount trail (r1 :: r2 :: rest) = retiredCount trail (r2 :: rest) + 1 := by
  simp [retiredCount, List.findIdx_cons, h]

theorem retiredCount_of_not_passed {r1 r2 : Run} {rest : List Run} (h : ¬ atOrBefore r2.first trail = true) :
    retiredCount trail (r1 :: r2 :: rest) = 0 := by
  simp [retiredCount, List.findIdx_cons, h]

theorem retire_eq_drop (trail : SSN) (log : List Run) : retire trail log = log.drop (retiredCount trail log) := by
  induction log with
  | nil => rfl
  | cons r1 log ih =>
    cases log with
    | nil => rfl
    | cons r2 rest =>
      unfold retire
      split
      case isTrue hpassed => rw [ih, retiredCount_of_passed hpassed, List.drop_succ_cons]
      case isFalse hstop => rw [retiredCount_of_not_passed hstop, List.drop_zero]

/-- The open run is never counted, since only runs behind the front one are searched. -/
theorem retiredCount_lt_length (hlog : log ≠ []) : retiredCount trail log < log.length := by
  have hpos : 0 < log.length := List.length_pos_of_ne_nil hlog
  have hle : retiredCount trail log ≤ log.tail.length := List.findIdx_le_length
  rw [List.length_tail] at hle
  omega

theorem getLast?_retire (trail : SSN) (log : List Run) : (retire trail log).getLast? = log.getLast? := by
  rw [retire_eq_drop, List.getLast?_drop]
  by_cases hlog : log = []
  · simp [hlog]
  · exact if_neg (Nat.not_le_of_lt (retiredCount_lt_length hlog))

/-- The successor of each run removed is at or before the trail. -/
theorem passed_of_lt_retiredCount {i : Nat} (hi : i < retiredCount trail log) :
    ∃ r, log[i + 1]? = some r ∧ atOrBefore r.first trail = true := by
  have hlt : i < log.tail.length := Nat.lt_of_lt_of_le hi List.findIdx_le_length
  refine ⟨log.tail[i], ?_, ?_⟩
  · rw [← List.getElem?_tail, List.getElem?_eq_getElem hlt]
  · simpa using List.not_of_lt_findIdx hi

/-- The successor of the run left at the front is past the trail. -/
theorem not_passed_at_retiredCount {r : Run} (hr : log[retiredCount trail log + 1]? = some r) :
    atOrBefore r.first trail = false := by
  rw [← List.getElem?_tail, List.getElem?_eq_some_iff] at hr
  obtain ⟨hlt, rfl⟩ := hr
  exact (Bool.not_eq_true' _).mp (List.findIdx_getElem (w := hlt))

end

/-! ## An advance of the trail (R126) -/

/-- A trail only moves forward, and retirement comes with the move. -/
theorem State.timeline_advanceTrail {s : State} {z : Fin 24} {t : Timeline} (ht : (s.zone z).timeline = some t)
    (x : SSN) : ((s.advanceTrail z x).zone z).timeline =
      some (if precedes t.trail x then { t with trail := x, log := retire x t.log } else t) := by
  unfold State.advanceTrail
  simp only [ht]
  split
  · rw [State.zone_updZone]
    rfl
  · exact ht

/-- An advance of a trail makes no report. -/
@[simp] theorem State.advanceTrail_rw (s : State) (z : Fin 24) (x : SSN) : (s.advanceTrail z x).rw = s.rw := by
  unfold State.advanceTrail
  repeat' split
  all_goals rfl

/-- Settles O48: the runs removed are those before the first successor that begins past the trail, and an advance of the
trail writes the zone's timeline alone. -/
theorem retirementRule : Obligations.RetirementRule :=
  ⟨fun trail log => ⟨retiredCount trail log, retire_eq_drop trail log, retiredCount_lt_length,
    getLast?_retire trail log, fun _ => passed_of_lt_retiredCount, fun _ => not_passed_at_retiredCount⟩,
   fun s z x _ ht => ⟨s.timeline_advanceTrail ht x, s.advanceTrail_rw z x⟩⟩

end Sys2Proof.Machine
end

section
/-! When an SSN is pinned in a ring: range pins and in-flight pins (R166, R167). -/

namespace Sys2Proof.Machine

/-! ## Range pins -/

theorem between_iff (a e b : SSN) :
    between a e b = true ↔ atOrBefore a b = true ∧ distance a e ≤ distance a b := by
  simp [between]

theorem Timeline.source_covering_eq_some_iff (t : Timeline) (e : SSN) (source : RunSource) :
    (t.covering e).map (·.source) = some source ↔ ∃ run, Covers t.log e run ∧ run.source = source := by
  simp only [Timeline.covering, Option.map_eq_some_iff, coveringRun_iff]

section
variable {s : State} {su : Setup} {ring : RingId} {e : SSN} {z : Fin 24}

theorem State.rangePins_of_unset (hunset : (s.zone z).timeline = none) : s.rangePins su ring e z = false := by
  simp [State.rangePins, hunset]

theorem State.rangePins_national {t : Timeline} (ht : (s.zone z).timeline = some t) :
    s.rangePins su .national e z = between t.trail e t.horizon := by
  simp [State.rangePins, ht]

theorem State.rangePins_regional {t : Timeline} (ht : (s.zone z).timeline = some t) {r : Fin 12} {p : Path} :
    s.rangePins su (.regional r p) e z = true ↔ between t.trail e t.horizon = true ∧
      su.zoneRegion z = some r ∧ ∃ run, Covers t.log e run ∧ run.source = .regional p := by
  rw [← Timeline.source_covering_eq_some_iff]
  simp [State.rangePins, ht]

/-- The pin the model computes from the run it finds is the range pin of R166 and R167. -/
theorem State.rangePins_iff : s.rangePins su ring e z = true ↔ s.RangePinned su ring e z := by
  unfold State.RangePinned
  cases ht : (s.zone z).timeline with
  | none => simp [State.rangePins_of_unset ht]
  | some t =>
    cases ring with
    | national => simp [State.rangePins_national ht, between_iff]
    | regional r p => simp [State.rangePins_regional ht, between_iff, and_assoc]

/-! ## In-flight pins -/

theorem State.readPins_iff {f : Fin 32} :
    s.readPins ring e f = true ↔ ∃ r, (s.feed f).inFlight = some r ∧ r.ring = ring ∧ r.ssn = e := by
  unfold State.readPins
  cases (s.feed f).inFlight with
  | none => simp
  | some r => simp

end

/-! ## The pinned test -/

/-- Settles O33: the test asks every zone for a range pin and every feed for an in-flight pin. -/
theorem pinnedTest : Obligations.PinnedTest := by
  intro s su ring e
  simp only [State.pinned, Bool.and_eq_true, Bool.or_eq_true, List.any_eq_true, List.mem_finRange, true_and,
    State.rangePins_iff, State.readPins_iff]

end Sys2Proof.Machine
end

section
/-! What a command does to carriage memory, the free bytes and the queue of commands (R34, R36; logs 5, 7, 19). -/

namespace Sys2Proof.Machine

/-! ## The access in progress -/

theorem ext_ne_reportLane (l : Fin 8) : ext l ≠ reportLane := by
  intro h
  have hval : l.val = 8 := congrArg Fin.val h
  omega

theorem ext_inj {l k : Fin 8} : ext l = ext k ↔ l = k := Fin.castSucc_inj

theorem externalLane_eq_some_iff {k : Fin 9} {l : Fin 8} : externalLane k = some l ↔ k = ext l :=
  toFin?_eq_some_iff.trans (Fin.ext_iff (a := k) (b := ext l)).symm

theorem State.externalInProgress_eq_some_iff {s : State} {l : Fin 8} {g : Grant} {a : Access} :
    s.externalInProgress = some (l, g, a) ↔ s.inProgress = some (g, a) ∧ g.lane = ext l := by
  unfold State.externalInProgress
  cases s.inProgress with
  | none => simp
  | some x => simp [← externalLane_eq_some_iff]; grind

theorem State.inProgress_eq_some_iff {s : State} {g : Grant} {a : Access} :
    s.inProgress = some (g, a) ↔ s.la.port = .busy g ∧ s.lane g.lane = .active a := by
  unfold State.inProgress
  split
  · next g' hport => 
    rw [hport, Port.busy.injEq]
    split
    · next a' ha' => simp; grind
    · next hn => simp; grind
  · next hn => simp; grind

theorem State.reportInProgress_eq_some_iff {s : State} {g : Grant} {a : Access} :
    s.reportInProgress = some (g, a) ↔ s.inProgress = some (g, a) ∧ g.lane = reportLane := by
  unfold State.reportInProgress
  cases s.inProgress with
  | none => simp
  | some x => dsimp only; split <;> simp <;> grind

/-! ## What a command stores -/

/-- The queue of commands stays; memory and the free counter stay too, unless the command ends the access in progress, which
then leaves memory as its answer has it. -/
def Stores (c : Instr) (s t : State) : Prop :=
  t.pending = s.pending ∧
    ((t.mem = s.mem ∧ t.freeCount = s.freeCount) ∨
      (endsAccess c = true ∧ ∃ g a x, s.inProgress = some (g, a) ∧ t.mem = (s.settleMemory a.req x).mem))

theorem Stores.of_calm {c : Instr} {s t : State} (h : Calm s t) : Stores c s t :=
  ⟨h.pending, .inl ⟨h.mem, h.freeCount⟩⟩

theorem Stores.refl (c : Instr) (s : State) : Stores c s s := .of_calm (.refl s)

theorem State.settleMemory_pending (s : State) (r : Request) (x : MemAnswer) : (s.settleMemory r x).pending = s.pending := by
  cases x <;> rfl

theorem Stores.of_answer {c : Instr} {s t : State} {g : Grant} {a : Access} {x : MemAnswer}
    (hc : endsAccess c = true) (h : s.inProgress = some (g, a)) (ht : Calm (s.settleMemory a.req x) t) : Stores c s t :=
  ⟨ht.pending.trans (s.settleMemory_pending _ _), .inr ⟨hc, g, a, x, h, ht.mem⟩⟩

/-- A completion of an external lane's access whose further acts store nothing. -/
theorem Stores.of_external {c : Instr} {s u : State} {l : Fin 8} {g : Grant} {a : Access} {x : MemAnswer}
    (hc : endsAccess c = true) (h : s.externalInProgress = some (l, g, a)) (hu : Calm (s.answered l a x) u)
    (y : MemAnswer) (d : List Byte) : Stores c s (u.finish l g y d) :=
  .of_answer hc (State.externalInProgress_eq_some_iff.mp h).1
    (((State.calm_reportFault _ l a x).trans hu).trans (u.calm_finish l g y d))

theorem State.calm_copyLanded (s : State) (r : Request) : Calm s (s.copyLanded r) := s.calm_withPlan _

theorem State.calm_copyUnsettled (s : State) (r : Request) : Calm s (s.copyUnsettled r) := s.calm_withPlan _

theorem Stores.planAct {c : Instr} (hc : endsAccess c = true) (s : State) (row : PlanRow)
    (act : Fin 8 → Request → State → State) (hact : ∀ l r u, Calm u (act l r u)) : Stores c s (s.planAct row act) := by
  unfold State.planAct
  split
  · next l g a h =>
    split
    · split
      · exact .of_external hc h ((State.calm_copyLanded _ _).trans (hact l a.req _)) _ _
      · exact .refl c s
    · exact .refl c s
  · exact .refl c s

theorem Stores.planFault {c : Instr} (hc : endsAccess c = true) (s : State) : Stores c s s.planFault := by
  unfold State.planFault
  split
  · next l g a h =>
    split
    · exact .of_external hc h (State.calm_copyUnsettled _ _) _ _
    · exact .refl c s
  · exact .refl c s

theorem State.calm_takeReadIndex (s : State) (o : Nat) (d : List Byte) (x : MemAnswer) : Calm s (s.takeReadIndex o d x) := by
  unfold State.takeReadIndex
  split <;> exact ⟨rfl, rfl, rfl, rfl, rfl, rfl⟩

theorem State.calm_settlePath (s : State) (su : Setup) (r : Fin 12) (p : Path) (good gap : Bool) :
    Calm s (s.settlePath su r p good gap) := by
  unfold State.settlePath
  dsimp only
  refine Calm.trans ?_ (State.calm_setHealth _ r p _)
  exact ⟨rfl, rfl, rfl, rfl, rfl, rfl⟩

theorem State.calm_completeRingWrite (s : State) (su : Setup) (ring : RingId) (k : Nat) (x : MemAnswer) :
    Calm s (s.completeRingWrite su ring k x) := by
  unfold State.completeRingWrite
  split
  · exact .refl s
  · next e _ =>
    split
    · next verdict gap _ =>
      dsimp only
      generalize hu : s.setEntry ring k _ = u
      have hset : Calm s u := hu ▸ ⟨rfl, rfl, rfl, rfl, rfl, rfl⟩
      have hlate : Calm s (if s.lateSet su ring e.ssn = 0 then u else u.hand (.lateCell ring k e.ssn
          (x == .okay && verdict == .matching) (s.lateSet su ring e.ssn))) := by
        split
        · exact hset
        · exact hset.trans (u.calm_hand _)
      cases ring
      · exact hlate
      · exact hlate.trans (State.calm_settlePath _ _ _ _ _ _)
    · exact .refl s

theorem State.calm_completeViewRead (s : State) (su : Setup) (f : Fin 32) (rd : InFlight) :
    Calm s (s.completeViewRead su f rd) := by
  unfold State.completeViewRead
  have hset : Calm s (s.setFeed f { s.feed f with inFlight := none }) := ⟨rfl, rfl, rfl, rfl, rfl, rfl⟩
  refine Calm.trans ?_ (State.acted_examine _ su).calm
  split
  · exact hset.trans (State.scheduled_completeFeed _ su f _).calm
  · exact hset

theorem State.calm_dropHand (s : State) : Calm s s.dropHand := ⟨rfl, rfl, rfl, rfl, rfl, rfl⟩

/-- A completion of a report-lane write whose further acts store nothing. -/
theorem Stores.of_report {c : Instr} {s u : State} {g : Grant} {a : Access} {x : MemAnswer}
    (hc : endsAccess c = true) (h : s.reportInProgress = some (g, a))
    (hu : Calm ((s.settleMemory a.req x).setLane reportLane .idle) u) (y : MemAnswer) : Stores c s (u.closePort g y) :=
  .of_answer hc (State.reportInProgress_eq_some_iff.mp h).1
    (((State.calm_setLane _ _ _).trans hu).trans (u.calm_closePort g y))

theorem State.resetBlocks_mem (s : State) : s.resetBlocks.mem = s.mem := rfl

theorem Stores.abandonAccess (s : State) : Stores .resetNAssert s s.abandonAccess := by
  unfold State.abandonAccess
  split
  · next a h => exact ⟨rfl, .inr ⟨rfl, _, a, .error, h, rfl⟩⟩
  · exact .refl _ s

theorem State.zoned_assertPin (s : State) (su : Setup) : Zoned s (s.assertPin su) := by
  unfold State.assertPin State.handPinHold
  exact ((s.zoned_updZones _ (Zone.pinned true) fun _ => rfl).trans (State.zoned_hand _ _)).trans (State.zoned_takeHolds _ su _ _)

theorem State.zoned_deassertPin (s : State) (su : Setup) : Zoned s (s.deassertPin su) := by
  unfold State.deassertPin State.handPinHold
  exact (s.zoned_updZones _ (Zone.pinned false) fun _ => rfl).trans (State.zoned_hand _ _)

/-- A change of the level of HOLD_REQ, and acts that store nothing. -/
theorem Stores.holdReq {c : Instr} {s t : State} {b : Bool} (h : Calm (s.withHoldReq b) t) : Stores c s t :=
  ⟨h.pending, .inl ⟨h.mem, h.freeCount⟩⟩

/-- Every command stores at most what the access in progress writes, and that only by ending it. -/
theorem exec_stores {c : Instr} {s t : State} (h : exec c s = .next t) : Stores c s t := by
  cases c with
  | resetNAssert =>
    cases h
    exact Stores.abandonAccess s
  | resetNRelease p =>
    cases h
    split
    · exact ⟨rfl, .inl ⟨rfl, rfl⟩⟩
    · exact .refl _ s
  | laneRequest l d addr n link data =>
    cases h
    split
    · exact .refl _ s
    · exact .of_calm (s.calm_presentRequest l _)
  | plainAccessComplete x =>
    simp only [exec, execPlainAccessComplete] at h
    split at h
    · next l g a hp =>
      split at h <;> cases h
      · exact .of_external rfl hp (.refl _) _ _
      · exact .refl _ s
    · cases h; exact .refl _ s
  | planWriteComplete x =>
    cases x <;> cases h
    · exact .planAct rfl s _ _ fun _ _ u => .refl u
    · exact .planFault rfl s
  | submit => cases h; exact .planAct rfl s _ _ fun l r u => u.calm_submitRecords (ext l) r
  | commit => cases h; exact .planAct rfl s _ _ fun _ _ u => u.calm_doCommit
  | stop => cases h; exact .planAct rfl s _ _ fun _ _ u => u.calm_inRunning _ fun su c => u.calm_doStop su c
  | cancel => cases h; exact .planAct rfl s _ _ fun _ _ u => u.calm_inRunning _ fun su c => u.calm_doCancel su c
  | hold => cases h; exact .planAct rfl s _ _ fun _ _ u => u.calm_inRunning _ fun su c => u.calm_doHold su c
  | release => cases h; exact .planAct rfl s _ _ fun _ _ u => u.calm_inRunning _ fun su c => u.calm_doRelease su c
  | attach => cases h; exact .planAct rfl s _ _ fun _ _ u => u.calm_inRunning _ fun su c => u.calm_doAttach su c
  | detach => cases h; exact .planAct rfl s _ _ fun _ _ u => u.calm_inRunning _ fun su c => u.calm_doDetach su c
  | badCommand => cases h; exact .planAct rfl s _ _ fun _ _ u => u.calm_handResult _ _
  | readIndexWrite x =>
    simp only [exec, execReadIndexWrite] at h
    split at h
    · next l g a hp =>
      split at h <;> cases h
      · exact .of_external rfl hp (State.calm_takeReadIndex _ _ _ x) _ _
      · exact .refl _ s
    · cases h; exact .refl _ s
  | ringWriteComplete x =>
    simp only [exec, execRingWriteComplete] at h
    split at h
    · next l g a su hp _ =>
      split at h <;> cases h
      · exact .of_external rfl hp (State.calm_completeRingWrite _ su _ _ x) _ _
      · exact .of_external rfl hp (.refl _) _ _
      · exact .refl _ s
    · cases h; exact .refl _ s
  | viewReadComplete x =>
    simp only [exec, execViewReadComplete] at h
    split at h
    · next l g a su hp _ =>
      split at h
      · split at h <;> cases h
        · exact .of_external rfl hp (State.calm_completeViewRead _ su _ _) _ _
        · exact .refl _ s
      · cases h; exact .refl _ s
    · cases h; exact .refl _ s
  | tick =>
    cases h
    split
    · exact .of_calm (s.calm_tickAll _)
    · exact .refl _ s
  | linkWaitExpiry =>
    cases h
    split
    · exact .of_calm (s.calm_expireLink _)
    · exact .refl _ s
  | silenceLimitExpiry r p =>
    cases h
    split
    · exact .of_calm (s.calm_expireSilence _ r p)
    · exact .refl _ s
  | holdLimitExpiry l =>
    cases h
    split
    · exact .of_calm (s.calm_expireHoldOf _ l)
    · exact .refl _ s
  | pulseTimeoutExpiry =>
    cases h
    split
    · exact .of_calm (s.calm_expirePulse _)
    · exact .refl _ s
  | refPulse =>
    cases h
    split
    · exact .of_calm (s.calm_takePulse _)
    · exact .refl _ s
  | holdReqAssert =>
    cases h
    split
    · exact .refl _ s
    · split
      · exact .holdReq (State.zoned_assertPin _ _).calm
      · exact .holdReq (.refl _)
  | holdReqDeassert =>
    cases h
    split
    · split
      · exact .holdReq (State.zoned_deassertPin _ _).calm
      · exact .holdReq (.refl _)
    · exact .refl _ s
  | drainEnd =>
    cases h
    split
    · split
      · exact .of_calm (s.calm_endDrain _)
      · exact .refl _ s
    · exact .refl _ s
  | reportTake =>
    cases h
    split
    · exact .of_calm (s.calm_takeReport.trans (State.calm_settlePort _))
    · exact .refl _ s
  | recordWriteComplete x =>
    simp only [exec, execRecordWriteComplete] at h
    split at h
    · next g a hp =>
      split at h <;> cases h
      · exact .of_report rfl hp (State.calm_dropHand _) _
      · exact .of_report rfl hp (State.calm_recordAnswered _ _ x) _
      · exact .refl _ s
    · cases h; exact .refl _ s
  | writeIndexWordComplete x =>
    simp only [exec, execWriteIndexWordComplete] at h
    split at h
    · next g a hp =>
      split at h <;> cases h
      · exact .of_report rfl hp (State.calm_indexWordDone _) _
      · exact .refl _ s
    · cases h; exact .refl _ s

/-- Settles O2: every command answers, and it stores at most what the access it ends writes. -/
theorem commandsAnswerAndKeepMemory : Obligations.CommandsAnswerAndKeepMemory := by
  intro c s
  obtain ⟨t, ht⟩ := exec_answers c s
  obtain ⟨hpending, hmem⟩ := exec_stores ht
  refine ⟨t, ht, hpending, fun k hk => ?_, fun hc => ?_⟩
  · rcases hmem with ⟨hmem, -⟩ | ⟨-, g, a, x, hp, hmem⟩
    · rw [hmem]
    · rw [hmem]
      exact s.readByte_settleMemory a.req x k (hk g a hp)
  · rcases hmem with hsame | ⟨hends, -⟩
    · exact hsame
    · rw [hc] at hends
      cases hends

/-- A step stores canonically: memory is as it was, or as an answered access leaves it. -/
theorem step_keeps_memoryCanonical {s t : State} (hs : s.MemoryCanonical) (h : step s = .next t) : t.MemoryCanonical := by
  unfold State.MemoryCanonical at *
  unfold step at h
  split at h
  · cases h
    rw [s.calm_refclk.mem]
    exact hs
  · next c q hq =>
    obtain ⟨-, ⟨hmem, -⟩ | ⟨-, g, a, x, -, hmem⟩⟩ := exec_stores h
    · rw [hmem]
      exact hs
    · rw [hmem]
      exact State.wf_settleMemory (s := s.withPending q) a.req x hs

end Sys2Proof.Machine
end

section
/-! What every step keeps of the capacities: the report queue, the logs, the port's sequence counts, the held writes and
the requests kept at a lane port (R18, R32, R124, R170, R187). -/

namespace Sys2Proof.Machine

/-! ## The capacities inside a step -/

/-- No held write is one of lane `l`. -/
def State.HoldsNone (s : State) (l : Fin 8) : Prop := ∀ h ∈ s.rg.held, h.lane ≠ l

/-- The capacities of `State.WithinCapacity`, where the lanes of `off`, whose request is in hand, may keep requests although
they are idle. -/
structure State.Bounded (s : State) (off : List (Fin 8)) : Prop where
  queue : s.rw.queue.length ≤ Config.queueCapacity
  logs : s.LogsBounded
  port : s.la.port.WithinSequence
  held : s.HeldLanes
  kept : ∀ k, k ∉ off → s.lane (ext k) = .idle → s.la.kept[k] = []

/-- The same, with no held write of a lane of `off`. -/
structure State.Capped (s : State) (off : List (Fin 8)) : Prop extends s.Bounded off where
  none : ∀ l ∈ off, s.HoldsNone l

theorem State.bounded_nil_iff {s : State} : s.Bounded [] ↔ s.WithinCapacity :=
  ⟨fun h => ⟨h.queue, h.logs, h.port, h.held, fun k => h.kept k (by simp)⟩,
    fun h => ⟨h.queue, h.logs, h.port, h.held, fun k _ => h.kept k⟩⟩

theorem State.WithinCapacity.capped {s : State} (h : s.WithinCapacity) : s.Capped [] :=
  { State.bounded_nil_iff.mpr h with none := by simp }

theorem State.Capped.withinCapacity {s : State} (h : s.Capped []) : s.WithinCapacity := State.bounded_nil_iff.mp h.toBounded

section
variable {s t : State} {off : List (Fin 8)}

/-- A lane that is not HELD has no held write. -/
theorem State.HeldLanes.holdsNone {l : Fin 8} (h : s.HeldLanes) (hl : ∀ r, s.lane (ext l) ≠ .held r) : s.HoldsNone l := by
  rintro x hx rfl
  exact hl _ (h.1 x hx)

theorem Acted.holdsNone {held : List HeldWrite} {l : Fin 8} (h : Acted held s t) (hs : s.HoldsNone l) : t.HoldsNone l := by
  intro x hx
  obtain ⟨y, hy, hsame⟩ := h.heldFrom x hx
  exact hsame.1 ▸ hs y hy

/-- Taking the request of lane `l` in hand. -/
theorem State.Bounded.taking {l : Fin 8} (h : s.Bounded off) (hl : ∀ r, s.lane (ext l) ≠ .held r) :
    s.HoldsNone l := h.held.holdsNone hl

theorem State.Capped.holding {l : Fin 8} (h : s.Capped []) (hl : s.HoldsNone l) : s.Capped [l] :=
  { queue := h.queue, logs := h.logs, port := h.port, held := h.held
    kept := fun k _ => h.kept k (by simp)
    none := by simpa using hl }

/-! ## Changes that leave lanes and the held list alone -/

theorem State.HeldLanes.congr (h : s.HeldLanes) (la : t.la = s.la) (rg : t.rg = s.rg) : t.HeldLanes := by
  unfold State.HeldLanes
  simp only [State.lane_congr la, rg]
  exact h

/-- A change of blocks other than the Lane Arbiter and the Ring Guard. -/
theorem State.Bounded.congr (h : s.Bounded off) (la : t.la = s.la) (rg : t.rg = s.rg)
    (queue : t.rw.queue.length ≤ Config.queueCapacity) (logs : t.LogsBounded) : t.Bounded off where
  queue := queue
  logs := logs
  port := la ▸ h.port
  held := h.held.congr la rg
  kept := fun k hk hidle => by
    rw [State.lane_congr la] at hidle
    simpa only [la] using h.kept k hk hidle

theorem State.Capped.of_bounded (h : s.Capped off) (ht : t.Bounded off) (rg : t.rg = s.rg) : t.Capped off :=
  { ht with none := by unfold State.HoldsNone; rw [rg]; exact h.none }

theorem State.Capped.congr (h : s.Capped off) (la : t.la = s.la) (rg : t.rg = s.rg)
    (queue : t.rw.queue.length ≤ Config.queueCapacity) (logs : t.LogsBounded) : t.Capped off :=
  h.of_bounded (h.toBounded.congr la rg queue logs) rg

theorem Scheduled.capped (h : Scheduled s t) (hs : s.Capped off) : t.Capped off :=
  hs.congr h.la h.rg (h.rw.room.trans (max_le hs.queue le_rfl)) (h.logs hs.logs)

theorem Zoned.capped (h : Zoned s t) (hs : s.Capped off) : t.Capped off := h.scheduled.capped hs

theorem State.Capped.hand (h : s.Capped off) (r : Report) : (s.hand r).Capped off := (s.zoned_hand r).capped h

theorem State.Capped.foldl {α : Type} {f : State → α → State} (hf : ∀ u x, u.Capped off → (f u x).Capped off)
    (l : List α) (h : s.Capped off) : (l.foldl f s).Capped off := by
  induction l generalizing s with
  | nil => exact h
  | cons x l ih => exact ih (hf s x h)

/-! ## Lanes -/

theorem State.HeldLanes.setLane {l : Fin 8} (h : s.HeldLanes) (hl : s.HoldsNone l) (x : LaneState) :
    (s.setLane (ext l) x).HeldLanes := by
  refine ⟨fun y hy => ?_, h.2⟩
  rw [State.lane_setLane_of_ne _ _ (fun he => hl y hy (ext_inj.mp he).symm)]
  exact h.1 y hy

/-- Another state for a lane of `off`, or a state that is not idle. -/
theorem State.Bounded.setLane {l : Fin 8} (h : s.Bounded off) (hl : s.HoldsNone l) {x : LaneState}
    (hx : l ∈ off ∨ x ≠ .idle) : (s.setLane (ext l) x).Bounded off where
  queue := h.queue
  logs := h.logs
  port := h.port
  held := h.held.setLane hl x
  kept := fun k hk hidle => by
    by_cases he : l = k
    · subst he
      rw [State.lane_setLane] at hidle
      exact absurd hidle (hx.resolve_left hk)
    · rw [State.lane_setLane_of_ne _ _ (fun e => he (ext_inj.mp e))] at hidle
      exact h.kept k hk hidle

theorem State.Capped.setLane {l : Fin 8} (h : s.Capped off) (hl : s.HoldsNone l) {x : LaneState}
    (hx : l ∈ off ∨ x ≠ .idle) : (s.setLane (ext l) x).Capped off :=
  h.of_bounded (h.toBounded.setLane hl hx) rfl

theorem State.lane_ext_setLane_reportLane (s : State) (x : LaneState) (k : Fin 8) :
    (s.setLane reportLane x).lane (ext k) = s.lane (ext k) :=
  State.lane_setLane_of_ne _ _ (Ne.symm (ext_ne_reportLane k))

theorem State.Capped.setReportLane (h : s.Capped off) (x : LaneState) : (s.setLane reportLane x).Capped off :=
  h.of_bounded
    { queue := h.queue, logs := h.logs, port := h.port
      held := ⟨fun y hy => (s.lane_ext_setLane_reportLane x y.lane).trans (h.held.1 y hy), h.held.2⟩
      kept := fun k hk hidle => h.kept k hk ((s.lane_ext_setLane_reportLane x k).symm.trans hidle) } rfl

theorem State.Capped.respond (h : s.Capped off) (l : Fin 8) (r : Response) : (s.respond l r).Capped off :=
  h.of_bounded { h with } rfl

/-! ## The port -/

theorem State.withinSequence_grantTo {l : Fin 9} {n : Nat} (hn : n ≤ Config.sequenceCap)
    (h : s.la.port.WithinSequence) : (s.grantTo l n).la.port.WithinSequence := by
  by_cases hw : s.Waits l
  · obtain ⟨a, -, -, hport⟩ := (s.grantedTo_grantTo l n hw).active
    rw [hport]
    exact hn
  · unfold State.grantTo
    split
    · next a ha => exact absurd (by simp [State.Waits, ha, LaneState.waiting?]) hw
    · exact h

theorem State.withinSequence_grantFree (h : s.la.port.WithinSequence) : s.grantFree.la.port.WithinSequence := by
  unfold State.grantFree
  split
  · exact State.withinSequence_grantTo (by decide) h
  · exact h

theorem State.withinSequence_settlePort (h : s.la.port.WithinSequence) : s.settlePort.la.port.WithinSequence := by
  unfold State.settlePort
  split
  · exact h
  · exact State.withinSequence_grantFree h
  · next r hr =>
    split
    · rw [hr] at h
      exact State.withinSequence_grantTo (Nat.succ_le_of_lt h) (hr ▸ h)
    · split
      · exact State.withinSequence_grantFree trivial
      · exact h

theorem State.HeldLanes.granted (h : s.HeldLanes) (rg : t.rg = s.rg) (lanes : ∀ k, s.LaneOrGranted t k) :
    t.HeldLanes := by
  refine ⟨fun y hy => ?_, rg ▸ h.2⟩
  have hheld := h.1 y (rg ▸ hy)
  rcases lanes (ext y.lane) with he | ⟨a, ha, -⟩
  · exact he.trans hheld
  · rw [hheld] at ha
    cases ha

theorem LaneState.idle?_iff {x : LaneState} : x.idle? = true ↔ x = .idle := by
  cases x <;> simp [LaneState.idle?]

/-- An arbitration that does no more than grant keeps the capacities where the port keeps its sequence counts. -/
theorem State.Bounded.arbitrated (h : s.Bounded off) (ht : Arbitrated s t) (lanes : ∀ k, s.LaneOrGranted t k)
    (port : t.la.port.WithinSequence) : t.Bounded off where
  queue := by rw [ht.changes]; exact h.queue
  logs := by rw [ht.changes]; exact h.logs
  port := port
  held := h.held.granted ht.rg lanes
  kept := fun k hk hidle => by
    have hidle' : s.lane (ext k) = .idle := by
      rw [← LaneState.idle?_iff, ← ht.idle, hidle]
      rfl
    simpa only [ht.kept] using h.kept k hk hidle'

theorem State.Bounded.settlePort (h : s.Bounded off) : s.settlePort.Bounded off :=
  h.arbitrated s.arbitrated_settlePort s.settlePort_lanes (State.withinSequence_settlePort h.port)

theorem State.Bounded.setPort (h : s.Bounded off) {p : Port} (hp : p.WithinSequence) : (s.setPort p).Bounded off :=
  h.arbitrated (s.arbitrated_setPort p) (fun _ => .inl rfl) hp

theorem State.Bounded.endReservation (h : s.Bounded off) (l : Fin 9) : (s.endReservation l).Bounded off := by
  unfold State.endReservation
  split
  · split
    · exact h.setPort trivial
    · exact h
  · exact h

theorem State.Capped.settlePort (h : s.Capped off) : s.settlePort.Capped off :=
  h.of_bounded h.toBounded.settlePort s.arbitrated_settlePort.rg

theorem State.Capped.setPort (h : s.Capped off) {p : Port} (hp : p.WithinSequence) : (s.setPort p).Capped off :=
  h.of_bounded (h.toBounded.setPort hp) rfl

theorem State.Capped.endReservation (h : s.Capped off) (l : Fin 9) : (s.endReservation l).Capped off :=
  h.of_bounded (h.toBounded.endReservation l) (s.arbitrated_endReservation l).rg

theorem State.Capped.closePort (h : s.Capped off) (g : Grant) (x : MemAnswer) : (s.closePort g x).Capped off := by
  unfold State.closePort
  refine (h.setPort ?_).settlePort
  split
  · next hr =>
    simp only [State.makesReservation, Bool.and_eq_true, decide_eq_true_eq] at hr
    obtain ⟨⟨_, hcount⟩, _⟩ := hr
    exact hcount
  · trivial

/-! ## Acceptance and the held list -/

/-- A change of the Ingest Checker alone. -/
theorem State.Capped.withIngest (h : s.Capped off) (x : IngestChecker) : ({ s with ic := x } : State).Capped off :=
  h.congr rfl rfl h.queue h.logs

theorem State.Capped.present {l : Fin 8} (h : s.Capped off) (hl : s.HoldsNone l) (a : Access) :
    (s.present (ext l) a).Capped off :=
  h.setLane hl (.inr (by simp))

theorem State.Capped.moveHead (h : s.Capped off) (su : Setup) (g : RingId) (m : SSN) : (s.moveHead su g m).Capped off := by
  unfold State.moveHead
  split
  · cases g with
    | national => exact (State.zoned_nationalHeadAdvance _ su m).capped (h.withIngest _)
    | regional r p => exact h.withIngest _
  · exact h

theorem State.Capped.acceptRingWrite {l : Fin 8} (h : s.Capped off) (hl : s.HoldsNone l) (su : Setup) (g : RingId) (k : Nat)
    (r : Request) : (s.acceptRingWrite su l g k r).Capped off := by
  unfold State.acceptRingWrite
  refine State.Capped.present ((h.withIngest _).moveHead su g _) ?_ _
  unfold State.HoldsNone
  rw [State.rg_moveHead]
  exact hl

theorem State.dropHeld_holdsNone (s : State) (l : Fin 8) : (s.dropHeld l).HoldsNone l := by
  intro h hh
  simpa using (List.mem_filter.mp hh).2

theorem State.Capped.dropHeld (h : s.Capped off) (l : Fin 8) : (s.dropHeld l).Capped off where
  queue := h.queue
  logs := h.logs
  port := h.port
  held := ⟨fun y hy => h.held.1 y (List.mem_filter.mp hy).1, h.held.2.sublist (List.filter_sublist.map _)⟩
  kept := h.kept
  none := fun k hk y hy => h.none k hk y (List.mem_filter.mp hy).1

theorem State.Capped.release (h : s.Capped off) (su : Setup) (x : HeldWrite) : (s.release su x).Capped off := by
  unfold State.release
  dsimp only
  split
  · exact (h.dropHeld x.lane).acceptRingWrite (s.dropHeld_holdsNone _) su _ _ _
  · exact (h.dropHeld x.lane).present (s.dropHeld_holdsNone _) _

theorem State.Capped.examineList (su : Setup) (l : List HeldWrite) (h : s.Capped off) :
    (State.examineList su l s).Capped off := by
  induction l generalizing s with
  | nil => exact h
  | cons x l ih =>
    rw [State.examineList]
    split
    · exact ih h
    · exact ih (h.release su x)

theorem State.Capped.examine (h : s.Capped off) (su : Setup) : (s.examine su).Capped off := h.examineList su _

theorem State.Capped.examineAfter (h : s.Capped off) (b : State) (su : Setup) : (State.examineAfter b s su).Capped off := by
  unfold State.examineAfter
  split
  · exact h.examine su
  · exact h

/-! ## Taking requests -/

theorem State.Capped.answer {l : Fin 8} (h : s.Capped [l]) (x : Status) (d : List Byte) : (s.answer l x d).Capped [l] := by
  unfold State.answer
  exact (((h.setLane (h.none l (by simp)) (.inl (by simp))).respond l _).endReservation _).settlePort

theorem State.Capped.refuse {l : Fin 8} (h : s.Capped [l]) (r : Request) (reason : RefusalReason) (n : SSN) :
    (s.refuse l r reason n).Capped [l] :=
  (h.hand _).answer _ _

theorem State.Capped.presentOwn {l : Fin 8} (h : s.Capped [l]) (a : Access) : (s.present (ext l) a).Capped [l] :=
  h.present (h.none l (by simp)) a

theorem State.Capped.takePlanWrite {l : Fin 8} (h : s.Capped [l]) (r : Request) : (s.takePlanWrite l r).Capped [l] := by
  unfold State.takePlanWrite
  split
  · exact h.refuse r _ _
  · split
    · split
      · split
        · exact h.refuse r _ _
        · exact ((h.congr rfl rfl h.queue h.logs : s.markReadWrite.Capped [l]).presentOwn _).settlePort
      · exact (h.presentOwn _).settlePort
    · exact (h.presentOwn _).settlePort

/-- A write held back joins the list, its lane HELD with its request (R170). -/
theorem State.Capped.holdWrite {l : Fin 8} (h : s.Capped [l]) (g : RingId) (k : Nat) (n : SSN) (r : Request) :
    (s.holdWrite l g k n r).Bounded [l] := by
  have hl : s.HoldsNone l := h.none l (by simp)
  have hset : (s.setLane (ext l) (.held r)).Bounded [l] := h.toBounded.setLane hl (.inl (by simp))
  refine { hset with held := ⟨fun y hy => ?_, ?_⟩ }
  · rcases List.mem_append.mp hy with hy | hy
    · exact hset.held.1 y hy
    · rw [List.mem_singleton] at hy
      subst hy
      exact s.lane_setLane (ext l) _
  · show ((s.rg.held ++ [_]).map HeldWrite.lane).Nodup
    rw [List.map_append, List.nodup_append]
    refine ⟨h.held.2, by simp, ?_⟩
    rintro a ha b hb rfl
    obtain ⟨x, hx, rfl⟩ := List.mem_map.mp ha
    simp only [List.map_cons, List.map_nil, List.mem_singleton] at hb
    exact hl x hx hb

theorem State.Capped.takeRingWrite {l : Fin 8} (h : s.Capped [l]) (su : Setup) (g : RingId) (r : Request) :
    (s.takeRingWrite su l g r).Bounded [l] := by
  unfold State.takeRingWrite
  dsimp only
  split
  · exact (h.refuse r _ _).toBounded
  · exact ((h.holdWrite g _ _ r).endReservation _).settlePort
  · exact (h.acceptRingWrite (h.none l (by simp)) su g _ r).toBounded.settlePort

theorem State.Capped.serveRead {l : Fin 8} (h : s.Capped [l]) (su : Setup) (f : Fin 32) (z : Fin 24) (r : Request) (n : SSN)
    (reread : Bool) : (s.serveRead su l f z r n reread).Capped [l] := by
  have hmoved := (s.scheduled_served su f z n reread).capped h
  unfold State.serveRead
  dsimp only
  split
  · refine (State.Capped.examineAfter (State.Capped.settlePort ?_) s su).settlePort
    exact ((State.scheduled_setFeed _ f _).capped hmoved).presentOwn _
  · exact (((State.scheduled_completeFeed _ su f n).capped hmoved).examineAfter s su).answer _ _

theorem State.Capped.takeViewRead {l : Fin 8} (h : s.Capped [l]) (su : Setup) (f : Fin 32) (r : Request) :
    (s.takeViewRead su l f r).Capped [l] := by
  unfold State.takeViewRead
  repeat' split
  all_goals first
    | exact h.refuse r _ _
    | exact h.serveRead su f _ r _ _

theorem State.Capped.route {l : Fin 8} (h : s.Capped [l]) (r : Request) (area : Area) : (s.route l r area).Bounded [l] := by
  unfold State.route
  split
  · exact (h.takePlanWrite r).toBounded
  · exact h.takeRingWrite _ _ r
  · exact h.takeRingWrite _ _ r
  · exact (h.takeViewRead _ _ r).toBounded
  · exact (h.presentOwn _).toBounded.settlePort

/-- A request taken at an idle lane leaves the capacities, its own lane's kept requests apart. -/
theorem State.Bounded.takeRequest {l : Fin 8} (h : s.Bounded [l]) (hidle : s.lane (ext l) = .idle) (r : Request) :
    (s.takeRequest l r).Bounded [l] := by
  have hnone : s.HoldsNone l := h.held.holdsNone (by simp [hidle])
  have htaken : (s.setLane (ext l) (.taken r)).Capped [l] :=
    { h.setLane hnone (.inl (by simp)) with
      none := fun k hk => by
        obtain rfl := List.mem_singleton.mp hk
        exact hnone }
  unfold State.takeRequest
  dsimp only
  repeat' split
  · exact (htaken.refuse r _ _).toBounded
  · exact (htaken.refuse r _ _).toBounded
  · exact (htaken.refuse r _ _).toBounded
  · exact htaken.route r _

theorem State.kept_setKept (s : State) (l k : Fin 8) (q : List Request) :
    (s.setKept l q).la.kept[k] = if l = k then q else s.la.kept[k] := by
  simp [State.setKept, Vector.getElem_set, Fin.ext_iff]

theorem State.Bounded.setKept {l : Fin 8} (h : s.Bounded [l]) {q : List Request}
    (hq : s.lane (ext l) = .idle → q = []) : (s.setKept l q).WithinCapacity where
  queue := h.queue
  logs := h.logs
  port := h.port
  held := h.held
  kept := fun k hidle => by
    rw [State.kept_setKept]
    split
    · next he => exact hq (he ▸ hidle)
    · next he => exact h.kept k (by simpa using Ne.symm he) hidle

/-- The port takes what it kept until one is outstanding: then an idle lane keeps none (R18). -/
theorem State.Bounded.takeKept {l : Fin 8} (q : List Request) (h : s.Bounded [l]) :
    (State.takeKept l q s).WithinCapacity := by
  induction q generalizing s with
  | nil => exact h.setKept fun _ => rfl
  | cons r q ih =>
    rw [State.takeKept]
    split
    · next hidle => exact ih (h.takeRequest (LaneState.idle?_iff.mp hidle) r)
    · next hbusy => exact h.setKept fun hidle => absurd (LaneState.idle?_iff.mpr hidle) hbusy

/-! ## Completions -/

theorem State.logsBounded_of_unset (h : ∀ z, (s.zone z).timeline = none) : s.LogsBounded := by
  intro z t ht
  rw [h z] at ht
  cases ht

theorem State.zone_enterConfig (s : State) (z : Fin 24) : s.enterConfig.zone z = (s.zone z).configured :=
  Vector.getElem_map ..

theorem State.Capped.enterConfig (h : s.Capped off) : s.enterConfig.Capped off where
  queue := Nat.zero_le _
  logs := State.logsBounded_of_unset fun z => by rw [State.zone_enterConfig]; rfl
  port := by
    show Port.WithinSequence (match s.la.port with | .reserved _ => Port.free | p => p)
    split
    · trivial
    · exact h.port
  held := h.held
  kept := h.kept
  none := h.none

theorem State.Capped.enterIfDue (h : s.Capped off) : s.enterIfDue.Capped off := by
  unfold State.enterIfDue
  split
  · exact h.enterConfig
  · exact h

/-- The end of an external completion (R19, R33). -/
theorem State.Capped.finish {l : Fin 8} (h : s.Capped [l]) (g : Grant) (x : MemAnswer) (d : List Byte) :
    (s.finish l g x d).WithinCapacity := by
  unfold State.finish
  have hidle := (h.setLane (h.none l (by simp)) (x := .idle) (.inl (by simp))).respond l
    { status := answerStatus x, data := d }
  exact (hidle.enterIfDue.closePort g x).toBounded.takeKept _

theorem State.Capped.settleMemory (h : s.Capped off) (r : Request) (x : MemAnswer) : (s.settleMemory r x).Capped off := by
  cases x <;> exact h.congr rfl rfl h.queue h.logs

theorem State.Capped.answered (h : s.Capped off) (l : Fin 8) (a : Access) (x : MemAnswer) :
    (s.answered l a x).Capped off := by
  have hmem := h.settleMemory a.req x
  cases x
  · exact hmem
  · exact hmem.hand _

/-- The lane of the access in progress has no held write. -/
theorem State.WithinCapacity.inHand {l : Fin 8} {g : Grant} {a : Access} (h : s.WithinCapacity)
    (hp : s.externalInProgress = some (l, g, a)) : s.Capped [l] := by
  obtain ⟨hp, hlane⟩ := State.externalInProgress_eq_some_iff.mp hp
  have hactive := (State.inProgress_eq_some_iff.mp hp).2
  rw [hlane] at hactive
  exact h.capped.holding (h.held.holdsNone (by simp [hactive]))

theorem State.Capped.withPlan (h : s.Capped off) (ps : PlanShadow) : (s.withPlan ps).Capped off :=
  h.congr rfl rfl h.queue h.logs

theorem State.WithinCapacity.planAct (h : s.WithinCapacity) (row : PlanRow) (act : Fin 8 → Request → State → State)
    (hact : ∀ l r u, u.Capped [l] → (act l r u).Capped [l]) : (s.planAct row act).WithinCapacity := by
  unfold State.planAct
  split
  · next l g a hp =>
    split
    · split
      · exact (hact l a.req _ (((h.inHand hp).answered l a .okay).withPlan _)).finish g _ _
      · exact h
    · exact h
  · exact h

theorem State.WithinCapacity.planFault (h : s.WithinCapacity) : s.planFault.WithinCapacity := by
  unfold State.planFault
  split
  · next l g a hp =>
    split
    · exact (((h.inHand hp).answered l a .error).withPlan _).finish g _ _
    · exact h
  · exact h

/-! ## Commands -/

theorem State.Capped.setWindow (h : s.Capped off) (w : Fin 64) (x : Window) : (s.setWindow w x).Capped off :=
  h.congr rfl rfl h.queue h.logs

theorem State.Capped.submitRecord (h : s.Capped off) (l : Fin 9) (w : Fin 64) : (s.submitRecord l w).Capped off := by
  unfold State.submitRecord
  repeat' split
  all_goals exact (h.setWindow w _).hand _

theorem State.Capped.handResult (h : s.Capped off) (c : CommandRec) (x : CommandResult) : (s.handResult c x).Capped off :=
  h.hand _

theorem State.Capped.inRunning (h : s.Capped off) {act : Setup → CommandRec → State} (hact : ∀ su c, (act su c).Capped off) :
    (s.inRunning act).Capped off := by
  unfold State.inRunning
  split
  · exact hact _ _
  · exact h.handResult _ _

theorem State.zone_commitState (s : State) (su : Setup) (z : Fin 24) :
    (s.commitState su).zone z = { Zone.reset with pinHold := su.zones[z].enabled && s.holdReq } :=
  Vector.getElem_ofFn ..

theorem State.Capped.commitState (h : s.Capped off) (su : Setup) : (s.commitState su).Capped off where
  queue := Nat.zero_le _
  logs := State.logsBounded_of_unset fun z => by rw [State.zone_commitState]; rfl
  port := h.port
  held := ⟨nofun, List.nodup_nil⟩
  kept := h.kept
  none := fun _ _ => nofun

theorem State.Capped.doCommit (h : s.Capped off) : s.doCommit.Capped off := by
  unfold State.doCommit
  split
  · unfold State.commitSetup
    dsimp only
    split
    · exact h.hand _
    · split
      · exact ((h.commitState _).hand _).hand _
      · exact (h.commitState _).hand _
  · exact h.handResult _ _

theorem State.zone_withZones_stopped (s : State) (z : Fin 24) : (s.withZones s.zs.stopped).zone z = (s.zone z).stopped :=
  Vector.getElem_map ..

theorem State.Capped.stopZones (h : s.Capped off) : s.stopZones.Capped off := by
  unfold State.stopZones
  have hreported : ((List.finRange 64).foldl State.reportStopped s).Capped off :=
    h.foldl (fun u w hu => by
      unfold State.reportStopped
      split
      · exact hu.hand _
      · exact hu) _
  dsimp only
  generalize (List.finRange 64).foldl State.reportStopped s = u at hreported ⊢
  exact hreported.congr rfl rfl hreported.queue
    (State.logsBounded_of_unset fun z => by rw [State.zone_withZones_stopped]; rfl)

theorem State.Capped.stopSetup (h : s.Capped off) (su : Setup) : (s.stopSetup su).Capped off := by
  unfold State.stopSetup
  exact ((h.withPlan _).stopZones.foldl (fun u f hu => (u.scheduled_stopFeed su f).capped hu) _).examine su

theorem State.Capped.doCancel (h : s.Capped off) (su : Setup) (c : CommandRec) : (s.doCancel su c).Capped off := by
  unfold State.doCancel
  split
  · exact h.handResult _ _
  · dsimp only
    split
    · exact (State.zoned_cancelWindow _ su _).capped (h.handResult _ _)
    · exact h.handResult _ _

theorem State.Capped.doHold (h : s.Capped off) (su : Setup) (c : CommandRec) : (s.doHold su c).Capped off := by
  unfold State.doHold
  split
  · exact h.handResult _ _
  · split
    · exact (State.zoned_holdZones _ su _ _).capped (h.handResult _ _)
    · exact h.handResult _ _

theorem State.Capped.doRelease (h : s.Capped off) (su : Setup) (c : CommandRec) : (s.doRelease su c).Capped off := by
  unfold State.doRelease
  split
  · exact ((State.zoned_updZones _ (zonesIn c.arg1) Zone.commandReleased fun _ => rfl).capped (h.handResult _ _)).hand _
  · exact h.handResult _ _

theorem State.Capped.doAttach (h : s.Capped off) (su : Setup) (c : CommandRec) : (s.doAttach su c).Capped off := by
  unfold State.doAttach
  split
  · exact h.handResult _ _
  · dsimp only
    split
    · exact (State.scheduled_attachFeed _ su _ _).capped (h.handResult _ _)
    · exact h.handResult _ _

theorem State.Capped.doDetach (h : s.Capped off) (su : Setup) (c : CommandRec) : (s.doDetach su c).Capped off := by
  unfold State.doDetach
  split
  · exact h.handResult _ _
  · dsimp only
    split
    · exact ((State.scheduled_detachFeed _ su _).capped (h.handResult _ _)).examineAfter _ su
    · exact h.handResult _ _

/-! ## The other completions -/

theorem State.Capped.takeReadIndex (h : s.Capped off) (o : Nat) (d : List Byte) (x : MemAnswer) :
    (s.takeReadIndex o d x).Capped off := by
  unfold State.takeReadIndex
  split <;> exact h.congr rfl rfl h.queue h.logs

theorem State.Capped.setHealth (h : s.Capped off) (r : Fin 12) (p : Path) (x : Health) : (s.setHealth r p x).Capped off := by
  unfold State.setHealth
  dsimp only
  split
  · exact h
  · exact (h.withIngest _).hand _

theorem State.Capped.completeRingWrite (h : s.Capped off) (su : Setup) (ring : RingId) (k : Nat) (x : MemAnswer) :
    (s.completeRingWrite su ring k x).Capped off := by
  unfold State.completeRingWrite
  split
  · exact h
  · next e _ =>
    split
    · dsimp only
      generalize hu : s.setEntry ring k _ = u
      have hset : u.Capped off := hu ▸ h.withIngest _
      generalize hv : (if s.lateSet su ring e.ssn = 0 then u else u.hand _) = v
      have hlate : v.Capped off := by
        rw [← hv]
        split
        · exact hset
        · exact hset.hand _
      cases ring
      · exact hlate
      · unfold State.settlePath
        exact (hlate.withIngest _).setHealth _ _ _
    · exact h

theorem State.Capped.completeViewRead (h : s.Capped off) (su : Setup) (f : Fin 32) (rd : InFlight) :
    (s.completeViewRead su f rd).Capped off := by
  unfold State.completeViewRead
  have hset := (s.scheduled_setFeed f { s.feed f with inFlight := Option.none }).capped h
  refine State.Capped.examine ?_ su
  split
  · exact (State.scheduled_completeFeed _ su f _).capped hset
  · exact hset

/-- A change of the Report Writer alone that does not lengthen its queue. -/
theorem State.Capped.withReports (h : s.Capped off) {x : ReportWriter} (hx : x.queue.length ≤ s.rw.queue.length) :
    ({ s with rw := x } : State).Capped off :=
  h.congr rfl rfl (hx.trans h.queue) h.logs

theorem State.Capped.presentReport (h : s.Capped off) (a : Nat) (d : List Byte) (k : AccessKind) :
    (s.presentReport a d k).Capped off :=
  h.setReportLane _

theorem State.Capped.loseRecord (h : s.Capped off) : s.loseRecord.Capped off := h.withReports le_rfl

theorem State.Capped.dropHand (h : s.Capped off) : s.dropHand.Capped off := h.withReports le_rfl

/-- The record that ends the drain is followed by the entry to CONFIG, any other by nothing (R194). -/
theorem State.Capped.enteringIf (h : s.Capped off) (c : Bool) : (if c = true then s.enterConfig else s).Capped off := by
  split
  · exact h.enterConfig
  · exact h

theorem State.Capped.recordAnswered (h : s.Capped off) (su : Setup) (x : MemAnswer) : (s.recordAnswered su x).Capped off := by
  cases x
  · exact State.Capped.presentReport (h.withReports (x := { s.rw with
      writeIndex := (s.rw.writeIndex + 1) % su.reportSize }) le_rfl) _ _ _
  · exact h.loseRecord.dropHand.enteringIf _

theorem State.Capped.indexWordDone (h : s.Capped off) : s.indexWordDone.Capped off := h.dropHand.enteringIf _

/-! ## The Timebase and the expiries -/

theorem Port.WithinSequence.tickPort {p : Port} (h : p.WithinSequence) (su : Setup) : (su.tickPort p).WithinSequence := by
  cases p <;> exact h

/-- A change of the held writes' timers. -/
theorem State.HeldLanes.mapTimers (h : s.HeldLanes) {f : HeldWrite → HeldWrite} (hf : ∀ x, (f x).lane = x.lane ∧ (f x).req = x.req)
    (la : ∀ k, t.lane k = s.lane k) (rg : t.rg.held = s.rg.held.map f) : t.HeldLanes := by
  unfold State.HeldLanes
  rw [rg]
  refine ⟨fun y hy => ?_, ?_⟩
  · obtain ⟨x, hx, rfl⟩ := List.mem_map.mp hy
    rw [la, (hf x).1, (hf x).2]
    exact h.1 x hx
  · have hlanes : (s.rg.held.map f).map (·.lane) = s.rg.held.map (·.lane) := by
      simp only [List.map_map, Function.comp_def, (hf _).1]
    rw [hlanes]
    exact h.2

theorem State.WithinCapacity.tickAll (h : s.WithinCapacity) (su : Setup) : (s.tickAll su).WithinCapacity where
  queue := h.queue
  logs := h.logs
  port := Port.WithinSequence.tickPort h.port su
  held := h.held.mapTimers (f := su.tickHeld) (fun _ => ⟨rfl, rfl⟩) (fun _ => rfl) rfl
  kept := h.kept

theorem State.WithinCapacity.refclk (h : s.WithinCapacity) : s.refclk.WithinCapacity := by
  unfold State.refclk
  split
  · exact h
  · split
    · exact (h.capped.congr rfl rfl h.queue h.logs : s.countPeriod.Capped []).withinCapacity
    · exact h.tickAll _

theorem State.Capped.expireLink (h : s.Capped off) (su : Setup) : (s.expireLink su).Capped off := by
  unfold State.expireLink
  split
  · split
    · exact (h.setPort (p := .free) trivial).settlePort
    · exact h
  · exact h

theorem State.Capped.expireSilence (h : s.Capped off) (su : Setup) (r : Fin 12) (p : Path) :
    (s.expireSilence su r p).Capped off := by
  unfold State.expireSilence
  split
  · split
    · exact (h.withIngest _).setHealth _ _ _
    · exact h
  · exact h

theorem State.Capped.countExpiry (h : s.Capped []) (l : Fin 8) : (s.countExpiry l).Capped [] :=
  { h with
    held := h.held.mapTimers (t := s.countExpiry l)
      (f := fun x => if x.lane = l then { x with timer := 0, expiries := x.expiries + 1 } else x)
      (fun _ => by split <;> exact ⟨rfl, rfl⟩) (fun _ => rfl) rfl
    none := by simp }

theorem State.Capped.expireHoldOf (h : s.Capped []) (su : Setup) (l : Fin 8) : (s.expireHoldOf su l).Capped [] := by
  unfold State.expireHoldOf
  split
  · unfold State.expireHold
    exact (((((s.scheduled_slipAll su _ _).capped h).countExpiry _).hand _).examine su).settlePort
  · exact h

/-- A change of the Timebase alone. -/
theorem State.Capped.withTimebase (h : s.Capped off) (x : Timebase) : ({ s with tb := x } : State).Capped off :=
  h.congr rfl rfl h.queue h.logs

theorem State.Capped.expirePulse (h : s.Capped off) (su : Setup) : (s.expirePulse su).Capped off := by
  unfold State.expirePulse
  split
  · exact h
  · split
    · exact (h.withTimebase _).hand _
    · exact h
  · exact h

theorem State.Capped.reportPulse (h : s.Capped off) (su : Setup) (b : RefState) : (s.reportPulse su b).Capped off := by
  unfold State.reportPulse
  have hreference : (if b = .locked then s else s.handReference b .locked).Capped off := by
    split
    · exact h
    · exact h.hand _
  dsimp only
  split
  · exact hreference.hand _
  · exact hreference

theorem State.Capped.stallCheck (h : s.Capped off) (su : Setup) (b : RefState) : (s.stallCheck su b).Capped off := by
  unfold State.stallCheck
  have hsettled : (s.settleStalls (b == .locked && su.stallPulses != 0)).Capped off := h.congr rfl rfl h.queue h.logs
  dsimp only
  split
  · exact hsettled.foldl (fun u f hu => (((u.scheduled_slip su .stall f).capped hu).examineAfter u su).settlePort) _
  · exact hsettled

theorem State.Capped.takePulse (h : s.Capped off) (su : Setup) : (s.takePulse su).Capped off :=
  ((h.withTimebase _).reportPulse su _).stallCheck su _

/-! ## The Report Writer -/

theorem State.Capped.takeReport (h : s.Capped off) : s.takeReport.Capped off := by
  unfold State.takeReport
  split
  · exact h
  · next r rest hq =>
    have hhand : (s.takeInHand r rest).Capped off := h.withReports (by simp [hq])
    split
    · exact hhand.presentReport _ _ _
    · split
      · exact h.loseRecord.withReports (Nat.zero_le _)
      · exact hhand.presentReport _ _ _

theorem State.Capped.endDrain (h : s.Capped off) (su : Setup) : (s.endDrain su).Capped off := by
  unfold State.endDrain
  have hflag : ({ s with ps := { s.ps with drainFlag := true } } : State).Capped off := h.withPlan _
  dsimp only
  split
  · split
    · exact hflag.loseRecord
    · exact hflag.loseRecord.enterConfig.settlePort
  · exact (State.Capped.presentReport (hflag.withReports (Nat.zero_le _)) _ _ _).settlePort

/-! ## Every step -/

theorem State.withinCapacity_reset : State.reset.WithinCapacity where
  queue := Nat.zero_le _
  logs := State.logsBounded_of_unset (by decide +kernel)
  port := trivial
  held := ⟨nofun, List.nodup_nil⟩
  kept := by decide +kernel

theorem State.WithinCapacity.presentRequest (h : s.WithinCapacity) (l : Fin 8) (r : Request) :
    (s.presentRequest l r).WithinCapacity :=
  State.Bounded.takeKept _ { State.bounded_nil_iff.mpr h with kept := fun k _ => h.kept k }

end

theorem exec_keeps_withinCapacity {c : Instr} {s t : State} (hs : s.WithinCapacity) (h : exec c s = .next t) :
    t.WithinCapacity := by
  cases c with
  | resetNAssert =>
    cases h
    refine State.Capped.withinCapacity (State.withinCapacity_reset.capped.congr rfl rfl ?_ ?_)
    · exact Nat.zero_le _
    · exact State.withinCapacity_reset.logs
  | resetNRelease p =>
    cases h
    split
    · exact State.Capped.withinCapacity (hs.capped.congr (s := s) rfl rfl hs.queue hs.logs)
    · exact hs
  | laneRequest l d addr n link data =>
    cases h
    split
    · exact hs
    · exact hs.presentRequest l _
  | plainAccessComplete x =>
    simp only [exec, execPlainAccessComplete] at h
    split at h
    · next l g a hp =>
      split at h <;> cases h
      · exact ((hs.inHand hp).answered l a x).finish g _ _
      · exact hs
    · cases h; exact hs
  | planWriteComplete x =>
    cases x <;> cases h
    · exact hs.planAct _ _ fun _ _ u hu => hu
    · exact hs.planFault
  | submit => cases h; exact hs.planAct _ _ fun l r u hu => hu.foldl (fun v w hv => hv.submitRecord (ext l) w) _
  | commit => cases h; exact hs.planAct _ _ fun _ _ u hu => hu.doCommit
  | stop => cases h; exact hs.planAct _ _ fun _ _ u hu => hu.inRunning fun su c => (hu.handResult c _).stopSetup su
  | cancel => cases h; exact hs.planAct _ _ fun _ _ u hu => hu.inRunning fun su c => hu.doCancel su c
  | hold => cases h; exact hs.planAct _ _ fun _ _ u hu => hu.inRunning fun su c => hu.doHold su c
  | release => cases h; exact hs.planAct _ _ fun _ _ u hu => hu.inRunning fun su c => hu.doRelease su c
  | attach => cases h; exact hs.planAct _ _ fun _ _ u hu => hu.inRunning fun su c => hu.doAttach su c
  | detach => cases h; exact hs.planAct _ _ fun _ _ u hu => hu.inRunning fun su c => hu.doDetach su c
  | badCommand => cases h; exact hs.planAct _ _ fun _ _ u hu => hu.handResult _ _
  | readIndexWrite x =>
    simp only [exec, execReadIndexWrite] at h
    split at h
    · next l g a hp =>
      split at h <;> cases h
      · exact (((hs.inHand hp).answered l a x).takeReadIndex _ _ x).finish g _ _
      · exact hs
    · cases h; exact hs
  | ringWriteComplete x =>
    simp only [exec, execRingWriteComplete] at h
    split at h
    · next l g a su hp _ =>
      split at h <;> cases h
      · exact (((hs.inHand hp).answered l a x).completeRingWrite su _ _ x).finish g _ _
      · exact ((hs.inHand hp).answered l a x).finish g _ _
      · exact hs
    · cases h; exact hs
  | viewReadComplete x =>
    simp only [exec, execViewReadComplete] at h
    split at h
    · next l g a su hp _ =>
      split at h
      · split at h <;> cases h
        · exact (((hs.inHand hp).answered l a x).completeViewRead su _ _).finish g _ _
        · exact hs
      · cases h; exact hs
    · cases h; exact hs
  | tick =>
    cases h
    split
    · exact hs.tickAll _
    · exact hs
  | linkWaitExpiry =>
    cases h
    split
    · exact (hs.capped.expireLink _).withinCapacity
    · exact hs
  | silenceLimitExpiry r p =>
    cases h
    split
    · exact (hs.capped.expireSilence _ r p).withinCapacity
    · exact hs
  | holdLimitExpiry l =>
    cases h
    split
    · exact (hs.capped.expireHoldOf _ l).withinCapacity
    · exact hs
  | pulseTimeoutExpiry =>
    cases h
    split
    · exact (hs.capped.expirePulse _).withinCapacity
    · exact hs
  | refPulse =>
    cases h
    split
    · exact (hs.capped.takePulse _).withinCapacity
    · exact hs
  | holdReqAssert =>
    cases h
    have hset := fun b => (hs.capped.congr rfl rfl hs.queue hs.logs : (s.withHoldReq b).Capped [])
    split
    · exact hs
    · split
      · exact ((State.zoned_assertPin _ _).capped (hset true)).withinCapacity
      · exact (hset true).withinCapacity
  | holdReqDeassert =>
    cases h
    have hset := fun b => (hs.capped.congr rfl rfl hs.queue hs.logs : (s.withHoldReq b).Capped [])
    split
    · split
      · exact ((State.zoned_deassertPin _ _).capped (hset false)).withinCapacity
      · exact (hset false).withinCapacity
    · exact hs
  | drainEnd =>
    cases h
    split
    · split
      · exact (hs.capped.endDrain _).withinCapacity
      · exact hs
    · exact hs
  | reportTake =>
    cases h
    split
    · exact hs.capped.takeReport.settlePort.withinCapacity
    · exact hs
  | recordWriteComplete x =>
    simp only [exec, execRecordWriteComplete] at h
    split at h
    · next g a hp =>
      have hidle := (hs.capped.settleMemory a.req x).setReportLane .idle
      split at h <;> cases h
      · exact (hidle.dropHand.closePort g x).withinCapacity
      · exact ((hidle.recordAnswered _ x).closePort g x).withinCapacity
      · exact hs
    · cases h; exact hs
  | writeIndexWordComplete x =>
    simp only [exec, execWriteIndexWordComplete] at h
    split at h
    · next g a hp =>
      have hidle := (hs.capped.settleMemory a.req x).setReportLane .idle
      split at h <;> cases h
      · exact (hidle.indexWordDone.closePort g x).withinCapacity
      · exact hs
    · cases h; exact hs

/-- Settles O57: each operation of a step keeps the capacities, the kept requests of the lane in hand apart, and the taking of
the kept requests settles those. -/
theorem stepKeepsCapacities : Obligations.StepKeepsCapacities := by
  intro s t hmem hcap hstep
  refine ⟨step_keeps_memoryCanonical hmem hstep, ?_⟩
  unfold step at hstep
  split at hstep
  · cases hstep
    exact hcap.refclk
  · next c q hq =>
    have hrest : (s.withPending q).Capped [] := hcap.capped.congr rfl rfl hcap.queue hcap.logs
    exact exec_keeps_withinCapacity hrest.withinCapacity hstep

end Sys2Proof.Machine
end

section
/-! Frames: what two states share (`State.SameBut`), combined along a command's acts. -/

namespace Sys2Proof.Machine

/-! ## Combining frames -/

section
variable {s t u : State} {c d : List Part}

theorem State.SameBut.refl (s : State) (c : List Part) : s.SameBut s c := fun p _ => by cases p <;> rfl

theorem State.SameBut.trans (h : s.SameBut t c) (k : t.SameBut u c) : s.SameBut u c := by
  intro p hp
  have h := h p hp
  have k := k p hp
  cases p <;> exact Eq.trans k h

theorem State.SameBut.mono (h : s.SameBut t c) (hc : c ⊆ d) : s.SameBut t d := fun p hp => h p fun hpc => hp (hc hpc)

end

/-! ## Frames of single changes -/

section
variable (s : State)

theorem State.sameBut_la (x : LaneArbiter) : s.SameBut { s with la := x } [.la] := fun p hp => by
  cases p <;> first | rfl | simp at hp

theorem State.sameBut_ps (x : PlanShadow) : s.SameBut { s with ps := x } [.ps] := fun p hp => by
  cases p <;> first | rfl | simp at hp

theorem State.sameBut_ic (x : IngestChecker) : s.SameBut { s with ic := x } [.ic] := fun p hp => by
  cases p <;> first | rfl | simp at hp

theorem State.sameBut_zs (x : ZoneScheduler) : s.SameBut { s with zs := x } [.zs] := fun p hp => by
  cases p <;> first | rfl | simp at hp

theorem State.sameBut_vr (x : ViewResolver) : s.SameBut { s with vr := x } [.vr] := fun p hp => by
  cases p <;> first | rfl | simp at hp

theorem State.sameBut_rg (x : RingGuard) : s.SameBut { s with rg := x } [.rg] := fun p hp => by
  cases p <;> first | rfl | simp at hp

theorem State.sameBut_tb (x : Timebase) : s.SameBut { s with tb := x } [.tb] := fun p hp => by
  cases p <;> first | rfl | simp at hp

theorem State.sameBut_rw (x : ReportWriter) : s.SameBut { s with rw := x } [.rw] := fun p hp => by
  cases p <;> first | rfl | simp at hp

theorem State.sameBut_settleMemory (r : Request) (x : MemAnswer) : s.SameBut (s.settleMemory r x) [.mem, .freeCount] := by
  rw [s.settleMemory_changes]
  exact fun p hp => by cases p <;> first | rfl | simp at hp

theorem State.sameBut_hand (r : Report) : s.SameBut (s.hand r) [.rw] := by
  rw [s.hand_changes]
  exact s.sameBut_rw _

theorem State.sameBut_reportFault (l : Fin 8) (a : Access) (x : MemAnswer) : s.SameBut (s.reportFault l a x) [.rw] := by
  cases x with
  | okay => exact .refl s _
  | error => exact s.sameBut_hand _

theorem State.sameBut_answered (l : Fin 8) (a : Access) (x : MemAnswer) :
    s.SameBut (s.answered l a x) [.mem, .freeCount, .rw] :=
  ((s.sameBut_settleMemory a.req x).mono (by simp)).trans ((State.sameBut_reportFault _ l a x).mono (by simp))

end

section
variable {s t : State}

theorem Arbitrated.sameBut (h : Arbitrated s t) : s.SameBut t [.la] := by
  rw [h.changes]
  exact s.sameBut_la _

theorem Scheduled.sameBut (h : Scheduled s t) : s.SameBut t [.zs, .vr, .rw] := by
  intro p hp
  cases p with
  | zs => simp at hp
  | vr => simp at hp
  | rw => simp at hp
  | pending => exact h.pending
  | la => exact h.la
  | ac => exact h.ac
  | ps => exact h.ps
  | ic => exact h.ic
  | rg => exact h.rg
  | tb => exact h.tb
  | mem => exact h.mem
  | resetAsserted => exact h.resetAsserted
  | holdReq => exact h.holdReq
  | freeCount => exact h.freeCount

theorem Zoned.sameBut (h : Zoned s t) : s.SameBut t [.zs, .rw] := by
  intro p hp
  by_cases hvr : p = .vr
  · subst hvr; exact h.vr
  · refine h.scheduled.sameBut p ?_
    simp only [List.mem_cons, List.not_mem_nil, or_false, not_or] at hp ⊢
    exact ⟨hp.1, hvr, hp.2⟩

end

/-! ## What the Ingest Checker's parts are read from -/

section
variable {s t : State}

theorem State.path_congr (h : t.ic = s.ic) (r : Fin 12) (p : Path) : t.path r p = s.path r p := by
  unfold State.path
  rw [h]

theorem State.head_congr (h : t.ic = s.ic) (ring : RingId) : t.head ring = s.head ring := by
  cases ring with
  | national => exact congrArg IngestChecker.natHead h
  | regional r p => exact congrArg PathState.head (State.path_congr h r p)

theorem State.entry_congr (h : t.ic = s.ic) (ring : RingId) (k : Nat) : t.entry ring k = s.entry ring k := by
  unfold State.entry
  rw [h]

end

end Sys2Proof.Machine
end

section
/-! A step of the part, the state after reset, and the two edges of RESET_N (R36, R38, R53, R59). -/

namespace Sys2Proof.Machine

/-- Settles O1: the queue's front is the command a step carries out. -/
theorem stepRunsFrontCommand : Obligations.StepRunsFrontCommand := fun _ _ _ => rfl

/-! ## The reset state, block by block -/

theorem State.lane_reset (l : Fin 9) : State.reset.lane l = .idle := by
  revert l
  decide +kernel

theorem State.kept_reset (l : Fin 8) : State.reset.la.kept[l] = [] := by
  revert l
  decide +kernel

theorem State.responses_reset (l : Fin 8) : State.reset.la.responses[l] = none := by
  revert l
  decide +kernel

theorem State.path_reset (r : Fin 12) (p : Path) : State.reset.path r p = PathState.reset := by
  revert r
  cases p <;> decide +kernel

theorem State.head_reset (ring : RingId) : State.reset.head ring = none := by
  cases ring with
  | national => rfl
  | regional r p => exact congrArg (·.head) (State.path_reset r p)

theorem State.window_reset (w : Fin 64) : State.reset.window w = Window.reset := by
  revert w
  decide +kernel

theorem Window.outcomes_reset (z : Fin 24) : Window.reset.outcomes[z] = none := by
  revert z
  decide +kernel

theorem State.zone_reset (z : Fin 24) : State.reset.zone z = Zone.reset := by
  revert z
  decide +kernel

theorem State.feed_reset (f : Fin 32) : State.reset.feed f = { status := .detached, inFlight := none } := by
  revert f
  decide +kernel

theorem PlanShadow.mem_unknown_reset (w : Nat) : w ∈ PlanShadow.reset.unknown ↔ w < 1024 := by
  simp only [PlanShadow.reset, List.mem_range]

/-- Settles O3: the fields of each block after reset. -/
theorem resetValues : Obligations.ResetValues := by
  refine ⟨rfl, rfl, rfl, fun _ => rfl, ?_, State.lane_reset, rfl, rfl, rfl, fun _ _ => rfl,
    State.head_reset, fun r p => ?_, fun w => ?_, fun z => ?_, State.feed_reset, rfl, rfl, rfl, rfl, rfl, rfl, rfl, rfl,
    rfl, rfl, rfl, rfl, rfl, rfl, rfl, rfl, fun l => ⟨State.kept_reset l, State.responses_reset l⟩, rfl, rfl, rfl,
    fun _ => rfl, rfl⟩
  · exact PlanShadow.mem_unknown_reset
  · rw [State.path_reset]; exact ⟨rfl, rfl, rfl⟩
  · rw [State.window_reset]; exact ⟨rfl, Window.outcomes_reset⟩
  · rw [State.zone_reset]; exact ⟨rfl, rfl, rfl, rfl, rfl⟩

/-! ## RESET_N -/

theorem State.sameBut_abandonAccess (s : State) : s.SameBut s.abandonAccess [.mem, .freeCount] := by
  unfold State.abandonAccess
  split
  · exact s.sameBut_settleMemory _ .error
  · exact .refl s _

/-- Settles O4: RESET_N asserted abandons the access in progress and resets every block. -/
theorem resetNAssertResetsEveryBlock : Obligations.ResetNAssertResetsEveryBlock := by
  intro s
  refine ⟨_, rfl, rfl, State.lane_reset, State.kept_reset, State.responses_reset, rfl, rfl, rfl, rfl, rfl, rfl, rfl,
    rfl, rfl, rfl, rfl, ?_⟩
  have abandoned := s.sameBut_abandonAccess
  have reset : s.abandonAccess.SameBut { s.abandonAccess.resetBlocks with resetAsserted := true }
      [.la, .ps, .ic, .zs, .vr, .rg, .tb, .rw, .mem, .resetAsserted, .freeCount] := fun p hp => by
    cases p <;> first | rfl | simp at hp
  exact (abandoned.mono (by simp)).trans reset

/-- Settles O5: the straps are read at a release of an asserted RESET_N, and the plan area's addresses are PLAN. -/
theorem resetNReleasePlacesPlanArea : Obligations.ResetNReleasePlacesPlanArea := by
  intro s p
  refine ⟨fun h => ⟨_, congrArg Host.Outcome.next (if_pos h), Nat.mul_comm _ _, rfl, fun q hq => ?_⟩,
    fun h => congrArg Host.Outcome.next (if_neg (by simp [h])), fun k hlo hhi => ?_⟩
  · cases q <;> first | rfl | simp at hq
  · rw [State.classify_plan]
    simp [Extent.has, State.planExtent, planLength, hlo, hhi]

/-! ## The invariants at reset -/

theorem State.planSound_reset : State.reset.PlanSound where
  accesses := fun l a ha => by rw [State.lane_reset] at ha; cases ha
  held := fun h hh => absurd hh List.not_mem_nil
  ring := fun su hsu => by cases hsu
  known := fun w _ _ i _ => rfl
  setup := fun h => by cases h
  windows := fun w hw => by rw [State.window_reset] at hw; cases hw
  reset := fun h => by cases h
  rising := ⟨.nil, .nil⟩

/-- Settles O56: reset leaves no access, no held write, no set zone and no open window. -/
theorem invariantsAtReset : Obligations.InvariantsAtReset :=
  ⟨rfl, State.withinCapacity_reset,
    ⟨fun z => by rw [State.zone_reset]; rfl, fun f p => by rw [State.feed_reset]; simp⟩,
    fun su hsu => absurd hsu (by simp [State.reset, PlanShadow.reset]), State.planSound_reset⟩

end Sys2Proof.Machine
end

section
/-! Grants, reservations and the timers that count ticks (R24 to R32, R95, R96, R180). -/

namespace Sys2Proof.Machine

/-! ## Grants -/

/-- Settles O10: what `State.PortSettled` says of the port's settling. -/
theorem portIsGranted : Obligations.PortIsGranted := fun s =>
  let h := s.portSettled_settlePort
  ⟨h.idle, h.free, h.busy, h.reserved⟩

/-! ## The wait of a reservation -/

theorem State.expireLink_of_reserved {s : State} {su : Setup} {r : Reservation} (hport : s.la.port = .reserved r) :
    s.expireLink su = if su.linkWait ≤ r.wait then (s.setPort .free).settlePort else s := by
  simp [State.expireLink, hport]

/-- Settles O13: an expired wait frees the port, which is then granted as a FREE one. -/
theorem linkWaitExpires : Obligations.LinkWaitExpires := by
  intro s su r hsu hport
  have hexec : exec .linkWaitExpiry s = .next (s.expireLink su) := by simp [exec, execLinkWaitExpiry, hsu]
  rw [hexec, State.expireLink_of_reserved hport]
  have hsettled := (s.setPort .free).portSettled_settlePort
  refine ⟨fun hwait => ⟨_, by rw [if_pos hwait], ?_, fun hpick => hsettled.idle rfl hpick,
    fun l hpick => hsettled.free l rfl hpick⟩, fun hwait => by rw [if_neg (by omega)]⟩
  exact (s.sameBut_la _).trans (State.arbitrated_settlePort _).sameBut

/-! ## Requests kept waiting -/

theorem LaneState.idle?_eq_false_iff (x : LaneState) : x.idle? = false ↔ x ≠ .idle := by
  cases x <;> simp [LaneState.idle?]

theorem State.takeKept_of_idle {l : Fin 8} {s : State} (r : Request) (rest : List Request)
    (h : s.lane (ext l) = .idle) : State.takeKept l (r :: rest) s = State.takeKept l rest (s.takeRequest l r) := by
  simp [State.takeKept, h, LaneState.idle?]

theorem State.takeKept_of_not_idle {l : Fin 8} {s : State} (r : Request) (rest : List Request)
    (h : s.lane (ext l) ≠ .idle) : State.takeKept l (r :: rest) s = s.setKept l (r :: rest) := by
  simp [State.takeKept, (LaneState.idle?_eq_false_iff _).mpr h]

/-- Settles O14: a request behind an outstanding one joins the back of those kept; under RESET_N it is discarded. -/
theorem requestIsKeptWaiting : Obligations.RequestIsKeptWaiting := by
  intro s l dir addr n link data
  refine ⟨fun hreset hlane => ?_, fun hreset => congrArg Host.Outcome.next (if_pos hreset)⟩
  have hexec : exec (.laneRequest l dir addr n link data) s =
      .next (s.presentRequest l (makeRequest dir addr n link data)) :=
    congrArg Host.Outcome.next (if_neg (by simp [hreset]))
  rw [hexec, State.presentRequest]
  cases s.la.kept[l] with
  | nil => rw [List.nil_append, State.takeKept_of_not_idle _ _ hlane]
  | cons r rest => rw [List.cons_append, State.takeKept_of_not_idle _ _ hlane]

/-! ## The silence of a path -/

/-- A path that falls SILENT: its timer stopped, with PATH_STATE when its health changes. -/
theorem State.expireSilence_of_reached {s : State} {su : Setup} {r : Fin 12} {p : Path} {n : Nat}
    (htimer : (s.path r p).timer = some n) (hlimit : (su.profileOf r).silenceLimit ≤ n) :
    s.expireSilence su r p = (s.setPath r p { s.path r p with timer := none }).setHealth r p .silent := by
  simp [State.expireSilence, htimer, hlimit]

theorem State.expireSilence_of_not_reached {s : State} {su : Setup} {r : Fin 12} {p : Path}
    (h : (s.path r p).timer = none ∨ ∃ n, (s.path r p).timer = some n ∧ n < (su.profileOf r).silenceLimit) :
    s.expireSilence su r p = s := by
  rcases h with htimer | ⟨n, htimer, hlimit⟩
  · simp [State.expireSilence, htimer]
  · simp [State.expireSilence, htimer, hlimit]

theorem State.path_setPath_self (s : State) (r : Fin 12) (p : Path) (x : PathState) : (s.setPath r p x).path r p = x := by
  rw [State.path_setPath, if_pos rfl]

theorem State.path_setPath_ne (s : State) {r r' : Fin 12} {p p' : Path} (x : PathState)
    (h : pathIndex r' p' ≠ pathIndex r p) : (s.setPath r p x).path r' p' = s.path r' p' := by
  rw [State.path_setPath, if_neg (Ne.symm h)]

theorem State.sameBut_setPath (s : State) (r : Fin 12) (p : Path) (x : PathState) : s.SameBut (s.setPath r p x) [.ic] :=
  s.sameBut_ic _

theorem State.hand_ic (s : State) (r : Report) : (s.hand r).ic = s.ic := by rw [s.hand_changes]

theorem State.path_hand (s : State) (q : Report) (r : Fin 12) (p : Path) : (s.hand q).path r p = s.path r p := by
  unfold State.path
  rw [State.hand_ic]

/-- What setting a path's health does: the path's record, the reports, and nothing else (R96). -/
theorem State.setHealth_spec (s : State) (r : Fin 12) (p : Path) (h : Health) :
    (s.setHealth r p h).path r p = { s.path r p with health := h } ∧
    (∀ r' p', pathIndex r' p' ≠ pathIndex r p → (s.setHealth r p h).path r' p' = s.path r' p') ∧
    (s.setHealth r p h).ic.dir = s.ic.dir ∧ (s.setHealth r p h).ic.natHead = s.ic.natHead ∧
    (s.setHealth r p h).rw = (if (s.path r p).health = h then s
      else s.hand (.pathState r p (s.path r p).head (s.path r p).health h (s.path r p).score)).rw ∧
    s.SameBut (s.setHealth r p h) [.ic, .rw] := by
  by_cases hh : (s.path r p).health = h
  · have he : s.setHealth r p h = s := by simp [State.setHealth, hh]
    rw [he, if_pos hh]
    exact ⟨by rw [← hh], fun _ _ _ => rfl, rfl, rfl, rfl, .refl s _⟩
  · have he : s.setHealth r p h = (s.setPath r p { s.path r p with health := h }).hand
        (.pathState r p (s.path r p).head (s.path r p).health h (s.path r p).score) := by simp [State.setHealth, hh]
    rw [he, if_neg hh]
    refine ⟨?_, fun r' p' hne => ?_, by rw [State.hand_ic]; rfl, by rw [State.hand_ic]; rfl,
      State.hand_rw_congr _ rfl rfl rfl, ?_⟩
    · rw [State.path_hand, State.path_setPath_self]
    · rw [State.path_hand, State.path_setPath_ne s _ hne]
    · exact ((s.sameBut_setPath r p _).mono (by simp)).trans ((State.sameBut_hand _ _).mono (by simp))

/-- Settles O36: the path whose timer has reached the limit falls SILENT. -/
theorem silenceLimitExpires : Obligations.SilenceLimitExpires := by
  intro s su r p hsu
  have hexec : exec (.silenceLimitExpiry r p) s = .next (s.expireSilence su r p) := by
    simp [exec, execSilenceLimitExpiry, hsu]
  rw [hexec]
  refine ⟨fun n htimer hlimit => ⟨_, rfl, ?_⟩, fun h => by rw [State.expireSilence_of_not_reached h]⟩
  rw [State.expireSilence_of_reached htimer hlimit]
  obtain ⟨hpath, hothers, hdir, hhead, hrw, hrest⟩ :=
    (s.setPath r p { s.path r p with timer := none }).setHealth_spec r p .silent
  rw [State.path_setPath_self] at hpath hrw
  refine ⟨hpath, fun r' p' hne => ?_, hdir, hhead, ?_, ((s.sameBut_setPath r p _).mono (by simp)).trans hrest⟩
  · rw [hothers r' p' hne, State.path_setPath_ne s _ hne]
  · rw [hrw]
    split
    · rfl
    · exact State.hand_rw_congr _ rfl rfl rfl

/-! ## The tick -/

theorem State.path_tickAll (s : State) (su : Setup) (r : Fin 12) (p : Path) :
    (s.tickAll su).path r p = su.tickPath r (s.path r p) := by
  have hregion : regionOf (pathIndex r p) = r := by
    cases p <;> simp only [regionOf, pathIndex, Fin.ext_iff] <;> omega
  simp only [State.path, State.tickAll, Fin.getElem_fin, Vector.getElem_ofFn, Fin.eta, hregion]

theorem Setup.tickPath_eq (su : Setup) (r : Fin 12) (x : PathState) :
    su.tickPath r x = { x with
      timer := if x.health = .unseen then x.timer
        else x.timer.map (fun n => min (n + 1) (su.profileOf r).silenceLimit) } := by
  obtain ⟨head, score, health, timer⟩ := x
  cases health <;> rfl

/-- Settles O49: a tick counts every timer that runs, and the prescaler counts the periods up to it. -/
theorem tickCounts : Obligations.TickCounts := by
  intro s
  have hstep : s.pending = [] → step s = .next s.refclk := fun h => by simp [step, h]
  refine ⟨fun hsu => ⟨by simp [exec, execTick, hsu], fun h => by rw [hstep h]; simp [State.refclk, hsu]⟩,
    fun su hsu => ?_⟩
  have hexec : exec .tick s = .next (s.tickAll su) := by simp [exec, execTick, hsu]
  have hrefclk : s.refclk = if s.tb.prescaler < su.tickDiv then s.countPeriod else s.tickAll su := by
    simp [State.refclk, hsu]
  refine ⟨fun h hlt => by rw [hstep h, hrefclk, if_pos hlt, State.countPeriod],
    fun h hle => by rw [hstep h, hrefclk, if_neg (by omega), hexec],
    s.tickAll su, hexec, ?_, fun r p => by rw [State.path_tickAll, Setup.tickPath_eq], ?_, ?_, ?_, ?_, fun q hq => ?_⟩
  · simp only [State.tickAll, Setup.tickTimebase]
    cases s.tb.refState <;> rfl
  · simp only [State.tickAll]
  · simp only [State.tickAll]
  · rfl
  · simp only [State.tickAll, Setup.tickPort]
    cases s.la.port <;> rfl
  · cases q <;> first | (simp at hq; done) | rfl

end Sys2Proof.Machine
end

section
/-! The end of an external access: the response, an entry to CONFIG that waits for it, the port, and the requests kept at the
lane port (R18, R19, R27, R33, R65, R66). -/

namespace Sys2Proof.Machine

/-! ## Entry to CONFIG, and what the port does then -/

section
variable {s t : State}

/-- An entry to CONFIG does not ask for the Lane Arbiter that was there. -/
theorem State.EnteredConfig.of_la {la : LaneArbiter} (h : ({ s with la := la } : State).EnteredConfig t) : s.EnteredConfig t :=
  { h with
    windows := h.windows
    rest := ((s.sameBut_la la).mono (by simp)).trans h.rest }

theorem State.EnteredConfig.isConfig (h : s.EnteredConfig t) : t.isConfig = true := by
  unfold State.isConfig
  rw [h.run]

/-- A grant in CONFIG comes from the one group that is not urgent (R23). -/
theorem State.EnteredConfig.settlePort (h : s.EnteredConfig t) (hfree : t.la.port = .free) : s.EnteredConfig t.settlePort := by
  have hsettled := t.portSettled_settlePort
  cases hpick : t.pick with
  | none => rwa [hsettled.idle hfree hpick]
  | some l =>
    have hgrant := hsettled.free l hfree hpick
    obtain ⟨a, -, -, hport⟩ := hgrant.active
    have hurgent := State.isUrgent_of_isConfig h.isConfig l
    have hu := hgrant.urgentPtr
    have hn := hgrant.normalPtr
    rw [hurgent] at hu hn
    generalize t.settlePort = u at *
    have hps : u.ps = t.ps := hgrant.rest .ps (by simp)
    have hic : u.ic = t.ic := hgrant.rest .ic (by simp)
    have hzs : u.zs = t.zs := hgrant.rest .zs (by simp)
    have hvr : u.vr = t.vr := hgrant.rest .vr (by simp)
    have htb : u.tb = t.tb := hgrant.rest .tb (by simp)
    have hrw : u.rw = t.rw := hgrant.rest .rw (by simp)
    have hreset : u.resetAsserted = t.resetAsserted := hgrant.rest .resetAsserted (by simp)
    exact
      { run := hps.trans h.run
        reservation := fun r => by rw [hport]; simp
        urgentPtr := hu.trans h.urgentPtr
        normalPtr := by rw [hport]; exact hn
        entries := fun ring k => (State.entry_congr hic ring k).trans (h.entries ring k)
        heads := fun ring => (State.head_congr hic ring).trans (h.heads ring)
        paths := fun r p => by rw [State.path_congr hic]; exact h.paths r p
        windows := fun w => (State.window_congr hzs w).trans (h.windows w)
        zones := fun z => by rw [State.zone_congr hzs]; exact h.zones z
        feeds := fun f => by rw [State.feed_congr hvr]; exact h.feeds f
        timebase := htb.trans h.timebase
        reports := by rw [hrw]; exact h.reports
        readWrite := by rw [hrw]; exact h.readWrite
        irq := by
          have := h.irq
          unfold State.irqAsserted State.isConfig at this ⊢
          rw [hps, hrw, hreset]
          exact this
        rest := h.rest.trans (hgrant.rest.mono (by simp)) }

end

/-! ## What the port has of a completed access -/

section
variable (s : State) (l : Fin 8) (g : Grant) (x : MemAnswer) (data : List Byte)

/-- The response is on its lane, which is idle; the port is still to be closed (R19). -/
def State.delivering : State := (s.setLane (ext l) .idle).respond l { status := answerStatus x, data := data }

/-- The end of a completion up to the requests kept at the lane port. -/
def State.closed : State := (s.delivering l x data).enterIfDue.closePort g x

theorem State.la_delivering (p : Port) :
    ((s.delivering l x data).setPort p).la = s.la.delivered l { status := answerStatus x, data := data } p := rfl

theorem State.lane_delivering_self : (s.delivering l x data).lane (ext l) = .idle := Vector.getElem_set_self ..

theorem State.lane_delivering_of_ne {k : Fin 9} (h : k ≠ ext l) : (s.delivering l x data).lane k = s.lane k :=
  s.lane_setLane_of_ne _ (Ne.symm h)

theorem State.not_waits_delivering_self : ¬ (s.delivering l x data).Waits (ext l) := by
  unfold State.Waits
  rw [s.lane_delivering_self]
  simp [LaneState.waiting?]

theorem State.waits_delivering_of_ne {k : Fin 9} (h : k ≠ ext l) : (s.delivering l x data).Waits k ↔ s.Waits k := by
  unfold State.Waits
  rw [s.lane_delivering_of_ne l x data h]

theorem State.responses_delivering_self :
    (s.delivering l x data).la.responses[l] = some { status := answerStatus x, data := data } :=
  Vector.getElem_set_self ..

theorem State.responses_delivering_of_ne {k : Fin 8} (h : k ≠ l) :
    (s.delivering l x data).la.responses[k] = s.la.responses[k] := by
  simp [State.delivering, State.respond, State.setLane, Fin.val_ne_of_ne (Ne.symm h)]

theorem State.la_enterConfig_kept : s.enterConfig.la.lanes = s.la.lanes ∧ s.enterConfig.la.kept = s.la.kept ∧
    s.enterConfig.la.responses = s.la.responses := ⟨rfl, rfl, rfl⟩

/-- An entry to CONFIG moves no lane, no kept request and no response. -/
theorem State.la_enterIfDue_kept : s.enterIfDue.la.lanes = s.la.lanes ∧ s.enterIfDue.la.kept = s.la.kept ∧
    s.enterIfDue.la.responses = s.la.responses := by
  unfold State.enterIfDue
  split
  · exact s.la_enterConfig_kept
  · exact ⟨rfl, rfl, rfl⟩

theorem State.finish_eq : s.finish l g x data = State.takeKept l s.la.kept[l] (s.closed l g x data) := by
  have hkept : (s.closed l g x data).la.kept = s.la.kept :=
    ((s.delivering l x data).enterIfDue.arbitrated_closePort g x).kept.trans
      (s.delivering l x data).la_enterIfDue_kept.2.1
  rw [← hkept]
  rfl

/-- The lane of a completed access is idle, its response delivered, and the other lanes are granted at the most. -/
theorem State.closed_lanes : (s.closed l g x data).lane (ext l) = .idle ∧
    (s.closed l g x data).la.responses[l] = some { status := answerStatus x, data := data } ∧
    s.OthersKept (s.closed l g x data) l := by
  obtain ⟨hlanes, hkept, hresponses⟩ := (s.delivering l x data).la_enterIfDue_kept
  have hlane : ∀ k, (s.delivering l x data).enterIfDue.lane k = (s.delivering l x data).lane k := fun k => by
    unfold State.lane
    rw [hlanes]
  refine ⟨?_, ?_, ?_⟩
  · have hgrant := State.settlePort_lanes ((s.delivering l x data).enterIfDue.setPort
      (if (s.delivering l x data).enterIfDue.makesReservation g x then
        .reserved { lane := g.lane, urgent := (s.delivering l x data).enterIfDue.isUrgent g.lane, wait := 0, count := g.count }
      else .free)) (ext l)
    have hidle : (s.delivering l x data).enterIfDue.lane (ext l) = .idle := (hlane _).trans (s.lane_delivering_self l x data)
    rcases hgrant with h | ⟨a, h, -⟩
    · exact h.trans hidle
    · exact absurd (hidle.symm.trans h) (by simp)
  · refine (congrArg (·[l]) (State.arbitrated_closePort _ g x).responses).trans ?_
    exact (congrArg (·[l]) hresponses).trans (s.responses_delivering_self l x data)
  · refine State.othersKept_settlePort (fun k hk => ?_) hkept (fun k hk => ?_)
    · exact (hlane k).trans (s.lane_delivering_of_ne l x data hk)
    · exact (congrArg (·[k]) hresponses).trans (s.responses_delivering_of_ne l x data hk)

/-- The reservation that R27 makes after lane `l`'s access, as the state before the response shows it. -/
theorem State.makesReservation_delivering (hg : g.lane = ext l) :
    (s.delivering l x data).makesReservation g x = true ↔
      s.isConfig = false ∧ g.link = true ∧ x = .okay ∧ g.count < 8 ∧
        (s.isUrgent (ext l) = true ∨ ∀ k, k ≠ ext l → s.Waits k → s.isUrgent k = false) := by
  have hwaits : (((s.delivering l x data).waitingIn true).all (fun k => k == g.lane)) = true ↔
      ∀ k, k ≠ ext l → s.Waits k → s.isUrgent k = false := by
    simp only [List.all_eq_true, State.mem_waitingIn, beq_iff_eq, hg]
    refine ⟨fun h k hk hw => ?_, fun h k ⟨hw, hu⟩ => ?_⟩
    · rw [← Bool.not_eq_true]
      exact fun hu => hk (h k ⟨(s.waits_delivering_of_ne l x data hk).mpr hw, hu⟩)
    · by_contra hne
      exact absurd ((h k hne ((s.waits_delivering_of_ne l x data hne).mp hw)).symm.trans hu) (by simp)
  have hurgent : (s.delivering l x data).isUrgent g.lane = s.isUrgent (ext l) := by rw [hg]; rfl
  have hconfig : (s.delivering l x data).isConfig = s.isConfig := rfl
  simp only [State.makesReservation, hurgent, hconfig, Bool.and_eq_true, Bool.or_eq_true, Bool.not_eq_true', beq_iff_eq,
    decide_eq_true_eq, hwaits, and_assoc]
  exact Iff.rfl

/-- Without an entry to CONFIG the port is RESERVED where R27 makes a reservation, and else granted as a FREE one. -/
theorem State.closed_of_no_entry (hg : g.lane = ext l) (hdue : s.entryDue = false) :
    let response : Response := { status := answerStatus x, data := data }
    let reserves := s.isConfig = false ∧ g.link = true ∧ x = .okay ∧ g.count < 8 ∧
      (s.isUrgent (ext l) = true ∨ ∀ k, k ≠ ext l → s.Waits k → s.isUrgent k = false)
    s.SameBut (s.closed l g x data) [.la] ∧
    (reserves → (s.closed l g x data).la = s.la.delivered l response
      (.reserved { lane := ext l, urgent := s.isUrgent (ext l), wait := 0, count := g.count })) ∧
    (¬ reserves → (s.closed l g x data).SettledFrom (s.la.delivered l response .free) ∧
      (∀ r, (s.closed l g x data).la.port ≠ .reserved r) ∧
      ∀ g', (s.closed l g x data).la.port = .busy g' → g'.count = 1) := by
  intro response reserves
  have hclosed : s.closed l g x data = (s.delivering l x data).closePort g x := by
    unfold State.closed State.enterIfDue
    rw [if_neg]
    exact fun h => absurd (hdue.symm.trans h) (by simp)
  have hmakes := s.makesReservation_delivering l g x data hg
  rw [hclosed]
  refine ⟨((s.sameBut_la _).trans (State.arbitrated_closePort (s.delivering l x data) g x).sameBut), fun h => ?_, fun h => ?_⟩
  · have hport : (s.delivering l x data).closePort g x = ((s.delivering l x data).setPort
        (.reserved { lane := ext l, urgent := s.isUrgent (ext l), wait := 0, count := g.count })).settlePort := by
      unfold State.closePort
      rw [if_pos (hmakes.mpr h), hg]
      rfl
    obtain ⟨-, -, -, -, hurgent⟩ := h
    rw [hport, ((State.portSettled_settlePort _).reserved _ rfl).2.2, s.la_delivering]
    · exact s.not_waits_delivering_self l x data
    · refine hurgent.imp id fun hothers k hk => ?_
      have hne : k ≠ ext l := by
        rintro rfl
        exact s.not_waits_delivering_self l x data hk
      exact hothers k hne ((s.waits_delivering_of_ne l x data hne).mp hk)
  · have hnone : (s.delivering l x data).makesReservation g x = false := by
      rw [← Bool.not_eq_true]
      exact fun c => h (hmakes.mp c)
    refine ⟨(State.settledFrom_closePort _ g x _ rfl).1 hnone, ?_⟩
    rcases State.closePort_of_no_reservation hnone with hfree | ⟨g₁, hbusy, hone⟩
    · rw [hfree]
      exact ⟨nofun, nofun⟩
    · rw [hbusy]
      exact ⟨nofun, fun g' hg' => Port.busy.inj hg' ▸ hone⟩

/-- An entry to CONFIG that waits for the access leaves a FREE port with its pointers at lane 0, which is then granted. -/
theorem State.closed_of_entry (hdue : s.entryDue = true) :
    s.EnteredConfig (s.closed l g x data) ∧ (s.closed l g x data).rw.overrun = s.rw.overrun ∧
    (s.closed l g x data).mem = s.mem ∧
    (s.closed l g x data).SettledFrom
      { s.la.delivered l { status := answerStatus x, data := data } .free with urgentPtr := 0, normalPtr := 0 } := by
  have hclosed : s.closed l g x data = ((s.delivering l x data).setPort .free).enterConfig.settlePort := by
    have hnone : (s.delivering l x data).enterConfig.makesReservation g x = false := rfl
    unfold State.closed State.enterIfDue
    rw [if_pos (show (s.delivering l x data).entryDue = true from hdue)]
    unfold State.closePort
    rw [hnone]
    rfl
  have hentered := State.enteredConfig_enterConfig ((s.delivering l x data).setPort .free) (by simp [State.setPort])
  have hfrom : s.EnteredConfig ((s.delivering l x data).setPort .free).enterConfig :=
    State.EnteredConfig.of_la (s := s) (la := ((s.delivering l x data).setPort .free).la) hentered
  have harb := State.arbitrated_settlePort ((s.delivering l x data).setPort .free).enterConfig
  rw [hclosed]
  refine ⟨hfrom.settlePort rfl, ?_, ?_, State.settledFrom_settlePort _ _ rfl⟩
  · rw [harb.changes]
    rfl
  · rw [harb.changes]
    rfl

end

/-! ## The requests kept at the lane port -/

/-- A port that takes a request takes what stands there in order, as a LANE_REQUEST of it would. -/
theorem State.exec_laneRequest {u : State} {l : Fin 8} (h : u.Takes l) (dir : Direction) (addr : Addr) (n : Nat) (link : Bool)
    (data : List Byte) : exec (.laneRequest l dir addr n link data) u =
      .next ((u.takeRequest l (makeRequest dir addr n link data)).setKept l []) := by
  have hexec : exec (.laneRequest l dir addr n link data) u =
      .next (u.presentRequest l (makeRequest dir addr n link data)) :=
    congrArg Host.Outcome.next (if_neg (by simp [h.released]))
  rw [hexec, State.presentRequest, h.none, List.nil_append, State.takeKept_of_idle _ _ h.idle, State.takeKept]

/-- Settles O11: a completion delivers, enters CONFIG where that waits for it, closes the port, and takes what was kept. -/
theorem accessEnds : Obligations.AccessEnds := by
  refine ⟨fun l u => ⟨rfl, fun r rest h => State.takeKept_of_idle r rest h, fun r rest h => State.takeKept_of_not_idle r rest h,
    fun q => ⟨rfl, u.sameBut_la _⟩, fun dir addr n link data h => State.exec_laneRequest h dir addr n link data⟩, ?_⟩
  intro s l g x data hg
  obtain ⟨hidle, hresponse, hothers⟩ := s.closed_lanes l g x data
  exact ⟨_, s.finish_eq l g x data, hidle, hresponse, hothers, s.closed_of_no_entry l g x data hg,
    s.closed_of_entry l g x data⟩

end Sys2Proof.Machine
end

section
/-! Requests at a lane port: areas, rights, refusals, and plain and plan requests presented (R20, R41 to R54, R192). -/

namespace Sys2Proof.Machine

/-! ## Areas (R41, R43) -/

theorem Extent.has_iff (e : Extent) (k : Nat) : e.has k = true ↔ e.base ≤ k ∧ k < e.base + e.length := by
  simp [Extent.has]

theorem Setup.ringBase_regional (su : Setup) (r : Fin 12) (p : Path) :
    su.ringBase (.regional r p) = su.regBase + (2 * r.val + pathCode p) * su.rs * 256 := by
  cases p <;> rfl

theorem mem_bothPaths (p : Path) : p ∈ [Path.a, Path.b] := by cases p <;> simp

/-- The areas that a setup brings into force, each with its place (R41). -/
theorem Setup.mem_areaMap_iff (su : Setup) (e : Extent) : e ∈ su.areaMap ↔
    (e = { area := .national, base := su.natBase, length := su.nr * 256, field := 0x000 } ∨
    (∃ r p, su.regions[r].enabled = true ∧ e.area = .regional r p ∧ e.field = 0x008 ∧
      e.base = su.regBase + (2 * r.val + pathCode p) * su.rs * 256 ∧ e.length = su.rs * 256) ∨
    (∃ f : Fin 32, su.feeds[f].enabled = true ∧ e.area = .view f ∧ e.field = 0x010 ∧
      e.base = su.viewBase + f.val * su.nr * 256 ∧ e.length = su.nr * 256) ∨
    e = { area := .report, base := su.reportBase, length := su.reportSize * 32, field := 0x018 }) := by
  have extent : ∀ area base length field, e = Extent.mk area base length field ↔
      e.area = area ∧ e.field = field ∧ e.base = base ∧ e.length = length := fun area base length field => by
    cases e
    simp only [Extent.mk.injEq]
    tauto
  simp only [Setup.areaMap, List.mem_append, List.mem_singleton, List.mem_flatMap, List.mem_map, List.mem_filter,
    List.mem_finRange, true_and, or_assoc, eq_comm (b := e), extent, Setup.ringBase_regional, Setup.viewBaseOf]
  refine or_congr Iff.rfl (or_congr ⟨?_, ?_⟩ (or_congr ⟨?_, ?_⟩ Iff.rfl))
  · rintro ⟨r, hr, p, -, h⟩
    exact ⟨r, p, hr, h⟩
  · rintro ⟨r, p, hr, h⟩
    exact ⟨r, hr, p, mem_bothPaths p, h⟩
  · rintro ⟨f, hf, h⟩
    exact ⟨f, hf, h⟩
  · rintro ⟨f, hf, h⟩
    exact ⟨f, hf, h⟩

/-- The area of an address among extents is that of one that holds it, or PLAIN. -/
theorem areaAmong_cases (extents : List Extent) (k : Nat) :
    (∃ e ∈ extents, e.has k = true ∧ areaAmong extents k = e.area) ∨
    ((∀ e ∈ extents, e.has k = false) ∧ areaAmong extents k = .plain) := by
  unfold areaAmong
  cases hfind : extents.find? (fun e => e.has k) with
  | none => exact .inr ⟨fun e he => by simpa using List.find?_eq_none.mp hfind e he, rfl⟩
  | some e => exact .inl ⟨e, List.mem_of_find?_eq_some hfind, by simpa using List.find?_some hfind, rfl⟩

theorem Area.isView_iff (a : Area) : a.isView = true ↔ ∃ f, a = .view f := by
  cases a <;> simp [Area.isView]

/-- Settles O16: outside the plan area an address is PLAIN in CONFIG, of the areas in force in RUNNING, of the apertures in
STOPPING. -/
theorem addressClassification : Obligations.AddressClassification := by
  refine ⟨Setup.mem_areaMap_iff, fun s k => ?_⟩
  have hplan : s.planExtent.has k = true ↔ s.planBase ≤ k ∧ k < s.planBase + 65536 := Extent.has_iff _ _
  rw [← hplan]
  refine ⟨(s.classify_plan k).mpr, fun hout => ⟨fun hrun => ?_, fun su hrun => ?_, fun su hrun => ?_⟩⟩
  · simp [State.classify, hout, hrun]
  · have hc : s.classify k = areaAmong su.areaMap k := by simp [State.classify, hout, hrun]
    rw [hc]
    exact areaAmong_cases _ _
  · have hc : s.classify k = areaAmong (su.areaMap.filter (·.area.isView)) k := by simp [State.classify, hout, hrun]
    rw [hc]
    rcases areaAmong_cases (su.areaMap.filter (·.area.isView)) k with ⟨e, he, hhas, harea⟩ | ⟨hnone, harea⟩
    · obtain ⟨hmem, hview⟩ := List.mem_filter.mp he
      obtain ⟨f, hf⟩ := e.area.isView_iff.mp hview
      exact .inl ⟨e, hmem, f, hf, hhas, harea.trans hf⟩
    · exact .inr ⟨fun e he f hf => hnone e (List.mem_filter.mpr ⟨he, e.area.isView_iff.mpr ⟨f, hf⟩⟩), harea⟩

/-! ## Rights (R46 to R49) -/

theorem controlMay_iff (area : Area) (dir : Direction) : controlMay area dir = true ↔ area = .plan ∨ area = .plain ∨
    (dir = .read ∧ (area = .report ∨ area = .national ∨ ∃ r p, area = .regional r p)) := by
  cases area <;> cases dir <;> simp [controlMay]

theorem Setup.ingestMay_iff (su : Setup) (l : Fin 8) (area : Area) (dir : Direction) :
    su.ingestMay l area dir = true ↔ area = .plain ∨
      (dir = .read ∧ (area = .national ∨ ∃ r p, area = .regional r p)) ∨
      (dir = .write ∧ ((area = .national ∧ su.natLane = l.val) ∨ ∃ r p, area = .regional r p ∧ su.pathLane r p = l.val)) := by
  cases area <;> cases dir <;> simp [Setup.ingestMay]

theorem Setup.emissionMay_iff (su : Setup) (l : Fin 8) (area : Area) (dir : Direction) :
    su.emissionMay l area dir = true ↔ area = .plain ∨ (dir = .read ∧ ∃ f, area = .view f ∧ su.feedLane f = some l) := by
  cases area <;> cases dir <;> simp [Setup.emissionMay]

section
variable {s : State} {su : Setup} {l : Fin 8}

theorem State.laneClass_eq {c : LaneClass} (hsu : s.setup = some su) (hc : su.classOf l = some c) : s.laneClass l = c := by
  simp [State.laneClass, hsu, hc]

theorem State.may_of_none (hsu : s.setup = some su) (hc : su.classOf l = some .none) (area : Area) (dir : Direction) :
    s.may l area dir = false := by
  simp [State.may, hsu, State.laneClass_eq hsu hc]

theorem State.may_of_control (hsu : s.setup = some su) (hc : su.classOf l = some .control) (area : Area) (dir : Direction) :
    s.may l area dir = controlMay area dir := by
  simp [State.may, hsu, State.laneClass_eq hsu hc]

theorem State.may_of_ingest (hsu : s.setup = some su) (hc : su.classOf l = some .ingest) (area : Area) (dir : Direction) :
    s.may l area dir = su.ingestMay l area dir := by
  simp [State.may, hsu, State.laneClass_eq hsu hc]

theorem State.may_of_emission (hsu : s.setup = some su) (hc : su.classOf l = some .emission) (area : Area) (dir : Direction) :
    s.may l area dir = su.emissionMay l area dir := by
  simp [State.may, hsu, State.laneClass_eq hsu hc]

end

/-! ## A request that the port takes -/

section
variable (dir : Direction) (addr : Addr) (n : Nat) (link : Bool) (data : List Byte)

theorem length_padTo (n : Nat) (data : List Byte) : (padTo n data).length = n := by simp [padTo]

theorem makeRequest_length : (makeRequest dir addr n link data).body.length = n := by
  cases dir with
  | read => rfl
  | write => exact length_padTo n data

theorem makeRequest_dir : (makeRequest dir addr n link data).body.dir = dir := by cases dir <;> rfl

theorem Request.formOk_iff (r : Request) : r.formOk = true ↔
    8 ≤ r.body.length ∧ r.body.length ≤ 256 ∧ r.body.length % 8 = 0 ∧ r.base % 8 = 0 ∧ r.base % 256 + r.body.length ≤ 256 := by
  simp [Request.formOk]

end

section
variable {s : State} {l : Fin 8} {r : Request}

/-- A request that fails the form check. -/
theorem State.takeRequest_of_form (hform : r.formOk = false) :
    s.takeRequest l r = (s.setLane (ext l) (.taken r)).refuse l r .form 0 := by
  simp [State.takeRequest, hform]

/-- A well-formed request of a lane that is off. -/
theorem State.takeRequest_of_laneOff (hform : r.formOk = true) (hclass : s.laneClass l = .none) :
    s.takeRequest l r = (s.setLane (ext l) (.taken r)).refuse l r .laneOff 0 := by
  have hclass' : (s.setLane (ext l) (.taken r)).laneClass l = .none := hclass
  simp [State.takeRequest, hform, hclass']

/-- A well-formed request to an area that the lane has no right to. -/
theorem State.takeRequest_of_rights (hform : r.formOk = true) (hclass : s.laneClass l ≠ .none)
    (hmay : s.may l (s.classify r.base) r.body.dir = false) :
    s.takeRequest l r = (s.setLane (ext l) (.taken r)).refuse l r .rights 0 := by
  have hclass' : (s.setLane (ext l) (.taken r)).laneClass l ≠ .none := hclass
  have hmay' : (s.setLane (ext l) (.taken r)).may l ((s.setLane (ext l) (.taken r)).classify r.base) r.body.dir = false := hmay
  simp [State.takeRequest, hform, hclass', hmay']

/-- A permitted request goes to the block that owns its area. -/
theorem State.takeRequest_of_permitted (hform : r.formOk = true) (hclass : s.laneClass l ≠ .none)
    (hmay : s.may l (s.classify r.base) r.body.dir = true) :
    s.takeRequest l r = (s.setLane (ext l) (.taken r)).route l r (s.classify r.base) := by
  have hclass' : (s.setLane (ext l) (.taken r)).laneClass l ≠ .none := hclass
  have hmay' : (s.setLane (ext l) (.taken r)).may l ((s.setLane (ext l) (.taken r)).classify r.base) r.body.dir = true := hmay
  simp [State.takeRequest, hform, hclass', hmay']
  rfl

end

/-- Settles O15: rights by lane class, and the first three refusals in their order. -/
theorem rightsAndRefusals : Obligations.RightsAndRefusals := by
  refine ⟨fun s l area dir => ⟨fun hconfig harea => ?_, fun su hsu => ⟨fun hc => ?_, fun hc => ?_, fun hc => ?_, fun hc => ?_⟩⟩,
    fun s l dir addr n link data => ⟨?_, fun htakes => ⟨fun hform => ?_, fun hform su hsu hc => ?_, fun hform hclass hmay => ?_⟩⟩⟩
  · have hnone := State.setup_eq_none_of_isConfig hconfig
    simp only [State.may, hnone, controlMay_iff]
    tauto
  · exact State.may_of_none hsu hc area dir
  · rw [State.may_of_control hsu hc, controlMay_iff]
  · rw [State.may_of_ingest hsu hc, Setup.ingestMay_iff]
  · rw [State.may_of_emission hsu hc, Setup.emissionMay_iff]
  · rw [Request.formOk_iff, makeRequest_length]
    exact Iff.rfl
  · exact ⟨_, htakes.exec .., by rw [State.takeRequest_of_form hform]; exact s.refusedAs_refuse ..⟩
  · refine ⟨_, htakes.exec .., ?_⟩
    rw [State.takeRequest_of_laneOff hform (State.laneClass_eq hsu hc)]
    exact s.refusedAs_refuse ..
  · refine ⟨_, htakes.exec .., ?_⟩
    rw [State.takeRequest_of_rights hform hclass (by rw [makeRequest_dir]; exact hmay)]
    exact s.refusedAs_refuse ..

/-! ## Plain requests (R50) -/

/-- The areas and directions that no block but the memory port owns. -/
theorem State.route_plain (s : State) (l : Fin 8) (r : Request) {area : Area}
    (h : area = .plain ∨ (r.body.dir = .read ∧ ∀ f, area ≠ .view f)) : s.route l r area = s.takePlain l r := by
  rcases h with rfl | ⟨hdir, hview⟩
  · rfl
  · unfold State.route
    split
    · next d _ hbody => simp [hbody, Body.dir] at hdir
    · next d _ _ hbody _ => simp [hbody, Body.dir] at hdir
    · next d _ _ hbody _ => simp [hbody, Body.dir] at hdir
    · next f n su _ _ => exact absurd rfl (hview f)
    · rfl

/-- Settles O17: the permitted request is presented as it came. -/
theorem plainRequestPresented : Obligations.PlainRequestPresented := by
  intro s l dir addr n link data r area htakes hform hmay hclass harea
  have hdir : r.body.dir = dir := makeRequest_dir ..
  have htaken : s.takeRequest l r = (s.setLane (ext l) (.taken r)).takePlain l r := by
    rw [State.takeRequest_of_permitted hform hclass (by rw [hdir]; exact hmay)]
    exact State.route_plain _ l r (by rw [hdir]; exact harea)
  refine ⟨_, htakes.exec .., ?_⟩
  rw [htaken]
  exact ⟨s.presentedAs_present l r _, s.sameBut_present l r _⟩

end Sys2Proof.Machine
end

section
/-! Plan writes taken, and the completions of plain accesses, plan writes and read index writes (R33, R34, R54 to R58, R192). -/

namespace Sys2Proof.Machine

/-! ## Lanes and ports compared from another state with the same Lane Arbiter -/

section
variable {s t u : State} {l : Fin 8}

theorem State.OthersKept.of_la (h : t.OthersKept u l) (e : t.la = s.la) : s.OthersKept u l where
  lanes := fun k hk => by
    have := h.lanes k hk
    unfold State.LaneOrGranted at this ⊢
    rwa [State.lane_congr e] at this
  kept := h.kept.trans (congrArg LaneArbiter.kept e)
  responses := fun k hk => (h.responses k hk).trans (congrArg (fun la : LaneArbiter => la.responses[k]) e)

theorem State.PresentedAs.of_la {a : Access} (h : t.PresentedAs u l a) (e : t.la = s.la) : s.PresentedAs u l a where
  lane := h.lane
  response := h.response.trans (congrArg (fun la : LaneArbiter => la.responses[l]) e)
  others := h.others.of_la e
  port := by rw [← e]; exact h.port

end

/-! ## Taking a plan write (R54, R192) -/

theorem readIndexValue_eq (off : Nat) (data : List Byte) :
    readIndexValue off data = bigEndian (fun i => data.getD i 0) (0x2100 - off) 4 := by
  simp only [readIndexValue, bigEndian, beNat, List.foldl_map, readIndexWord]

theorem State.planLocked_iff (s : State) (r : Request) : s.planLocked r = true ↔
    (s.isConfig = false ∧ s.covers r 0 4096 = true) ∨
      ∃ w, (s.window w).status.open? = true ∧ s.covers r (windowOffset w) 64 = true := by
  simp only [State.planLocked, State.coveredRecords, Bool.or_eq_true, Bool.and_eq_true, Bool.not_eq_true', List.any_eq_true,
    List.mem_filter, List.mem_finRange, true_and, and_comm]

theorem State.rangeRefused_iff (s : State) (su : Setup) (r : Request) :
    let v := bigEndian (fun i => r.body.data.getD i 0) (0x2100 - (r.base - s.planBase)) 4
    s.rangeRefused su r = true ↔ su.reportSize ≤ v ∨
      (s.rw.writeIndex + su.reportSize - s.rw.readIndex) % su.reportSize <
        (v + su.reportSize - s.rw.readIndex) % su.reportSize ∨ s.rw.readWrite ≠ .none := by
  simp only [State.rangeRefused, readIndexValue_eq, indexDistance, State.planOffset, Bool.or_eq_true, decide_eq_true_eq,
    bne_iff_ne, or_assoc]

section
variable {s : State} {l : Fin 8} {r : Request}

theorem State.takePlanWrite_of_locked (h : s.planLocked r = true) : s.takePlanWrite l r = s.refuse l r .locked 0 := by
  simp [State.takePlanWrite, h]

/-- A plan write that is no read index write outside CONFIG. -/
theorem State.takePlanWrite_of_plain (h : s.planLocked r = false) (hplain : s.isConfig = true ∨ s.covers r readIndexWord 8 = false) :
    s.takePlanWrite l r = (s.present (ext l) { req := r, kind := .plan false }).settlePort := by
  rcases hplain with hconfig | hcovers
  · simp [State.takePlanWrite, h, State.setup_eq_none_of_isConfig hconfig]
  · cases hsu : s.setup <;> simp [State.takePlanWrite, h, hsu, hcovers]

/-- A read index write, by the Report Writer's check. -/
theorem State.takePlanWrite_of_readIndex {su : Setup} (h : s.planLocked r = false) (hsu : s.setup = some su)
    (hcovers : s.covers r readIndexWord 8 = true) : s.takePlanWrite l r =
      if s.rangeRefused su r then s.refuse l r .range 0
      else (s.markReadWrite.present (ext l) { req := r, kind := .plan true }).settlePort := by
  simp [State.takePlanWrite, h, hsu, hcovers]

end

/-- Settles O18: the locks, then outside CONFIG the Report Writer's check of the read index word. -/
theorem planWriteTaken : Obligations.PlanWriteTaken := by
  intro s l addr n link data r c locked htakes hform harea hmay hclass
  have hexec : exec c s = .next ((s.setLane (ext l) (.taken r)).takePlanWrite l r) := by
    refine (htakes.exec ..).trans (congrArg Host.Outcome.next ?_)
    refine (State.takeRequest_of_permitted hform hclass (r := r) ?_).trans ?_
    · exact harea ▸ hmay
    · rw [show s.classify r.base = .plan from harea]
      rfl
  have hlocked : (s.setLane (ext l) (.taken r)).planLocked r = true ↔ locked := s.planLocked_iff r
  have hnot : ¬ locked → (s.setLane (ext l) (.taken r)).planLocked r = false := fun h => by
    rw [← Bool.not_eq_true]
    exact fun k => h (hlocked.mp k)
  rw [hexec]
  refine ⟨fun h => ⟨_, rfl, ?_⟩, fun h hplain => ⟨_, rfl, ?_⟩, fun h su hsu hcovers => ?_⟩
  · rw [State.takePlanWrite_of_locked (hlocked.mpr h)]
    exact s.refusedAs_refuse ..
  · rw [State.takePlanWrite_of_plain (hnot h) hplain]
    exact ⟨s.presentedAs_present l r _, s.sameBut_present l r _⟩
  · rw [State.takePlanWrite_of_readIndex (hnot h) hsu hcovers]
    have hrange := (s.setLane (ext l) (.taken r)).rangeRefused_iff su r
    refine ⟨fun hout => ⟨_, rfl, ?_⟩, fun hin => ⟨_, rfl, ?_⟩⟩
    · rw [if_pos (hrange.mpr hout)]
      exact s.refusedAs_refuse ..
    · rw [if_neg fun k => hin (hrange.mp k)]
      have hframe := s.markReadWrite.sameBut_present l r { req := r, kind := .plan true }
      refine ⟨(s.markReadWrite.presentedAs_present l r _).of_la rfl, hframe .rw (by simp), ?_⟩
      exact ((s.sameBut_rw _).mono (by simp)).trans (hframe.mono (by simp))

/-! ## Answers (R33, R34) -/

section
variable (s : State) (l : Fin 8) (a : Access) (x : MemAnswer)

/-- The reports of an answered access do not ask what it left in memory. -/
theorem State.answered_rw : (s.answered l a x).rw = s.faultReported l a x := by
  have hrest : (s.settleMemory a.req x).ps = s.ps ∧ (s.settleMemory a.req x).tb = s.tb ∧
      (s.settleMemory a.req x).rw = s.rw := by cases x <;> exact ⟨rfl, rfl, rfl⟩
  obtain ⟨hps, htb, hrw⟩ := hrest
  cases x with
  | okay => exact hrw
  | error => exact State.hand_rw_congr _ hps htb hrw

theorem State.answered_ps : (s.answered l a x).ps = s.ps := s.sameBut_answered l a x .ps (by simp)

theorem State.answered_ac : (s.answered l a x).ac = s.ac := s.sameBut_answered l a x .ac (by simp)

end

/-- Settles O19: a plain access is answered from memory, or with bytes 0xFF and MEMORY_FAULT. -/
theorem plainAccessCompletes : Obligations.PlainAccessCompletes := by
  intro s l g a x hprogress hkind
  refine ⟨s.answered l a x, s.readData a.req x, ?_, s.answered_memoryAfter l a x, s.answered_rw l a x, ?_, ?_, ?_,
    s.sameBut_answered l a x⟩
  · simp only [exec, execPlainAccessComplete, hprogress, hkind, State.completePlain]
  · rintro rfl n hread
    simp only [State.readData, hread]
  · rintro rfl n hread
    simp only [State.readData, hread, Body.blank]
  · intro d hwrite
    cases x <;> simp only [State.readData, hwrite, Body.blank]

/-- Settles O20: the copies follow memory, or with ERROR their words are unknown. -/
theorem planWriteCompletes : Obligations.PlanWriteCompletes := by
  intro s l g a
  refine ⟨fun h => ⟨_, s.planLanded_copyLanded l a, congrArg Host.Outcome.next (h.planAct _)⟩, fun hprogress hkind => ?_⟩
  have hexec : exec (.planWriteComplete .error) s =
      .next (((s.answered l a .error).copyUnsettled a.req).finish l g .error []) := by
    simp only [exec, execPlanWriteComplete, State.planFault, hprogress, hkind, State.failPlan]
  have hps : ((s.answered l a .error).copyUnsettled a.req).ps = s.ps.unsettled (s.planOffset a.req) a.req.body.length := by
    simp only [State.copyUnsettled, State.withPlan, s.answered_ps l a, State.planOffset, State.planBase, s.answered_ac l a]
  refine ⟨_, hexec, (s.answered_memoryAfter l a .error).of_mem (State.calm_copyUnsettled _ _).mem, ?_, fun w => ?_, ?_,
    ((s.sameBut_answered l a .error).mono (by simp)).trans ((State.sameBut_ps _ _).mono (by simp))⟩
  · simp only [State.copyUnsettled, State.withPlan, s.answered_rw]
  · rw [hps]
    exact s.ps.mem_unknown_unsettled _ _ w
  · rw [hps, PlanShadow.unsettled]

/-! ## Read index writes (R192) -/

/-- What a completed read index write does to the Report Writer. -/
theorem State.takeReadIndex_rw_of_taken (s : State) (off : Nat) (data : List Byte) (h : s.rw.readWrite = .outstanding) :
    (s.takeReadIndex off data .okay).rw = { s.rw with
      readIndex := readIndexValue off data
      overrun := s.rw.overrun && !(clearOverrunBit off data && !s.rw.discardSince)
      readWrite := .none } := by
  simp [State.takeReadIndex, h]

theorem State.takeReadIndex_rw_of_not_taken (s : State) (off : Nat) (data : List Byte) {x : MemAnswer}
    (h : x = .error ∨ s.rw.readWrite ≠ .outstanding) :
    (s.takeReadIndex off data x).rw = { s.rw with readWrite := .none } := by
  unfold State.takeReadIndex
  rw [if_neg]
  rintro ⟨rfl, hout⟩
  exact h.elim (by simp) fun k => k hout

theorem State.sameBut_takeReadIndex (s : State) (off : Nat) (data : List Byte) (x : MemAnswer) :
    s.SameBut (s.takeReadIndex off data x) [.rw] := by
  unfold State.takeReadIndex
  split <;> exact s.sameBut_rw _

/-- What no read index write changes of the Report Writer. -/
theorem State.takeReadIndex_keeps (s : State) (off : Nat) (data : List Byte) (x : MemAnswer) :
    (s.takeReadIndex off data x).rw.readWrite = .none ∧ (s.takeReadIndex off data x).rw.writeIndex = s.rw.writeIndex ∧
    (s.takeReadIndex off data x).rw.queue = s.rw.queue ∧ (s.takeReadIndex off data x).rw.hand = s.rw.hand := by
  unfold State.takeReadIndex
  split <;> exact ⟨rfl, rfl, rfl, rfl⟩

/-- MEMORY_FAULT moves neither index nor the record in hand. -/
theorem State.faultReported_keeps (s : State) (l : Fin 8) (a : Access) (x : MemAnswer) :
    (s.faultReported l a x).writeIndex = s.rw.writeIndex ∧ (s.faultReported l a x).hand = s.rw.hand ∧
    (s.faultReported l a x).readWrite = s.rw.readWrite := by
  cases x with
  | okay => exact ⟨rfl, rfl, rfl⟩
  | error =>
    have h := s.reported_hand (.memoryFault l a.req.body.dir a.req.addr)
    exact ⟨h.writeIndex, h.hand, h.readWrite⟩

/-- Settles O21: with OKAY the copy takes the index and the flag clears when it may; else the write is only no longer
outstanding. -/
theorem readIndexWriteCompletes : Obligations.ReadIndexWriteCompletes := by
  intro s l g a x hprogress hkind b offset
  have hrw := s.answered_rw l a x
  obtain ⟨hwrite, hhand, hreadWrite⟩ := s.faultReported_keeps l a x
  obtain ⟨k1, k2, k3, k4⟩ := (s.answered l a x).takeReadIndex_keeps (s.planOffset a.req) a.req.body.data x
  have hexec : exec (.readIndexWrite x) s = .next (((s.answered l a x).takeReadIndex (s.planOffset a.req)
      a.req.body.data x).finish l g x []) := by
    simp only [exec, execReadIndexWrite, hprogress, hkind, State.completeReadIndex]
  have hframe := (s.answered l a x).sameBut_takeReadIndex (s.planOffset a.req) a.req.body.data x
  refine ⟨_, hexec, (s.answered_memoryAfter l a x).of_mem (hframe .mem (by simp)), k1, ?_, ?_, ?_, ?_, ?_,
    (s.sameBut_answered l a x).trans (hframe.mono (by simp))⟩
  · rintro rfl hout
    have hrw' : (s.answered l a .okay).rw = s.rw := hrw
    rw [State.takeReadIndex_rw_of_taken _ _ _ (by rw [hrw']; exact hout), hrw']
    have hclears : ∀ flag clear since : Bool,
        (flag && !(clear && !since)) = true ↔ flag = true ∧ ¬ (clear = true ∧ since = false) := by decide
    exact ⟨readIndexValue_eq _ _, hclears _ _ _, rfl⟩
  · intro hnot
    rw [State.takeReadIndex_rw_of_not_taken _ _ _ (by rw [hrw, hreadWrite]; exact hnot), hrw]
  · rw [k2, hrw, hwrite]
  · rw [k3, hrw]
  · rw [k4, hrw, hhand]

end Sys2Proof.Machine
end

section
/-! Bytes: numbers spelt big-endian, the fields of cells (section 12.2), what a served cell carries (R10, R11, R160), and the
plan's words in memory and in the copies (R57). -/

namespace Sys2Proof.Machine

/-! ## Numbers spelt big-endian (R196) -/

theorem length_beBytes (n v : Nat) : (beBytes n v).length = n := by
  induction n with
  | zero => rfl
  | succ n ih => simp [beBytes, ih]

theorem foldl_beBytes (n v acc : Nat) :
    (beBytes n v).foldl (fun x b => x * 256 + b.toNat) acc = acc * 256 ^ n + v % 256 ^ n := by
  induction n generalizing acc with
  | zero => simp [beBytes, Nat.mod_one]
  | succ n ih =>
    have hsplit : v % 256 ^ (n + 1) = v / 256 ^ n % 256 * 256 ^ n + v % 256 ^ n := by
      rw [pow_succ, Nat.mod_mul, Nat.add_comm, Nat.mul_comm]
    simp only [beBytes, List.foldl_cons, ih, BitVec.toNat_ofNat, hsplit]
    ring

/-- The bytes of a number spell it, modulo what they can hold. -/
theorem beNat_beBytes (n v : Nat) : beNat (beBytes n v) = v % 256 ^ n := by
  simpa [beNat] using foldl_beBytes n v 0

theorem bigEndian_succ (f : Nat → Byte) (o n : Nat) : bigEndian f o (n + 1) = bigEndian f o n * 256 + (f (o + n)).toNat := by
  simp [bigEndian, List.range_succ]

theorem bigEndian_lt (f : Nat → Byte) (o n : Nat) : bigEndian f o n < 256 ^ n := by
  induction n with
  | zero => simp [bigEndian]
  | succ n ih =>
    have hbyte := (f (o + n)).isLt
    rw [bigEndian_succ, pow_succ]
    omega

/-- A field of a list of bytes is the number that the list's bytes spell there. -/
theorem bigEndian_getD (c : List Byte) {o n : Nat} (h : o + n ≤ c.length) :
    bigEndian (fun i => c.getD i 0) o n = beNat ((c.drop o).take n) := by
  have hmap : (c.drop o).take n = (List.range n).map (fun i => c.getD (o + i) 0) := by
    refine List.ext_getElem (by simp; omega) fun i hi _ => ?_
    have hlt : o + i < c.length := by simp at hi; omega
    simp [List.getElem?_eq_getElem hlt]
  rw [hmap, beNat, bigEndian, List.foldl_map]

/-- A part of a list, by the lengths of what stands before it and of itself. -/
theorem List.take_drop_between {α : Type} {before mid after : List α} {o n : Nat} (ho : before.length = o) (hn : mid.length = n) :
    ((before ++ (mid ++ after)).drop o).take n = mid := by
  rw [List.drop_left' ho, List.take_left' hn]

/-! ## Cells (section 12.2) -/

section
variable {c : List Byte}

theorem cellTag_toNat (h : c.length = 256) : (cellTag c).toNat = bigEndian (fun i => c.getD i 0) 2 2 % 4096 := by
  rw [bigEndian_getD c (by omega), cellTag, BitVec.toNat_ofNat]

theorem cellSsn_toNat (h : c.length = 256) : (cellSsn c).toNat = bigEndian (fun i => c.getD i 0) 6 4 := by
  have hlt := bigEndian_lt (fun i => c.getD i 0) 6 4
  rw [bigEndian_getD c (by omega)] at hlt ⊢
  rw [cellSsn, BitVec.toNat_ofNat, Nat.mod_eq_of_lt (by simpa using hlt)]

theorem cellCheckField_toNat (h : c.length = 256) : (cellCheckField c).toNat = bigEndian (fun i => c.getD i 0) 10 2 := by
  have hlt := bigEndian_lt (fun i => c.getD i 0) 10 2
  rw [bigEndian_getD c (by omega)] at hlt ⊢
  rw [cellCheckField, BitVec.toNat_ofNat, Nat.mod_eq_of_lt (by simpa using hlt)]

theorem length_cellPayload (h : c.length = 256) : (cellPayload c).length = 240 := by simp [cellPayload, h]

theorem cellPayload_getD {i : Nat} (hi : i < 240) : (cellPayload c).getD i 0 = c.getD (16 + i) 0 := by
  simp [cellPayload, hi]

end

/-! ## Null cells (R11) -/

section
variable (n : SSN)

theorem length_nullCell : (nullCell n).length = 256 := by
  simp only [nullCell, List.length_append, length_beBytes, nullPayload, List.length_replicate, List.length_cons, List.length_nil]

theorem cellSsn_nullCell : cellSsn (nullCell n) = n := by
  have hfield : ((nullCell n).drop 6).take 4 = beBytes 4 n.toNat := by
    simp only [nullCell, List.append_assoc]
    exact List.take_drop_between rfl (length_beBytes _ _)
  have hlt := n.isLt
  rw [cellSsn, hfield, beNat_beBytes, Nat.mod_eq_of_lt (by omega), BitVec.ofNat_toNat, BitVec.setWidth_eq]

theorem cellCheckField_nullCell : cellCheckField (nullCell n) = cellCheck nullPayload := by
  have hfield : ((nullCell n).drop 10).take 2 = beBytes 2 (cellCheck nullPayload).toNat := by
    rw [nullCell, List.append_assoc, List.append_assoc _ (beBytes 2 _)]
    exact List.take_drop_between (by simp [length_beBytes]) (length_beBytes _ _)
  have hlt := (cellCheck nullPayload).isLt
  rw [cellCheckField, hfield, beNat_beBytes, Nat.mod_eq_of_lt (by omega), BitVec.ofNat_toNat, BitVec.setWidth_eq]

theorem reserved_nullCell : ((nullCell n).drop 12).take 4 = [0, 0, 0, 0] := by
  rw [nullCell, List.append_assoc]
  exact List.take_drop_between (by simp [length_beBytes]) rfl

theorem cellPayload_nullCell : cellPayload (nullCell n) = nullPayload := by
  have hdrop : (nullCell n).drop 16 = nullPayload := List.drop_left' (by
    simp only [List.length_append, length_beBytes, List.length_cons, List.length_nil])
  rw [cellPayload, hdrop]
  exact List.take_of_length_le (List.length_replicate (n := 240)).le

end

/-! ## Patched cells (R10, R160) -/

theorem getLsbD_patchFlags (flags : Byte) (subst brk : Bool) (i : Nat) : (patchFlags flags subst brk).getLsbD i =
    if i = 5 then subst else if i = 6 then brk || flags.getLsbD 6 else flags.getLsbD i := by
  have hset : ∀ j, substMask.getLsbD j = decide (j = 5) ∧ breakMask.getLsbD j = decide (j = 6) := by
    intro j
    by_cases hj : j < 8
    · interval_cases j <;> decide
    · rw [BitVec.getLsbD_of_ge _ _ (by omega), BitVec.getLsbD_of_ge _ _ (by omega)]
      exact ⟨(decide_eq_false (by omega)).symm, (decide_eq_false (by omega)).symm⟩
  obtain ⟨hsubst, hbreak⟩ := hset i
  by_cases hi : i < 8
  · have hbit : (patchFlags flags subst brk).getLsbD i =
        ((if subst then flags.getLsbD i || decide (i = 5) else flags.getLsbD i && !decide (i = 5)) ||
          (brk && decide (i = 6))) := by
      cases subst <;> cases brk <;>
        simp only [patchFlags, BitVec.getLsbD_or, BitVec.getLsbD_and, BitVec.getLsbD_not, hsubst, hbreak, hi, if_true,
          Bool.false_eq_true, if_false, decide_true, Bool.true_and, Bool.false_and, Bool.or_false]
    rw [hbit]
    by_cases h5 : i = 5
    · subst h5
      cases subst <;> simp
    · by_cases h6 : i = 6
      · subst h6
        cases subst <;> simp [Bool.or_comm]
      · simp [h5, h6]
  · rw [if_neg (by omega), if_neg (by omega), BitVec.getLsbD_of_ge _ _ (by omega), BitVec.getLsbD_of_ge _ _ (by omega)]

section
variable (c : List Byte) (tag : Option Tag) (brk : Bool)

theorem length_patchCell : (patchCell c tag brk).length = c.length := by
  cases tag <;> simp [patchCell]

theorem patchCell_getD_of_ne {i : Nat} (h1 : i ≠ 1) (h2 : i ≠ 2) (h3 : i ≠ 3) : (patchCell c tag brk).getD i 0 = c.getD i 0 := by
  cases tag <;> simp [patchCell, Ne.symm h1, Ne.symm h2, Ne.symm h3]

theorem patchCell_getD_flags (h : c.length = 256) : (patchCell c tag brk).getD 1 0 = patchFlags (c.getD 1 0) tag.isSome brk := by
  cases tag <;> simp [patchCell, h]

theorem patchCell_getD_tag_of_none {i : Nat} (h1 : i ≠ 1) : (patchCell c none brk).getD i 0 = c.getD i 0 := by
  simp [patchCell, Ne.symm h1]

theorem patchCell_getD_tag_of_some (h : c.length = 256) (t : Tag) :
    (patchCell c (some t) brk).getD 2 0 = BitVec.ofNat 8 (t.toNat / 256) ∧
    (patchCell c (some t) brk).getD 3 0 = BitVec.ofNat 8 t.toNat := by
  simp [patchCell, h]

end

/-- Settles O8: where a cell carries its fields, and the bytes of null and patched cells. -/
theorem servedCellBytes : Obligations.ServedCellBytes := by
  refine ⟨fun c h => ⟨rfl, rfl, cellTag_toNat h, cellSsn_toNat h, cellCheckField_toNat h, length_cellPayload h,
    fun i hi => cellPayload_getD hi⟩, fun n => ⟨length_nullCell n, rfl, rfl, cellSsn_nullCell n, cellCheckField_nullCell n,
    reserved_nullCell n, cellPayload_nullCell n⟩, fun c tag brk h => ⟨(length_patchCell c tag brk).trans h,
    fun i => patchCell_getD_of_ne c tag brk, fun i => ?_, ?_, ?_⟩⟩
  · rw [patchCell_getD_flags c tag brk h]
    exact getLsbD_patchFlags _ _ _ i
  · rintro rfl
    exact ⟨patchCell_getD_tag_of_none c brk (by simp), patchCell_getD_tag_of_none c brk (by simp)⟩
  · rintro t rfl
    obtain ⟨hhigh, hlow⟩ := patchCell_getD_tag_of_some c brk h t
    have hlt := t.isLt
    rw [hhigh, hlow, BitVec.toNat_ofNat, BitVec.toNat_ofNat]
    omega

/-! ## The plan in memory and in the copies (R57) -/

theorem overlaps_eq_false_iff (a n b k : Nat) : overlaps a n b k = false ↔ b + k ≤ a ∨ a + n ≤ b ∨ n = 0 ∨ k = 0 := by
  simp only [overlaps, decide_eq_false_iff_not]
  omega

/-- Words that agree have every byte the same in memory and in the copies. -/
theorem State.WordAgrees.byte {s : State} {k : Nat} (h : s.WordAgrees (k / 8)) :
    readByte s.mem (s.planBase + k) = readByte s.ps.planCopy k := by
  have hword := h (k % 8) (by omega)
  rwa [Nat.div_add_mod] at hword

/-- Settles O60: the words of the setup block in force and of an open window's record are known, so they agree. -/
theorem lockedPlanBytesEqualCopies : Obligations.LockedPlanBytesEqualCopies := by
  intro s h
  refine ⟨fun hrun i hi => State.WordAgrees.byte (h.known _ (by omega) ?_), fun w hopen i hi => State.WordAgrees.byte (h.known _ ?_ ?_)⟩
  · have hconfig : s.isConfig = false := by
      unfold State.isConfig
      split
      · next hc => exact absurd hc hrun
      · rfl
    exact (h.setup hconfig).1 _ (by omega)
  · have hw := w.isLt
    simp only [windowOffset, windowTable]
    omega
  · intro hunknown
    have hapart := (h.windows w ((WindowStatus.open?_iff _).mpr hopen)).1 _ hunknown
    rw [overlaps_eq_false_iff] at hapart
    omega

/-! ## Handing a report (R188) -/

theorem Report.queuedInConfig_iff (r : Report) : r.queuedInConfig = true ↔ (∃ a b c, r = .setupResult a b c) ∨
    (∃ a b c d e, r = .commandResult a b c d e) ∨ (∃ a b c d e, r = .windowState a b c d e) := by
  cases r <;> simp [Report.queuedInConfig]

/-- Settles O52: what becomes of a report in each run state, with room in the queue and without. -/
theorem reportHanded : Obligations.ReportHanded := by
  intro s r queued configKind
  have hkind : r.queuedInConfig = true ↔ configKind := r.queuedInConfig_iff
  have hcap : Config.queueCapacity = 16 := rfl
  refine ⟨fun hc hd hlen => ?_, fun hc hd hlen => ?_, fun hc hd => ?_, fun hc hk hlen => ?_, fun hc hk hlen => ?_,
    fun hc hk => ?_, s.sameBut_hand r⟩
  · simp [queued, State.hand, hc, hd, hcap, hlen, State.enqueue]
  · simp [State.hand, hc, hd, hcap, Nat.not_lt.mpr hlen, State.loseRecord]
  · simp [State.hand, hc, hd]
  · simp [queued, State.hand, hc, hkind.mpr hk, hcap, hlen, State.enqueue]
  · simp [State.hand, hc, hcap, Nat.not_lt.mpr hlen]
  · have hno : r.queuedInConfig = false := by
      rw [← Bool.not_eq_true]
      exact fun k => hk (hkind.mp k)
    simp [State.hand, hc, hno]

end Sys2Proof.Machine
end

section
/-! Runs appended to a log, with their reports, and the cell served for an SSN (R79, R123, R124, R140, R141, R143, R144). -/

namespace Sys2Proof.Machine

/-! ## Appending a run -/

section
variable {s : State} {z : Fin 24} {tl : Timeline} (su : Setup) (m : SSN) (source : RunSource) (w : Fin 64) (cause : RunCause)

/-- The log that takes the run. -/
def Timeline.appending (t : Timeline) (run : Run) : Timeline := { t with log := t.log ++ [run], logFull := false }

/-- A log with room takes the run, with its SWITCH report. -/
theorem State.appendRun_of_room (ht : (s.zone z).timeline = some tl) (hroom : tl.log.length < 32) :
    s.appendRun su z m source w cause =
      ((s.updZone z (fun x => x.withTimeline (tl.appending (newRun (s.windowRec w) w m source cause)))).hand
        (.switch z (su.zoneRegionByte z) (some w) m source tl.openSource cause (tl.log.length + 1)), true) := by
  have hcap : ¬ Config.logCapacity ≤ tl.log.length := Nat.not_le.mpr hroom
  simp only [State.appendRun, ht, hcap, if_false]
  rfl

/-- A full log leaves the run out, with LOG_FULL the first time. -/
theorem State.appendRun_of_full (ht : (s.zone z).timeline = some tl) (hfull : 32 ≤ tl.log.length) :
    s.appendRun su z m source w cause =
      (if tl.logFull then s
        else (s.updZone z (fun x => x.withTimeline { tl with logFull := true })).hand
          (.logFull z m source cause tl.openSource tl.trail), false) := by
  have hcap : Config.logCapacity ≤ tl.log.length := hfull
  simp only [State.appendRun, ht, hcap, if_true]
  split <;> rfl

theorem State.sameBut_updZone (s : State) (z : Fin 24) (f : Zone → Zone) : s.SameBut (s.updZone z f) [.zs] := s.sameBut_zs _

theorem State.sameBut_appendRun (s : State) (z : Fin 24) :
    s.SameBut (s.appendRun su z m source w cause).1 [.zs, .rw] := (s.zoned_appendRun su z m source w cause).sameBut

theorem State.window_appendRun (s : State) (z : Fin 24) (v : Fin 64) :
    (s.appendRun su z m source w cause).1.window v = s.window v := by
  unfold State.appendRun
  repeat' split
  all_goals first | rfl | exact State.window_hand ..

theorem State.zone_appendRun_of_ne (s : State) {z k : Fin 24} (h : k ≠ z) :
    (s.appendRun su z m source w cause).1.zone k = s.zone k := (s.slotted_appendRun su z m source w cause).zones k h

/-- An append changes a zone's timeline alone. -/
theorem State.zone_appendRun (s : State) (z : Fin 24) : (s.appendRun su z m source w cause).1.zone z =
    { s.zone z with timeline := ((s.appendRun su z m source w cause).1.zone z).timeline } := by
  unfold State.appendRun
  repeat' split
  all_goals first | rfl | (rw [State.zone_hand, State.zone_updZone]; rfl)

/-- What an append that is made leaves in the zone's timeline. -/
theorem State.timeline_appendRun_of_room (ht : (s.zone z).timeline = some tl) (hroom : tl.log.length < 32) :
    ((s.appendRun su z m source w cause).1.zone z).timeline =
      some (tl.appending (newRun (s.windowRec w) w m source cause)) := by
  rw [State.appendRun_of_room su m source w cause ht hroom, State.zone_hand, State.zone_updZone]
  rfl

theorem State.rw_appendRun_of_room (ht : (s.zone z).timeline = some tl) (hroom : tl.log.length < 32) :
    (s.appendRun su z m source w cause).1.rw = (s.hand (.switch z (su.zoneRegionByte z) (some w) m source tl.openSource
      cause (tl.log.length + 1))).rw := by
  rw [State.appendRun_of_room su m source w cause ht hroom]
  exact State.hand_rw_congr _ rfl rfl rfl

/-- What a full log leaves of the zone's timeline. -/
theorem State.timeline_appendRun_of_full (ht : (s.zone z).timeline = some tl) (hfull : 32 ≤ tl.log.length) :
    ((s.appendRun su z m source w cause).1.zone z).timeline = some { tl with logFull := true } := by
  rw [State.appendRun_of_full su m source w cause ht hfull]
  split
  · next h =>
    obtain ⟨horizon, trail, log, logFull⟩ := tl
    simp only at h
    rw [ht, h]
  · rw [State.zone_hand, State.zone_updZone]
    rfl

theorem State.rw_appendRun_of_full (ht : (s.zone z).timeline = some tl) (hfull : 32 ≤ tl.log.length) :
    (s.appendRun su z m source w cause).1.rw = if tl.logFull then s.rw
      else (s.hand (.logFull z m source cause tl.openSource tl.trail)).rw := by
  rw [State.appendRun_of_full su m source w cause ht hfull]
  split
  · rfl
  · exact State.hand_rw_congr _ rfl rfl rfl

end

/-- Settles O46: a run is appended where the log has room; else LOG_FULL is handed once per episode. -/
theorem appendOrFullLog : Obligations.AppendOrFullLog := by
  intro s su z m source w cause tl ht a
  refine ⟨fun hroom => ?_, fun hfull hfirst => ?_, fun hfull hagain => ?_,
    fun k hk => s.zone_appendRun_of_ne su m source w cause hk, s.window_appendRun su m source w cause z, ?_,
    s.sameBut_appendRun su m source w cause z⟩
  · refine ⟨by simp only [a, State.appendRun_of_room su m source w cause ht hroom], State.rw_appendRun_of_room su m source w cause
      ht hroom, _, State.timeline_appendRun_of_room su m source w cause ht hroom, rfl, rfl, rfl, _, rfl, rfl, rfl, ?_, ?_, ?_⟩
    · exact beq_iff_eq
    · simp
    · simp
  · refine ⟨by simp only [a, State.appendRun_of_full su m source w cause ht hfull],
      State.timeline_appendRun_of_full su m source w cause ht hfull, ?_⟩
    rw [State.rw_appendRun_of_full su m source w cause ht hfull, hfirst]
    rfl
  · simp only [a, State.appendRun_of_full su m source w cause ht hfull, hagain, if_true]
  · rw [State.zone_appendRun]

/-! ## Usable entries and set tags (R79, R133) -/

section
variable {s : State} {su : Setup} {z : Fin 24} {n : SSN}

theorem State.usableEntry_eq_some_iff {ring : RingId} {e : Entry} : s.usableEntry su ring z n = some e ↔
    s.entry ring (su.slotOf ring n) = some e ∧ e.state = .good ∧ e.ssn = n ∧ e.late.getLsbD z.val = false := by
  simp only [State.usableEntry, Option.filter_eq_some_iff, Entry.usable, Bool.and_eq_true, beq_iff_eq, Bool.not_eq_true',
    inZoneSet, and_assoc]

theorem State.serves_iff {r : Fin 12} {p : Path} {want : Tag} : s.serves su z n r p want = true ↔
    ∃ e, s.usableEntry su (.regional r p) z n = some e ∧ e.tag = want := by
  simp only [State.serves, State.servesEntry, Option.isSome_iff_exists, Option.filter_eq_some_iff, beq_iff_eq]

end

/-! ## Served content -/

section
variable {s : State} {su : Setup} {z : Fin 24} {run : Run} {n : SSN} {e : Entry}

theorem State.servedContent_of_unusable (h : s.usableEntry su .national z n = none) : s.servedContent su z run n = .null := by
  simp [State.servedContent, h]

theorem State.servedContent_of_attach (h : s.usableEntry su .national z n = some e) (hw : run.window = none) :
    s.servedContent su z run n = .national e.tag := by
  simp [State.servedContent, h, hw]

theorem State.servedContent_of_no_set_tag {rw : RunWindow} (h : s.usableEntry su .national z n = some e)
    (hw : run.window = some rw) (hpair : pairedTag rw.pairs e.tag = none) : s.servedContent su z run n = .national e.tag := by
  simp [State.servedContent, h, hw, hpair]

/-- At a set-tag slot the run's source decides (R143). -/
theorem State.servedContent_of_set_tag {rw : RunWindow} {want : Tag} (h : s.usableEntry su .national z n = some e)
    (hw : run.window = some rw) (hpair : pairedTag rw.pairs e.tag = some want) : s.servedContent su z run n =
      match run.source with
      | .national => .national e.tag
      | .conceal => if rw.concealNational then .national e.tag else .null
      | .regional p =>
        match su.zoneRegion z with
        | some r => if s.serves su z n r p want then .regional p e.tag else .null
        | none => .null := by
  simp only [State.servedContent, h, hw, hpair] <;> rfl

end

/-- The run that covers an SSN, as a zone answers for it (R144). -/
theorem State.queryRun_iff {s : State} {z : Fin 24} {n : SSN} {t : Timeline} (ht : (s.zone z).timeline = some t) (run : Run) :
    s.queryRun z n = some run ↔ between t.trail n t.horizon = true ∧ Covers t.log n run := by
  simp only [State.queryRun, ht, Timeline.query, Timeline.covering, ← coveringRun_iff]
  split
  · next h => simp [h]
  · next h => simp [h]

/-- Settles O47: the run that covers an SSN, a usable entry, and the cell they make. -/
theorem servedContentRule : Obligations.ServedContentRule := by
  refine ⟨fun s z n => ⟨fun h => by simp [State.queryRun, h], fun t ht => State.queryRun_iff ht⟩,
    ?_, fun s su z run n => ⟨State.servedContent_of_unusable, fun e he =>
      ⟨State.servedContent_of_attach he, fun rw hw => ⟨State.servedContent_of_no_set_tag he hw, fun want hpair => ?_⟩⟩⟩⟩
  · intro s su ring z n e slots
    have hslots : su.slots ring = slots := by cases ring <;> rfl
    rw [State.usableEntry_eq_some_iff, Setup.slotOf, hslots]
  · have hserved := State.servedContent_of_set_tag he hw hpair
    refine ⟨fun hs => by simp only [hserved, hs], fun hs => by simp only [hserved, hs], fun p r hs hr => ⟨fun hserves => ?_, fun hserves => ?_⟩⟩
    · simp only [hserved, hs, hr, State.serves_iff.mpr hserves, if_true]
    · have hno : s.serves su z n r p want = false := by
        rw [← Bool.not_eq_true]
        exact fun k => hserves (State.serves_iff.mp k)
      simp only [hserved, hs, hr, hno, Bool.false_eq_true, if_false]

end Sys2Proof.Machine
end

section
/-! Commands taken at the completion of their plan write: results, CANCEL, HOLD and RELEASE, and the HOLD_REQ line (R67 to R70,
R114 to R119). -/

namespace Sys2Proof.Machine

/-! ## A plan write that has landed -/

/-- A plan write answered OKAY, its copies brought up to date: the state that its action starts from. -/
def State.planDone (s : State) (l : Fin 8) (a : Access) : State := (s.answered l a .okay).copyLanded a.req

section
variable {s : State} {l : Fin 8} {g : Grant} {a : Access} {row : PlanRow}

theorem State.planLanded_planDone (s : State) (l : Fin 8) (a : Access) : s.PlanLanded (s.planDone l a) a.req :=
  s.planLanded_copyLanded l a

theorem State.PlanLanded.run_eq {u : State} {r : Request} (h : s.PlanLanded u r) : u.ps.run = s.ps.run := by rw [h.run]

theorem State.run_planDone (s : State) (l : Fin 8) (a : Access) : (s.planDone l a).ps.run = s.ps.run :=
  (s.planLanded_planDone l a).run_eq

theorem State.isRunning_planDone (s : State) (l : Fin 8) (a : Access) : (s.planDone l a).isRunning = s.isRunning := by
  simp only [State.isRunning, State.run_planDone]

theorem State.isConfig_planDone (s : State) (l : Fin 8) (a : Access) : (s.planDone l a).isConfig = s.isConfig := by
  simp only [State.isConfig, State.run_planDone]

/-- What a completed plan write of the row does, from the landed write on. -/
theorem State.Completes.act (h : s.Completes l g a row) (act : Fin 8 → Request → State → State) :
    s.planAct row act = (act l a.req (s.planDone l a)).finish l g .okay [] := h.planAct act

theorem State.inRunning_of_running {su : Setup} (h : s.ps.run = .running su) (act : Setup → CommandRec → State) :
    s.inRunning act = act su s.command := by
  simp [State.inRunning, h]

theorem State.inRunning_of_not_running (h : s.isRunning = false) (act : Setup → CommandRec → State) :
    s.inRunning act = s.handResult s.command .wrongState := by
  unfold State.inRunning
  split
  · next hrun => simp [State.isRunning, hrun] at h
  · rfl

/-- A command of RUNNING that its run state allows. -/
theorem State.Completes.act_inRunning {su : Setup} (h : s.Completes l g a row) (hrun : s.ps.run = .running su)
    (act : State → Setup → CommandRec → State) :
    s.planAct row (fun _ _ s => s.inRunning (act s)) =
      (act (s.planDone l a) su (s.planDone l a).command).finish l g .okay [] := by
  rw [h.act, State.inRunning_of_running ((s.run_planDone l a).trans hrun)]

end

/-! ## The command record and its result (R67, section 12.6) -/

/-- A field of the copies that its bit vector holds. -/
theorem toNat_ofNat_fieldAt (m : Memory) (a n w : Nat) (h : 256 ^ n ≤ 2 ^ w) :
    (BitVec.ofNat w (fieldAt m a n)).toNat = bigEndian (readByte m) a n := by
  rw [bigEndian_readBytes, BitVec.toNat_ofNat, Nat.mod_eq_of_lt (Nat.lt_of_lt_of_le (fieldAt_lt m a n) h)]

theorem State.command_laidOut (s : State) : s.command.LaidOut s.ps.planCopy :=
  ⟨(bigEndian_readBytes _ _ _).symm, toNat_ofNat_fieldAt _ _ 2 16 (by decide), toNat_ofNat_fieldAt _ _ 4 32 (by decide),
    toNat_ofNat_fieldAt _ _ 4 32 (by decide)⟩

/-- Settles O27: the result of a code that is no command, and of a command in a run state that does not allow it. -/
theorem commandTurnedAway : Obligations.CommandTurnedAway := by
  refine ⟨State.command_laidOut, ?_⟩
  intro s l g a turned
  refine ⟨fun h => ?_, fun hconfig h => ?_, fun n c hc hrun h => ?_⟩
  · exact ⟨_, s.planLanded_planDone l a, congrArg Host.Outcome.next (h.act _)⟩
  · refine ⟨_, s.planLanded_planDone l a, congrArg Host.Outcome.next ((h.act _).trans (congrArg (State.finish · l g .okay []) ?_))⟩
    show State.doCommit _ = State.handResult _ _ _
    unfold State.doCommit
    split
    · next hrun => simp [State.isConfig, ← State.run_planDone s l a, hrun] at hconfig
    · rfl
  · have hturned : ∀ act : State → Setup → CommandRec → State, ∃ u, s.PlanLanded u a.req ∧
        s.planAct (.command n) (fun _ _ s => s.inRunning (act s)) =
          (u.handResult u.command .wrongState).finish l g .okay [] := fun act => by
      refine ⟨_, s.planLanded_planDone l a, ?_⟩
      rw [h.act, State.inRunning_of_not_running ((s.isRunning_planDone l a).trans hrun)]
    simp only [List.mem_cons, Prod.mk.injEq, List.not_mem_nil, or_false] at hc
    rcases hc with ⟨rfl, rfl⟩ | ⟨rfl, rfl⟩ | ⟨rfl, rfl⟩ | ⟨rfl, rfl⟩ | ⟨rfl, rfl⟩ | ⟨rfl, rfl⟩
    · exact (hturned State.doStop).imp fun u hu => ⟨hu.1, congrArg Host.Outcome.next hu.2⟩
    · exact (hturned State.doCancel).imp fun u hu => ⟨hu.1, congrArg Host.Outcome.next hu.2⟩
    · exact (hturned State.doHold).imp fun u hu => ⟨hu.1, congrArg Host.Outcome.next hu.2⟩
    · exact (hturned State.doRelease).imp fun u hu => ⟨hu.1, congrArg Host.Outcome.next hu.2⟩
    · exact (hturned State.doAttach).imp fun u hu => ⟨hu.1, congrArg Host.Outcome.next hu.2⟩
    · exact (hturned State.doDetach).imp fun u hu => ⟨hu.1, congrArg Host.Outcome.next hu.2⟩

end Sys2Proof.Machine
end

section
/-! Holds taken on zones: what each zone and window is afterwards, and the commands and the line that take them (R100, R114 to
R119). -/

namespace Sys2Proof.Machine

/-! ## Windows that settle -/

theorem Window.eq_of {x y : Window} (hstatus : x.status = y.status) (houtcomes : ∀ z : Fin 24, x.outcomes[z] = y.outcomes[z]) :
    x = y := by
  cases x
  cases y
  simp only [Window.mk.injEq]
  exact ⟨hstatus, Vector.ext fun i hi => houtcomes ⟨i, hi⟩⟩


section
variable (s : State) (su : Setup) (w : Fin 64)

theorem State.zone_settleWindow (z : Fin 24) : (s.settleWindow su w).zone z = s.zone z := by
  unfold State.settleWindow
  dsimp only
  repeat' split
  all_goals first | rfl | exact State.zone_hand ..

theorem State.ps_settleWindow : (s.settleWindow su w).ps = s.ps := (s.zoned_settleWindow su w).scheduled.ps

theorem State.windowZones_congr {s t : State} (h : t.ps = s.ps) (su : Setup) (w : Fin 64) :
    t.windowZones su w = s.windowZones su w := by
  unfold State.windowZones State.windowRec
  rw [h]

/-- The state a window moves to, by its state, its zones' outcomes and the zones that refer to it (R99). -/
theorem State.status_settleWindow : ((s.settleWindow su w).window w).status =
    if (s.window w).status.open? then
      if ∀ z ∈ s.windowZones su w, (s.window w).outcomes[z].isSome = true then .closed
      else if (s.window w).status = .pending ∧ ∃ z ∈ s.windowZones su w,
          (s.window w).outcomes[z].isSome = true ∨ (s.zone z).status.window? = some w then .live
      else (s.window w).status
    else (s.window w).status := by
  unfold State.settleWindow
  simp only [List.all_eq_true, Bool.and_eq_true, List.any_eq_true, beq_iff_eq, Bool.or_eq_true]
  repeat' split
  all_goals first
    | rfl
    | (rw [State.handWindowState, State.window_hand, State.window_setWindow])

/-- Windows settled one after the other: each as it stood before the first (R101). -/
theorem State.foldl_settleWindow (ws : List (Fin 64)) (hn : ws.Nodup) :
    let t := ws.foldl (fun s w => s.settleWindow su w) s
    (∀ z, t.zone z = s.zone z) ∧ t.ps = s.ps ∧
    (∀ (v : Fin 64) (z : Fin 24), (t.window v).outcomes[z] = (s.window v).outcomes[z]) ∧
    (∀ v, v ∉ ws → t.window v = s.window v) ∧
    ∀ v ∈ ws, (t.window v).status = ((s.settleWindow su v).window v).status := by
  induction ws generalizing s with
  | nil => exact ⟨fun _ => rfl, rfl, fun _ _ => rfl, fun _ _ => rfl, fun v hv => absurd hv (by simp)⟩
  | cons w ws ih =>
    obtain ⟨hw, hn⟩ := List.nodup_cons.mp hn
    obtain ⟨hzone, hps, hout, hrest, hstatus⟩ := ih (s.settleWindow su w) hn
    obtain ⟨-, hothers, houtw⟩ := s.settleWindow_keeps su w
    refine ⟨fun z => (hzone z).trans (s.zone_settleWindow su w z), hps.trans (s.ps_settleWindow su w), fun v z => ?_,
      fun v hv => ?_, fun v hv => ?_⟩
    · refine (hout v z).trans ?_
      by_cases hvw : v = w
      · subst hvw
        exact houtw z
      · exact congrArg (fun x : Window => x.outcomes[z]) (hothers v hvw)
    · simp only [List.mem_cons, not_or] at hv
      exact (hrest v hv.2).trans (hothers v hv.1)
    · by_cases hvw : v = w
      · subst hvw
        exact congrArg Window.status (hrest v hw)
      · have hv := (List.mem_cons.mp hv).resolve_left hvw
        rw [List.foldl_cons, hstatus v hv, State.status_settleWindow, State.status_settleWindow,
          State.windowZones_congr (s.ps_settleWindow su w), hothers v hvw]
        simp only [s.zone_settleWindow su w]

end

/-! ## A hold on one zone (R116) -/

/-- A zone on which a hold has been taken; `free` says that it holds no outcome yet for the window it is ARMED for. -/
def Zone.holdTaken (kind : HoldKind) (free : Bool) (x : Zone) : Zone :=
  match x.status with
  | .national => x
  | .armed _ => if free then x.toNational else x
  | .regional w => { x with status := .returning w .hold (kind == .hard) }
  | .returning w _ hard => if kind == .hard && !hard then { x with status := .returning w .hold true } else x

/-- Zone `z` is ARMED for a window that holds no outcome for it. -/
def State.freeToHold (s : State) (z : Fin 24) : Bool :=
  match (s.zone z).status with
  | .armed w => (s.window w).outcomes[z].isNone
  | _ => false

section
variable (s : State) (kind : HoldKind) (z : Fin 24)

theorem State.zone_giveOutcome (w : Fin 64) (o : ZoneOutcome) (n : SSN) (k : Fin 24) : (s.giveOutcome w z o n).zone k =
    if k = z ∧ (s.window w).outcomes[z] = none ∧ (s.zone z).status.window? = some w then (s.zone z).toNational
    else s.zone k := by
  have h := s.givenOutcome_giveOutcome w z o n
  cases hout : (s.window w).outcomes[z] with
  | some x =>
    rw [h.1 (by simp [hout])]
    simp
  | none =>
    have hmade := h.2 hout
    by_cases hk : k = z
    · subst hk
      by_cases hw : (s.zone k).status.window? = some w
      · rw [hmade.refers hw, if_pos ⟨rfl, rfl, hw⟩]
        rfl
      · rw [hmade.apart hw, if_neg fun c => hw c.2.2]
    · rw [hmade.zones k hk, if_neg fun c => hk c.1]

/-- A hold on one zone changes that zone, and the outcome its window holds for it. -/
theorem State.takeHold_spec :
    (s.takeHold kind z).zone z = (s.zone z).holdTaken kind (s.freeToHold z) ∧
    (∀ k, k ≠ z → (s.takeHold kind z).zone k = s.zone k) ∧
    (∀ v, ((s.takeHold kind z).window v).status = (s.window v).status) ∧
    ∀ (v : Fin 64) (k : Fin 24), ((s.takeHold kind z).window v).outcomes[k] =
      if k = z ∧ (s.zone z).status = .armed v ∧ (s.window v).outcomes[k] = none then some .heldOff
      else (s.window v).outcomes[k] := by
  unfold State.takeHold Zone.holdTaken State.freeToHold
  cases hst : (s.zone z).status with
  | national => exact ⟨rfl, fun _ _ => rfl, fun _ => rfl, fun v k => by simp⟩
  | armed w =>
    refine ⟨?_, fun k hk => ?_, fun v => ?_, fun v k => ?_⟩
    · rw [State.zone_giveOutcome]
      simp [hst, ZoneStatus.window?]
    · rw [State.zone_giveOutcome, if_neg fun c => hk c.1]
    · rw [State.window_giveOutcome]
      split
      · next h => rw [h.1]
      · rfl
    · rw [State.outcomes_giveOutcome]
      simp only [ZoneStatus.armed.injEq, eq_comm (a := w)]
      congr 1
      exact propext ⟨fun ⟨a, b, c⟩ => ⟨b, a, c⟩, fun ⟨a, b, c⟩ => ⟨b, a, c⟩⟩
  | regional w => exact ⟨State.zone_updZone .., fun k hk => State.zone_updZone_ne _ _ _ _ hk, fun _ => rfl,
      fun v k => (if_neg fun c => by cases c.2.1).symm⟩
  | returning w c hard =>
    dsimp only
    split
    · exact ⟨State.zone_updZone .., fun k hk => State.zone_updZone_ne _ _ _ _ hk, fun _ => rfl,
        fun v k => (if_neg fun c => by cases c.2.1).symm⟩
    · exact ⟨rfl, fun _ _ => rfl, fun _ => rfl, fun v k => by simp⟩

/-- A hold on several zones changes each as it would on that zone alone. -/
theorem State.foldl_takeHold (zones : List (Fin 24)) (hn : zones.Nodup) :
    let t := zones.foldl (fun s z => s.takeHold kind z) s
    (∀ k ∈ zones, t.zone k = (s.zone k).holdTaken kind (s.freeToHold k)) ∧
    (∀ k, k ∉ zones → t.zone k = s.zone k) ∧
    (∀ v, (t.window v).status = (s.window v).status) ∧
    ∀ (v : Fin 64) (k : Fin 24), (t.window v).outcomes[k] =
      if k ∈ zones ∧ (s.zone k).status = .armed v ∧ (s.window v).outcomes[k] = none then some .heldOff
      else (s.window v).outcomes[k] := by
  induction zones generalizing s with
  | nil => exact ⟨fun k hk => absurd hk (by simp), fun _ _ => rfl, fun _ => rfl, fun v k => by simp⟩
  | cons z zones ih =>
    obtain ⟨hz, hn⟩ := List.nodup_cons.mp hn
    obtain ⟨hin, hout, hstatus, houtcomes⟩ := ih (s.takeHold kind z) hn
    obtain ⟨hself, hothers, hstatus', houtcomes'⟩ := s.takeHold_spec kind z
    have hfree : ∀ k, k ≠ z → (s.takeHold kind z).freeToHold k = s.freeToHold k := fun k hk => by
      unfold State.freeToHold
      rw [hothers k hk]
      cases (s.zone k).status with
      | armed w => exact congrArg Option.isNone ((houtcomes' w k).trans (if_neg fun c => hk c.1))
      | _ => rfl
    refine ⟨fun k hk => ?_, fun k hk => ?_, fun v => (hstatus v).trans (hstatus' v), fun v k => ?_⟩
    · rw [List.foldl_cons]
      by_cases hkz : k = z
      · subst hkz
        rw [hout k hz, hself]
      · rw [hin k ((List.mem_cons.mp hk).resolve_left hkz), hothers k hkz, hfree k hkz]
    · simp only [List.mem_cons, not_or] at hk
      rw [List.foldl_cons, hout k hk.2, hothers k hk.1]
    · rw [List.foldl_cons, houtcomes v k, houtcomes' v k]
      by_cases hkz : k = z
      · subst hkz
        simp [hz]
      · simp [hkz, hothers k hkz]

end

/-! ## Holds on several zones and the windows they close (R116) -/

theorem State.mem_armedWindows (s : State) (zones : List (Fin 24)) (w : Fin 64) :
    w ∈ s.armedWindows zones ↔ ∃ z ∈ zones, (s.zone z).status = .armed w := by
  simp [State.armedWindows]

section
variable (s : State) (su : Setup) (kind : HoldKind) (zones : List (Fin 24)) (hn : zones.Nodup)
include hn

/-- What holds taken on several zones leave of zones and windows. -/
theorem State.takeHolds_spec :
    let t := s.takeHolds su kind zones
    (∀ k ∈ zones, t.zone k = (s.zone k).holdTaken kind (s.freeToHold k)) ∧
    (∀ k, k ∉ zones → t.zone k = s.zone k) ∧
    (∀ (v : Fin 64) (k : Fin 24), (t.window v).outcomes[k] =
      if k ∈ zones ∧ (s.zone k).status = .armed v ∧ (s.window v).outcomes[k] = none then some .heldOff
      else (s.window v).outcomes[k]) ∧
    (∀ w, (∀ z ∈ zones, (s.zone z).status ≠ .armed w) → t.window w = s.window w) ∧
    ∀ z w, z ∈ zones → (s.zone z).status = .armed w → z ∈ s.windowZones su w → (s.window w).outcomes[z] = none →
      (s.window w).status = .pending ∨ (s.window w).status = .live →
      (t.window w).status =
        if ∀ k ∈ s.windowZones su w, (t.window w).outcomes[k].isSome = true then .closed else .live := by
  intro t
  obtain ⟨hin, hout, hstatus, houtcomes⟩ := s.foldl_takeHold kind zones hn
  have hps : (zones.foldl (fun s z => s.takeHold kind z) s).ps = s.ps :=
    (Zoned.foldl (fun s z => s.zoned_takeHold kind z) zones s).scheduled.ps
  have hframe : ∀ w, (∀ z ∈ zones, (s.zone z).status ≠ .armed w) →
      (zones.foldl (fun s z => s.takeHold kind z) s).window w = s.window w := fun w hw => by
    refine Window.eq_of (hstatus w) fun i => ?_
    refine (houtcomes w i).trans (if_neg ?_)
    rintro ⟨hz, harmed, -⟩
    exact hw _ hz harmed
  have ht : t = (s.armedWindows zones).foldl (fun s w => s.settleWindow su w)
      (zones.foldl (fun s z => s.takeHold kind z) s) := rfl
  rw [ht]
  generalize zones.foldl (fun s z => s.takeHold kind z) s = y at *
  obtain ⟨kzone, -, kout, krest, kstatus⟩ :=
    y.foldl_settleWindow su (s.armedWindows zones) ((List.nodup_finRange 64).filter _)
  refine ⟨fun k hk => (kzone k).trans (hin k hk), fun k hk => (kzone k).trans (hout k hk),
    fun v k => (kout v k).trans (houtcomes v k), fun w hw => ?_, fun z w hz harmed hmem hnone hopen => ?_⟩
  · refine (krest w fun hmem => ?_).trans (hframe w hw)
    obtain ⟨z, hz, harmed⟩ := (s.mem_armedWindows zones w).mp hmem
    exact hw z hz harmed
  · have hgiven : (y.window w).outcomes[z].isSome = true := by
      have := (houtcomes w z).trans (if_pos ⟨hz, harmed, hnone⟩)
      simp [this]
    have hopen' : (s.window w).status.open? = true := (WindowStatus.open?_iff _).mpr hopen
    rw [kstatus w ((s.mem_armedWindows zones w).mpr ⟨z, hz, harmed⟩), State.status_settleWindow, hstatus w, if_pos hopen',
      State.windowZones_congr hps]
    simp only [kout w]
    refine if_congr Iff.rfl rfl ?_
    rcases hopen with hp | hl
    · rw [if_pos ⟨hp, z, hmem, .inl hgiven⟩]
    · rw [if_neg (by simp [hl]), hl]

end

end Sys2Proof.Machine
end

section
/-! The commands HOLD and RELEASE and the line HOLD_REQ: the hold flags they set, and the holds taken on zones (R70, R115 to
R119). -/

namespace Sys2Proof.Machine

/-! ## One change made to several zones -/

section
variable (s : State) (zones : List (Fin 24)) (f : Zone → Zone)

theorem State.updZones_changes : s.updZones zones f = { s with zs := (s.updZones zones f).zs } := by
  induction zones generalizing s with
  | nil => rfl
  | cons z zones ih => exact ih (s.updZone z f)

theorem State.window_updZones (w : Fin 64) : (s.updZones zones f).window w = s.window w := by
  induction zones generalizing s with
  | nil => rfl
  | cons z zones ih => exact ih (s.updZone z f)

theorem State.zone_updZones (hn : zones.Nodup) (k : Fin 24) :
    (s.updZones zones f).zone k = if k ∈ zones then f (s.zone k) else s.zone k := by
  induction zones generalizing s with
  | nil => rfl
  | cons z zones ih =>
    obtain ⟨hz, hn⟩ := List.nodup_cons.mp hn
    refine (ih (s.updZone z f) hn).trans ?_
    by_cases hk : k = z
    · subst hk
      simp [hz, State.zone_updZone]
    · simp only [State.zone_updZone_ne _ _ _ _ hk, List.mem_cons, hk, false_or]

theorem State.sameBut_updZones : s.SameBut (s.updZones zones f) [.zs] := by
  rw [s.updZones_changes]
  exact s.sameBut_zs _

/-- A report handed after the change is the report handed before it. -/
theorem State.rw_hand_updZones (r : Report) : ((s.updZones zones f).hand r).rw = (s.hand r).rw := by
  rw [s.updZones_changes]
  exact State.hand_rw_congr r rfl rfl rfl

end

/-! ## What a hold leaves of a zone (R116) -/

theorem Zone.holdTaken_keeps (kind : HoldKind) (free : Bool) (x : Zone) :
    (x.holdTaken kind free).commandHold = x.commandHold ∧ (x.holdTaken kind free).pinHold = x.pinHold ∧
      (x.holdTaken kind free).timeline = x.timeline := by
  unfold Zone.holdTaken
  repeat' split
  all_goals exact ⟨rfl, rfl, rfl⟩

section
variable {x : Zone} {kind : HoldKind} {free : Bool} {w : Fin 64}

theorem Zone.holdTaken_national (h : x.status = .national) : x.holdTaken kind free = x := by
  simp [Zone.holdTaken, h]

theorem Zone.holdTaken_armed (h : x.status = .armed w) : x.holdTaken kind true = x.toNational := by
  simp [Zone.holdTaken, h]

theorem Zone.holdTaken_regional (h : x.status = .regional w) :
    (x.holdTaken kind free).status = .returning w .hold (kind == .hard) := by
  simp [Zone.holdTaken, h]

theorem Zone.holdTaken_returning {c : ReturnCause} {hard : Bool} (h : x.status = .returning w c hard) :
    (x.holdTaken kind free).status = if kind = .hard ∧ hard = false then .returning w .hold true else x.status := by
  simp only [Zone.holdTaken, h, Bool.and_eq_true, beq_iff_eq, Bool.not_eq_true', apply_ite Zone.status]

theorem Zone.conceal_holdTaken (h : ∀ w, x.status ≠ .armed w) : (x.holdTaken kind free).conceal = x.conceal := by
  unfold Zone.holdTaken
  split
  · rfl
  · next w hw => exact absurd hw (h w)
  · rfl
  · split <;> rfl

end

theorem State.freeToHold_of_armed {s : State} {z : Fin 24} {w : Fin 64} (h : (s.zone z).status = .armed w) :
    s.freeToHold z = (s.window w).outcomes[z].isNone := by
  simp [State.freeToHold, h]

/-! ## The zones of a HOLD or RELEASE and the kind of a HOLD (R70) -/

theorem mem_zonesIn {zones : ZoneSet} {z : Fin 24} : z ∈ zonesIn zones ↔ zones.getLsbD z.val = true := by
  simp [zonesIn, inZoneSet]

theorem zonesIn_nodup (zones : ZoneSet) : (zonesIn zones).Nodup := (List.nodup_finRange 24).filter _

theorem Setup.zoneSetOk_iff {su : Setup} {zones : ZoneSet} : su.zoneSetOk zones = true ↔
    zones ≠ 0 ∧ zones.toNat < 2 ^ 24 ∧ ∀ z : Fin 24, zones.getLsbD z.val = true → su.zones[z].enabled = true := by
  simp only [Setup.zoneSetOk, Bool.and_eq_true, decide_eq_true_eq, List.all_eq_true, mem_zonesIn, and_assoc]

theorem holdKindOf_eq_some_iff {arg : BitVec 32} {kind : HoldKind} :
    holdKindOf arg = some kind ↔ (arg = 1 ∧ kind = .hard) ∨ (arg = 2 ∧ kind = .soft) := by
  unfold holdKindOf
  split
  · next h =>
    subst h
    cases kind <;> simp
  · next h =>
    split
    · next h2 =>
      subst h2
      cases kind <;> simp
    · next h2 => exact iff_of_false (by simp) (by rintro (⟨e, -⟩ | ⟨e, -⟩) <;> contradiction)

theorem strongerHold_eq (old : Option HoldKind) (kind : HoldKind) :
    strongerHold old kind = if old = some .hard then .hard else kind := by
  unfold strongerHold
  split
  · rfl
  · next h => rw [if_neg fun c => h c]

theorem Setup.mem_enabledZones {su : Setup} {z : Fin 24} : z ∈ su.enabledZones ↔ su.zones[z].enabled = true := by
  simp [Setup.enabledZones]

theorem Setup.enabledZones_nodup (su : Setup) : su.enabledZones.Nodup := (List.nodup_finRange 24).filter _

/-! ## A state whose hold flags have been set -/

/-- `x` is `u` but for the hold flags of its zones, and for the reports. -/
structure State.FlagsSet (u x : State) : Prop where
  status : ∀ z, (x.zone z).status = (u.zone z).status
  conceal : ∀ z, (x.zone z).conceal = (u.zone z).conceal
  timeline : ∀ z, (x.zone z).timeline = (u.zone z).timeline
  window : ∀ w, x.window w = u.window w
  ps : x.ps = u.ps

theorem State.FlagsSet.windowZones {u x : State} (h : u.FlagsSet x) (su : Setup) (w : Fin 64) :
    x.windowZones su w = u.windowZones su w := State.windowZones_congr h.ps su w

section
variable {u x : State} (h : u.FlagsSet x) (su : Setup) (kind : HoldKind) (zones : List (Fin 24)) (hn : zones.Nodup)
include h hn

/-- The windows after a hold on zones whose flags have been set. -/
theorem State.FlagsSet.windows_takeHolds :
    (∀ w, (∀ z ∈ zones, (u.zone z).status ≠ .armed w) → (x.takeHolds su kind zones).window w = u.window w) ∧
    ∀ z w, z ∈ zones → (u.zone z).status = .armed w → z ∈ u.windowZones su w → (u.window w).outcomes[z] = none →
      (u.window w).status = .pending ∨ (u.window w).status = .live →
      ((x.takeHolds su kind zones).window w).status =
        if ∀ k ∈ u.windowZones su w, ((x.takeHolds su kind zones).window w).outcomes[k].isSome = true then .closed
        else .live := by
  obtain ⟨-, -, -, hframe, hmoved⟩ := x.takeHolds_spec su kind zones hn
  refine ⟨fun w hw => (hframe w fun z hz => by rw [h.status z]; exact hw z hz).trans (h.window w), fun z w hz ha hm ho hs => ?_⟩
  rw [← h.windowZones su w] at hm ⊢
  rw [← h.window w] at ho hs
  exact hmoved z w hz ((h.status z).trans ha) hm ho hs

/-- A zone after a hold on it, its flags set before. -/
theorem State.FlagsSet.zone_takeHolds (z : Fin 24) (hz : z ∈ zones) :
    let y := (x.takeHolds su kind zones).zone z
    (y.commandHold = (x.zone z).commandHold ∧ y.pinHold = (x.zone z).pinHold ∧ y.timeline = (u.zone z).timeline) ∧
    ((u.zone z).status = .national → y.status = .national) ∧
    (∀ w, (u.zone z).status = .armed w → (u.window w).outcomes[z] = none →
      y.status = .national ∧ y.conceal = 0 ∧ ((x.takeHolds su kind zones).window w).outcomes[z] = some .heldOff) ∧
    ((∀ w, (u.zone z).status ≠ .armed w) → y.conceal = (u.zone z).conceal) ∧
    (∀ w, (u.zone z).status = .regional w → y.status = .returning w .hold (kind == .hard)) ∧
    (∀ w c hard, (u.zone z).status = .returning w c hard →
      y.status = if kind = .hard ∧ hard = false then .returning w .hold true else (u.zone z).status) := by
  intro y
  obtain ⟨hin, -, hout, -, -⟩ := x.takeHolds_spec su kind zones hn
  have hy : y = (x.zone z).holdTaken kind (x.freeToHold z) := hin z hz
  obtain ⟨hcommand, hpin, htime⟩ := Zone.holdTaken_keeps kind (x.freeToHold z) (x.zone z)
  rw [← hy] at hcommand hpin htime
  rw [← h.status z, ← h.timeline z, ← h.conceal z]
  refine ⟨⟨hcommand, hpin, htime⟩, fun hs => ?_, fun w hs ho => ?_, fun hs => ?_, fun w hs => ?_, fun w c hard hs => ?_⟩
  · rw [hy, Zone.holdTaken_national hs, hs]
  · rw [← h.window w] at ho
    have hfree : x.freeToHold z = true := by rw [State.freeToHold_of_armed hs, ho]; rfl
    rw [hy, hfree, Zone.holdTaken_armed hs]
    exact ⟨rfl, rfl, (hout w z).trans (if_pos ⟨hz, hs, ho⟩)⟩
  · rw [hy, Zone.conceal_holdTaken hs]
  · rw [hy, Zone.holdTaken_regional hs]
  · rw [hy, Zone.holdTaken_returning hs]

end

/-! ## The commands HOLD and RELEASE -/

theorem State.zone_handResult (s : State) (c : CommandRec) (r : CommandResult) (z : Fin 24) :
    (s.handResult c r).zone z = s.zone z := s.zone_hand _ z

theorem State.window_handResult (s : State) (c : CommandRec) (r : CommandResult) (w : Fin 64) :
    (s.handResult c r).window w = s.window w := s.window_hand _ w

theorem State.sameBut_handResult (s : State) (c : CommandRec) (r : CommandResult) : s.SameBut (s.handResult c r) [.rw] :=
  s.sameBut_hand _

theorem State.zoned_handResult (s : State) (c : CommandRec) (r : CommandResult) : Zoned s (s.handResult c r) := s.zoned_hand _

/-- The state a valid HOLD takes its holds from: its result, the hold flags and HOLD_STATE. -/
def State.holdsFlagged (u : State) (c : CommandRec) (kind : HoldKind) : State :=
  ((u.handResult c .accepted).updZones (zonesIn c.arg1) (Zone.commandHeld kind)).hand
    (.holdState c.arg1 true .command (some kind))

section
variable (u : State) (su : Setup) (c : CommandRec) (kind : HoldKind)

theorem State.zone_holdsFlagged (z : Fin 24) : (u.holdsFlagged c kind).zone z =
    if z ∈ zonesIn c.arg1 then (u.zone z).commandHeld kind else u.zone z := by
  rw [State.holdsFlagged, State.zone_hand, State.zone_updZones _ _ _ (zonesIn_nodup _), State.zone_handResult]

theorem State.window_holdsFlagged (w : Fin 64) : (u.holdsFlagged c kind).window w = u.window w := by
  rw [State.holdsFlagged, State.window_hand, State.window_updZones, State.window_handResult]

theorem State.sameBut_holdsFlagged : u.SameBut (u.holdsFlagged c kind) [.zs, .rw] :=
  (((u.sameBut_handResult c _).mono (by simp)).trans ((State.sameBut_updZones _ _ _).mono (by simp))).trans
    ((State.sameBut_hand _ _).mono (by simp))

theorem State.flagsSet_holdsFlagged : u.FlagsSet (u.holdsFlagged c kind) where
  status z := by rw [u.zone_holdsFlagged]; split <;> rfl
  conceal z := by rw [u.zone_holdsFlagged]; split <;> rfl
  timeline z := by rw [u.zone_holdsFlagged]; split <;> rfl
  window := u.window_holdsFlagged c kind
  ps := u.sameBut_holdsFlagged c kind .ps (by simp)

theorem State.doHold_of_valid (hk : holdKindOf c.arg2 = some kind) (hv : su.zoneSetOk c.arg1 = true) :
    u.doHold su c = (u.holdsFlagged c kind).takeHolds su kind (zonesIn c.arg1) := by
  simp only [State.doHold, hk, hv, if_true]
  rfl

theorem State.doHold_of_bad (h : su.zoneSetOk c.arg1 = false ∨ holdKindOf c.arg2 = none) :
    u.doHold su c = u.handResult c .badArgument := by
  unfold State.doHold
  split
  · rfl
  · next hk =>
    rcases h with h | h
    · simp [h]
    · simp [h] at hk

end

/-- Settles O29: HOLD sets the command hold of the zones it names and is taken on each of them; RELEASE clears it. -/
theorem holdAndReleaseTaken : Obligations.HoldAndReleaseTaken := by
  intro s l g a su hrun inSet valid kindOf
  have hvalid : ∀ u : State, su.zoneSetOk u.command.arg1 = true ↔ valid u := fun u => Setup.zoneSetOk_iff
  have hinset : ∀ (u : State) z, z ∈ zonesIn u.command.arg1 ↔ inSet u z := fun u z => mem_zonesIn
  refine ⟨fun h => ?_, fun h => ?_⟩
  · refine ⟨_, _, s.planLanded_planDone l a, congrArg Host.Outcome.next (h.act_inRunning hrun State.doHold), ?_, fun k hv hk => ?_⟩
    · rintro (hv | hk)
      · exact State.doHold_of_bad _ _ _ (.inl (by rw [← hvalid] at hv; simpa using hv))
      · refine State.doHold_of_bad _ _ _ (.inr (Option.eq_none_iff_forall_ne_some.mpr fun k hk' => hk k ?_))
        exact holdKindOf_eq_some_iff.mp hk'
    generalize s.planDone l a = u at *
    rw [State.doHold_of_valid u su _ k (holdKindOf_eq_some_iff.mpr hk) ((hvalid u).mpr hv)]
    generalize hx : u.holdsFlagged u.command k = x
    have hzone : ∀ z, x.zone z = if z ∈ zonesIn u.command.arg1 then (u.zone z).commandHeld k else u.zone z :=
      fun z => hx ▸ u.zone_holdsFlagged u.command k z
    have hout : ∀ z, ¬ inSet u z → x.zone z = u.zone z := fun z hz => by rw [hzone, if_neg ((hinset u z).not.mpr hz)]
    have hin : ∀ z, inSet u z → x.zone z = { u.zone z with
        commandHold := some (if (u.zone z).commandHold = some .hard then .hard else k) } := fun z hz => by
      rw [hzone, if_pos ((hinset u z).mpr hz), Zone.commandHeld, strongerHold_eq]
    have hflags : u.FlagsSet x := hx ▸ u.flagsSet_holdsFlagged u.command k
    have hsame : u.SameBut x [.zs, .rw] := hx ▸ u.sameBut_holdsFlagged u.command k
    have hn := zonesIn_nodup u.command.arg1
    obtain ⟨-, hrest, -, -, -⟩ := x.takeHolds_spec su k _ hn
    obtain ⟨hframe, hmoved⟩ := hflags.windows_takeHolds su k _ hn
    refine ⟨⟨x, ?_, hout, hin, hflags.window, hsame, x.holdsTaken_takeHolds su k _⟩, fun z hz => ?_, fun w hw => ?_,
      fun z w hz => hmoved z w ((hinset u z).mpr hz), fun z hz => ?_, hsame.trans (x.zoned_takeHolds su k _).sameBut⟩
    · rw [← hx]
      exact State.rw_hand_updZones _ _ _ _
    · exact (hrest z ((hinset u z).not.mpr hz)).trans (hout z hz)
    · exact hframe w fun z hz => hw z ((hinset u z).mp hz)
    · obtain ⟨⟨hcommand, hpin, htime⟩, hnational, harmed, hconceal, hregional, hreturning⟩ :=
        hflags.zone_takeHolds su k _ hn z ((hinset u z).mpr hz)
      rw [hin z hz] at hcommand hpin
      exact ⟨hcommand, hpin, htime, hnational, harmed, hconceal, hregional, fun w c hr => by simpa using hreturning w c _ hr,
        fun w c hr => by simpa using hreturning w c _ hr⟩
  · refine ⟨_, _, s.planLanded_planDone l a, congrArg Host.Outcome.next (h.act_inRunning hrun State.doRelease), fun hv => ?_,
      fun hv => ?_⟩
    · exact if_neg (by rwa [hvalid])
    generalize s.planDone l a = u at *
    have hact : u.doRelease su u.command = ((u.handResult u.command .accepted).updZones (zonesIn u.command.arg1)
        Zone.commandReleased).hand (.holdState u.command.arg1 false .command none) := if_pos ((hvalid u).mpr hv)
    rw [hact]
    have hzone : ∀ z, _ := fun z => (State.zone_hand _ (.holdState u.command.arg1 false .command none) z).trans
      (State.zone_updZones (u.handResult u.command .accepted) _ Zone.commandReleased (zonesIn_nodup u.command.arg1) z)
    simp only [State.zone_handResult] at hzone
    refine ⟨State.rw_hand_updZones _ _ _ _, fun z hz => ?_, fun z hz => ?_, fun w => ?_, ?_⟩
    · rw [hzone, if_neg ((hinset u z).not.mpr hz)]
    · rw [hzone, if_pos ((hinset u z).mpr hz)]
      rfl
    · rw [State.window_hand, State.window_updZones, State.window_handResult]
    · exact (((u.sameBut_handResult _ _).mono (by simp)).trans ((State.sameBut_updZones _ _ _).mono (by simp))).trans
        ((State.sameBut_hand _ _).mono (by simp))

/-! ## The line HOLD_REQ (R116 to R119) -/

/-- The state an edge of HOLD_REQ leaves before any hold is taken: the level, the pin holds and HOLD_STATE. -/
def State.pinsSet (s : State) (su : Setup) (level : Bool) : State :=
  ((s.withHoldReq level).updZones su.enabledZones (Zone.pinned level)).handPinHold su level

section
variable (s : State) (su : Setup) (level : Bool)

theorem State.zone_pinsSet (z : Fin 24) : (s.pinsSet su level).zone z =
    if su.zones[z].enabled then { s.zone z with pinHold := level } else s.zone z := by
  rw [State.pinsSet, State.handPinHold, State.zone_hand, State.zone_updZones _ _ _ su.enabledZones_nodup]
  simp only [Setup.mem_enabledZones]
  rfl

theorem State.window_pinsSet (w : Fin 64) : (s.pinsSet su level).window w = s.window w := by
  rw [State.pinsSet, State.handPinHold, State.window_hand, State.window_updZones]
  rfl

theorem State.rw_pinsSet : (s.pinsSet su level).rw = (s.hand (.holdState (zoneSetOf su.enabledZones) level .pin
    (if level then some .hard else none))).rw :=
  (State.rw_hand_updZones _ _ _ _).trans (State.hand_rw_congr _ rfl rfl rfl)

theorem State.sameBut_withHoldReq : s.SameBut (s.withHoldReq level) [.holdReq] := fun p hp => by
  cases p <;> first | rfl | simp at hp

theorem State.sameBut_pinsSet : s.SameBut (s.pinsSet su level) [.zs, .rw, .holdReq] :=
  (((s.sameBut_withHoldReq level).mono (by simp)).trans ((State.sameBut_updZones _ _ _).mono (by simp))).trans
    ((State.sameBut_hand _ _).mono (by simp))

theorem State.holdReq_pinsSet : (s.pinsSet su level).holdReq = level := by
  rw [State.pinsSet, State.handPinHold, State.hand_changes, State.updZones_changes]
  rfl

theorem State.flagsSet_pinsSet : s.FlagsSet (s.pinsSet su level) where
  status z := by rw [s.zone_pinsSet]; split <;> rfl
  conceal z := by rw [s.zone_pinsSet]; split <;> rfl
  timeline z := by rw [s.zone_pinsSet]; split <;> rfl
  window := s.window_pinsSet su level
  ps := s.sameBut_pinsSet su level .ps (by simp)

end

/-- Settles O51: a rise of HOLD_REQ pins the enabled zones and is taken on them as a HARD hold; a fall unpins them. -/
theorem holdReqFollowed : Obligations.HoldReqFollowed := by
  intro s
  refine ⟨fun h => ?_, fun h => ?_, fun h hsu => ?_, fun h hsu => ?_, fun su hsu => ⟨fun h => ?_, fun h => ?_⟩⟩
  · exact congrArg Host.Outcome.next (if_pos h)
  · exact congrArg Host.Outcome.next (if_neg (by simp [h]))
  · refine congrArg Host.Outcome.next ((if_neg (by simp [h])).trans ?_)
    rw [hsu]
    rfl
  · refine congrArg Host.Outcome.next ((if_pos h).trans ?_)
    rw [hsu]
    rfl
  · refine ⟨s.pinsSet su false, congrArg Host.Outcome.next ((if_pos h).trans ?_), s.holdReq_pinsSet su false,
      s.zone_pinsSet su false, s.window_pinsSet su false, s.rw_pinsSet su false, s.sameBut_pinsSet su false⟩
    rw [hsu]
    rfl
  · have hact : exec .holdReqAssert s = .next ((s.pinsSet su true).takeHolds su .hard su.enabledZones) := by
      refine congrArg Host.Outcome.next ((if_neg (by simp [h])).trans ?_)
      rw [hsu]
      rfl
    have hn := su.enabledZones_nodup
    have hflags := s.flagsSet_pinsSet su true
    have hzoned := (s.pinsSet su true).zoned_takeHolds su .hard su.enabledZones
    obtain ⟨-, hrest, -, -, -⟩ := (s.pinsSet su true).takeHolds_spec su .hard _ hn
    obtain ⟨hframe, hmoved⟩ := hflags.windows_takeHolds su .hard _ hn
    refine ⟨_, hact, hzoned.scheduled.holdReq.trans (s.holdReq_pinsSet su true),
      ⟨s.pinsSet su true, s.rw_pinsSet su true, s.holdReq_pinsSet su true, s.zone_pinsSet su true, s.window_pinsSet su true,
        s.sameBut_pinsSet su true, State.holdsTaken_takeHolds _ su .hard _⟩,
      fun w hw => hframe w fun z hz => hw z (Setup.mem_enabledZones.mp hz),
      fun z w hz => hmoved z w (Setup.mem_enabledZones.mpr hz), fun z hz => ?_, fun z hz => ?_,
      (s.sameBut_pinsSet su true).trans (hzoned.sameBut.mono (by simp))⟩
    · have hoff : ¬ su.zones[z].enabled = true := Bool.not_eq_true _ ▸ hz
      rw [hrest z (Setup.mem_enabledZones.not.mpr hoff), s.zone_pinsSet, if_neg hoff]
    · obtain ⟨⟨hcommand, hpin, htime⟩, hnational, harmed, hconceal, hregional, hreturning⟩ :=
        hflags.zone_takeHolds su .hard _ hn z (Setup.mem_enabledZones.mpr hz)
      rw [s.zone_pinsSet, if_pos hz] at hcommand hpin
      exact ⟨hpin, hcommand, htime, hnational, harmed, hconceal, hregional, fun w c hr => by simpa using hreturning w c _ hr,
        fun w c hr => by simpa [hr] using hreturning w c _ hr⟩

end Sys2Proof.Machine
end

section
/-! The command CANCEL: what it leaves of each zone of the window's region and of the window (R69, R114). -/

namespace Sys2Proof.Machine

/-! ## The cancel of a window, on one zone -/

/-- A zone that the cancel of window `w` has reached, holding no outcome for it before. -/
def Zone.cancelTaken (w : Fin 64) (x : Zone) : Zone :=
  match x.status with
  | .armed v => if v = w then x.toNational else x
  | .regional v => if v = w then { x with status := .returning w .cancel false } else x
  | _ => x

/-- The cancel of window `w` gives a zone of this state an outcome at once; the zone keeps it in effect or on its way
back otherwise. -/
def ZoneStatus.cancelled (w : Fin 64) : ZoneStatus → Bool
  | .regional v => v ≠ w
  | .returning v _ _ => v ≠ w
  | _ => true

section
variable (s : State) (w : Fin 64) (z : Fin 24)

/-- What the cancel of a window leaves of a zone and of the windows. -/
theorem State.cancelZone_spec :
    (s.cancelZone w z).zone z =
      (if (s.window w).outcomes[z] = none then (s.zone z).cancelTaken w else s.zone z) ∧
    (∀ k, k ≠ z → (s.cancelZone w z).zone k = s.zone k) ∧
    (∀ v, v ≠ w → (s.cancelZone w z).window v = s.window v) ∧
    ((s.cancelZone w z).window w).status = (s.window w).status ∧
    ∀ k : Fin 24, ((s.cancelZone w z).window w).outcomes[k] =
      if k = z ∧ (s.window w).outcomes[k] = none ∧ (s.zone z).status.cancelled w = true then some .cancelled
      else (s.window w).outcomes[k] := by
  have given : ∀ n : SSN, (s.window w).outcomes[z] = none → (s.zone z).status.cancelled w = true →
      let t := s.giveOutcome w z .cancelled n
      t.zone z = (s.zone z).cancelTaken w ∧ (∀ k, k ≠ z → t.zone k = s.zone k) ∧
      (∀ v, v ≠ w → t.window v = s.window v) ∧ (t.window w).status = (s.window w).status ∧
      ∀ k : Fin 24, (t.window w).outcomes[k] =
        if k = z ∧ (s.window w).outcomes[k] = none ∧ (s.zone z).status.cancelled w = true then some .cancelled
        else (s.window w).outcomes[k] := fun n hn hc => by
    refine ⟨?_, fun k hk => ?_, fun v hv => ?_, ?_, fun k => ?_⟩
    · rw [State.zone_giveOutcome]
      unfold ZoneStatus.cancelled at hc
      unfold Zone.cancelTaken
      split at hc
      · next hs => simp_all [ZoneStatus.window?]
      · next hs => simp_all [ZoneStatus.window?]
      · next h1 h2 =>
        cases hs : (s.zone z).status with
        | national => simp [ZoneStatus.window?]
        | armed v => simp [ZoneStatus.window?, hn]
        | regional v => exact absurd hs (h1 v)
        | returning v c hard => exact absurd hs (h2 v c hard)
    · rw [State.zone_giveOutcome, if_neg fun c => hk c.1]
    · rw [State.window_giveOutcome, if_neg fun c => hv c.1]
    · rw [State.window_giveOutcome]
      split <;> rfl
    · rw [State.outcomes_giveOutcome]
      refine if_congr ?_ rfl rfl
      simp only [hc, and_true, true_and]
  have same : s.zone z = (if (s.window w).outcomes[z] = none then (s.zone z).cancelTaken w else s.zone z) →
      ((s.window w).outcomes[z] = none → (s.zone z).status.cancelled w = false) →
      s.zone z = (if (s.window w).outcomes[z] = none then (s.zone z).cancelTaken w else s.zone z) ∧
      (∀ k, k ≠ z → s.zone k = s.zone k) ∧ (∀ v, v ≠ w → s.window v = s.window v) ∧
      (s.window w).status = (s.window w).status ∧
      ∀ k : Fin 24, (s.window w).outcomes[k] =
        if k = z ∧ (s.window w).outcomes[k] = none ∧ (s.zone z).status.cancelled w = true then some .cancelled
        else (s.window w).outcomes[k] := fun hz hc =>
    ⟨hz, fun _ _ => rfl, fun _ _ => rfl, rfl, fun k => (if_neg (by
      rintro ⟨rfl, hn, hc'⟩
      simp [hc hn] at hc')).symm⟩
  unfold State.cancelZone
  split
  · next ho =>
    have hn : ¬ (s.window w).outcomes[z] = none := by simpa [Option.isSome_iff_ne_none] using ho
    exact same (if_neg hn).symm fun h => absurd h hn
  · next ho =>
    have hn : (s.window w).outcomes[z] = none := by simpa using ho
    rw [if_pos hn]
    rw [if_pos hn] at same
    split
    · next v hs =>
      split
      · next hv =>
        subst hv
        refine ⟨?_, fun k hk => State.zone_updZone_ne _ _ _ _ hk, fun _ _ => rfl, rfl, fun k => (if_neg ?_).symm⟩
        · rw [State.zone_updZone]
          simp [Zone.cancelTaken, hs]
        · simp [ZoneStatus.cancelled, hs]
      · next hv => exact given _ hn (by simp [ZoneStatus.cancelled, hs, hv])
    · next v c hard hs =>
      split
      · next hv => exact same (by simp [Zone.cancelTaken, hs]) fun _ => by simp [ZoneStatus.cancelled, hs, hv]
      · next hv => exact given _ hn (by simp [ZoneStatus.cancelled, hs, hv])
    · next h1 h2 =>
      refine given _ hn ?_
      unfold ZoneStatus.cancelled
      split
      · next v hs => exact absurd hs (h1 v)
      · next v c hard hs => exact absurd hs (h2 v c hard)
      · rfl

/-- The cancel of a window reaching several zones reaches each as it would that zone alone. -/
theorem State.foldl_cancelZone (zones : List (Fin 24)) (hn : zones.Nodup) :
    let t := zones.foldl (fun s z => s.cancelZone w z) s
    (∀ k ∈ zones, t.zone k =
      if (s.window w).outcomes[k] = none then (s.zone k).cancelTaken w else s.zone k) ∧
    (∀ k, k ∉ zones → t.zone k = s.zone k) ∧
    (∀ v, v ≠ w → t.window v = s.window v) ∧
    (t.window w).status = (s.window w).status ∧
    ∀ k : Fin 24, (t.window w).outcomes[k] =
      if k ∈ zones ∧ (s.window w).outcomes[k] = none ∧ (s.zone k).status.cancelled w = true then some .cancelled
      else (s.window w).outcomes[k] := by
  induction zones generalizing s with
  | nil => exact ⟨fun k hk => absurd hk (by simp), fun _ _ => rfl, fun _ _ => rfl, rfl, fun k => by simp⟩
  | cons z zones ih =>
    obtain ⟨hz, hn⟩ := List.nodup_cons.mp hn
    obtain ⟨hin, hout, hwindows, hstatus, houtcomes⟩ := ih (s.cancelZone w z) hn
    obtain ⟨hself, hothers, hwindows', hstatus', houtcomes'⟩ := s.cancelZone_spec w z
    have hkept : ∀ k : Fin 24, k ≠ z → ((s.cancelZone w z).window w).outcomes[k] = (s.window w).outcomes[k] :=
      fun k hk => (houtcomes' k).trans (if_neg fun c => hk c.1)
    refine ⟨fun k hk => ?_, fun k hk => ?_, fun v hv => (hwindows v hv).trans (hwindows' v hv), hstatus.trans hstatus',
      fun k => ?_⟩
    · rw [List.foldl_cons]
      by_cases hkz : k = z
      · subst hkz
        rw [hout k hz, hself]
      · rw [hin k ((List.mem_cons.mp hk).resolve_left hkz), hkept k hkz, hothers k hkz]
    · simp only [List.mem_cons, not_or] at hk
      rw [List.foldl_cons, hout k hk.2, hothers k hk.1]
    · rw [List.foldl_cons, houtcomes k]
      by_cases hkz : k = z
      · subst hkz
        rw [if_neg fun c => hz c.1, houtcomes' k]
        simp
      · simp [hkept k hkz, hothers k hkz, hkz]

end

/-! ## The cancel of a window -/

theorem State.windowZones_eq (s : State) (su : Setup) (w : Fin 64) : s.windowZones su w =
    (List.finRange 24).filter fun z => decide (∃ r, (s.windowRec w).region = some r ∧ su.zoneRegion z = some r) := by
  unfold State.windowZones Setup.zonesOf
  cases (s.windowRec w).region with
  | none => simp
  | some r => exact List.filter_congr fun z _ => by simp [Bool.beq_eq_decide_eq]

theorem State.mem_windowZones {s : State} {su : Setup} {w : Fin 64} {z : Fin 24} : z ∈ s.windowZones su w ↔
    su.zones[z].enabled = true ∧ ∃ r : Fin 12, (s.windowRec w).regionByte = r.val ∧ su.zones[z].region = r.val := by
  simp only [State.windowZones_eq, List.mem_filter, List.mem_finRange, true_and, decide_eq_true_eq, WindowRec.region,
    toFin?_eq_some_iff, Setup.zoneRegion_eq_some_iff]
  exact ⟨fun ⟨r, hw, he, hr⟩ => ⟨he, r, hw, hr⟩, fun ⟨he, r, hw, hr⟩ => ⟨r, hw, he, hr⟩⟩

theorem State.windowZones_pairwise (s : State) (su : Setup) (w : Fin 64) : (s.windowZones su w).Pairwise (· < ·) := by
  rw [State.windowZones_eq]
  exact (List.pairwise_lt_finRange 24).filter _

theorem State.windowZones_nodup (s : State) (su : Setup) (w : Fin 64) : (s.windowZones su w).Nodup :=
  (s.windowZones_pairwise su w).imp fun h => Fin.ne_of_lt h

section
variable (s : State) (su : Setup) (w : Fin 64)

theorem State.zoned_foldl_cancelZone (zones : List (Fin 24)) : Zoned s (zones.foldl (fun s z => s.cancelZone w z) s) :=
  Zoned.foldl (fun s z => s.zoned_cancelZone w z) zones s

/-- What a cancel leaves of the zones and of the windows. -/
theorem State.cancelWindow_spec :
    let t := s.cancelWindow su w
    (∀ k ∈ s.windowZones su w, t.zone k =
      if (s.window w).outcomes[k] = none then (s.zone k).cancelTaken w else s.zone k) ∧
    (∀ k, k ∉ s.windowZones su w → t.zone k = s.zone k) ∧
    (∀ v, v ≠ w → t.window v = s.window v) ∧
    (∀ k : Fin 24, (t.window w).outcomes[k] =
      if k ∈ s.windowZones su w ∧ (s.window w).outcomes[k] = none ∧ (s.zone k).status.cancelled w = true
      then some .cancelled else (s.window w).outcomes[k]) ∧
    ((s.window w).status = .pending ∨ (s.window w).status = .live →
      ((∀ z ∈ s.windowZones su w, (t.window w).outcomes[z].isSome = true) → (t.window w).status = .closed) ∧
      ((∃ z ∈ s.windowZones su w, (t.window w).outcomes[z] = none) → (t.window w).status = .live)) := by
  intro t
  obtain ⟨hin, hout, hwindows, hstatus, houtcomes⟩ := s.foldl_cancelZone w _ (s.windowZones_nodup su w)
  have hzones : ∀ z, t.zone z = _ := State.zone_settleWindow _ su w
  obtain ⟨-, hothers, hkept⟩ :=
    ((s.windowZones su w).foldl (fun s z => s.cancelZone w z) s).settleWindow_keeps su w
  have hmoved : (t.window w).status = _ := State.status_settleWindow _ su w
  have hps := (s.zoned_foldl_cancelZone w (s.windowZones su w)).scheduled.ps
  rw [State.windowZones_congr hps] at hmoved
  have ht : ∀ k : Fin 24, (t.window w).outcomes[k] = _ := hkept
  replace hothers : ∀ v, v ≠ w → t.window v = _ := hothers
  generalize (s.windowZones su w).foldl (fun s z => s.cancelZone w z) s = y at *
  refine ⟨fun k hk => (hzones k).trans (hin k hk), fun k hk => (hzones k).trans (hout k hk),
    fun v hv => (hothers v hv).trans (hwindows v hv), fun k => (ht k).trans (houtcomes k), fun hopen => ?_⟩
  have hopen' : (y.window w).status.open? = true := (WindowStatus.open?_iff _).mpr (hstatus ▸ hopen)
  rw [hmoved, if_pos hopen']
  simp only [ht]
  refine ⟨fun h => if_pos h, fun ⟨z, hz, hnone⟩ => ?_⟩
  rw [if_neg fun h => Option.isSome_iff_ne_none.mp (h z hz) hnone]
  rcases hopen with hp | hl
  · refine if_pos ⟨hstatus.trans hp, z, hz, .inr ?_⟩
    have hgiven := houtcomes z
    rw [hnone] at hgiven
    split at hgiven
    · cases hgiven
    · next hc =>
      simp only [hz, ← hgiven, true_and, Bool.not_eq_true] at hc
      rw [hin z hz, if_pos hgiven.symm]
      unfold ZoneStatus.cancelled at hc
      unfold Zone.cancelTaken
      split at hc
      · next v hs => simp_all [ZoneStatus.window?]
      · next v c hard hs => simp_all [ZoneStatus.window?]
      · cases hc
  · rw [if_neg (by simp [hstatus, hl]), hstatus, hl]

end

section
variable {x : Zone} {w : Fin 64}

theorem Zone.cancelTaken_of_apart (h : x.status.window? ≠ some w) : x.cancelTaken w = x := by
  unfold Zone.cancelTaken
  split
  · next v hs => exact if_neg fun hv => h (by simp [hs, hv, ZoneStatus.window?])
  · next v hs => exact if_neg fun hv => h (by simp [hs, hv, ZoneStatus.window?])
  · rfl

theorem ZoneStatus.cancelled_of_apart {y : ZoneStatus} (h : y.window? ≠ some w) : y.cancelled w = true := by
  unfold ZoneStatus.cancelled
  split <;> simp_all [ZoneStatus.window?]

theorem Zone.cancelTaken_armed (h : x.status = .armed w) : x.cancelTaken w = x.toNational := by simp [Zone.cancelTaken, h]

theorem Zone.cancelTaken_regional (h : x.status = .regional w) :
    x.cancelTaken w = { x with status := .returning w .cancel false } := by simp [Zone.cancelTaken, h]

theorem Zone.cancelTaken_returning {c : ReturnCause} {hard : Bool} (h : x.status = .returning w c hard) :
    x.cancelTaken w = x := by simp [Zone.cancelTaken, h]

end

theorem State.doCancel_eq (u : State) (su : Setup) (c : CommandRec) {w : Fin 64} (h : c.arg1.toNat = w.val) :
    u.doCancel su c = if cancelResult (u.window w).status = .accepted then
        (u.handResult c (cancelResult (u.window w).status)).cancelWindow su w
      else u.handResult c (cancelResult (u.window w).status) := by
  unfold State.doCancel
  rw [toFin?_eq_some_iff.mpr h]

theorem cancelResult_eq_accepted_iff {y : WindowStatus} : cancelResult y = .accepted ↔ y = .pending ∨ y = .live := by
  cases y <;> simp [cancelResult]

/-- Settles O28: what CANCEL answers, and what it leaves of the zones of the window's region and of the window. -/
theorem cancelTaken : Obligations.CancelTaken := by
  refine ⟨fun s su w => ⟨s.windowZones_pairwise su w, fun z => State.mem_windowZones⟩, fun s l g a su h hrun => ?_⟩
  refine ⟨_, _, s.planLanded_planDone l a, congrArg Host.Outcome.next (h.act_inRunning hrun State.doCancel),
    fun harg => ?_, fun w hw => ?_⟩
  · unfold State.doCancel
    split
    · rfl
    · next w hw => exact absurd (toFin?_eq_some_iff.mp hw) (by omega)
  generalize s.planDone l a = u at *
  rw [u.doCancel_eq su _ hw]
  refine ⟨fun hc => by simp [hc, cancelResult], fun hc => by rcases hc with hc | hc <;> simp [hc, cancelResult], fun hopen => ?_⟩
  have hok := cancelResult_eq_accepted_iff.mpr hopen
  rw [if_pos hok, hok]
  have hzone := u.zone_handResult u.command .accepted
  have hwindow := u.window_handResult u.command .accepted
  have hzoned := u.zoned_handResult u.command .accepted
  have hzones := State.windowZones_congr hzoned.scheduled.ps su w
  rw [← hzones]
  simp only [← hzone, ← hwindow] at hopen ⊢
  have hsame := hzoned.trans (State.zoned_cancelWindow _ su w)
  generalize u.handResult u.command .accepted = x at *
  obtain ⟨hin, hout, hothers, houtcomes, hstatus⟩ := x.cancelWindow_spec su w
  obtain ⟨hclosed, hlive⟩ := hstatus hopen
  refine ⟨⟨_, InTurn.foldl (fun s z => s.cancelReached_cancelZone w z) _ x, State.windowMoved_settleWindow _ su w⟩, hout,
    hothers, fun z hz => ⟨fun ho => ?_, fun ho ha => ?_, fun ho ha => ?_, fun ho ha => ?_, fun c hard ho ha => ?_⟩, hclosed,
    hlive, hsame.sameBut⟩
  · have hn : ¬ (x.window w).outcomes[z] = none := Option.isSome_iff_ne_none.mp ho
    exact ⟨(hin z hz).trans (if_neg hn), (houtcomes z).trans (if_neg fun c => hn c.2.1)⟩
  · exact ⟨by rw [hin z hz, if_pos ho, Zone.cancelTaken_of_apart ha],
      (houtcomes z).trans (if_pos ⟨hz, ho, ZoneStatus.cancelled_of_apart ha⟩)⟩
  · exact ⟨by rw [hin z hz, if_pos ho, Zone.cancelTaken_armed ha]; rfl,
      (houtcomes z).trans (if_pos ⟨hz, ho, by rw [ha]; rfl⟩)⟩
  · refine ⟨by rw [hin z hz, if_pos ho, Zone.cancelTaken_regional ha], (houtcomes z).trans ((if_neg ?_).trans ho)⟩
    simp [ha, ZoneStatus.cancelled]
  · refine ⟨by rw [hin z hz, if_pos ho, Zone.cancelTaken_returning ha], (houtcomes z).trans ((if_neg ?_).trans ho)⟩
    simp [ha, ZoneStatus.cancelled]

end Sys2Proof.Machine
end

section
/-! The command ATTACH: the zone it sets and the feed it attaches (R71, R127, R147, R148, R164). -/

namespace Sys2Proof.Machine

/-! ## The feed of a command (R71) -/

theorem Setup.feedZone_eq_some_iff {su : Setup} {f : Fin 32} {z : Fin 24} :
    su.feedZone f = some z ↔ su.feeds[f].enabled = true ∧ su.feeds[f].zone = z.val := by
  unfold Setup.feedZone
  split
  · next h => rw [and_iff_right h, toFin?_eq_some_iff]
  · next h => exact iff_of_false nofun fun c => h c.1

theorem Setup.commandFeed_eq_some_iff {su : Setup} {c : CommandRec} {f : Fin 32} :
    su.commandFeed c = some f ↔ c.arg1.toNat = f.val ∧ su.feeds[f].enabled = true := by
  rw [Setup.commandFeed, Option.filter_eq_some_iff, toFin?_eq_some_iff]

/-! ## The attached feeds of a zone -/

theorem State.mem_attachedFeeds {s : State} {su : Setup} {z : Fin 24} {f : Fin 32} :
    f ∈ s.attachedFeeds su z ↔ su.feedZone f = some z ∧ ∃ p, (s.feed f).status = .attached p := by
  have attached : (s.feed f).status.position?.isSome = true ↔ ∃ p, (s.feed f).status = .attached p := by
    cases (s.feed f).status <;> simp [FeedStatus.position?]
  simp only [State.attachedFeeds, List.mem_filter, List.mem_finRange, true_and, Bool.and_eq_true, attached, beq_iff_eq,
    and_comm]

theorem State.attachedFeeds_pairwise (s : State) (su : Setup) (z : Fin 24) : (s.attachedFeeds su z).Pairwise (· < ·) :=
  (List.pairwise_lt_finRange 32).filter _

theorem State.attachedFeeds_nodup (s : State) (su : Setup) (z : Fin 24) : (s.attachedFeeds su z).Nodup :=
  (s.attachedFeeds_pairwise su z).imp fun h => Fin.ne_of_lt h

/-- The attached feeds when one more has been attached. -/
theorem State.attachedFeeds_of_joined {s t : State} {su : Setup} {z : Fin 24} {f : Fin 32} (hz : su.feedZone f = some z)
    (hbefore : ∀ p, (s.feed f).status ≠ .attached p) (hafter : ∃ p, (t.feed f).status = .attached p)
    (hrest : ∀ k, k ≠ f → t.feed k = s.feed k) : (t.attachedFeeds su z).length = (s.attachedFeeds su z).length + 1 := by
  have hnotin : f ∉ s.attachedFeeds su z := fun h => by
    obtain ⟨-, p, hp⟩ := State.mem_attachedFeeds.mp h
    exact hbefore p hp
  have hperm : (t.attachedFeeds su z).Perm (f :: s.attachedFeeds su z) := by
    refine (List.perm_ext_iff_of_nodup (t.attachedFeeds_nodup su z)
      (List.nodup_cons.mpr ⟨hnotin, s.attachedFeeds_nodup su z⟩)).mpr fun k => ?_
    rw [List.mem_cons, State.mem_attachedFeeds, State.mem_attachedFeeds]
    by_cases hk : k = f
    · subst hk
      exact ⟨fun _ => .inl rfl, fun _ => ⟨hz, hafter⟩⟩
    · rw [hrest k hk]
      simp [hk]
  simpa using hperm.length_eq

theorem State.attachedFeeds_congr {s t : State} (h : t.vr = s.vr) (su : Setup) (z : Fin 24) :
    t.attachedFeeds su z = s.attachedFeeds su z := by
  unfold State.attachedFeeds State.feed
  rw [h]

/-! ## Attaching a feed -/

theorem State.vr_hand (s : State) (r : Report) : (s.hand r).vr = s.vr := by rw [s.hand_changes r]

theorem State.feed_setFeed_of_ne (s : State) {f k : Fin 32} (x : Feed) (h : k ≠ f) : (s.setFeed f x).feed k = s.feed k := by
  simp [State.feed, State.setFeed, Fin.val_ne_of_ne (Ne.symm h)]

theorem State.sameBut_setFeed (s : State) (f : Fin 32) (x : Feed) : s.SameBut (s.setFeed f x) [.vr] := s.sameBut_vr _

/-- The zone of a feed that is being attached at `start`: set there when it was unset (R127). -/
def State.zoneSetFor (s : State) (z : Fin 24) (start : SSN) : State :=
  if (s.zone z).timeline.isNone then s.setZoneAt z start else s

theorem State.zoneSetFor_changes (s : State) (z : Fin 24) (start : SSN) :
    s.zoneSetFor z start = { s with zs := (s.zoneSetFor z start).zs } := by
  unfold State.zoneSetFor
  split <;> rfl

theorem State.zoneSetFor_spec (s : State) (z : Fin 24) (start : SSN) :
    (∀ t, (s.zone z).timeline = some t → (s.zoneSetFor z start).zone z = s.zone z) ∧
    ((s.zone z).timeline = none →
      (s.zoneSetFor z start).zone z = { s.zone z with timeline := some (Timeline.startingAt start) }) ∧
    (∀ k, k ≠ z → (s.zoneSetFor z start).zone k = s.zone k) ∧ ∀ w, (s.zoneSetFor z start).window w = s.window w := by
  unfold State.zoneSetFor
  refine ⟨fun t ht => by simp [ht], fun ht => ?_, fun k hk => ?_, fun w => ?_⟩
  · rw [if_pos (by simp [ht]), State.setZoneAt, State.zone_updZone]
    rfl
  · split
    · exact State.zone_updZone_ne _ _ _ _ hk
    · rfl
  · split <;> rfl

section
variable {s : State} {su : Setup} {f : Fin 32} {z : Fin 24} {start : SSN}

/-- An accepted ATTACH, by the zone of its feed. -/
theorem State.attachFeed_eq (hz : su.feedZone f = some z) : s.attachFeed su f start =
    let t := (s.zoneSetFor z start).setFeed f { s.feed f with status := .attached (Position.startingAt start) }
    t.handFeedState su f start (s.feed f).status.news .attached .attach (t.attachedFeeds su z).length := by
  have hfeed : (s.zoneSetFor z start).feed f = s.feed f :=
    State.feed_congr (by rw [State.zoneSetFor_changes]) f
  unfold State.attachFeed
  rw [hz, ← hfeed]
  rfl

/-- What an accepted ATTACH leaves of the feeds, the zones and the reports (R127, R147, R148, R164). -/
theorem State.attachFeed_spec (hz : su.feedZone f = some z) (hbefore : ∀ p, (s.feed f).status ≠ .attached p) :
    let t := s.attachFeed su f start
    t.feed f = { s.feed f with status := .attached (Position.startingAt start) } ∧
    (∀ k, k ≠ f → t.feed k = s.feed k) ∧
    (∀ k, t.zone k = (s.zoneSetFor z start).zone k) ∧ (∀ w, t.window w = s.window w) ∧
    t.rw = (s.hand (.feedState f (byte su.feeds[f].zone) (byte su.feeds[f].lane) start (s.feed f).status.news .attached
      .attach ((s.attachedFeeds su z).length + 1))).rw ∧
    s.SameBut t [.zs, .vr, .rw] := by
  intro t
  have ht : t = _ := State.attachFeed_eq hz
  have hvr : (s.zoneSetFor z start).vr = s.vr := by rw [State.zoneSetFor_changes]
  have hself := State.feed_setFeed (s.zoneSetFor z start) f { s.feed f with status := .attached (Position.startingAt start) }
  have hrest : ∀ k, k ≠ f → ((s.zoneSetFor z start).setFeed f
      { s.feed f with status := .attached (Position.startingAt start) }).feed k = s.feed k := fun k hk =>
    (State.feed_setFeed_of_ne _ _ hk).trans (State.feed_congr hvr k)
  have hcount := State.attachedFeeds_of_joined hz hbefore ⟨_, congrArg Feed.status hself⟩ hrest
  have hsame : s.SameBut (s.zoneSetFor z start) [.zs] := by
    rw [State.zoneSetFor_changes]
    exact s.sameBut_zs _
  obtain ⟨-, -, -, hwindow⟩ := s.zoneSetFor_spec z start
  rw [ht]
  dsimp only
  rw [hcount]
  refine ⟨(State.feed_congr (State.vr_hand _ _) f).trans hself,
    fun k hk => (State.feed_congr (State.vr_hand _ _) k).trans (hrest k hk), fun k => State.zone_hand _ _ k,
    fun w => (State.window_hand _ _ w).trans (hwindow w), ?_, ?_⟩
  · exact State.hand_rw_congr _ (hsame .ps (by simp)) (hsame .tb (by simp)) (hsame .rw (by simp))
  · exact ((hsame.mono (by simp)).trans ((State.sameBut_setFeed _ f _).mono (by simp))).trans
      ((State.sameBut_hand _ _).mono (by simp))

end

/-! ## The command -/

section
variable {s : State} {su : Setup} {f : Fin 32} {z : Fin 24} {start : SSN}

theorem State.attachResult_of_attached {p : Position} (h : (s.feed f).status = .attached p) :
    s.attachResult su f start = .wrongState := by
  simp [State.attachResult, h]

/-- A feed that is not attached may attach where its zone's timeline, if set, allows it (R147). -/
theorem State.attachResult_of_not_attached (h : ∀ p, (s.feed f).status ≠ .attached p) (hz : su.feedZone f = some z) :
    s.attachResult su f start =
      if ∀ t, (s.zone z).timeline = some t → precedes t.trail start = true ∧ atOrBefore start (t.horizon + 1) = true
      then .accepted else .attachRange := by
  unfold State.attachResult
  split
  · next hp => exact absurd hp (h _)
  · next y hy _ =>
    obtain rfl : z = y := Option.some_inj.mp (hz.symm.trans hy)
    split
    · next hn => simp [hn]
    · next t ht => simp [ht]
  · next hn _ => simp [hz] at hn

theorem State.doAttach_of_bad {c : CommandRec} (h : ¬ ∃ f : Fin 32, c.arg1.toNat = f.val ∧ su.feeds[f].enabled = true ∧
    (su.feedLane f).isSome = true) : s.doAttach su c = s.handResult c .badArgument := by
  unfold State.doAttach
  split
  · rfl
  · next f hf =>
    obtain ⟨hc, hlane⟩ := Option.filter_eq_some_iff.mp hf
    obtain ⟨hn, hen⟩ := Setup.commandFeed_eq_some_iff.mp hc
    exact absurd ⟨f, hn, hen, hlane⟩ h

theorem State.doAttach_eq {c : CommandRec} (hf : c.arg1.toNat = f.val) (hen : su.feeds[f].enabled = true)
    (hlane : (su.feedLane f).isSome = true) : s.doAttach su c =
      if s.attachResult su f c.arg2 = .accepted then (s.handResult c .accepted).attachFeed su f c.arg2
      else s.handResult c (s.attachResult su f c.arg2) := by
  have hnamed : (su.commandFeed c).filter (fun f => (su.feedLane f).isSome) = some f :=
    Option.filter_eq_some_iff.mpr ⟨Setup.commandFeed_eq_some_iff.mpr ⟨hf, hen⟩, hlane⟩
  unfold State.doAttach
  rw [hnamed]
  dsimp only
  split
  · next h => rw [h]
  · rfl

end

/-- Settles O30: what ATTACH answers, and the feed, the zone and the reports of one that is accepted. -/
theorem attachTaken : Obligations.AttachTaken := by
  intro s l g a su h hrun
  refine ⟨_, _, s.planLanded_planDone l a, congrArg Host.Outcome.next (h.act_inRunning hrun State.doAttach), ?_⟩
  generalize s.planDone l a = u
  intro start
  refine ⟨State.doAttach_of_bad, fun f z hf hlane hz => ?_⟩
  intro allowed
  obtain ⟨hen, -⟩ := Setup.feedZone_eq_some_iff.mp hz
  rw [State.doAttach_eq hf hen hlane]
  refine ⟨fun p hp => ?_, fun hp hbad => ?_, fun hp hok => ?_⟩
  · rw [State.attachResult_of_attached hp]
    rfl
  · rw [State.attachResult_of_not_attached hp hz, if_neg hbad]
    rfl
  · rw [State.attachResult_of_not_attached hp hz, if_pos hok, if_pos rfl]
    have hfeed : ∀ k, (u.handResult u.command .accepted).feed k = u.feed k := State.feed_congr (State.vr_hand _ _)
    have hzone := u.zone_handResult u.command .accepted
    have hcount := State.attachedFeeds_congr (u.vr_hand (.commandResult (byte u.command.code) u.command.ticket
      (if u.command.code = 3 ∨ u.command.code = 6 ∨ u.command.code = 7 then u.command.arg1 else 0)
      (if u.command.code = 6 then u.command.arg2 else 0) .accepted)) su z
    obtain ⟨hself, hfeeds, hzones, hwindows, hrw, hsame⟩ :=
      State.attachFeed_spec (s := u.handResult u.command .accepted) (start := start) hz fun p => by rw [hfeed]; exact hp p
    obtain ⟨hset, hunset, hothers, -⟩ := (u.handResult u.command .accepted).zoneSetFor_spec z start
    simp only [hfeed, hzone] at hself hfeeds hset hunset hothers
    refine ⟨hself, hfeeds, fun t ht => (hzones z).trans (hset t ht), fun ht => (hzones z).trans (hunset ht),
      fun k hk => (hzones k).trans (hothers k hk), fun w => (hwindows w).trans (u.window_handResult _ _ w), ?_,
      ((u.sameBut_handResult _ _).mono (by simp)).trans hsame⟩
    rw [hrw, hfeed, ← hcount]
    rfl

end Sys2Proof.Machine
end

section
/-! Feeds that leave their zones, and the held list examined after it: what both leave of feeds, zones, windows and lanes
(R86, R126, R130, R149, R150, R172, R173). -/

namespace Sys2Proof.Machine

/-! ## Outcomes given without any other change of a zone -/

/-- Between two states zones have become NATIONAL at most, and no outcome that a window held has changed. -/
structure State.OutcomesGiven (s t : State) : Prop where
  zones : ∀ z, t.zone z = s.zone z ∨ t.zone z = (s.zone z).toNational
  kept : ∀ (w : Fin 64) (z : Fin 24) (o : ZoneOutcome), (s.window w).outcomes[z] = some o → (t.window w).outcomes[z] = some o

theorem State.OutcomesGiven.refl (s : State) : s.OutcomesGiven s := ⟨fun _ => .inl rfl, fun _ _ _ => id⟩

theorem State.OutcomesGiven.of_zs {s t : State} (h : t.zs = s.zs) : s.OutcomesGiven t where
  zones z := .inl (congrArg (fun x : ZoneScheduler => x.zones[z]) h)
  kept w z o ho := (congrArg (fun x : ZoneScheduler => x.windows[w].outcomes[z]) h).trans ho

theorem State.OutcomesGiven.trans {s t u : State} (h : s.OutcomesGiven t) (k : t.OutcomesGiven u) : s.OutcomesGiven u where
  zones z := by
    rcases h.zones z with hz | hz <;> rcases k.zones z with kz | kz <;> rw [kz, hz]
    · exact .inl rfl
    · exact .inr rfl
    · exact .inr rfl
    · exact .inr rfl
  kept w z o ho := k.kept w z o (h.kept w z o ho)

theorem State.OutcomesGiven.foldl {α : Type} {f : State → α → State}
    (h : ∀ (s : State) (x : α), s.OutcomesGiven (f s x)) (l : List α)
    (s : State) : s.OutcomesGiven (l.foldl f s) := by
  induction l generalizing s with
  | nil => exact .refl s
  | cons x l ih => exact (h s x).trans (ih (f s x))

theorem State.OutcomesGiven.timeline {s t : State} (h : s.OutcomesGiven t) (z : Fin 24) :
    (t.zone z).timeline = (s.zone z).timeline := by
  rcases h.zones z with hz | hz <;> rw [hz]
  rfl

theorem State.OutcomesGiven.national {s t : State} (h : s.OutcomesGiven t) {z : Fin 24}
    (hz : (s.zone z).status = .national) : (t.zone z).status = .national := by
  rcases h.zones z with h | h <;> rw [h]
  · exact hz
  · rfl

section
variable (s : State) (su : Setup)

theorem State.outcomesGiven_giveOutcome (w : Fin 64) (z : Fin 24) (o : ZoneOutcome) (n : SSN) :
    s.OutcomesGiven (s.giveOutcome w z o n) where
  zones k := by
    rw [State.zone_giveOutcome]
    split
    · next h => exact .inr (by rw [h.1])
    · exact .inl rfl
  kept v k x hx := by
    rw [State.outcomes_giveOutcome, if_neg fun c => ?_]
    · exact hx
    · simp [hx] at c

theorem State.outcomesGiven_settleWindow (w : Fin 64) : s.OutcomesGiven (s.settleWindow su w) where
  zones k := .inl (s.zone_settleWindow su w k)
  kept v k x hx := by
    obtain ⟨-, hothers, hkept⟩ := s.settleWindow_keeps su w
    by_cases hv : v = w
    · subst hv
      exact (hkept k).trans hx
    · rw [hothers v hv]
      exact hx

theorem State.outcomesGiven_moveHead (ring : RingId) (n : SSN) : s.OutcomesGiven (s.moveHead su ring n) := by
  have hset : s.OutcomesGiven (s.setHead n ring) := .of_zs (by cases ring <;> rfl)
  have hround : ∀ (t : State) (w : Fin 64), t.OutcomesGiven (t.unattendWindow su n w) := fun t w => by
    unfold State.unattendWindow
    split
    · exact (State.OutcomesGiven.foldl (fun t z => t.outcomesGiven_giveOutcome w z .unattended n) _ t).trans
        (State.outcomesGiven_settleWindow _ su w)
    · exact .refl t
  unfold State.moveHead
  split
  · cases ring with
    | national => exact hset.trans (State.OutcomesGiven.foldl hround _ _)
    | regional r p => exact hset
  · exact .refl s

theorem State.outcomesGiven_release (h : HeldWrite) : s.OutcomesGiven (s.release su h) := by
  unfold State.release State.acceptRingWrite
  dsimp only
  split
  · have hmoved := State.outcomesGiven_moveHead ((s.dropHeld h.lane).setEntry h.ring h.slot
      (arrivingEntry h.ring ((s.dropHeld h.lane).head h.ring) h.req.body.data)) su h.ring (cellSsn h.req.body.data)
    have hbefore : s.OutcomesGiven ((s.dropHeld h.lane).setEntry h.ring h.slot
      (arrivingEntry h.ring ((s.dropHeld h.lane).head h.ring) h.req.body.data)) := .of_zs rfl
    refine (hbefore.trans hmoved).trans ?_
    exact .of_zs rfl
  · exact .of_zs rfl

theorem State.outcomesGiven_examineList (l : List HeldWrite) : s.OutcomesGiven (State.examineList su l s) := by
  induction l generalizing s with
  | nil => exact .refl s
  | cons h l ih =>
    refine State.OutcomesGiven.trans ?_ (ih _)
    split
    · exact .refl s
    · exact s.outcomesGiven_release su h

end

/-! ## An examination of held writes (R172, R173) -/

/-- What an examination of a list of held writes leaves as it was. -/
structure State.ExaminationKept (l : List HeldWrite) (s t : State) : Prop where
  timelines : ∀ z, (t.zone z).timeline = (s.zone z).timeline
  arbiter : t.la = { s.la with lanes := t.la.lanes }
  lanes : ∀ k, (∀ h ∈ l, k ≠ ext h.lane) → t.lane k = s.lane k
  rest : s.SameBut t [.la, .ic, .zs, .rg, .rw]

theorem State.ReleasedAs.kept {s t : State} {su : Setup} {h : HeldWrite} (r : s.ReleasedAs t su h) :
    State.ExaminationKept [h] s t where
  timelines z := by
    cases hrun : s.isRunning with
    | true => exact (r.accepted hrun).timelines z
    | false => exact congrArg (fun x : ZoneScheduler => x.zones[z].timeline) (r.unaccepted hrun .zs (by simp))
  arbiter := r.arbiter
  lanes k hk := r.lanes k (hk h (by simp))
  rest := r.rest

theorem State.Examined.kept {su : Setup} {l : List HeldWrite} {s t : State} (h : State.Examined su l s t) :
    State.ExaminationKept l s t := by
  induction l generalizing s with
  | nil =>
    obtain rfl : s = t := h.symm
    exact ⟨fun _ => rfl, rfl, fun _ _ => rfl, .refl _ _⟩
  | cons x l ih =>
    obtain ⟨u, ⟨hheld, hreleased⟩, hrest⟩ := h
    have first : State.ExaminationKept [x] s u := by
      by_cases hx : s.StillHeld su x
      · rw [hheld hx]
        exact ⟨fun _ => rfl, rfl, fun _ _ => rfl, .refl _ _⟩
      · exact (hreleased hx).kept
    have rest := ih hrest
    refine ⟨fun z => (rest.timelines z).trans (first.timelines z), ?_, fun k hk => ?_, first.rest.trans rest.rest⟩
    · rw [rest.arbiter, first.arbiter]
    · exact (rest.lanes k fun h hm => hk h (by simp [hm])).trans (first.lanes k fun h hm => hk h (by simp_all))

theorem State.examined_examine (s : State) (su : Setup) : State.Examined su s.rg.held s (s.examine su) :=
  State.examined_examineList su s.rg.held s

/-! ## Whether some trail has moved (R172) -/

theorem State.trailsMoved_iff {s t : State} (h : ∀ z, (s.zone z).timeline = none → (t.zone z).timeline = none) :
    s.trailsMoved t = true ↔ ∃ z, s.TrailMoved t z := by
  simp only [State.trailsMoved, List.any_eq_true, List.mem_finRange, true_and, State.TrailMoved]
  refine exists_congr fun z => ?_
  cases hs : (s.zone z).timeline with
  | none => simp [h z hs]
  | some x =>
    cases ht : (t.zone z).timeline with
    | none => simp
    | some y => simp

/-- The examination after an act in which one zone's timeline alone has changed. -/
theorem State.examineAfter_spec {s t : State} (su : Setup) {z : Fin 24}
    (hothers : ∀ k, k ≠ z → (t.zone k).timeline = (s.zone k).timeline)
    (hunset : (s.zone z).timeline = none → (t.zone z).timeline = none) :
    (s.TrailMoved t z → State.Examined su t.rg.held t (s.examineAfter t su)) ∧
    (¬ s.TrailMoved t z → s.examineAfter t su = t) := by
  have hmoved : s.trailsMoved t = true ↔ s.TrailMoved t z := by
    refine (State.trailsMoved_iff fun k hk => ?_).trans ⟨fun ⟨k, hk⟩ => ?_, fun h => ⟨z, h⟩⟩
    · by_cases hkz : k = z
      · exact hkz ▸ hunset (hkz ▸ hk)
      · rw [hothers k hkz, hk]
    · by_cases hkz : k = z
      · exact hkz ▸ hk
      · exact absurd (congrArg _ (hothers k hkz)) hk
  refine ⟨fun h => ?_, fun h => if_neg (hmoved.not.mpr h)⟩
  rw [State.examineAfter, if_pos (hmoved.mpr h)]
  exact t.examined_examine su

theorem State.outcomesGiven_examineAfter (s t : State) (su : Setup) : t.OutcomesGiven (s.examineAfter t su) := by
  unfold State.examineAfter
  split
  · exact t.outcomesGiven_examineList su _
  · exact .refl t

/-- Either way the examination after an act keeps what an examination keeps. -/
theorem State.examinationKept_examineAfter (s t : State) (su : Setup) :
    State.ExaminationKept t.rg.held t (s.examineAfter t su) := by
  unfold State.examineAfter
  split
  · exact (t.examined_examine su).kept
  · exact ⟨fun _ => rfl, rfl, fun _ _ => rfl, .refl _ _⟩

/-! ## A feed that leaves its zone (R150) -/

section
variable (s : State) (su : Setup) (z : Fin 24)

/-- A zone that is unset keeps no timeline, and the window it referred to holds UNATTENDED for it (R121, R130). -/
theorem State.unsetZone_spec :
    ((s.unsetZone su z).zone z).timeline = none ∧ (∀ k, k ≠ z → (s.unsetZone su z).zone k = s.zone k) ∧
    ∀ w, (s.zone z).status.window? = some w → (s.window w).outcomes[z] = none →
      ((s.unsetZone su z).zone z).status = .national ∧ ((s.unsetZone su z).window w).outcomes[z] = some .unattended := by
  have hself := s.zone_updZone z fun x => { x with timeline := none }
  have hothers := fun k hk => s.zone_updZone_ne z k (fun x => { x with timeline := none }) hk
  unfold State.unsetZone State.outcomeAndSettle
  dsimp only
  split
  · next w hw =>
    refine ⟨?_, fun k hk => ?_, fun v hv ho => ?_⟩
    · rw [State.zone_settleWindow, State.zone_giveOutcome]
      split
      · rw [hself]
        rfl
      · rw [hself]
    · rw [State.zone_settleWindow, State.zone_giveOutcome, if_neg fun c => hk c.1, hothers k hk]
    · obtain rfl : w = v := Option.some_inj.mp (hw.symm.trans hv)
      obtain ⟨-, -, hkept⟩ := State.settleWindow_keeps
        ((s.updZone z fun x => { x with timeline := none }).giveOutcome w z .unattended (s.horizonOrZero z)) su w
      refine ⟨?_, (hkept z).trans ((State.outcomes_giveOutcome ..).trans (if_pos ⟨rfl, rfl, ho⟩))⟩
      rw [State.zone_settleWindow, State.zone_giveOutcome, if_pos ⟨rfl, ho, by rw [hself]; exact hw⟩]
      rfl
  · next hw => exact ⟨by rw [hself], hothers, fun v hv => absurd (hw.symm.trans hv) (by simp)⟩

end

section
variable {s t : State} {su : Setup} {f : Fin 32} {z : Fin 24}

/-- The attached feeds of a zone that a feed has left. -/
theorem State.attachedFeeds_of_left (hafter : ∀ p, (t.feed f).status ≠ .attached p)
    (hrest : ∀ k, k ≠ f → t.feed k = s.feed k) :
    t.attachedFeeds su z = (s.attachedFeeds su z).filter (fun k => k != f) := by
  unfold State.attachedFeeds
  rw [List.filter_filter]
  refine List.filter_congr fun k _ => ?_
  by_cases hk : k = f
  · subst hk
    have hnone : (t.feed k).status.position? = none := by
      cases hs : (t.feed k).status with
      | attached p => exact absurd hs (hafter p)
      | _ => rfl
    simp [hnone]
  · simp [hrest k hk, hk]

/-- The positions of feeds that a change of one feed leaves alone. -/
theorem State.lasts_of_left (hrest : ∀ k, k ≠ f → t.feed k = s.feed k) :
    ((s.attachedFeeds su z).filter (fun k => k != f)).filterMap (fun k => (t.feed k).status.position?.map (·.last)) =
      ((s.attachedFeeds su z).filter (fun k => k != f)).filterMap (fun k => (s.feed k).status.position?.map (·.last)) := by
  refine List.filterMap_congr fun k hk => ?_
  rw [hrest k (by simpa using (List.mem_filter.mp hk).2)]

end

section
variable {s : State} {su : Setup} {f : Fin 32} {p : Position} {target : FeedStatus} {reason : FeedReason}

/-- A feed that drops its position takes a new record, with its report. -/
theorem State.feedChanged_dropFeed (s : State) (su : Setup) (f : Fin 32) (p : Position) (target : FeedStatus)
    (reason : FeedReason) : s.FeedChanged (s.dropFeed su f p target reason) su f
      { status := target, inFlight := (s.feed f).inFlight.map InFlight.uncounted } p.last .attached reason :=
  s.feedChanged_setFeed su f { status := target, inFlight := (s.feed f).inFlight.map InFlight.uncounted } p.last .attached
    reason

theorem State.vr_zoneLeft (s : State) (su : Setup) (z : Fin 24) : (s.zoneLeft su z).vr = s.vr := by
  unfold State.zoneLeft State.unsetZone
  dsimp only
  repeat' split
  · exact (State.zoned_outcomeAndSettle _ su _ z _ _).vr
  · rfl
  · exact (s.zoned_recomputeTrail su z).vr

theorem State.leaveAttached_of_zone {z : Fin 24} (hz : su.feedZone f = some z) :
    s.leaveAttached su f p target reason = (s.dropFeed su f p target reason).zoneLeft su z := by
  simp [State.leaveAttached, hz]

/-- What a feed that leaves ATTACHED leaves of the feeds (R150). -/
theorem State.feed_leaveAttached (k : Fin 32) : (s.leaveAttached su f p target reason).feed k =
    if k = f then { status := target, inFlight := (s.feed f).inFlight.map InFlight.uncounted } else s.feed k := by
  obtain ⟨hself, hrest, -, -⟩ := s.feedChanged_dropFeed su f p target reason
  have hvr : (s.leaveAttached su f p target reason).vr = (s.dropFeed su f p target reason).vr := by
    unfold State.leaveAttached
    dsimp only
    split
    · exact State.vr_zoneLeft _ su _
    · rfl
  rw [State.feed_congr hvr k]
  split
  · next h => rw [h, hself]
  · next h => exact hrest k h

/-- What it leaves of the zones, by the feeds that stay attached to its own (R121, R126, R130, R150). -/
theorem State.leaveAttached_zones {z : Fin 24} (hz : su.feedZone f = some z) (htarget : ∀ p, target ≠ .attached p) :
    let t := s.leaveAttached su f p target reason
    let others := (s.attachedFeeds su z).filter (fun k => k != f)
    (∀ k, k ≠ z → t.zone k = s.zone k) ∧
    (others = [] → (t.zone z).timeline = none ∧
      ∀ w, (s.zone z).status.window? = some w → (s.window w).outcomes[z] = none →
        (t.zone z).status = .national ∧ (t.window w).outcomes[z] = some .unattended) ∧
    (others ≠ [] → ∃ x, least (others.filterMap (fun k => (s.feed k).status.position?.map (·.last))) = some x ∧
      t.zone z = { s.zone z with
        timeline := (s.zone z).timeline.map (fun tl =>
          if precedes tl.trail x then { tl with trail := x, log := retire x tl.log } else tl) }) := by
  intro t others
  have ht : t = (s.dropFeed su f p target reason).zoneLeft su z := State.leaveAttached_of_zone hz
  obtain ⟨hself, hrest, -, hsame⟩ := s.feedChanged_dropFeed su f p target reason
  have hzs : (s.dropFeed su f p target reason).zs = s.zs := hsame .zs (by simp)
  generalize s.dropFeed su f p target reason = y at *
  have hzone : ∀ k, y.zone k = s.zone k := fun k => congrArg (fun x : ZoneScheduler => x.zones[k]) hzs
  have hwindow : ∀ w, y.window w = s.window w := fun w => congrArg (fun x : ZoneScheduler => x.windows[w]) hzs
  have hothers : y.attachedFeeds su z = others :=
    State.attachedFeeds_of_left (fun p hp => htarget p (by rw [← hp, hself])) hrest
  have hlasts := State.lasts_of_left (su := su) (z := z) hrest
  by_cases ho : others = []
  · have hleft : t = y.unsetZone su z := by
      rw [ht, State.zoneLeft, if_pos (by simp [hothers, ho])]
    obtain ⟨hunset, hkept, hgiven⟩ := y.unsetZone_spec su z
    rw [hleft]
    simp only [hzone, hwindow] at hkept hgiven
    exact ⟨hkept, fun _ => ⟨hunset, hgiven⟩, fun h => absurd ho h⟩
  · have hleft : t = y.recomputeTrail su z := by
      rw [ht, State.zoneLeft, if_neg (by simp [hothers, ho])]
    obtain ⟨⟨x, hx, hmoved⟩, hkept, -, -⟩ := y.trailFollowed_recomputeTrail su z (hothers ▸ ho)
    rw [hleft]
    simp only [hzone] at hkept hmoved
    refine ⟨hkept, fun h => absurd h ho, fun _ => ⟨x, ?_, hmoved⟩⟩
    rw [← hx, hothers]
    exact congrArg least hlasts.symm

end

end Sys2Proof.Machine
end

section
/-! The command DETACH (R71, R149, R150), the expiry of a hold (R171, R174), and redirected view reads that complete (R160 to
R163). -/

namespace Sys2Proof.Machine

/-! ## The command DETACH -/

theorem State.vr_handResult (s : State) (c : CommandRec) (r : CommandResult) : (s.handResult c r).vr = s.vr := s.vr_hand _

section
variable {s : State} {su : Setup} {f : Fin 32} {c : CommandRec}

theorem State.doDetach_of_bad (h : ¬ ∃ f : Fin 32, c.arg1.toNat = f.val ∧ su.feeds[f].enabled = true) :
    s.doDetach su c = s.handResult c .badArgument := by
  unfold State.doDetach
  split
  · rfl
  · next f hf => exact absurd ⟨f, Setup.commandFeed_eq_some_iff.mp hf⟩ h

theorem State.doDetach_of_detached (hf : su.commandFeed c = some f) (h : (s.feed f).status = .detached) :
    s.doDetach su c = s.handResult c .wrongState := by
  simp [State.doDetach, hf, State.detachResult, h]

theorem State.doDetach_of_accepted (hf : su.commandFeed c = some f) (h : (s.feed f).status ≠ .detached) :
    s.doDetach su c = (s.handResult c .accepted).examineAfter ((s.handResult c .accepted).detachFeed su f) su := by
  have hok : s.detachResult f = .accepted := by
    unfold State.detachResult
    split
    · next hd => exact absurd hd h
    · rfl
  simp only [State.doDetach, hf, hok, if_true]

theorem State.feedChanged_detachFeed (h : (s.feed f).status = .slipped) :
    s.FeedChanged (s.detachFeed su f) su f { s.feed f with status := .detached } 0 .slipped .detach := by
  simp only [State.detachFeed, h]
  exact s.feedChanged_setFeed su f { s.feed f with status := .detached } 0 .slipped .detach

theorem State.detachFeed_of_attached {p : Position} (h : (s.feed f).status = .attached p) :
    s.detachFeed su f = s.leaveAttached su f p .detached .detach := by
  simp [State.detachFeed, h]

end

/-- Settles O31: what DETACH answers, and the feed, the zone, the reports and the held list after one that is accepted. -/
theorem detachTaken : Obligations.DetachTaken := by
  refine ⟨fun s su z => ⟨s.attachedFeeds_pairwise su z, fun f => State.mem_attachedFeeds⟩, fun s l g a su h hrun => ?_⟩
  refine ⟨_, _, s.planLanded_planDone l a, congrArg Host.Outcome.next (h.act_inRunning hrun State.doDetach),
    State.doDetach_of_bad, fun f z hf hz => ?_⟩
  generalize s.planDone l a = u at *
  intro others report
  have hnamed : su.commandFeed u.command = some f :=
    Setup.commandFeed_eq_some_iff.mpr ⟨hf, (Setup.feedZone_eq_some_iff.mp hz).1⟩
  have hsame := u.sameBut_handResult u.command .accepted
  have hfeed : ∀ k, (u.handResult u.command .accepted).feed k = u.feed k := State.feed_congr (u.vr_handResult _ _)
  have hzone := u.zone_handResult u.command .accepted
  have hwindow := u.window_handResult u.command .accepted
  have hattached : (u.handResult u.command .accepted).attachedFeeds su z = u.attachedFeeds su z :=
    State.attachedFeeds_congr (u.vr_handResult _ _) su z
  refine ⟨State.doDetach_of_detached hnamed, fun hs => ?_, fun p hp => ?_⟩
  · rw [State.doDetach_of_accepted hnamed (by simp [hs])]
    obtain ⟨hself, hrest, ⟨n, hreport, hcount, -⟩, hchanged⟩ :=
      State.feedChanged_detachFeed (su := su) (s := u.handResult u.command .accepted) (by rw [hfeed]; exact hs)
    obtain rfl : n = others.length := by rw [hcount z hz, hattached]
    generalize (u.handResult u.command .accepted).detachFeed su f = y at *
    have hzones : ∀ k, y.zone k = u.zone k := fun k =>
      (congrArg (fun q : ZoneScheduler => q.zones[k]) (hchanged .zs (by simp))).trans (hzone k)
    obtain ⟨-, hstay⟩ := State.examineAfter_spec (s := u.handResult u.command .accepted) (t := y) su (z := z)
      (fun k _ => by rw [hzones, hzone]) fun hn => by rw [hzones, ← hzone, hn]
    rw [hstay fun hm => hm (by rw [hzones, hzone])]
    refine ⟨congrArg Feed.status hself, ?_, fun k hk => (hrest k hk).trans (hfeed k), hreport, ?_⟩
    · rw [hself, hfeed]
    · exact (hsame.mono (by simp)).trans hchanged
  · rw [State.doDetach_of_accepted hnamed (by simp [hp]), State.detachFeed_of_attached (by rw [hfeed]; exact hp)]
    generalize hx : u.handResult u.command .accepted = x at *
    have hpx : (x.feed f).status = .attached p := by rw [hfeed]; exact hp
    have hleft := x.leftAttached_leaveAttached su f p .detached .detach hpx
    have hfeeds := fun k => State.feed_leaveAttached (s := x) (su := su) (f := f) (p := p) (target := .detached)
      (reason := .detach) k
    have hsched := (x.scheduled_leaveAttached su f p .detached .detach).sameBut
    obtain ⟨hzones, hunset, htrail⟩ := State.leaveAttached_zones (s := x) (p := p) (target := .detached) (reason := .detach) hz
      (by simp)
    generalize x.leaveAttached su f p .detached .detach = y at *
    have hkept := State.examinationKept_examineAfter x y su
    have hgiven := State.outcomesGiven_examineAfter x y su
    obtain ⟨hexamined, hstay⟩ := State.examineAfter_spec (s := x) (t := y) su (z := z)
      (fun k hk => by rw [hzones k hk]) fun hn => by
        by_cases ho : (x.attachedFeeds su z).filter (fun k => k != f) = []
        · exact (hunset ho).1
        · obtain ⟨t, -, ht⟩ := htrail ho
          rw [ht, hn]
          rfl
    generalize x.examineAfter y su = v at *
    have hrg : y.rg = u.rg := (hsched .rg (by simp)).trans (hsame .rg (by simp))
    have hla : y.la = u.la := (hsched .la (by simp)).trans (hsame .la (by simp))
    have hvr : v.vr = y.vr := hkept.rest .vr (by simp)
    have hvfeed : ∀ k, v.feed k = y.feed k := State.feed_congr hvr
    simp only [hattached] at hunset htrail
    simp only [hfeed] at htrail hfeeds
    refine ⟨?_, ?_, fun k hk => ?_, fun k hk => ?_, fun ho => ⟨?_, fun w hw hn => ?_⟩, fun ho t ht => ?_, ⟨y, hleft, ?_, hvr.symm,
      fun k => (hkept.timelines k).symm, ?_, ?_⟩, ?_, fun k hk => ?_, ?_⟩
    · rw [hvfeed, hfeeds, if_pos rfl]
    · rw [hvfeed, hfeeds, if_pos rfl]
    · rw [hvfeed, hfeeds, if_neg hk]
    · rw [hkept.timelines, hzones k hk, hzone]
    · rw [hkept.timelines]
      exact (hunset ho).1
    · obtain ⟨hnational, hout⟩ := (hunset ho).2 w (by rw [hzone]; exact hw) (by rw [hwindow]; exact hn)
      exact ⟨hgiven.national hnational, hgiven.kept w z _ hout⟩
    · obtain ⟨m, hm, hmoved⟩ := htrail ho
      rw [hzone, ht] at hmoved
      rw [hkept.timelines, hmoved]
      refine ⟨if precedes t.trail m then { t with trail := m, log := retire m t.log } else t, m, rfl, ?_, hm, ?_⟩
      · split <;> rfl
      · split <;> rfl
    · exact (hsame.mono (by simp)).trans hsched
    · exact fun hm => hexamined fun e => hm (by rw [e, hzone])
    · exact fun hm => hstay fun e => hm fun e' => e (by rw [e', hzone])
    · rw [hkept.arbiter, hla]
    · rw [hkept.lanes k (by rw [hrg]; exact hk)]
      exact congrArg (fun q : LaneArbiter => q.lanes[k]) hla
    · exact ((hsame.mono (by simp)).trans (hsched.mono (by simp))).trans (hkept.rest.mono (by simp))

end Sys2Proof.Machine
end

section
/-! The expiry of a hold (R171, R174, R175), and redirected view reads that complete (R160 to R163). -/

namespace Sys2Proof.Machine

/-! ## Feeds slipped one after the other (R151) -/

section
variable (s : State) (su : Setup) (reason : FeedReason)

theorem State.feed_slip (f k : Fin 32) {p : Position} (hp : (s.feed f).status = .attached p) :
    (s.slip su reason f).feed k =
      if k = f then { status := .slipped, inFlight := (s.feed f).inFlight.map InFlight.uncounted } else s.feed k := by
  simp only [State.slip, hp, State.feed_leaveAttached]

/-- Attached feeds slipped one after the other: each of them is SLIPPED, no other feed changes. -/
theorem State.feed_slipAll (feeds : List (Fin 32)) (hn : feeds.Nodup)
    (hattached : ∀ f ∈ feeds, ∃ p, (s.feed f).status = .attached p) (k : Fin 32) :
    (s.slipAll su reason feeds).feed k =
      if k ∈ feeds then { status := .slipped, inFlight := (s.feed k).inFlight.map InFlight.uncounted } else s.feed k := by
  induction feeds generalizing s with
  | nil => rfl
  | cons f feeds ih =>
    obtain ⟨hf, hn⟩ := List.nodup_cons.mp hn
    obtain ⟨p, hp⟩ := hattached f (by simp)
    have hfeed := s.feed_slip su reason f (hp := hp)
    have hrest : ∀ j, j ≠ f → (s.slip su reason f).feed j = s.feed j := fun j hj => by rw [hfeed, if_neg hj]
    refine (ih (s.slip su reason f) hn fun j hj => ?_).trans ?_
    · have hjf : j ≠ f := fun e => hf (e ▸ hj)
      rw [hrest j hjf]
      exact hattached j (by simp [hj])
    · by_cases hk : k = f
      · subst hk
        rw [if_neg hf, hfeed, if_pos rfl, if_pos (by simp)]
      · simp [hrest k hk, hk]

end

/-! ## The held write whose timer has run out (R171, R174) -/

section
variable {s : State} {su : Setup} {h : HeldWrite}

/-- No two writes of the held list are of one lane (R170). -/
theorem State.HeldLanes.eq_of_lane (hs : s.HeldLanes) {x : HeldWrite} (hx : x ∈ s.rg.held) (hh : h ∈ s.rg.held)
    (hl : x.lane = h.lane) : x = h := List.inj_on_of_nodup_map hs.2 hx hh hl

theorem State.expireHoldOf_of_early (hs : s.HeldLanes) (hh : h ∈ s.rg.held) (ht : h.timer < su.holdLimit) :
    s.expireHoldOf su h.lane = s := by
  unfold State.expireHoldOf
  split
  · next x hx =>
    have hkey := List.find?_some hx
    simp only [Bool.and_eq_true, beq_iff_eq, decide_eq_true_eq] at hkey
    obtain rfl := hs.eq_of_lane (List.mem_of_find?_eq_some hx) hh hkey.1
    omega
  · rfl

theorem State.expireHoldOf_of_due (hs : s.HeldLanes) (hh : h ∈ s.rg.held) (ht : su.holdLimit ≤ h.timer) :
    s.expireHoldOf su h.lane = (s.expireHold su h).settlePort := by
  unfold State.expireHoldOf
  split
  · next x hx =>
    have hkey := List.find?_some hx
    simp only [Bool.and_eq_true, beq_iff_eq, decide_eq_true_eq] at hkey
    rw [hs.eq_of_lane (List.mem_of_find?_eq_some hx) hh hkey.1]
  · next hx =>
    have := List.find?_eq_none.mp hx h hh
    simp [ht] at this

theorem State.mem_expiryFeeds {f : Fin 32} : f ∈ s.expiryFeeds su h ↔ ∃ p z, (s.feed f).status = .attached p ∧
    su.feedZone f = some z ∧ s.RangePinned su h.ring h.old z ∧ atOrBefore p.last h.old = true := by
  simp only [State.expiryFeeds, List.mem_filter, List.mem_finRange, true_and]
  split
  · next p z hp hz => simp [hp, hz, State.rangePins_iff]
  · next hn =>
    refine iff_of_false (by simp) ?_
    rintro ⟨p, z, hp, hz, -⟩
    exact hn p z hp hz

/-- The feeds that an expiry slips: in RUNNING those that lag, in STOPPING none (R174). -/
def State.slippedFeeds (s : State) (su : Setup) (h : HeldWrite) : List (Fin 32) :=
  if s.isRunning then s.expiryFeeds su h else []

theorem State.mem_slippedFeeds {f : Fin 32} : f ∈ s.slippedFeeds su h ↔ s.isRunning = true ∧ f ∈ s.expiryFeeds su h := by
  unfold State.slippedFeeds
  split <;> simp_all

theorem State.slippedFeeds_pairwise : (s.slippedFeeds su h).Pairwise (· < ·) := by
  unfold State.slippedFeeds
  split
  · exact (List.pairwise_lt_finRange 32).filter _
  · exact .nil

/-- The state an expiry examines: its feeds slipped, the timer started again, HOLD_EXPIRED handed. -/
def State.holdExpired (s : State) (su : Setup) (h : HeldWrite) : State :=
  ((s.slipAll su .holdExpired (s.slippedFeeds su h)).countExpiry h.lane).hand
    (.holdExpired h.lane h.ring h.slot h.old h.new (s.slippedFeeds su h).length (h.expiries + 1))

theorem State.expireHold_eq : s.expireHold su h = (s.holdExpired su h).examine su := rfl

end

/-- Settles O37: a held write's expiry slips the feeds that lag, starts its timer again and examines the held list. -/
theorem holdLimitExpires : Obligations.HoldLimitExpires := by
  intro s su h hsu hs hh
  have hexec : exec (.holdLimitExpiry h.lane) s = .next (s.expireHoldOf su h.lane) := by
    refine congrArg Host.Outcome.next ?_
    rw [hsu]
  refine ⟨fun ht => by rw [hexec, State.expireHoldOf_of_early hs hh ht], fun ht => ?_⟩
  rw [State.expireHoldOf_of_due hs hh ht, State.expireHold_eq] at hexec
  have hnodup : (s.slippedFeeds su h).Nodup := State.slippedFeeds_pairwise.imp fun hlt => Fin.ne_of_lt hlt
  have hmem : ∀ f, f ∈ s.slippedFeeds su h ↔ s.isRunning = true ∧ ∃ p z, (s.feed f).status = .attached p ∧
      su.feedZone f = some z ∧ s.RangePinned su h.ring h.old z ∧ atOrBefore p.last h.old = true := fun f => by
    rw [State.mem_slippedFeeds, State.mem_expiryFeeds]
  have hfeed := s.feed_slipAll su .holdExpired _ hnodup fun f hf => by
    obtain ⟨-, p, -, hp, -⟩ := (hmem f).mp hf
    exact ⟨p, hp⟩
  have hslips := (s.scheduled_slipAll su .holdExpired (s.slippedFeeds su h)).sameBut
  have hcounted := (s.slipAll su .holdExpired (s.slippedFeeds su h)).sameBut_rg
    { held := (s.slipAll su .holdExpired (s.slippedFeeds su h)).rg.held.map fun x =>
        if x.lane = h.lane then { x with timer := 0, expiries := x.expiries + 1 } else x }
  have hhanded := State.sameBut_hand ((s.slipAll su .holdExpired (s.slippedFeeds su h)).countExpiry h.lane)
    (.holdExpired h.lane h.ring h.slot h.old h.new (s.slippedFeeds su h).length (h.expiries + 1))
  have hvr : (s.holdExpired su h).vr = (s.slipAll su .holdExpired (s.slippedFeeds su h)).vr :=
    (hhanded .vr (by simp)).trans (hcounted .vr (by simp))
  have hsame : s.SameBut (s.holdExpired su h) [.zs, .vr, .rg, .rw] :=
    ((hslips.mono (by simp)).trans (hcounted.mono (by simp))).trans (hhanded.mono (by simp))
  have hexamined := (s.holdExpired su h).examined_examine su
  refine ⟨s.holdExpired su h, _, _, s.slippedFeeds su h, hexec, State.slippedFeeds_pairwise, hmem,
    InTurn.foldl (fun s f => s.leftAttached_slip su .holdExpired f) _ s, hslips,
    (hhanded .zs (by simp)).trans (hcounted .zs (by simp)), fun f hf => ?_, fun f hf => ?_, ?_,
    State.hand_rw_congr _ rfl rfl rfl, hsame, hexamined, ?_⟩
  · exact (State.feed_congr hvr f).trans ((hfeed f).trans (if_pos hf))
  · exact (State.feed_congr hvr f).trans ((hfeed f).trans (if_neg hf))
  · refine (congrArg RingGuard.held (hhanded .rg (by simp))).trans ?_
    show (s.slipAll su .holdExpired (s.slippedFeeds su h)).rg.held.map _ = _
    rw [show (s.slipAll su .holdExpired (s.slippedFeeds su h)).rg = s.rg from hslips .rg (by simp)]
    refine List.map_congr_left fun x hx => ?_
    by_cases hxh : x = h
    · rw [if_pos hxh, if_pos (congrArg HeldWrite.lane hxh), hxh]
    · rw [if_neg hxh, if_neg fun hl => hxh (hs.eq_of_lane hx hh hl)]
  · exact ((hsame.mono (by simp)).trans (hexamined.kept.rest.mono (by simp))).trans
      ((State.arbitrated_settlePort _).sameBut.mono (by simp))

/-! ## A redirected view read completes (R160 to R163) -/

theorem State.settleMemory_read (s : State) {r : Request} {n : Nat} (h : r.body = .read n) (x : MemAnswer) :
    s.settleMemory r x = s := by
  have hblank : freeBytes s.freeCount 0 = [] := rfl
  cases x <;> simp [State.settleMemory, landed, State.scramble, h, Body.data, writeBytes, hblank]

/-- A read answered leaves all but the reports as they were. -/
theorem State.answered_read (s : State) (l : Fin 8) {a : Access} {n : Nat} (h : a.req.body = .read n) (x : MemAnswer) :
    s.answered l a x = { s with rw := s.faultReported l a x } := by
  rw [State.answered, s.settleMemory_read h]
  cases x with
  | okay => rfl
  | error => exact s.hand_changes _

/-- A feed whose position has changed stays among the attached feeds of its zone. -/
theorem State.attachedFeeds_of_moved {s t : State} {f : Fin 32} {p q : Position} (hp : (s.feed f).status = .attached p)
    (hq : (t.feed f).status = .attached q) (hrest : ∀ k, k ≠ f → t.feed k = s.feed k) (su : Setup) (z : Fin 24) :
    t.attachedFeeds su z = s.attachedFeeds su z ∧
    (s.attachedFeeds su z).filterMap (fun k => (t.feed k).status.position?.map (·.last)) =
      (s.attachedFeeds su z).filterMap
        (fun k => if k = f then some q.last else (s.feed k).status.position?.map (·.last)) := by
  refine ⟨List.filter_congr fun k _ => ?_, List.filterMap_congr fun k _ => ?_⟩
  · by_cases hk : k = f
    · subst hk
      simp [hp, hq, FeedStatus.position?]
    · rw [hrest k hk]
  · by_cases hk : k = f
    · subst hk
      simp [hq, FeedStatus.position?]
    · rw [hrest k hk, if_neg hk]

section
variable {s : State} {su : Setup} {f : Fin 32} {n : SSN}

theorem State.completeFeed_of_not_attached (h : ∀ p, (s.feed f).status ≠ .attached p) : s.completeFeed su f n = s := by
  unfold State.completeFeed
  split
  · next p z hp hz => exact absurd hp (h p)
  · rfl

theorem State.completeFeed_of_no_zone (h : su.feedZone f = none) : s.completeFeed su f n = s := by
  unfold State.completeFeed
  split
  · next p z hp hz => simp [h] at hz
  · rfl

theorem State.feed_completeFeed {p : Position} {z : Fin 24} (hp : (s.feed f).status = .attached p)
    (hz : su.feedZone f = some z) (k : Fin 32) : (s.completeFeed su f n).feed k =
      if k = f then { s.feed f with status := .attached { p with last := n, readDone := true, readSincePulse := true } }
      else s.feed k := by
  have hvr : (s.completeFeed su f n).vr = (s.setFeed f { s.feed f with
      status := .attached { p with last := n, readDone := true, readSincePulse := true } }).vr := by
    simp only [State.completeFeed, hp, hz]
    exact (State.zoned_recomputeTrail _ su z).vr
  rw [State.feed_congr hvr, State.feed_setFeed_eq]
  simp only [eq_comm]

theorem State.sameBut_completeFeed (s : State) (su : Setup) (f : Fin 32) (n : SSN) :
    s.SameBut (s.completeFeed su f n) [.zs, .vr] := by
  by_cases h : ∃ p z, (s.feed f).status = .attached p ∧ su.feedZone f = some z
  · obtain ⟨p, z, hp, hz⟩ := h
    have followed := s.trailFollowed_completeFeed su f z n p hp hz
    exact (s.sameBut_vr _).mono (by simp) |>.trans (followed.rest.mono (by simp))
  · have hstay : s.completeFeed su f n = s := by
      unfold State.completeFeed
      split
      · next p z hp hz => exact absurd ⟨p, z, hp, hz⟩ h
      · rfl
    rw [hstay]
    exact .refl s _

/-- What completing a read leaves of its feed's zone (R126, R161). -/
theorem State.completeFeed_zones {p : Position} {z : Fin 24} (hp : (s.feed f).status = .attached p)
    (hz : su.feedZone f = some z) :
    let t := s.completeFeed su f n
    (∀ k, k ≠ z → t.zone k = s.zone k) ∧ (∀ w, t.window w = s.window w) ∧
    ∃ y, least ((s.attachedFeeds su z).filterMap
        (fun k => if k = f then some n else (s.feed k).status.position?.map (·.last))) = some y ∧
      t.zone z = { s.zone z with
        timeline := (s.zone z).timeline.map (fun tl =>
          if precedes tl.trail y then { tl with trail := y, log := retire y tl.log } else tl) } := by
  intro t
  have hfeed := fun k => s.feed_completeFeed (n := n) hp hz k
  obtain ⟨⟨y, hy, hzone⟩, hzones, hwindows, -⟩ := s.trailFollowed_completeFeed su f z n p hp hz
  have hq : (t.feed f).status = .attached { p with last := n, readDone := true, readSincePulse := true } := by
    rw [hfeed, if_pos rfl]
  obtain ⟨hsame, hlasts⟩ := State.attachedFeeds_of_moved hp hq (fun k hk => by rw [hfeed, if_neg hk]) su z
  refine ⟨hzones, hwindows, y, ?_, hzone⟩
  rw [← hlasts, ← hsame]
  exact hy

end

/-- What a completed read's feed and its zone become, before the held list is examined. -/
def State.viewReadSettled (s : State) (su : Setup) (f : Fin 32) (rd : InFlight) : State :=
  let t := s.setFeed f { s.feed f with inFlight := none }
  if rd.counting then t.completeFeed su f rd.ssn else t

theorem State.completeViewRead_eq (s : State) (su : Setup) (f : Fin 32) (rd : InFlight) :
    s.completeViewRead su f rd = (s.viewReadSettled su f rd).examine su := rfl

section
variable {s : State} {su : Setup} {f : Fin 32} {rd : InFlight}

theorem State.sameBut_viewReadSettled : s.SameBut (s.viewReadSettled su f rd) [.zs, .vr] := by
  have hset := s.sameBut_setFeed f { s.feed f with inFlight := none }
  unfold State.viewReadSettled
  dsimp only
  split
  · exact (hset.mono (by simp)).trans (State.sameBut_completeFeed _ su f rd.ssn)
  · exact hset.mono (by simp)

/-- A read that does not count, and one of a feed with no position or zone, leaves all but its own feed as it was (R163). -/
theorem State.viewReadSettled_of_apart
    (h : rd.counting = false ∨ (∀ p, (s.feed f).status ≠ .attached p) ∨ su.feedZone f = none) :
    s.viewReadSettled su f rd = s.setFeed f { s.feed f with inFlight := none } := by
  unfold State.viewReadSettled
  rcases h with h | h | h
  · simp [h]
  · dsimp only
    rw [State.completeFeed_of_not_attached (fun p => by rw [State.feed_setFeed]; exact h p), ite_self]
  · dsimp only
    rw [State.completeFeed_of_no_zone h, ite_self]

theorem State.viewReadSettled_of_counting (h : rd.counting = true) :
    s.viewReadSettled su f rd = (s.setFeed f { s.feed f with inFlight := none }).completeFeed su f rd.ssn := if_pos h

/-- The feeds after a completed read: its own holds no read, no other changes. -/
theorem State.feed_viewReadSettled :
    ((s.viewReadSettled su f rd).feed f).inFlight = none ∧ ∀ k, k ≠ f → (s.viewReadSettled su f rd).feed k = s.feed k := by
  have hapart : s.viewReadSettled su f rd = s.setFeed f { s.feed f with inFlight := none } → _ := fun h =>
    show ((s.viewReadSettled su f rd).feed f).inFlight = none ∧
      ∀ k, k ≠ f → (s.viewReadSettled su f rd).feed k = s.feed k by
    rw [h]
    exact ⟨by rw [State.feed_setFeed], fun k hk => State.feed_setFeed_of_ne _ _ hk⟩
  cases hc : rd.counting with
  | false => exact hapart (State.viewReadSettled_of_apart (.inl hc))
  | true =>
    cases hz : su.feedZone f with
    | none => exact hapart (State.viewReadSettled_of_apart (.inr (.inr hz)))
    | some z =>
      by_cases hp : ∃ p, (s.feed f).status = .attached p
      · obtain ⟨p, hp⟩ := hp
        have hfeed := State.feed_completeFeed (s := s.setFeed f { s.feed f with inFlight := none }) (n := rd.ssn) (p := p)
          (by rw [State.feed_setFeed]; exact hp) hz
        rw [State.viewReadSettled_of_counting hc]
        refine ⟨?_, fun k hk => ?_⟩
        · rw [hfeed, if_pos rfl, State.feed_setFeed]
        · rw [hfeed, if_neg hk, State.feed_setFeed_of_ne _ _ hk]
      · exact hapart (State.viewReadSettled_of_apart (.inr (.inl (not_exists.mp hp))))

/-- What a counting read that completes leaves of its feed and its feed's zone (R126, R161). -/
theorem State.viewReadSettled_attached {p : Position} {z : Fin 24} (hc : rd.counting = true)
    (hp : (s.feed f).status = .attached p) (hz : su.feedZone f = some z) :
    let t := s.viewReadSettled su f rd
    (t.feed f).status = .attached { p with last := rd.ssn, readDone := true, readSincePulse := true } ∧
    (∀ k, k ≠ z → t.zone k = s.zone k) ∧
    (∃ y, least ((s.attachedFeeds su z).filterMap
        (fun k => if k = f then some rd.ssn else (s.feed k).status.position?.map (·.last))) = some y ∧
      t.zone z = { s.zone z with
        timeline := (s.zone z).timeline.map (fun tl =>
          if precedes tl.trail y then { tl with trail := y, log := retire y tl.log } else tl) }) ∧
    ({ s with vr := t.vr } : State).TrailFollowed t su z := by
  intro t
  have ht : t = (s.setFeed f { s.feed f with inFlight := none }).completeFeed su f rd.ssn :=
    State.viewReadSettled_of_counting hc
  have hp' : ((s.setFeed f { s.feed f with inFlight := none }).feed f).status = .attached p := by
    rw [State.feed_setFeed]
    exact hp
  obtain ⟨hzones, -, y, hy, hzone⟩ := State.completeFeed_zones (n := rd.ssn) hp' hz
  obtain ⟨hattached, -⟩ := State.attachedFeeds_of_moved hp hp' (fun k hk => State.feed_setFeed_of_ne s _ hk) su z
  rw [ht]
  refine ⟨?_, hzones, ⟨y, ?_, hzone⟩, State.trailFollowed_completeFeed _ su f z rd.ssn p hp' hz⟩
  · rw [State.feed_completeFeed hp' hz, if_pos rfl]
  · rw [← hy, hattached]
    refine congrArg least (List.filterMap_congr fun k _ => ?_)
    by_cases hk : k = f
    · rw [if_pos hk, if_pos hk]
    · rw [if_neg hk, if_neg hk, State.feed_setFeed_of_ne s _ hk]

end

/-- Settles O40: a redirected view read's completion: its cell, its feed and zone, and the held list. -/
theorem viewReadCompletes : Obligations.ViewReadCompletes := by
  intro s su l g a x f rd hin hsu hkind hbody hrd
  have hexec : exec (.viewReadComplete x) s =
      .next (((s.answered l a x).completeViewRead su f rd).finish l g x (s.viewData rd a.req x)) := by
    show execViewReadComplete x s = _
    simp only [execViewReadComplete, hin, hsu, hkind, hrd, State.completeView]
  have hdata : s.viewData rd a.req x = if x = .okay
      then patchCell (readBytes s.mem rd.addr.toNat 256) rd.patchTag rd.setBreak else List.replicate 256 0xFF := by
    cases x with
    | okay => rfl
    | error => simp [State.viewData, Body.blank, hbody]
  rw [s.answered_read l hbody, State.completeViewRead_eq] at hexec
  have hbefore : s.SameBut { s with rw := s.faultReported l a x } [.rw] := s.sameBut_rw _
  have hsettled := State.sameBut_viewReadSettled (s := { s with rw := s.faultReported l a x }) (su := su) (f := f) (rd := rd)
  obtain ⟨hown, hothers⟩ := State.feed_viewReadSettled (s := { s with rw := s.faultReported l a x }) (su := su) (f := f) (rd := rd)
  have hapart := State.viewReadSettled_of_apart (s := { s with rw := s.faultReported l a x }) (su := su) (f := f) (rd := rd)
  have hcounting := fun p z => State.viewReadSettled_attached (s := { s with rw := s.faultReported l a x }) (su := su) (f := f)
    (rd := rd) (p := p) (z := z)
  generalize State.viewReadSettled _ su f rd = y at *
  have hexamined := y.examined_examine su
  have hkept := hexamined.kept
  have hqueue := (y.acted_examine su).rw.queue
  generalize y.examine su = v at *
  have hvfeed : ∀ k, v.feed k = y.feed k := State.feed_congr (hkept.rest .vr (by simp))
  have hla : y.la = s.la := (hsettled .la (by simp)).trans (hbefore .la (by simp))
  have hrg : y.rg = s.rg := (hsettled .rg (by simp)).trans (hbefore .rg (by simp))
  have hrw : y.rw = s.faultReported l a x := hsettled .rw (by simp)
  refine ⟨v, _, hexec, hdata, ?_, ?_, ?_, fun k hk => (hvfeed k).trans (hothers k hk), fun h => ?_, fun p z hc hp hz => ?_,
    ⟨y, (hbefore.mono (by simp)).trans (hsettled.mono (by simp)), hrw, (hkept.rest .vr (by simp)).symm, fun p z hc hp hz => ?_,
      fun h => ?_, fun k => (hkept.timelines k).symm, hexamined⟩, ?_, fun k hk => ?_, ?_⟩
  · exact (hkept.rest .mem (by simp)).trans (hsettled .mem (by simp))
  · obtain ⟨more, hmore⟩ := hqueue
    exact ⟨more, by rw [← hmore, hrw]⟩
  · rw [hvfeed, hown]
  · have hy := hapart (h.imp_right .inl)
    refine ⟨?_, fun z => ?_⟩
    · rw [hvfeed, hy, State.feed_setFeed]
      rfl
    · rw [hkept.timelines, hy]
      rfl
  · obtain ⟨hstatus, hzones, ⟨m, hm, hzone⟩, -⟩ := hcounting p z hc hp hz
    refine ⟨by rw [hvfeed, hstatus], fun k hk => ?_, fun tl htl => ?_⟩
    · rw [hkept.timelines, hzones k hk]
      rfl
    · have htime : (y.zone z).timeline =
          some (if precedes tl.trail m then { tl with trail := m, log := retire m tl.log } else tl) := by
        rw [hzone]
        exact congrArg (Option.map _) htl
      refine ⟨_, m, (hkept.timelines z).trans htime, ?_, hm, ?_⟩
      · rw [apply_ite Timeline.horizon, ite_self]
      · rw [apply_ite Timeline.trail]
  · obtain ⟨-, -, -, followed⟩ := hcounting p z hc hp hz
    rw [hrw]
    exact followed
  · rw [hapart h]
    rfl
  · rw [hkept.arbiter, hla]
  · rw [hkept.lanes k (by rw [hrg]; exact hk)]
    exact congrArg (fun q : LaneArbiter => q.lanes[k]) hla
  · exact ((hbefore.mono (by simp)).trans (hsettled.mono (by simp))).trans (hkept.rest.mono (by simp))

end Sys2Proof.Machine
end

section
/-! Accepted ring writes that complete: the entry, its late set and the path (R87 to R89, R94 to R96). -/

namespace Sys2Proof.Machine

/-! ## Zone sets -/

theorem getLsbD_zoneSetOf (l : List (Fin 24)) (i : Nat) :
    (zoneSetOf l).getLsbD i = true ↔ ∃ z ∈ l, z.val = i := by
  have hbit : ∀ z : Fin 24, (((1 <<< z.val : Nat) : ZoneSet)).getLsbD i = true ↔ z.val = i := fun z => by
    have hz := z.isLt
    rw [BitVec.natCast_eq_ofNat, BitVec.getLsbD_ofNat, Nat.one_shiftLeft, Nat.testBit_two_pow]
    simp only [Bool.and_eq_true, decide_eq_true_eq]
    omega
  have hfold : ∀ (l : List (Fin 24)) (acc : ZoneSet),
      (l.foldl (fun (acc : ZoneSet) z => acc ||| ((1 <<< z.val : Nat) : ZoneSet)) acc).getLsbD i = true ↔
        acc.getLsbD i = true ∨ ∃ z ∈ l, z.val = i := fun l => by
    induction l with
    | nil => simp
    | cons z l ih =>
      intro acc
      rw [List.foldl_cons, ih, BitVec.getLsbD_or, Bool.or_eq_true, hbit]
      simp [or_assoc]
  rw [zoneSetOf, hfold]
  simp

/-! ## The late set (R88) -/

section
variable (s : State) (su : Setup) (ring : RingId) (n : SSN)

theorem State.mem_lateSet (z : Fin 24) : (s.lateSet su ring n).getLsbD z.val = true ↔
    ∃ t, (s.zone z).timeline = some t ∧ atOrBefore n t.horizon = true ∧
      ∀ r p, ring = .regional r p → su.zoneRegion z = some r := by
  have hread : z ∈ s.readers su ring ↔
      (s.zone z).timeline.isSome = true ∧ ∀ r p, ring = .regional r p → su.zoneRegion z = some r := by
    cases ring <;> simp [State.readers]
  simp only [State.lateSet, getLsbD_zoneSetOf, List.mem_filter, hread, Fin.val_inj, exists_eq_right]
  cases (s.zone z).timeline with
  | none => simp
  | some t => simp [and_comm]

theorem State.lateSet_high (i : Nat) (hi : 24 ≤ i) : (s.lateSet su ring n).getLsbD i = false := by
  rw [Bool.eq_false_iff]
  intro h
  obtain ⟨z, -, hz⟩ := (getLsbD_zoneSetOf _ i).mp h
  have := z.isLt
  omega

theorem State.lateSet_congr {t : State} (h : t.zs = s.zs) : t.lateSet su ring n = s.lateSet su ring n := by
  simp only [State.lateSet, State.readers, State.zone, h]

end

/-! ## The path of a completed write (R94 to R96) -/

theorem healthAfter_eq (pr : Profile) (score : Nat) (h : Health) : healthAfter pr score h =
    if h = .degraded then (if score ≤ pr.recoverAt then .live else .degraded)
    else (if pr.degradeAt ≤ score then .degraded else .live) := by
  cases h <;> simp [healthAfter]

section
variable (s : State) (su : Setup) (r : Fin 12) (p : Path) (good gap : Bool)

theorem State.settlePath_spec :
    let t := s.settlePath su r p good gap
    let old := s.path r p
    let score := scoreAfter (su.profileOf r) old.score good gap
    let health := healthAfter (su.profileOf r) score old.health
    t.path r p = { head := old.head, score := score, health := health, timer := some 0 } ∧
    (∀ r' p', pathIndex r' p' ≠ pathIndex r p → t.path r' p' = s.path r' p') ∧
    t.ic.dir = s.ic.dir ∧ t.ic.natHead = s.ic.natHead ∧
    t.rw = (if health = old.health then s else s.hand (.pathState r p old.head old.health health score)).rw ∧
    s.SameBut t [.ic, .rw] := by
  intro t old score health
  obtain ⟨hpath, hothers, hdir, hhead, hrw, hsame⟩ :=
    (s.setPath r p { s.path r p with score := score, timer := some 0 }).setHealth_spec r p health
  rw [State.path_setPath_self] at hpath hrw
  refine ⟨hpath, fun r' p' hne => (hothers r' p' hne).trans (State.path_setPath_ne s _ hne), hdir, hhead, hrw.trans ?_,
    ((s.sameBut_setPath r p _).mono (by simp)).trans hsame⟩
  by_cases hh : old.health = health
  · rw [if_pos hh, if_pos hh.symm]
    rfl
  · rw [if_neg hh, if_neg fun e => hh e.symm]
    exact State.hand_rw_congr _ rfl rfl rfl

/-- A path's record is no head of another ring and none of its own (R91). -/
theorem State.head_settlePath (ring : RingId) : (s.settlePath su r p good gap).head ring = s.head ring := by
  obtain ⟨hpath, hothers, -, hnational, -, -⟩ := s.settlePath_spec su r p good gap
  cases ring with
  | national => exact hnational
  | regional r' p' =>
    by_cases he : pathIndex r' p' = pathIndex r p
    · obtain ⟨rfl, rfl⟩ := pathIndex_inj he
      exact (congrArg PathState.head hpath).trans rfl
    · exact congrArg PathState.head (hothers r' p' he)

end

/-! ## The entry and the report of a completed write (R87 to R89) -/

/-- The entry of a completed write and its LATE_CELL report. -/
def State.entrySettled (s : State) (ring : RingId) (k : Nat) (e : Entry) (good : Bool) (late : ZoneSet) : State :=
  let t := s.setEntry ring k { e with state := if good then .good else .bad, late := late }
  if late = 0 then t else t.hand (.lateCell ring k e.ssn good late)

section
variable (s : State) (ring : RingId) (k : Nat) (e : Entry) (good : Bool) (late : ZoneSet)

theorem State.ic_entrySettled : (s.entrySettled ring k e good late).ic =
    (s.setEntry ring k { e with state := if good then .good else .bad, late := late }).ic := by
  unfold State.entrySettled
  dsimp only
  split
  · rfl
  · exact State.hand_ic _ _

theorem State.entry_entrySettled (ring' : RingId) (k' : Nat) : (s.entrySettled ring k e good late).entry ring' k' =
    if dirKey ring k = dirKey ring' k' then some { e with state := if good then .good else .bad, late := late }
    else s.entry ring' k' := by
  rw [State.entry, State.ic_entrySettled]
  exact lookup_insertAt ..

theorem State.rw_entrySettled : (s.entrySettled ring k e good late).rw =
    (if late = 0 then s else s.hand (.lateCell ring k e.ssn good late)).rw := by
  unfold State.entrySettled
  dsimp only
  split
  · rfl
  · exact State.hand_rw_congr _ rfl rfl rfl

theorem State.sameBut_entrySettled : s.SameBut (s.entrySettled ring k e good late) [.ic, .rw] := by
  have hset : s.SameBut (s.setEntry ring k { e with state := if good then .good else .bad, late := late }) [.ic] :=
    s.sameBut_ic _
  unfold State.entrySettled
  dsimp only
  split
  · exact hset.mono (by simp)
  · exact (hset.mono (by simp)).trans ((State.sameBut_hand _ _).mono (by simp))

end

/-- The path of a completed write's ring; the national ring has none (R94). -/
def State.ringSettled (s : State) (su : Setup) (good gap : Bool) : RingId → State
  | .national => s
  | .regional r p => s.settlePath su r p good gap

theorem State.completeRingWrite_of_arriving {s : State} {su : Setup} {ring : RingId} {k : Nat} {e : Entry} {verdict : Verdict}
    {gap : Bool} (x : MemAnswer) (he : s.entry ring k = some e) (hstate : e.state = .arriving verdict gap) :
    s.completeRingWrite su ring k x =
      (s.entrySettled ring k e (x == .okay && verdict == .matching) (s.lateSet su ring e.ssn)).ringSettled su
        (x == .okay && verdict == .matching) gap ring := by
  simp only [State.completeRingWrite, he, hstate, State.entrySettled]
  cases ring <;> rfl

section
variable (s : State) (su : Setup) (good gap : Bool) (ring : RingId)

theorem State.dir_ringSettled : (s.ringSettled su good gap ring).ic.dir = s.ic.dir := by
  cases ring with
  | national => rfl
  | regional r p =>
    obtain ⟨-, -, hdir, -⟩ := s.settlePath_spec su r p good gap
    exact hdir

theorem State.head_ringSettled (ring' : RingId) : (s.ringSettled su good gap ring).head ring' = s.head ring' := by
  cases ring with
  | national => rfl
  | regional r p => exact s.head_settlePath su r p good gap ring'

theorem State.sameBut_ringSettled : s.SameBut (s.ringSettled su good gap ring) [.ic, .rw] := by
  cases ring with
  | national => exact .refl s _
  | regional r p =>
    obtain ⟨-, -, -, -, -, hsame⟩ := s.settlePath_spec su r p good gap
    exact hsame

end

/-- A report handed after an answer is the report handed after its MEMORY_FAULT. -/
theorem State.rw_hand_answered (s : State) (l : Fin 8) (a : Access) (x : MemAnswer) (r : Report) :
    ((s.answered l a x).hand r).rw = ((s.reportFault l a x).hand r).rw := by
  have hfault := s.sameBut_reportFault l a x
  have hanswered := s.sameBut_answered l a x
  refine State.hand_rw_congr r ((hanswered .ps (by simp)).trans (hfault .ps (by simp)).symm)
    ((hanswered .tb (by simp)).trans (hfault .tb (by simp)).symm) ?_
  rw [s.answered_rw]
  cases x <;> rfl

/-- A report that may be handed, from states alike in what it asks. -/
theorem State.rw_ite_hand_congr {s t : State} {c : Prop} [Decidable c] (r : Report) (ps : t.ps = s.ps) (tb : t.tb = s.tb)
    (rw : t.rw = s.rw) : (if c then t else t.hand r).rw = (if c then s else s.hand r).rw := by
  split
  · exact rw
  · exact State.hand_rw_congr r ps tb rw

/-- Settles O35: an accepted ring write's completion: its entry, its late set and its path. -/
theorem ringWriteCompletes : Obligations.RingWriteCompletes := by
  intro s su l g a x hin hsu
  have hanswered := s.sameBut_answered l a x
  refine ⟨fun ring k e verdict gap hkind he hstate => ?_, fun hkind => ?_⟩
  · have hexec : exec (.ringWriteComplete x) s = .next
        (((s.answered l a x).completeRingWrite su ring k x).finish l g x []) := by
      show execRingWriteComplete x s = _
      simp only [execRingWriteComplete, hin, hsu, hkind, State.completeRing]
    have hentry : ∀ ring k, (s.answered l a x).entry ring k = s.entry ring k := State.entry_congr (hanswered .ic (by simp))
    rw [State.completeRingWrite_of_arriving x ((hentry ring k).trans he) hstate,
      s.lateSet_congr su ring e.ssn (hanswered .zs (by simp))] at hexec
    have hsettled := (s.answered l a x).sameBut_entrySettled ring k e (x == .okay && verdict == .matching)
      (s.lateSet su ring e.ssn)
    have hentries := (s.answered l a x).entry_entrySettled ring k e (x == .okay && verdict == .matching) (s.lateSet su ring e.ssn)
    have hic := (s.answered l a x).ic_entrySettled ring k e (x == .okay && verdict == .matching) (s.lateSet su ring e.ssn)
    have hrw := (s.answered l a x).rw_entrySettled ring k e (x == .okay && verdict == .matching) (s.lateSet su ring e.ssn)
    generalize (s.answered l a x).entrySettled ring k e _ _ = y at *
    have hs1 := s.rw_hand_answered l a x (.lateCell ring k e.ssn (x == .okay && verdict == .matching) (s.lateSet su ring e.ssn))
    have hs2 : y.rw = (if s.lateSet su ring e.ssn = 0 then s.reportFault l a x else (s.reportFault l a x).hand
        (.lateCell ring k e.ssn (x == .okay && verdict == .matching) (s.lateSet su ring e.ssn))).rw := by
      rw [hrw]
      split
      · rw [s.answered_rw]
        cases x <;> rfl
      · exact hs1
    have hs1same : s.SameBut (if s.lateSet su ring e.ssn = 0 then s.reportFault l a x else (s.reportFault l a x).hand
        (.lateCell ring k e.ssn (x == .okay && verdict == .matching) (s.lateSet su ring e.ssn))) [.rw] := by
      split
      · exact s.sameBut_reportFault l a x
      · exact (s.sameBut_reportFault l a x).trans (State.sameBut_hand _ _)
    have hps := (hsettled .ps (by simp)).trans ((hanswered .ps (by simp)).trans (hs1same .ps (by simp)).symm)
    have htb := (hsettled .tb (by simp)).trans ((hanswered .tb (by simp)).trans (hs1same .tb (by simp)).symm)
    have hypath : ∀ r p, y.path r p = s.path r p := fun r p => by
      rw [← State.path_congr (hanswered .ic (by simp)) r p, State.path, hic]
      rfl
    have hyhead : ∀ ring', y.head ring' = s.head ring' := fun ring' => by
      cases ring' with
      | national =>
        rw [← State.head_congr (hanswered .ic (by simp)) .national, State.head, hic]
        rfl
      | regional r p => exact congrArg PathState.head (hypath r p)
    have hdir := y.dir_ringSettled su (x == .okay && verdict == .matching) gap ring
    have hhead := y.head_ringSettled su (x == .okay && verdict == .matching) gap ring
    have hsame := y.sameBut_ringSettled su (x == .okay && verdict == .matching) gap ring
    have hventry : ∀ ring' k', (y.ringSettled su (x == .okay && verdict == .matching) gap ring).entry ring' k' =
        y.entry ring' k' := fun ring' k' => congrArg (lookup · _) hdir
    refine ⟨_, s.lateSet su ring e.ssn, hexec, ?_, ?_, fun z => s.mem_lateSet su ring e.ssn z,
      s.lateSet_high su ring e.ssn, fun ring' k' hne => ?_, fun ring' => (hhead ring').trans (hyhead ring'),
      ⟨fun hring => ?_, fun r p hring => ?_⟩, ?_⟩
    · exact (s.answered_memoryAfter l a x).of_mem ((hsame .mem (by simp)).trans (hsettled .mem (by simp)))
    · rw [hventry, hentries, if_pos rfl]
    · rw [hventry, hentries, if_neg (Ne.symm hne), hentry]
    · subst hring
      refine ⟨hs2, ?_⟩
      have hsic : (s.answered l a x).ic = s.ic := hanswered .ic (by simp)
      have hpaths : y.ic.paths = (s.answered l a x).ic.paths := by
        rw [hic]
        rfl
      exact hpaths.trans (congrArg IngestChecker.paths hsic)
    · subst hring
      obtain ⟨hpath, hothers, -, -, hreport, -⟩ := y.settlePath_spec su r p (x == .okay && verdict == .matching) gap
      rw [hypath] at hpath hreport
      simp only [healthAfter_eq] at hpath hreport
      refine ⟨hpath, fun r' p' hne => (hothers r' p' hne).trans (hypath r' p'), hreport.trans ?_⟩
      exact State.rw_ite_hand_congr _ hps htb hs2
    · exact ((hanswered.mono (by simp)).trans (hsettled.mono (by simp))).trans (hsame.mono (by simp))
  · have hexec : exec (.ringWriteComplete x) s = .next ((s.answered l a x).finish l g x []) := by
      show execRingWriteComplete x s = _
      simp only [execRingWriteComplete, hin, hsu, hkind]
    exact ⟨_, hexec, s.answered_memoryAfter l a x, s.answered_rw l a x, hanswered⟩

end Sys2Proof.Machine
end

section
/-! Ring writes taken (R81, R84, R85, R92, R122, R170). -/

namespace Sys2Proof.Machine

/-! ## An acceptance or a hold read from another state -/

section
variable {s t v : State}

/-- What an acceptance is compared with does not ask the Lane Arbiter. -/
theorem State.Accepted.of_la {su : Setup} {ring : RingId} {k : Nat} {cell : List Byte} (la : LaneArbiter)
    (h : ({ s with la := la } : State).Accepted v su ring k cell) : s.Accepted v su ring k cell :=
  ⟨h.entry, h.entries, h.head, h.heads, h.paths, h.timelines, h.advance, h.outcomes⟩

/-- The port moves nothing that an acceptance speaks of. -/
theorem State.Accepted.arbitrated {su : Setup} {ring : RingId} {k : Nat} {cell : List Byte}
    (h : s.Accepted t su ring k cell) (harb : Arbitrated t v) : s.Accepted v su ring k cell := by
  rw [harb.changes]
  exact ⟨h.entry, h.entries, h.head, h.heads, h.paths, h.timelines, h.advance, h.outcomes⟩

end

theorem State.checkRingWrite_setLane (s : State) (k : Fin 9) (x : LaneState) (su : Setup) (ring : RingId) (slot : Nat)
    (cell : List Byte) : (s.setLane k x).checkRingWrite su ring slot cell = s.checkRingWrite su ring slot cell := rfl

theorem refusedWriteSsn_eq (reason : RefusalReason) (cell : List Byte) : refusedWriteSsn reason cell =
    if reason = .malformed ∨ reason = .misplaced ∨ reason = .stale ∨ reason = .rewrite then cellSsn cell else 0 := by
  cases reason <;> rfl

/-! ## The write at its block -/

/-- A write of a ring's own lane goes to the Ingest Checker. -/
theorem State.RingRequest.takeRequest {s : State} {su : Setup} {l : Fin 8} {ring : RingId} {r : Request} {d : List Byte}
    (h : s.RingRequest su l ring r) (hbody : r.body = .write d) :
    s.takeRequest l r = (s.setLane (ext l) (.taken r)).takeRingWrite su l ring r := by
  have hsu : s.setup = some su := by rw [State.setup, h.running]; rfl
  have hclass : s.laneClass l = .ingest := State.laneClass_eq hsu h.cls
  have hdir : r.body.dir = .write := by rw [hbody]; rfl
  have hsu' : (s.setLane (ext l) (.taken r)).setup = some su := hsu
  have harea := h.area
  cases ring with
  | national =>
    obtain ⟨hnational, hlane⟩ := harea
    have hmay : s.may l (s.classify r.base) r.body.dir = true := by
      rw [hnational, hdir, State.may_of_ingest hsu h.cls]
      simp [Setup.ingestMay, hlane]
    rw [State.takeRequest_of_permitted h.form (by simp [hclass]) hmay, hnational]
    simp only [State.route, hbody, hsu']
  | regional rg p =>
    obtain ⟨hregional, hlane⟩ := harea
    have hmay : s.may l (s.classify r.base) r.body.dir = true := by
      rw [hregional, hdir, State.may_of_ingest hsu h.cls]
      simp [Setup.ingestMay, hlane]
    rw [State.takeRequest_of_permitted h.form (by simp [hclass]) hmay, hregional]
    simp only [State.route, hbody, hsu']

theorem State.takeRingWrite_of_refused {s : State} {su : Setup} {l : Fin 8} {ring : RingId} {r : Request} {reason : RefusalReason}
    (h : s.checkRingWrite su ring ((r.base - su.ringBase ring) / 256) r.body.data = .refused reason) :
    s.takeRingWrite su l ring r = s.refuse l r reason (refusedWriteSsn reason r.body.data) := by
  simp [State.takeRingWrite, h]

theorem State.takeRingWrite_of_held {s : State} {su : Setup} {l : Fin 8} {ring : RingId} {r : Request} {old : SSN}
    (h : s.checkRingWrite su ring ((r.base - su.ringBase ring) / 256) r.body.data = .heldBack old) :
    s.takeRingWrite su l ring r =
      ((s.holdWrite l ring ((r.base - su.ringBase ring) / 256) old r).endReservation (ext l)).settlePort := by
  simp [State.takeRingWrite, h]

theorem State.takeRingWrite_of_accepted {s : State} {su : Setup} {l : Fin 8} {ring : RingId} {r : Request}
    (h : s.checkRingWrite su ring ((r.base - su.ringBase ring) / 256) r.body.data = .accepted) :
    s.takeRingWrite su l ring r = (s.acceptRingWrite su l ring ((r.base - su.ringBase ring) / 256) r).settlePort := by
  simp [State.takeRingWrite, h]

/-- An access presented for a lane that the port has taken a request of, whatever else has changed since. -/
theorem State.presentedAs_of_taken {s y : State} {l : Fin 8} {q : Request} (h : y.la = (s.setLane (ext l) (.taken q)).la)
    (a : Access) : s.PresentedAs ((y.present (ext l) a).settlePort) l a := by
  have hy : y = ({ y with la := s.la } : State).setLane (ext l) (.taken q) := by
    obtain ⟨⟩ := y
    cases h
    rfl
  rw [hy]
  exact (State.presentedAs_present _ l q a).of_la rfl

/-- An accepted ring write is presented. -/
theorem State.presentedAs_acceptRingWrite (s : State) (su : Setup) (l : Fin 8) (ring : RingId) (k : Nat) (r : Request) :
    s.PresentedAs ((s.setLane (ext l) (.taken r)).acceptRingWrite su l ring k r).settlePort l
      { req := r, kind := .ring ring k } := by
  have hla := State.la_moveHead ((s.setLane (ext l) (.taken r)).setEntry ring k
    (arrivingEntry ring ((s.setLane (ext l) (.taken r)).head ring) r.body.data)) su ring (cellSsn r.body.data)
  unfold State.acceptRingWrite
  exact State.presentedAs_of_taken hla _

/-- What an acceptance changes: in the national ring its head's advance may give outcomes too (R92, R122). -/
theorem State.sameBut_acceptRingWrite (s : State) (su : Setup) (l : Fin 8) (ring : RingId) (k : Nat) (r : Request) :
    s.SameBut (s.acceptRingWrite su l ring k r) (if ring = .national then [.la, .ic, .zs, .rw] else [.la, .ic]) := by
  have hset : s.SameBut (s.setEntry ring k (arrivingEntry ring (s.head ring) r.body.data)) [.ic] := s.sameBut_ic _
  cases ring with
  | national =>
    exact ((hset.mono (by simp)).trans ((State.sameBut_moveHead _ su .national _).mono (by simp))).trans
      ((State.sameBut_la _ _).mono (by simp))
  | regional rg p =>
    have hmoved : ∀ t : State, t.SameBut (t.moveHead su (.regional rg p) (cellSsn r.body.data)) [.ic] := fun t => by
      unfold State.moveHead
      split
      · exact t.sameBut_ic _
      · exact .refl t _
    exact ((hset.mono (by simp)).trans ((hmoved _).mono (by simp))).trans ((State.sameBut_la _ _).mono (by simp))

/-- A ring write held back: its lane is HELD, its reservation ended, the write at the back of the held list (R28, R170). -/
theorem State.heldBack_spec (s : State) (l : Fin 8) (r : Request) (ring : RingId) (k : Nat) (e : SSN) :
    let t := (((s.setLane (ext l) (.taken r)).holdWrite l ring k e r).endReservation (ext l)).settlePort
    t.lane (ext l) = .held r ∧ t.la.responses[l] = s.la.responses[l] ∧ s.OthersKept t l ∧
    t.SettledFrom { s.la.withLane l (.held r) with port := s.la.port.without (ext l) } ∧
    (∀ x, t.la.port = .reserved x → x.lane ≠ ext l) ∧
    t.rg.held = s.rg.held ++ [
      { lane := l, ring := ring, slot := k, old := e, new := cellSsn r.body.data, req := r, timer := 0, expiries := 0 }] ∧
    s.SameBut t [.la, .rg] := by
  dsimp only
  have hla : ((s.setLane (ext l) (.taken r)).holdWrite l ring k e r).la = s.la.withLane l (.held r) :=
    s.setLane_setLane (ext l) (.taken r) (.held r)
  have hsame : s.SameBut ((s.setLane (ext l) (.taken r)).holdWrite l ring k e r) [.la, .rg] :=
    ((s.sameBut_la _).mono (by simp)).trans (((State.sameBut_la _ _).mono (by simp)).trans ((State.sameBut_rg _ _).mono (by simp)))
  have hrg : ((s.setLane (ext l) (.taken r)).holdWrite l ring k e r).rg.held = s.rg.held ++ [
      { lane := l, ring := ring, slot := k, old := e, new := cellSsn r.body.data, req := r, timer := 0, expiries := 0 }] := rfl
  generalize hy : (s.setLane (ext l) (.taken r)).holdWrite l ring k e r = y at *
  have hend := y.arbitrated_endReservation (ext l)
  have hall := hend.trans (y.endReservation (ext l)).arbitrated_settlePort
  have hlanes : ∀ k, (y.endReservation (ext l)).lane k = (s.la.withLane l (.held r)).lanes[k] := fun k => by
    rw [State.lane, y.la_endReservation, hla]
  have hself : (y.endReservation (ext l)).lane (ext l) = .held r := (hlanes _).trans (Vector.getElem_set_self ..)
  refine ⟨?_, ?_, State.othersKept_settlePort (fun j hj => ?_) ?_ (fun j hj => ?_), State.settledFrom_settlePort _ _ ?_,
    fun x hx => ?_, ?_, ?_⟩
  · rcases (y.endReservation (ext l)).settlePort_lanes (ext l) with h | ⟨a, h, -⟩
    · exact h.trans hself
    · exact absurd (hself.symm.trans h) (by simp)
  · rw [hall.responses, hla]
    rfl
  · rw [hlanes]
    simp [LaneArbiter.withLane, State.lane, Fin.val_ne_of_ne (Ne.symm hj)]
  · rw [hend.kept, hla]
    rfl
  · rw [hend.responses, hla]
    rfl
  · rw [y.la_endReservation, hla]
    rfl
  · exact y.endReservation_port (ext l) x (State.settlePort_reserved _ x hx)
  · rw [hall.rg, hrg]
  · exact hsame.trans (hall.sameBut.mono (by simp))

/-- Settles O34: a ring write is refused, held back or accepted and presented. -/
theorem ringWriteTaken : Obligations.RingWriteTaken := by
  intro s su l addr n link data ring r cell m k h
  have hexec : exec (.laneRequest l .write addr n link data) s =
      .next ((s.setLane (ext l) (.taken r)).takeRingWrite su l ring r) :=
    (h.takes.exec ..).trans (congrArg Host.Outcome.next (h.takeRequest rfl))
  have hk : (r.base - su.ringBase ring) / 256 = k := rfl
  refine ⟨_, hexec, fun reason hreason => ?_, fun e hheld => ?_, fun hok => ?_⟩
  · have hrefused := State.takeRingWrite_of_refused (s := s.setLane (ext l) (.taken r)) (l := l) hreason
    rw [hrefused, refusedWriteSsn_eq]
    exact s.refusedAs_refuse ..
  · have hkept := State.takeRingWrite_of_held (s := s.setLane (ext l) (.taken r)) (l := l) hheld
    rw [hkept]
    exact s.heldBack_spec l r ring k e
  · have haccepted := State.takeRingWrite_of_accepted (s := s.setLane (ext l) (.taken r)) (l := l) hok
    rw [haccepted]
    have hacc := (s.setLane (ext l) (.taken r)).accepted_acceptRingWrite su l ring k r
    have harb := ((s.setLane (ext l) (.taken r)).acceptRingWrite su l ring k r).arbitrated_settlePort
    refine ⟨s.presentedAs_acceptRingWrite su l ring k r, State.Accepted.of_la _ (hacc.arbitrated harb), ?_⟩
    exact (((s.sameBut_la _).mono (by split <;> simp)).trans
      ((State.sameBut_acceptRingWrite (s.setLane (ext l) (.taken r)) su l ring k r))).trans
        (harb.sameBut.mono (by split <;> simp))

end Sys2Proof.Machine
end

section
/-! View reads: what they name and when they are refused (R153, R154). -/

namespace Sys2Proof.Machine

/-! ## What a view read names (R154) -/

section
variable (su : Setup) (p : Position) (k : Nat)

/-- The number of slots that slot `k` is ahead of the feed's next, the ring taken round. -/
def Setup.slotsAhead : Nat := (k + su.nr - p.next.toNat % su.nr) % su.nr

theorem Setup.interpretRead_eq : su.interpretRead p k =
    if su.slotsAhead p k = 0 then .serve p.next false
    else if su.slotsAhead p k = su.nr - 1 then if p.readDone then .serve p.last true else .refused .sequence
    else if su.slotsAhead p k ≤ su.jumpLimit then .serve (ssnAdd p.next (su.slotsAhead p k)) false
    else .refused .jump := rfl

end

/-! ## The read at its block -/

section
variable {s : State} {su : Setup} {l : Fin 8} {f : Fin 32} {r : Request} {n : Nat}

/-- A read of a feed's own lane goes to the View Resolver. -/
theorem State.ViewRequest.takeRequest (h : s.ViewRequest su l f r) (hsu : s.setup = some su) (hbody : r.body = .read n) :
    s.takeRequest l r = (s.setLane (ext l) (.taken r)).takeViewRead su l f r := by
  have hclass : s.laneClass l = .emission := State.laneClass_eq hsu h.cls
  have hdir : r.body.dir = .read := by rw [hbody]; rfl
  have hsu' : (s.setLane (ext l) (.taken r)).setup = some su := hsu
  have hmay : s.may l (s.classify r.base) r.body.dir = true := by
    rw [h.area, hdir, State.may_of_emission hsu h.cls]
    simp [Setup.emissionMay, h.lane]
  rw [State.takeRequest_of_permitted h.form (by simp [hclass]) hmay, h.area]
  simp only [State.route, hbody, hsu']

theorem State.takeViewRead_of_stopping (hrun : s.isRunning = false) : s.takeViewRead su l f r = s.refuse l r .stopping 0 := by
  simp [State.takeViewRead, hrun]

theorem State.takeViewRead_of_form (hrun : s.isRunning = true) (hn : r.body.length ≠ 256) :
    s.takeViewRead su l f r = s.refuse l r .viewForm 0 := by
  simp [State.takeViewRead, hrun, hn]

theorem State.takeViewRead_of_detached (hrun : s.isRunning = true) (hn : r.body.length = 256)
    (hf : (s.feed f).status = .detached) : s.takeViewRead su l f r = s.refuse l r .feedDetached 0 := by
  simp [State.takeViewRead, hrun, hn, hf]

theorem State.takeViewRead_of_slipped (hrun : s.isRunning = true) (hn : r.body.length = 256)
    (hf : (s.feed f).status = .slipped) : s.takeViewRead su l f r = s.refuse l r .feedSlipped 0 := by
  simp [State.takeViewRead, hrun, hn, hf]

theorem State.takeViewRead_of_refused {p : Position} {reason : RefusalReason} (hrun : s.isRunning = true)
    (hn : r.body.length = 256) (hf : (s.feed f).status = .attached p)
    (hread : su.interpretRead p ((r.base - su.viewBaseOf f) / 256) = .refused reason) :
    s.takeViewRead su l f r = s.refuse l r reason p.next := by
  simp [State.takeViewRead, hrun, hn, hf, hread]

theorem State.takeViewRead_of_serve {p : Position} {m : SSN} {reread : Bool} {z : Fin 24} (hrun : s.isRunning = true)
    (hn : r.body.length = 256) (hf : (s.feed f).status = .attached p)
    (hread : su.interpretRead p ((r.base - su.viewBaseOf f) / 256) = .serve m reread) (hz : su.feedZone f = some z) :
    s.takeViewRead su l f r = s.serveRead su l f z r m reread := by
  simp [State.takeViewRead, hrun, hn, hf, hread, hz]

end

/-- Settles O38: what a view read names, and the refusals of one that is not served. -/
theorem viewReadInterpretedOrRefused : Obligations.ViewReadInterpretedOrRefused := by
  refine ⟨fun su p k hnr hjump hk => ?_, fun s su l f addr n link => ?_⟩
  · intro d j
    have hd : su.slotsAhead p k = d := rfl
    have hj : su.jumpLimit = j := rfl
    have hj64 : j ≤ su.jumpMax := Nat.min_le_left _ _
    rw [Setup.interpretRead_eq, hd, hj]
    refine ⟨fun h => if_pos h, fun h hr => ?_, fun h hr => ?_, fun h1 h2 => ?_, fun h1 h2 h3 => ?_⟩
    · rw [if_neg (by omega), if_pos h, if_pos hr]
    · rw [if_neg (by omega), if_pos h, if_neg (by simp [hr])]
    · rw [if_neg (by omega), if_neg (by omega), if_pos h2]
      rfl
    · rw [if_neg (by omega), if_neg (by omega), if_neg (by omega)]
  · intro r refusal h
    have hlen : r.body.length = n := makeRequest_length ..
    have hexec : s.setup = some su → exec (.laneRequest l .read addr n link []) s =
        .next ((s.setLane (ext l) (.taken r)).takeViewRead su l f r) := fun hsu =>
      (h.takes.exec ..).trans (congrArg Host.Outcome.next (h.takeRequest hsu rfl))
    have refused : ∀ reason ssn, s.setup = some su →
        (s.setLane (ext l) (.taken r)).takeViewRead su l f r = (s.setLane (ext l) (.taken r)).refuse l r reason ssn →
        refusal reason ssn := fun reason ssn hsu hr =>
      ⟨_, hexec hsu, by rw [hr]; exact s.refusedAs_refuse l r r reason ssn⟩
    refine ⟨fun hstop => ?_, fun hrun => ?_⟩
    · have hsu : s.setup = some su := by simp [State.setup, hstop, RunState.setup]
      exact refused _ _ hsu (State.takeViewRead_of_stopping (by simp [State.isRunning, State.setLane, hstop]))
    · have hsu : s.setup = some su := by simp [State.setup, hrun, RunState.setup]
      have hrunning : (s.setLane (ext l) (.taken r)).isRunning = true := by simp [State.isRunning, State.setLane, hrun]
      refine ⟨fun hn => ?_, fun hn hf => ?_, fun hn hf => ?_, fun p reason hn hf hread => ?_⟩
      · exact refused _ _ hsu (State.takeViewRead_of_form hrunning (hlen ▸ hn))
      · exact refused _ _ hsu (State.takeViewRead_of_detached hrunning (hlen.trans hn) hf)
      · exact refused _ _ hsu (State.takeViewRead_of_slipped hrunning (hlen.trans hn) hf)
      · exact refused _ _ hsu (State.takeViewRead_of_refused hrunning (hlen.trans hn) hf hread)

end Sys2Proof.Machine
end

section
/-! Arming: the due window, the outcomes given at once, and the window of an armed zone (R105, R106). -/

namespace Sys2Proof.Machine

/-! ## The due window (R105) -/

/-- One step of the choice of the least: the candidate replaces the best so far where it comes before it. -/
def chooseLess {α : Type} (before : α → α → Bool) (best : Option α) (x : α) : Option α :=
  match best with
  | none => some x
  | some b => if before x b then some x else some b

section
variable {α : Type} {before : α → α → Bool}

theorem foldl_chooseLess_mem (l : List α) (best : Option α) (x : α) (h : l.foldl (chooseLess before) best = some x) :
    x ∈ l ∨ best = some x := by
  induction l generalizing best with
  | nil => exact .inr h
  | cons y l ih =>
    rcases ih _ h with hx | hx
    · exact .inl (by simp [hx])
    · unfold chooseLess at hx
      split at hx
      · exact .inl (by simp [Option.some_inj.mp hx])
      · split at hx
        · exact .inl (by simp [Option.some_inj.mp hx])
        · exact .inr hx

theorem foldl_chooseLess_eq_none (l : List α) (best : Option α) :
    l.foldl (chooseLess before) best = none ↔ l = [] ∧ best = none := by
  induction l generalizing best with
  | nil => simp
  | cons y l ih =>
    rw [List.foldl_cons, ih]
    unfold chooseLess
    cases best with
    | none => simp
    | some b => by_cases hb : before y b = true <;> simp [hb]

/-- One that comes before every other is chosen. -/
theorem foldl_chooseLess_least (l : List α) (best : Option α) (x : α) (hx : x ∈ l ∨ best = some x)
    (hleast : ∀ y, y ∈ l ∨ best = some y → y ≠ x → before x y = true ∧ before y x = false) :
    l.foldl (chooseLess before) best = some x := by
  induction l generalizing best with
  | nil => exact hx.resolve_left (by simp)
  | cons y l ih =>
    refine ih _ ?_ fun v hv hne => hleast v ?_ hne
    · by_cases hxl : x ∈ l
      · exact .inl hxl
      · refine .inr ?_
        unfold chooseLess
        cases best with
        | none => simp_all
        | some b =>
          by_cases hb : b = x
          · subst hb
            by_cases hy : y = b
            · simp [hy]
            · simp [(hleast y (by simp) hy).2]
          · have hy : x = y := by simp_all
            subst hy
            simp [(hleast b (.inr rfl) hb).1]
    · rcases hv with hv | hv
      · exact .inl (by simp [hv])
      · unfold chooseLess at hv
        split at hv
        · exact .inl (by simp [Option.some_inj.mp hv])
        · split at hv
          · exact .inl (by simp [Option.some_inj.mp hv])
          · exact .inr hv

end

section
variable {s : State} {su : Setup} {z : Fin 24} {m : SSN} {w : Fin 64}

theorem State.due_iff : s.due su z m w = true ↔
    ((s.window w).status = .pending ∨ (s.window w).status = .live) ∧
    (∃ r, (s.windowRec w).region = some r ∧ su.zoneRegion z = some r) ∧ (s.window w).outcomes[z] = none ∧
    atOrBefore ((s.windowRec w).start - BitVec.ofNat 32 su.armLead) m = true := by
  have hregion : ((s.windowRec w).region.isSome = true ∧ (s.windowRec w).region = su.zoneRegion z) ↔
      ∃ r, (s.windowRec w).region = some r ∧ su.zoneRegion z = some r := by
    cases (s.windowRec w).region with
    | none => simp
    | some r => simp [eq_comm]
  rw [← WindowStatus.open?_iff, ← hregion]
  simp only [State.due, Bool.and_eq_true, beq_iff_eq, Option.isNone_iff_eq_none, ssnSub, and_assoc]

theorem State.dueWindow_eq : s.dueWindow su z m = ((List.finRange 64).filter (s.due su z m)).foldl
    (chooseLess fun v w => precedes (s.windowRec v).start (s.windowRec w).start) none := by
  unfold State.dueWindow
  refine congrArg (fun f => List.foldl f none ((List.finRange 64).filter (s.due su z m))) ?_
  funext best v
  cases best <;> rfl

theorem State.due_of_dueWindow (h : s.dueWindow su z m = some w) : s.due su z m w = true := by
  rw [State.dueWindow_eq] at h
  rcases foldl_chooseLess_mem _ _ _ h with h | h
  · exact (List.mem_filter.mp h).2
  · cases h

theorem State.dueWindow_eq_none_iff : s.dueWindow su z m = none ↔ ∀ w, ¬ s.due su z m w = true := by
  rw [State.dueWindow_eq, foldl_chooseLess_eq_none]
  simp [List.filter_eq_nil_iff]

theorem State.dueWindow_of_least (hw : s.due su z m w = true)
    (hleast : ∀ v, v ≠ w → s.due su z m v = true → precedes (s.windowRec w).start (s.windowRec v).start = true) :
    s.dueWindow su z m = some w := by
  rw [State.dueWindow_eq]
  refine foldl_chooseLess_least _ _ _ (.inl (by simp [hw])) fun v hv hne => ?_
  have hp := hleast v hne (by simpa using hv)
  exact ⟨hp, precedes_asymm hp⟩

end

/-! ## One outcome and the move of its window (R99 to R101) -/

section
variable (s : State) (su : Setup) (w : Fin 64) (z : Fin 24) (o : ZoneOutcome) (n : SSN)

theorem State.zone_outcomeAndSettle (k : Fin 24) : (s.outcomeAndSettle su w z o n).zone k =
    if k = z ∧ (s.window w).outcomes[z] = none ∧ (s.zone z).status.window? = some w then (s.zone z).toNational
    else s.zone k :=
  (State.zone_settleWindow _ su w k).trans (s.zone_giveOutcome z w o n k)

theorem State.outcomes_outcomeAndSettle (h : (s.window w).outcomes[z] = none) :
    ((s.outcomeAndSettle su w z o n).window w).outcomes[z] = some o := by
  obtain ⟨-, -, hkept⟩ := (s.giveOutcome w z o n).settleWindow_keeps su w
  exact (hkept z).trans ((s.outcomes_giveOutcome w w z z o n).trans (if_pos ⟨rfl, rfl, h⟩))

theorem State.outcomeAndSettle_given :
    ∃ x, s.GivenOutcome x w z o n ∧ x.WindowMoved (s.outcomeAndSettle su w z o n) su w :=
  ⟨_, s.givenOutcome_giveOutcome w z o n, State.windowMoved_settleWindow _ su w⟩

end

/-! ## The arming step (R105, R106) -/

theorem Zone.held_iff (x : Zone) : x.held = true ↔ x.commandHold ≠ none ∨ x.pinHold = true := by
  simp [Zone.held, Option.isSome_iff_ne_none]

theorem State.contributionReady_iff (s : State) (r : Fin 12) (start : SSN) : s.contributionReady r start = true ↔
    ∃ p h, (s.path r p).health = .live ∧ (s.path r p).head = some h ∧ atOrBefore start h = true := by
  have reached : ∀ p, headReached (s.path r p).head start = true ↔
      ∃ h, (s.path r p).head = some h ∧ atOrBefore start h = true := fun p => by
    cases (s.path r p).head <;> simp [headReached]
  simp only [State.contributionReady, List.any_cons, List.any_nil, Bool.or_false, Bool.or_eq_true, Bool.and_eq_true,
    beq_iff_eq, reached]
  refine ⟨?_, fun ⟨p, h, hp⟩ => ?_⟩
  · rintro (⟨hl, h, hh⟩ | ⟨hl, h, hh⟩)
    · exact ⟨.a, h, hl, hh⟩
    · exact ⟨.b, h, hl, hh⟩
  · obtain ⟨hl, hh⟩ := hp
    cases p with
    | a => exact .inl ⟨hl, h, hh⟩
    | b => exact .inr ⟨hl, h, hh⟩

section
variable {s : State} {su : Setup} {z : Fin 24} {m : SSN} {w : Fin 64}

theorem State.armStep_of_not_national (h : (s.zone z).status ≠ .national) : s.armStep su z m = s := by
  unfold State.armStep
  split
  · next hs => exact absurd hs h
  · rfl

theorem State.armStep_of_none_due (h : s.dueWindow su z m = none) : s.armStep su z m = s := by
  unfold State.armStep
  rw [h]
  split <;> rfl

/-- The arming step of a NATIONAL zone with a due window. -/
theorem State.armStep_of_due (hz : (s.zone z).status = .national) (hw : s.dueWindow su z m = some w) {r : Fin 12}
    (hr : su.zoneRegion z = some r) : s.armStep su z m =
      if (s.zone z).held then s.outcomeAndSettle su w z .heldOff m
      else if s.contributionReady r (s.windowRec w).start then s.updZone z (fun x => { x with status := .armed w })
      else s.outcomeAndSettle su w z .declined m := by
  simp only [State.armStep, hz, hw, hr]

/-- The window of an armed zone goes LIVE, with its report, where it was PENDING (R106). -/
theorem State.goLive_spec (hopen : (s.window w).status = .pending ∨ (s.window w).status = .live) :
    ((s.goLive w).window w).status = .live ∧ ((s.goLive w).window w).outcomes = (s.window w).outcomes ∧
    (∀ k, (s.goLive w).zone k = s.zone k) ∧
    (s.goLive w).rw = if (s.window w).status = .pending then (s.hand (.windowState w
      (byte (s.windowRec w).regionByte) (s.windowRec w).start .live none)).rw else s.rw := by
  unfold State.goLive
  split
  · have hbecame := s.windowBecame w .live .live
    exact ⟨by rw [hbecame.window], by rw [hbecame.window], hbecame.zones, hbecame.report⟩
  · next hp => exact ⟨hopen.resolve_left hp, rfl, fun _ => rfl, rfl⟩

end

/-- Settles O42: the due window, and what arming does with it. -/
theorem armingResults : Obligations.ArmingResults := by
  intro s su z m t due held
  have hdue : ∀ w, s.due su z m w = true ↔ due w := fun w => State.due_iff
  refine ⟨State.armStep_of_not_national, fun h => ?_, fun w hw hleast => ?_, fun w hw => ?_⟩
  · have hnone := State.dueWindow_eq_none_iff.mpr fun w => (hdue w).not.mpr (h w)
    exact ⟨hnone, State.armStep_of_none_due hnone⟩
  · exact State.dueWindow_of_least ((hdue w).mpr hw) fun v hne hv => hleast v hne ((hdue v).mp hv)
  · have hd := (hdue w).mp (State.due_of_dueWindow hw)
    refine ⟨hd, fun hz => ?_⟩
    obtain ⟨hopen, ⟨r, hregion, hr⟩, hnone, -⟩ := hd
    intro ready given
    have hnational : ∀ o, ((s.outcomeAndSettle su w z o m).zone z).status = .national := fun o => by
      rw [State.zone_outcomeAndSettle, if_neg (by simp [hz, ZoneStatus.window?]), hz]
    have hready : s.contributionReady r (s.windowRec w).start = true ↔ ready := by
      rw [State.contributionReady_iff]
      exact ⟨fun ⟨p, h, hp⟩ => ⟨r, p, h, hregion, hp⟩, fun ⟨r', p, h, hr', hp⟩ => by
        obtain rfl := Option.some_inj.mp (hregion.symm.trans hr')
        exact ⟨p, h, hp⟩⟩
    have ht : t = _ := State.armStep_of_due hz hw hr
    refine ⟨fun hh => ?_, fun hh hrd => ?_, fun hh hrd => ?_⟩
    · rw [if_pos ((Zone.held_iff _).mpr hh)] at ht
      simp only [given, ht]
      exact ⟨hnational _, s.outcomes_outcomeAndSettle su w z _ m hnone, s.outcomeAndSettle_given su w z _ m⟩
    · rw [if_neg ((Zone.held_iff _).not.mpr hh), if_pos (hready.mpr hrd)] at ht
      have hzone : t.zone z = { s.zone z with status := .armed w } := by rw [ht, State.zone_updZone]
      have hsettle : t.settleArming z = t.goLive w := by rw [State.settleArming, hzone]
      have hopen' : (t.window w).status = .pending ∨ (t.window w).status = .live := by rw [ht]; exact hopen
      obtain ⟨hlive, hout, hzones, hrw⟩ := State.goLive_spec hopen'
      refine ⟨hzone, by rw [ht]; exact hnone, by rw [ht]; rfl, ?_⟩
      intro u
      have hu : u = t.goLive w := hsettle
      rw [hu]
      refine ⟨hlive, hout.trans (by rw [ht]; rfl), hzones, hrw.trans ?_⟩
      have hwin : t.window w = s.window w := by rw [ht]; rfl
      have hrec : t.windowRec w = s.windowRec w := by rw [ht]; rfl
      rw [hwin, hrec]
    · rw [if_neg ((Zone.held_iff _).not.mpr hh), if_neg (hready.not.mpr hrd)] at ht
      simp only [given, ht]
      exact ⟨hnational _, s.outcomes_outcomeAndSettle su w z _ m hnone, s.outcomeAndSettle_given su w z _ m⟩

end Sys2Proof.Machine
end

section
/-! The end of a window and the returns to national (R104, R110 to R113). -/

namespace Sys2Proof.Machine

/-! ## A return to national (R104) -/

section
variable {s : State} {su : Setup} {z : Fin 24} {m : SSN} {w : Fin 64} {tl : Timeline}

theorem State.returnNational_of_made {x : State} {cause : RunCause} {o : ZoneOutcome}
    (h : s.appendRun su z m .national w cause = (x, true)) :
    s.returnNational su z m w cause o = (x.outcomeAndSettle su w z o m, true) := by
  simp [State.returnNational, h]

/-- A return whose run the log takes: the run, the outcome, the move of the window, and the zone NATIONAL. -/
theorem State.returnNational_of_room (cause : RunCause) (o : ZoneOutcome) (ht : (s.zone z).timeline = some tl)
    (hroom : tl.log.length < 32) (hw : (s.zone z).status.window? = some w) (hnone : (s.window w).outcomes[z] = none) :
    ∃ t x, s.returnNational su z m w cause o = (t, true) ∧ s.appendRun su z m .national w cause = (x, true) ∧
      t.zone z = { s.zone z with
        status := .national, conceal := 0, timeline := some (tl.appending (newRun (s.windowRec w) w m .national cause)) } ∧
      (∀ v, v ≠ w → t.window v = s.window v) ∧ (t.window w).outcomes[z] = some o ∧
      ∃ y, x.GivenOutcome y w z o m ∧ y.WindowMoved t su w := by
  have hx : s.appendRun su z m .national w cause = ((s.appendRun su z m .national w cause).1, true) := by
    rw [State.appendRun_of_room su m .national w cause ht hroom]
  have htime := State.timeline_appendRun_of_room su m .national w cause ht hroom
  have hzone := s.zone_appendRun su m .national w cause z
  have hwindow := fun v => s.window_appendRun su m .national w cause z v
  generalize (s.appendRun su z m .national w cause).1 = x at *
  have hnone' : (x.window w).outcomes[z] = none := by rw [hwindow]; exact hnone
  rw [htime] at hzone
  have hstatus : (x.zone z).status.window? = some w := by rw [hzone]; exact hw
  refine ⟨_, x, State.returnNational_of_made hx, hx, ?_, fun v hv => ?_, x.outcomes_outcomeAndSettle su w z o m hnone',
    x.outcomeAndSettle_given su w z o m⟩
  · rw [State.zone_outcomeAndSettle, if_pos ⟨rfl, hnone', hstatus⟩, hzone]
    rfl
  · obtain ⟨-, hothers, -⟩ := (x.giveOutcome w z o m).settleWindow_keeps su w
    refine (hothers v hv).trans ((x.window_giveOutcome w v z o m).trans ((if_neg fun c => hv c.1).trans (hwindow v)))

/-- A return that a full log refuses is its attempted append; the zone and its window's record stay as they were. -/
theorem State.returnNational_of_full (cause : RunCause) (o : ZoneOutcome) (ht : (s.zone z).timeline = some tl)
    (hfull : 32 ≤ tl.log.length) :
    s.returnNational su z m w cause o = s.appendRun su z m .national w cause ∧
    (s.returnNational su z m w cause o).2 = false ∧
    ((s.returnNational su z m w cause o).1.zone z).status = (s.zone z).status ∧
    (s.returnNational su z m w cause o).1.window w = s.window w := by
  have heq := s.returnNational_full su z m w cause o ht hfull
  refine ⟨heq, ?_, ?_, ?_⟩
  · rw [heq, State.appendRun_of_full su m .national w cause ht hfull]
  · rw [heq, State.zone_appendRun]
  · rw [heq, State.window_appendRun]

end

/-! ## The end of a window (R110) -/

section
variable {s : State} {z : Fin 24} {m : SSN}

theorem State.endStep_of_regional {w : Fin 64} (h : (s.zone z).status = .regional w) : s.endStep z m =
    if atOrBefore (s.windowRec w).finish m then s.updZone z (fun x => { x with status := .returning w .windowEnd false })
    else s := by
  simp only [State.endStep, h]

theorem State.endStep_of_not_regional (h : ∀ w, (s.zone z).status ≠ .regional w) : s.endStep z m = s := by
  unfold State.endStep
  split
  · next w hw => exact absurd hw (h w)
  · rfl

end

/-! ## Which return a slot makes (R111 to R113) -/

section
variable {s : State} {su : Setup} {z : Fin 24} {m : SSN}

theorem State.setTag_eq_some_iff {pairs : List (Tag × Tag)} {e : Entry} {want : Tag} :
    s.setTag su z m pairs = some (e, want) ↔
      s.usableEntry su .national z m = some e ∧ pairedTag pairs e.tag = some want := by
  unfold State.setTag
  cases s.usableEntry su .national z m with
  | none => simp
  | some x =>
    simp only [Option.map_eq_some_iff, Prod.mk.injEq, Option.some_inj]
    exact ⟨fun ⟨t, ht, hx, hw⟩ => by subst hx hw; exact ⟨rfl, ht⟩, fun ⟨hx, ht⟩ => by subst hx; exact ⟨want, ht, rfl, rfl⟩⟩

/-- A set-tag slot whose national cell is splice-ready: where a zone may return (R111). -/
def State.spliceReady (s : State) (su : Setup) (z : Fin 24) (m : SSN) (pairs : List (Tag × Tag)) : Bool :=
  match s.setTag su z m pairs with
  | some (e, _) => e.splice
  | none => false

theorem State.spliceReady_iff {pairs : List (Tag × Tag)} : s.spliceReady su z m pairs = true ↔
    ∃ e, s.usableEntry su .national z m = some e ∧ (pairedTag pairs e.tag).isSome = true ∧ e.splice = true := by
  unfold State.spliceReady
  split
  · next e want he =>
    obtain ⟨hu, hp⟩ := State.setTag_eq_some_iff.mp he
    exact ⟨fun h => ⟨e, hu, by simp [hp], h⟩, fun ⟨e', hu', _, h⟩ => by rwa [Option.some_inj.mp (hu.symm.trans hu')]⟩
  · next hn =>
    refine iff_of_false (by simp) ?_
    rintro ⟨e, hu, hp, -⟩
    obtain ⟨want, hwant⟩ := Option.isSome_iff_exists.mp hp
    exact absurd (hn.symm.trans (State.setTag_eq_some_iff.mpr ⟨hu, hwant⟩)) (by simp)

theorem State.returnStep_of_hard {w : Fin 64} {c : ReturnCause} (h : (s.zone z).status = .returning w c true) :
    s.returnStep su z m = s.returnNational su z m w .hold .heldOff := by
  simp only [State.returnStep, h]

theorem State.returnStep_of_soft {w : Fin 64} {c : ReturnCause} (h : (s.zone z).status = .returning w c false) :
    s.returnStep su z m =
      if s.spliceReady su z m (s.windowRec w).pairs then s.returnNational su z m w c.runCause c.outcome
      else if precedes ((s.windowRec w).finish + BitVec.ofNat 32 su.returnGrace) m then
        s.returnNational su z m w .graceReturn c.outcome
      else (s, false) := by
  simp only [State.returnStep, h, State.spliceReady]
  rfl

end

/-- Settles O44: the end of a window, and the three returns to national. -/
theorem returnsToNational : Obligations.ReturnsToNational := by
  refine ⟨fun s z m => ⟨fun w hw => ⟨fun h => ?_, fun h => ?_⟩, State.endStep_of_not_regional⟩,
    fun s su z m w c hard tl hstatus ht hnone => ?_⟩
  · rw [State.endStep_of_regional hw, if_pos h]
    exact s.statusBecame_updZone z _
  · rw [State.endStep_of_regional hw, if_neg (by simp [h])]
  intro wr splice grace returned
  have hw : (s.zone z).status.window? = some w := by rw [hstatus]; rfl
  have made : ∀ cause o, tl.log.length < 32 → s.returnStep su z m = s.returnNational su z m w cause o → returned cause o :=
    fun cause o hroom hstep => by
      obtain ⟨t, x, hreturn, hx, hzone, -, hout, y, hy, hmoved⟩ := State.returnNational_of_room (su := su) (m := m) cause o ht
        hroom hw hnone
      exact ⟨t, _, _, hstep.trans hreturn, by rw [hzone], rfl, rfl, rfl, rfl, rfl, by rw [hzone], by rw [hzone], hout, x, y, hx,
        hy, hmoved⟩
  have hsplice : s.spliceReady su z m wr.pairs = true ↔ splice := State.spliceReady_iff
  have hardStep : hard = true → s.returnStep su z m = s.returnNational su z m w .hold .heldOff := fun hh =>
    State.returnStep_of_hard (hh ▸ hstatus)
  have spliceStep : hard = false → splice → s.returnStep su z m = s.returnNational su z m w c.runCause c.outcome :=
    fun hh hs => by
      rw [State.returnStep_of_soft (hh ▸ hstatus)]
      exact if_pos (hsplice.mpr hs)
  have graceStep : hard = false → ¬ splice → grace →
      s.returnStep su z m = s.returnNational su z m w .graceReturn c.outcome := fun hh hs hg => by
    rw [State.returnStep_of_soft (hh ▸ hstatus)]
    exact (if_neg (hsplice.not.mpr hs)).trans (if_pos hg)
  have stayStep : hard = false → ¬ splice → ¬ grace → s.returnStep su z m = (s, false) := fun hh hs hg => by
    rw [State.returnStep_of_soft (hh ▸ hstatus)]
    exact (if_neg (hsplice.not.mpr hs)).trans (if_neg hg)
  refine ⟨fun hroom => ⟨fun hh => made _ _ hroom (hardStep hh), fun hh hs => ?_, fun hh hs hg => ?_⟩, stayStep, fun hfull => ?_⟩
  · have hstep := spliceStep hh hs
    exact ⟨fun e => by subst e; exact made _ _ hroom hstep, fun e => by subst e; exact made _ _ hroom hstep, fun e => by subst e; exact made _ _ hroom hstep⟩
  · have hstep := graceStep hh hs hg
    exact ⟨fun e => by subst e; exact made _ _ hroom hstep, fun e => by subst e; exact made _ _ hroom hstep, fun e => by subst e; exact made _ _ hroom hstep⟩
  · have attempt : ∀ cause o, s.returnStep su z m = s.returnNational su z m w cause o →
        s.returnStep su z m = s.appendRun su z m .national w cause := fun cause o h =>
      h.trans (State.returnNational_of_full cause o ht hfull).1
    have stays : (s.returnStep su z m).2 = false ∧ ((s.returnStep su z m).1.zone z).status = (s.zone z).status ∧
        (s.returnStep su z m).1.window w = s.window w := by
      by_cases hh : hard = true
      · rw [hardStep hh]
        exact (State.returnNational_of_full .hold .heldOff ht hfull).2
      · have hh : hard = false := by simpa using hh
        by_cases hs : splice
        · rw [spliceStep hh hs]
          exact (State.returnNational_of_full _ _ ht hfull).2
        · by_cases hg : grace
          · rw [graceStep hh hs hg]
            exact (State.returnNational_of_full _ _ ht hfull).2
          · rw [stayStep hh hs hg]
            exact ⟨rfl, rfl, rfl⟩
    refine ⟨stays.1, stays.2.1.trans hstatus, stays.2.2, ?_⟩
    intro attempted
    refine ⟨fun hh => attempt _ _ (hardStep hh), fun hh hs => ?_, fun hh hs hg => attempt _ _ (graceStep hh hs hg)⟩
    have hstep := attempt _ _ (spliceStep hh hs)
    exact ⟨fun e => by subst e; exact hstep, fun e => by subst e; exact hstep, fun e => by subst e; exact hstep⟩

end Sys2Proof.Machine
end

section
/-! Missed entry and entry (R104, R107 to R109). -/

namespace Sys2Proof.Machine

/-! ## Missed entry (R109) -/

theorem State.goLive_became (s : State) (w : Fin 64) : ((s.window w).status = .pending → s.WindowBecame (s.goLive w) w .live .live) ∧
    ((s.window w).status ≠ .pending → s.goLive w = s) := by
  refine ⟨fun h => ?_, fun h => if_neg h⟩
  rw [State.goLive, if_pos h]
  exact s.windowBecame w .live .live

/-- The report of a window's move, from states alike in what it asks. -/
theorem State.rw_hand_windowState {s t u : State} {w : Fin 64} {news : WindowNews} (hbase : t.ps = s.ps) (ps : t.ps = u.ps)
    (tb : t.tb = u.tb) (rw : t.rw = u.rw) :
    (t.hand (.windowState w (byte (t.windowRec w).regionByte) (t.windowRec w).start news none)).rw =
      (u.hand (.windowState w (byte (s.windowRec w).regionByte) (s.windowRec w).start news none)).rw := by
  have hrec : t.windowRec w = s.windowRec w := by unfold State.windowRec; rw [hbase]
  rw [hrec]
  exact State.hand_rw_congr _ ps tb rw

theorem State.outcomes_settleWindow_eq (s : State) (su : Setup) (w : Fin 64) :
    ((s.settleWindow su w).window w).outcomes = (s.window w).outcomes := by
  obtain ⟨-, -, hkept⟩ := s.settleWindow_keeps su w
  exact Vector.ext fun i hi => hkept ⟨i, hi⟩

section
variable {s : State} {su : Setup} {z : Fin 24} {m : SSN} {w : Fin 64}

theorem State.missStep_of_armed (h : (s.zone z).status = .armed w) : s.missStep su z m =
    if precedes ((s.windowRec w).start + BitVec.ofNat 32 su.entryGrace) m then s.giveMissed su z m w else s := by
  simp only [State.missStep, h]
  rfl

/-- What MISSED leaves of zones and windows, with its reports in their order (R101, R109, R131). -/
theorem State.giveMissed_spec (hz : (s.zone z).status = .armed w) (hnone : (s.window w).outcomes[z] = none) :
    let t := s.giveMissed su z m w
    let state := fun (x : State) news =>
      x.hand (.windowState w (byte (s.windowRec w).regionByte) (s.windowRec w).start news none)
    let missed := s.hand (.zoneOutcome w (byte (s.windowRec w).regionByte) z m .missed)
    let live := if (s.window w).status = .pending then state missed .live else missed
    let opened := (s.window w).status = .pending ∨ (s.window w).status = .live
    let last := ∀ k ∈ s.windowZones su w, k ≠ z → (s.window w).outcomes[k].isSome = true
    t.zone z = { s.zone z with status := .national, conceal := 0 } ∧
    (∀ k, k ≠ z → t.zone k = s.zone k) ∧ (∀ v, v ≠ w → t.window v = s.window v) ∧
    (t.window w).outcomes = (s.window w).outcomes.set z (some .missed) ∧ s.SameBut t [.zs, .rw] ∧
    (opened → last → (t.window w).status = .closed ∧ t.rw = (state live .closed).rw) ∧
    (opened → ¬ last → (t.window w).status = .live ∧ t.rw = live.rw) ∧
    (¬ opened → (t.window w).status = (s.window w).status ∧ t.rw = missed.rw) := by
  intro t state missed live opened last
  have hmade : s.OutcomeMade (s.giveOutcome w z .missed m) w z .missed m := (s.givenOutcome_giveOutcome w z .missed m).2 hnone
  have ht : t = ((s.giveOutcome w z .missed m).goLive w).settleWindow su w := rfl
  have hlast : ∀ y : State, y.windowZones su w = s.windowZones su w →
      (y.window w).outcomes = (s.window w).outcomes.set z (some .missed) →
      ((∀ k ∈ y.windowZones su w, (y.window w).outcomes[k].isSome = true) ↔ last) := fun y hyz hyo => by
    rw [hyz, hyo]
    refine forall₂_congr fun k hk => ?_
    by_cases hkz : k = z
    · subst hkz
      simp
    · simp [Fin.val_ne_of_ne (Ne.symm hkz), hkz]
  generalize s.giveOutcome w z .missed m = x at *
  obtain ⟨hwin, hwins, hrefers, -, hzones, hreport, hrest⟩ := hmade
  replace hrefers := hrefers (by rw [hz]; rfl)
  have hmissed : s.SameBut missed [.rw] := s.sameBut_hand _
  obtain ⟨hbecame, hstay⟩ := x.goLive_became w
  have hstatus : (x.window w).status = (s.window w).status := by rw [hwin]
  have hxps : x.ps = s.ps := hrest .ps (by simp)
  have hmps : missed.ps = s.ps := hmissed .ps (by simp)
  have hxtb : x.tb = missed.tb := (hrest .tb (by simp)).trans (hmissed .tb (by simp)).symm
  -- the window after the move that its arming makes
  have hy : x.SameBut (x.goLive w) [.zs, .rw] ∧ (∀ k, (x.goLive w).zone k = x.zone k) ∧
      (∀ v, v ≠ w → (x.goLive w).window v = x.window v) ∧
      ((x.goLive w).window w).outcomes = (s.window w).outcomes.set z (some .missed) ∧
      (opened → ((x.goLive w).window w).status = .live) ∧
      (¬ opened → ((x.goLive w).window w).status = (s.window w).status ∧ live = missed) ∧ (x.goLive w).rw = live.rw := by
    by_cases hp : (s.window w).status = .pending
    · have hb := hbecame (hstatus.trans hp)
      have hlive : live = state missed .live := if_pos hp
      refine ⟨hb.rest, hb.zones, hb.windows, by rw [hb.window, hwin], fun _ => by rw [hb.window], fun h => absurd (.inl hp) h, ?_⟩
      rw [hb.report, hlive]
      exact State.rw_hand_windowState hxps (hxps.trans hmps.symm) hxtb hreport
    · have hlive : live = missed := if_neg hp
      rw [hstay (by rw [hstatus]; exact hp)]
      exact ⟨.refl x _, fun _ => rfl, fun _ _ => rfl, by rw [hwin], fun h => hstatus.trans (h.resolve_left hp),
        fun _ => ⟨hstatus, hlive⟩, by rw [hlive, hreport]⟩
  have hlps : s.SameBut live [.rw] := by
    by_cases hp : (s.window w).status = .pending
    · exact (congrArg (s.SameBut · [.rw]) (if_pos hp : live = state missed .live)).mpr (hmissed.trans (State.sameBut_hand _ _))
    · exact (congrArg (s.SameBut · [.rw]) (if_neg hp : live = missed)).mpr hmissed
  obtain ⟨hysame, hyzones, hywins, hyout, hylive, hyclosed, hyrw⟩ := hy
  have hall := hrest.trans hysame
  generalize x.goLive w = y at *
  have hmoved := y.windowMoved_settleWindow su w
  have hwz : y.windowZones su w = s.windowZones su w := State.windowZones_congr (hall .ps (by simp)) su w
  have hended := hlast y hwz hyout
  obtain ⟨-, hothers, -⟩ := y.settleWindow_keeps su w
  have hzone := y.zone_settleWindow su w
  have hsame := (y.zoned_settleWindow su w).sameBut
  have hout : (t.window w).outcomes = (y.window w).outcomes := by
    rw [ht]
    exact y.outcomes_settleWindow_eq su w
  obtain ⟨hclose, -, hstays⟩ := hmoved
  rw [← ht] at hothers hzone hsame hclose hstays
  refine ⟨by rw [hzone, hyzones, hrefers], fun k hk => by rw [hzone, hyzones, hzones k hk],
    fun v hv => by rw [hothers v hv, hywins v hv, hwins v hv], by rw [hout, hyout], hall.trans hsame, fun ho hl => ?_,
    fun ho hl => ?_, fun ho => ?_⟩
  · have hb := hclose (.inr (hylive ho)) (hended.mpr hl)
    refine ⟨by rw [hb.window], ?_⟩
    rw [hb.report]
    exact State.rw_hand_windowState (hall .ps (by simp)) ((hall .ps (by simp)).trans (hlps .ps (by simp)).symm)
      ((hall .tb (by simp)).trans (hlps .tb (by simp)).symm) hyrw
  · rw [hstays (fun c => hl (hended.mp c.2)) (fun c => absurd ((hylive ho).symm.trans c.1) (by simp))]
    exact ⟨hylive ho, hyrw⟩
  · obtain ⟨hkept, hlive⟩ := hyclosed ho
    have hnot : ¬ ((y.window w).status = .pending ∨ (y.window w).status = .live) := by rw [hkept]; exact ho
    rw [hstays (fun c => hnot c.1) (fun c => hnot (.inl c.1))]
    exact ⟨hkept, by rw [hyrw, hlive]⟩

end

/-! ## The preferred path (R108) -/

section
variable {s : State} {su : Setup} {z : Fin 24} {m : SSN} {r : Fin 12}

theorem State.mem_candidates {want : Tag} {p : Path} : p ∈ s.candidates su z m r want ↔
    ∃ er, s.usableEntry su (.regional r p) z m = some er ∧ er.tag = want ∧ er.splice = true := by
  have hpath : p ∈ [Path.a, Path.b] := by cases p <;> simp
  simp only [State.candidates, List.mem_filter, hpath, true_and, State.servesEntry, Option.any_eq_true,
    Option.filter_eq_some_iff, beq_iff_eq]
  exact ⟨fun ⟨er, ⟨hu, ht⟩, hs⟩ => ⟨er, hu, ht, hs⟩, fun ⟨er, hu, ht, hs⟩ => ⟨er, ⟨hu, ht⟩, hs⟩⟩

theorem State.Prefers.congr {preferred p : Path} {c d : Path → Prop} (h : s.Prefers r preferred c p) (hcd : ∀ q, c q ↔ d q) :
    s.Prefers r preferred d p := by
  have : c = d := funext fun q => propext (hcd q)
  exact this ▸ h

/-- Some candidate is preferred where there is one, and it is the one that R108 names. -/
theorem State.preferPath_spec (preferred : Path) (cands : List Path) :
    (s.preferPath r preferred cands = none ↔ cands = []) ∧
    ∀ p, s.preferPath r preferred cands = some p → s.Prefers r preferred (· ∈ cands) p := by
  generalize hlive : cands.filter (fun p => (s.path r p).health == .live) = live
  have hmem : ∀ q, q ∈ live ↔ q ∈ cands ∧ (s.path r q).health = .live := fun q => by simp [← hlive]
  have hpool : ∃ pool : List Path, pool = (if live.isEmpty then cands else live) ∧
      s.preferPath r preferred cands = if pool.contains preferred then some preferred else pool.head? :=
    ⟨_, rfl, by rw [← hlive]; rfl⟩
  obtain ⟨pool, hpool, hchoice⟩ := hpool
  have hinpool : ∀ q, q ∈ pool ↔ q ∈ cands ∧ ((s.path r q).health = .live ∨ ∀ p ∈ cands, (s.path r p).health ≠ .live) :=
      fun q => by
    rw [hpool]
    by_cases he : live = []
    · have hno : ∀ p ∈ cands, (s.path r p).health ≠ .live := fun p hp hl => by
        have := (hmem p).mpr ⟨hp, hl⟩
        simp [he] at this
      simp only [he, List.isEmpty_nil, if_true]
      exact ⟨fun h => ⟨h, .inr hno⟩, fun h => h.1⟩
    · obtain ⟨x, hx⟩ := List.exists_mem_of_ne_nil _ he
      obtain ⟨hxc, hxl⟩ := (hmem x).mp hx
      rw [if_neg (by simpa using he), hmem]
      exact and_congr_right fun _ => ⟨.inl, fun h => h.resolve_right fun hno => hno x hxc hxl⟩
  rw [hchoice]
  refine ⟨?_, fun p hp => ?_⟩
  · have hnil : pool = [] ↔ cands = [] := by
      rw [hpool]
      by_cases he : live = []
      · simp [he]
      · have hc : cands ≠ [] := fun c => he (by rw [← hlive, c]; rfl)
        rw [if_neg (by simpa using he)]
        exact iff_of_false he hc
    by_cases hc : pool.contains preferred = true
    · rw [if_pos hc]
      exact iff_of_false (by simp) fun e => by simp [hnil.mpr e] at hc
    · rw [if_neg hc, List.head?_eq_none_iff]
      exact hnil
  · have hpp : p ∈ pool := by
      by_cases hc : pool.contains preferred = true
      · rw [if_pos hc] at hp
        exact Option.some_inj.mp hp ▸ (by simpa using hc)
      · rw [if_neg hc] at hp
        exact List.mem_of_head? hp
    obtain ⟨hcand, hfirst⟩ := (hinpool p).mp hpp
    refine ⟨hcand, hfirst, fun q hq hne hsame => ?_⟩
    by_contra hnp
    have hqp : q = preferred := by cases p <;> cases q <;> cases preferred <;> simp_all
    have hqpool : preferred ∈ pool := hqp ▸ (hinpool q).mpr ⟨hq, hfirst.imp hsame.mpr id⟩
    rw [if_pos (by simpa using hqpool)] at hp
    exact hnp (Option.some_inj.mp hp).symm

end

/-! ## Entry (R104, R107) -/

section
variable {s : State} {su : Setup} {z : Fin 24} {m : SSN} {w : Fin 64} {r : Fin 12}

/-- Path `p` may enter: the slot is a set-tag slot, and the path serves it with splice set (R107). -/
def State.EntryCandidate (s : State) (su : Setup) (z : Fin 24) (m : SSN) (w : Fin 64) (r : Fin 12) (p : Path) : Prop :=
  ∃ en want er, s.usableEntry su .national z m = some en ∧ pairedTag (s.windowRec w).pairs en.tag = some want ∧
    s.usableEntry su (.regional r p) z m = some er ∧ er.tag = want ∧ er.splice = true

theorem State.entryCandidate_iff {en : Entry} {want : Tag} (h : s.setTag su z m (s.windowRec w).pairs = some (en, want))
    (p : Path) : s.EntryCandidate su z m w r p ↔ p ∈ s.candidates su z m r want := by
  obtain ⟨hen, hwant⟩ := State.setTag_eq_some_iff.mp h
  rw [State.mem_candidates]
  refine ⟨?_, fun ⟨er, hu, ht, hs⟩ => ⟨en, want, er, hen, hwant, hu, ht, hs⟩⟩
  rintro ⟨en', want', er, hen', hwant', hu, ht, hs⟩
  obtain rfl := Option.some_inj.mp (hen.symm.trans hen')
  obtain rfl := Option.some_inj.mp (hwant.symm.trans hwant')
  exact ⟨er, hu, ht, hs⟩

/-- The entry that a slot attempts: on the path that R108 prefers. -/
theorem State.entryStep_of_candidate (hz : (s.zone z).status = .armed w) (hr : su.zoneRegion z = some r)
    (hstart : atOrBefore (s.windowRec w).start m = true) (hc : ∃ p, s.EntryCandidate su z m w r p) :
    ∃ p, s.Prefers r (s.windowRec w).preferredPath (s.EntryCandidate su z m w r) p ∧
      ∀ x made, s.appendRun su z m (.regional p) w .entry = (x, made) → s.entryStep su z m =
        (if made then x.updZone z (fun y => { y with status := .regional w, conceal := 0 }) else x, made) := by
  obtain ⟨q, en, want, er, hen, hwant, hq⟩ := hc
  have htag := State.setTag_eq_some_iff.mpr ⟨hen, hwant⟩
  have hiff := fun p => State.entryCandidate_iff (r := r) htag p
  obtain ⟨hnone, hsome⟩ := State.preferPath_spec (s := s) (r := r) (s.windowRec w).preferredPath (s.candidates su z m r want)
  have hmem : q ∈ s.candidates su z m r want := State.mem_candidates.mpr ⟨er, hq⟩
  obtain ⟨p, hp⟩ := Option.ne_none_iff_exists'.mp (hnone.not.mpr (List.ne_nil_of_mem hmem))
  refine ⟨p, (hsome p hp).congr fun q => (hiff q).symm, fun x made hx => ?_⟩
  simp only [State.entryStep, hz, hr, hstart, htag, hp, if_true, hx]
  cases made <;> rfl

/-- No entry is attempted before the window's start, or without a candidate. -/
theorem State.entryStep_of_none (hz : (s.zone z).status = .armed w) (hr : su.zoneRegion z = some r)
    (h : ¬ (atOrBefore (s.windowRec w).start m = true ∧ ∃ p, s.EntryCandidate su z m w r p)) :
    s.entryStep su z m = (s, false) := by
  simp only [State.entryStep, hz, hr]
  split
  · next hstart =>
    split
    · next en want htag =>
      split
      · next p hp =>
        obtain ⟨-, hsome⟩ := State.preferPath_spec (s := s) (r := r) (s.windowRec w).preferredPath
          (s.candidates su z m r want)
        exact absurd ⟨hstart, p, (State.entryCandidate_iff htag p).mpr (hsome p hp).1⟩ h
      · rfl
    · rfl
  · rfl

end

/-- Settles O43: the missed entry, and the entry at a splice-ready set-tag slot. -/
theorem entryAndMiss : Obligations.EntryAndMiss := by
  intro s su z m w r tl hz hr ht wr candidate state
  refine ⟨fun hlate hnone => ?_, fun hearly => ?_, fun hstart hc hroom => ?_, State.entryStep_of_none hz hr, fun hfull => ?_⟩
  · have hstep : s.missStep su z m = s.giveMissed su z m w := by
      rw [State.missStep_of_armed hz]
      exact if_pos hlate
    rw [hstep]
    exact State.giveMissed_spec hz hnone
  · rw [State.missStep_of_armed hz]
    exact if_neg (by simp [wr] at hearly; simp [hearly])
  · obtain ⟨p, hprefers, hstep⟩ := State.entryStep_of_candidate hz hr hstart hc
    have happend : s.appendRun su z m (.regional p) w .entry = ((s.appendRun su z m (.regional p) w .entry).1, true) := by
      rw [State.appendRun_of_room su m _ w _ ht hroom]
    have htime := State.timeline_appendRun_of_room su m (.regional p) w .entry ht hroom
    generalize (s.appendRun su z m (.regional p) w .entry).1 = x at *
    replace hstep := hstep x true happend
    rw [if_pos rfl] at hstep
    have hzone : (x.updZone z (fun y => { y with status := .regional w, conceal := 0 })).zone z = _ := State.zone_updZone ..
    refine ⟨p, _, hstep, hprefers, ⟨x, happend, hzone, fun k hk => State.zone_updZone_ne _ _ _ _ hk, fun _ => rfl,
      x.sameBut_updZone z _⟩, by rw [hzone], by rw [hzone],
      tl.appending (newRun (s.windowRec w) w m (.regional p) .entry), newRun (s.windowRec w) w m (.regional p) .entry, ?_, rfl, rfl, rfl, rfl, rfl⟩
    rw [hzone]
    exact htime
  · by_cases hc : atOrBefore wr.start m = true ∧ ∃ p, candidate p
    · obtain ⟨p, hprefers, hstep⟩ := State.entryStep_of_candidate hz hr hc.1 hc.2
      have happend : s.appendRun su z m (.regional p) w .entry = ((s.appendRun su z m (.regional p) w .entry).1, false) := by
        rw [State.appendRun_of_full su m _ w _ ht hfull]
      have hzone := s.zone_appendRun su m (.regional p) w .entry z
      generalize hx : (s.appendRun su z m (.regional p) w .entry).1 = x at *
      rw [hstep x false happend, if_neg (by simp)]
      refine ⟨by rw [hzone]; exact hz, rfl, fun _ _ => ⟨p, hprefers, happend.symm⟩⟩
    · rw [State.entryStep_of_none hz hr hc]
      exact ⟨hz, rfl, fun h1 h2 => absurd ⟨h1, h2⟩ hc⟩

end Sys2Proof.Machine
end

section
/-! The source of a slot inside a window (R134 to R139): what each row of section 7.3.2 leaves. -/

namespace Sys2Proof.Machine

/-! ## The conceal count -/

/-- The zone with its conceal count at a value. -/
def State.withConceal (s : State) (z : Fin 24) (k : Nat) : State := s.updZone z (fun x => { x with conceal := k })

section
variable (s : State) (z : Fin 24) (k : Nat)

theorem State.zone_withConceal : (s.withConceal z k).zone z = { s.zone z with conceal := k } := s.zone_updZone z _

theorem State.clearConceal_eq : s.clearConceal z = s.withConceal z 0 := rfl

theorem State.countConceal_eq : s.countConceal z = s.withConceal z ((s.zone z).conceal + 1) := rfl

theorem State.withConceal_self : s.withConceal z (s.zone z).conceal = s := by
  have hset : s.zs.zones.set z.val (s.zone z) z.isLt = s.zs.zones := Vector.set_getElem_self ..
  show ({ s with zs := { s.zs with zones := s.zs.zones.set z.val (s.zone z) z.isLt } } : State) = s
  rw [hset]

end

/-! ## A slot on which a run of another source is wanted (R136, R138) -/

/-- The append that is wanted, then the count: 0 where it is made, one more where a full log refuses it. -/
def State.wantedSlot (s : State) (su : Setup) (z : Fin 24) (m : SSN) (w : Fin 64) (source : RunSource) (cause : RunCause) :
    State :=
  match s.appendRun su z m source w cause with
  | (s, true) => s.clearConceal z
  | (s, false) => s.concealSlot su z m w false

section
variable {s x : State} {su : Setup} {z : Fin 24} {m : SSN} {w : Fin 64} {source : RunSource} {cause : RunCause} {r : Fin 12}
  {want : Tag}

theorem State.wantedSlot_of_made (h : s.appendRun su z m source w cause = (x, true)) :
    s.wantedSlot su z m w source cause = x.clearConceal z := by
  simp [State.wantedSlot, h]

theorem State.wantedSlot_of_refused (h : s.appendRun su z m source w cause = (x, false)) :
    s.wantedSlot su z m w source cause = x.concealSlot su z m w false := by
  simp [State.wantedSlot, h]

theorem State.regionalSlot_eq (p : Path) : s.regionalSlot su z m w r p want =
    if s.serves su z m r p want then s.withConceal z 0
    else if s.serves su z m r (otherPath p) want then s.wantedSlot su z m w (.regional (otherPath p)) .pathChange
    else s.concealSlot su z m w true := rfl

theorem State.concealedSlot_of_some {p : Path}
    (h : s.preferPath r (s.windowRec w).preferredPath (s.candidates su z m r want) = some p) :
    s.concealedSlot su z m w r want = s.wantedSlot su z m w (.regional p) .resume := by
  rw [State.concealedSlot, h]
  rfl

theorem State.concealedSlot_of_none
    (h : s.preferPath r (s.windowRec w).preferredPath (s.candidates su z m r want) = none) :
    s.concealedSlot su z m w r want = s.concealSlot su z m w false := by
  simp [State.concealedSlot, h]

end

/-! ## What a slot inside a window leaves alone -/

/-- A slot of zone `z` inside window `w`: no other zone and no other window changes, nor do the zone's holds. -/
structure State.SlotKept (z : Fin 24) (w : Fin 64) (s t : State) : Prop where
  zones : ∀ k, k ≠ z → t.zone k = s.zone k
  windows : ∀ v, v ≠ w → t.window v = s.window v
  commandHold : (t.zone z).commandHold = (s.zone z).commandHold
  pinHold : (t.zone z).pinHold = (s.zone z).pinHold
  rest : s.SameBut t [.zs, .rw]

theorem State.SlotKept.refl (z : Fin 24) (w : Fin 64) (s : State) : State.SlotKept z w s s :=
  ⟨fun _ _ => rfl, fun _ _ => rfl, rfl, rfl, .refl s _⟩

theorem State.SlotKept.trans {z : Fin 24} {w : Fin 64} {a b c : State} (h : State.SlotKept z w a b) (k : State.SlotKept z w b c) :
    State.SlotKept z w a c where
  zones i hi := (k.zones i hi).trans (h.zones i hi)
  windows v hv := (k.windows v hv).trans (h.windows v hv)
  commandHold := k.commandHold.trans h.commandHold
  pinHold := k.pinHold.trans h.pinHold
  rest := h.rest.trans k.rest

section
variable (s : State) (su : Setup) (z : Fin 24) (m : SSN) (w : Fin 64)

theorem State.slotKept_withConceal (k : Nat) : State.SlotKept z w s (s.withConceal z k) where
  zones i hi := s.zone_updZone_ne z i _ hi
  windows _ _ := rfl
  commandHold := by rw [s.zone_withConceal]
  pinHold := by rw [s.zone_withConceal]
  rest := (s.sameBut_updZone z _).mono (by simp)

theorem State.slotKept_appendRun (source : RunSource) (cause : RunCause) :
    State.SlotKept z w s (s.appendRun su z m source w cause).1 where
  zones i hi := s.zone_appendRun_of_ne su m source w cause hi
  windows v _ := s.window_appendRun su m source w cause z v
  commandHold := by rw [s.zone_appendRun]
  pinHold := by rw [s.zone_appendRun]
  rest := s.sameBut_appendRun su m source w cause z

theorem State.slotKept_outcomeAndSettle (o : ZoneOutcome) : State.SlotKept z w s (s.outcomeAndSettle su w z o m) where
  zones i hi := by rw [State.zone_outcomeAndSettle, if_neg fun c => hi c.1]
  windows v hv := by
    obtain ⟨-, hothers, -⟩ := (s.giveOutcome w z o m).settleWindow_keeps su w
    exact (hothers v hv).trans ((s.window_giveOutcome w v z o m).trans (if_neg fun c => hv c.1))
  commandHold := by rw [State.zone_outcomeAndSettle]; split <;> rfl
  pinHold := by rw [State.zone_outcomeAndSettle]; split <;> rfl
  rest := (s.zoned_outcomeAndSettle su w z o m).sameBut

theorem State.slotKept_forcedReturn : State.SlotKept z w s (s.forcedReturn su z m w) := by
  have happend := s.slotKept_appendRun su z m w .national .forcedReturn
  unfold State.forcedReturn State.returnNational
  generalize s.appendRun su z m .national w .forcedReturn = a at *
  obtain ⟨x, made⟩ := a
  cases made with
  | false => exact happend
  | true => exact happend.trans (x.slotKept_outcomeAndSettle su z m w .aborted)

theorem State.slotKept_concealSlot (fresh : Bool) : State.SlotKept z w s (s.concealSlot su z m w fresh) := by
  unfold State.concealSlot State.concealAt
  rw [State.countConceal_eq]
  refine (s.slotKept_withConceal z w ((s.zone z).conceal + 1)).trans ?_
  split
  · exact State.slotKept_forcedReturn _ su z m w
  · split
    · exact State.slotKept_appendRun _ su z m w _ _
    · exact .refl z w _

theorem State.slotKept_wantedSlot (source : RunSource) (cause : RunCause) :
    State.SlotKept z w s (s.wantedSlot su z m w source cause) := by
  have happend := s.slotKept_appendRun su z m w source cause
  cases ha : s.appendRun su z m source w cause with
  | mk x made =>
    rw [ha] at happend
    cases made with
    | true =>
      rw [State.wantedSlot_of_made ha]
      exact happend.trans (x.slotKept_withConceal z w 0)
    | false =>
      rw [State.wantedSlot_of_refused ha]
      exact happend.trans (x.slotKept_concealSlot su z m w false)

theorem State.slotKept_inWindowSlot : State.SlotKept z w s (s.inWindowSlot su z m w) := by
  unfold State.inWindowSlot
  split
  · exact s.slotKept_forcedReturn su z m w
  · split
    · split
      · rw [State.regionalSlot_eq]
        split
        · exact s.slotKept_withConceal z w 0
        · split
          · exact s.slotKept_wantedSlot su z m w _ _
          · exact s.slotKept_concealSlot su z m w true
      · next r _ _ want _ _ _ _ _ =>
        cases hp : s.preferPath _ (s.windowRec w).preferredPath (s.candidates su z m _ _) with
        | some p =>
          rw [State.concealedSlot_of_some hp]
          exact s.slotKept_wantedSlot su z m w _ _
        | none =>
          rw [State.concealedSlot_of_none hp]
          exact s.slotKept_concealSlot su z m w false
      · exact .refl z w s
    · exact .refl z w s

end

/-! ## What a slot inside a window may leave -/

/-- The conceal count stands at `k`, and the zone's state and the window stay. -/
def State.SlotStays (s t : State) (z : Fin 24) (w : Fin 64) (k : Nat) : Prop :=
  (t.zone z).conceal = k ∧ (t.zone z).status = (s.zone z).status ∧ t.window w = s.window w

/-- The log has taken a run at `m`, with its copies of the window (R123). -/
def State.SlotAppended (s t : State) (z : Fin 24) (m : SSN) (w : Fin 64) (tl : Timeline) (source : RunSource)
    (cause : RunCause) : Prop :=
  ∃ tl' run, (t.zone z).timeline = some tl' ∧ tl'.log = tl.log ++ [run] ∧ run.first = m ∧ run.source = source ∧
    run.cause = cause ∧ run.window = some
      { window := w, pairs := (s.windowRec w).pairs, concealNational := (s.windowRec w).mode == 1
        breaks := (s.windowRec w).pairs.map (fun _ => none) }

/-- The run has been appended, with its SWITCH report. -/
def State.SlotMade (s t : State) (su : Setup) (z : Fin 24) (m : SSN) (w : Fin 64) (tl : Timeline) (source : RunSource)
    (cause : RunCause) : Prop :=
  s.SlotAppended t z m w tl source cause ∧ ∃ x, s.appendRun su z m source w cause = (x, true) ∧
    (t.zone z).timeline = (x.zone z).timeline ∧ t.rw = x.rw

/-- A full log has refused the run, with LOG_FULL the first time of its episode (R141). -/
def State.SlotRefused (s t : State) (z : Fin 24) (m : SSN) (tl : Timeline) (source : RunSource) (cause : RunCause) : Prop :=
  (t.zone z).timeline = some { tl with logFull := true } ∧
    t.rw = if tl.logFull then s.rw else (s.hand (.logFull z m source cause tl.openSource tl.trail)).rw

/-- The forced return has been made (R139). -/
def State.SlotAborted (s t : State) (su : Setup) (z : Fin 24) (m : SSN) (w : Fin 64) (tl : Timeline) : Prop :=
  (t.zone z).conceal = 0 ∧ (t.zone z).status = .national ∧ (t.window w).outcomes[z] = some .aborted ∧
    s.SlotAppended t z m w tl .national .forcedReturn ∧
    ∃ k x y, (s.updZone z (fun c => { c with conceal := k })).appendRun su z m .national w .forcedReturn = (x, true) ∧
      x.GivenOutcome y w z .aborted m ∧ y.WindowMoved t su w

section
variable {s : State} {su : Setup} {z : Fin 24} {m : SSN} {w : Fin 64} {tl : Timeline}

theorem State.timeline_withConceal (ht : (s.zone z).timeline = some tl) (k : Nat) :
    ((s.withConceal z k).zone z).timeline = some tl := by
  rw [s.zone_withConceal]
  exact ht

/-- A forced return, the count at `k`, that the log takes. -/
theorem State.forcedReturn_of_room (ht : (s.zone z).timeline = some tl) (hroom : tl.log.length < 32)
    (hw : (s.zone z).status.window? = some w) (hnone : (s.window w).outcomes[z] = none) (k : Nat) :
    s.SlotAborted ((s.withConceal z k).forcedReturn su z m w) su z m w tl := by
  obtain ⟨t, x, hreturn, hx, hzone, -, hout, y, hy, hmoved⟩ := State.returnNational_of_room (s := s.withConceal z k) (su := su)
    (m := m) (w := w) .forcedReturn .aborted (State.timeline_withConceal ht k) hroom (by rw [s.zone_withConceal]; exact hw) hnone
  rw [State.forcedReturn, hreturn]
  exact ⟨by rw [hzone], by rw [hzone], hout, ⟨_, newRun (s.windowRec w) w m .national .forcedReturn, by rw [hzone], rfl, rfl,
    rfl, rfl, rfl⟩, k, x, y, hx, hy, hmoved⟩

/-- A forced return, the count at `k`, that a full log refuses: the count stays there. -/
theorem State.forcedReturn_of_full (ht : (s.zone z).timeline = some tl) (hfull : 32 ≤ tl.log.length) (k : Nat) :
    s.SlotStays ((s.withConceal z k).forcedReturn su z m w) z w k ∧
      s.SlotRefused ((s.withConceal z k).forcedReturn su z m w) z m tl .national .forcedReturn := by
  have ht' := State.timeline_withConceal ht k
  have heq : (s.withConceal z k).forcedReturn su z m w = ((s.withConceal z k).appendRun su z m .national w .forcedReturn).1 :=
    congrArg Prod.fst (State.returnNational_of_full .forcedReturn .aborted ht' hfull).1
  rw [heq]
  refine ⟨⟨?_, ?_, State.window_appendRun ..⟩, State.timeline_appendRun_of_full su m _ w _ ht' hfull, ?_⟩
  · rw [State.zone_appendRun, s.zone_withConceal]
  · rw [State.zone_appendRun, s.zone_withConceal]
  · rw [State.rw_appendRun_of_full su m _ w _ ht' hfull]
    split
    · rfl
    · exact State.hand_rw_congr _ rfl rfl rfl

/-- A concealed slot past the limit (R137, R139). -/
theorem State.concealSlot_of_over (fresh : Bool) (h : (s.windowRec w).limit < (s.zone z).conceal + 1) :
    s.concealSlot su z m w fresh = (s.withConceal z ((s.zone z).conceal + 1)).forcedReturn su z m w := by
  rw [State.concealSlot, State.concealAt, State.countConceal_eq]
  exact if_pos h

theorem State.concealSlot_of_within (fresh : Bool) (h : (s.zone z).conceal + 1 ≤ (s.windowRec w).limit) :
    s.concealSlot su z m w fresh =
      if fresh then ((s.withConceal z ((s.zone z).conceal + 1)).appendRun su z m .conceal w .conceal).1
      else s.withConceal z ((s.zone z).conceal + 1) := by
  rw [State.concealSlot, State.concealAt, State.countConceal_eq]
  exact if_neg (Nat.not_lt.mpr h)

/-- A slot concealed with no run wanted: the count rises, and past the limit the zone is forced to return (R137, R139). -/
theorem State.concealSlot_spec (ht : (s.zone z).timeline = some tl) (hw : (s.zone z).status.window? = some w)
    (hnone : (s.window w).outcomes[z] = none) (fresh : Bool) :
    let t := s.concealSlot su z m w fresh
    let count := (s.zone z).conceal
    (count + 1 ≤ (s.windowRec w).limit →
      (fresh = true → (tl.log.length < 32 → s.SlotStays t z w (count + 1) ∧ s.SlotMade t su z m w tl .conceal .conceal) ∧
        (¬ tl.log.length < 32 → s.SlotStays t z w (count + 1) ∧ s.SlotRefused t z m tl .conceal .conceal)) ∧
      (fresh = false → s.SlotStays t z w (count + 1) ∧ (t.zone z).timeline = some tl ∧ t.rw = s.rw)) ∧
    ((s.windowRec w).limit < count + 1 → (tl.log.length < 32 → s.SlotAborted t su z m w tl) ∧
      (¬ tl.log.length < 32 → s.SlotStays t z w (count + 1) ∧ s.SlotRefused t z m tl .national .forcedReturn)) := by
  intro t count
  have ht' := State.timeline_withConceal ht (count + 1)
  refine ⟨fun hle => ⟨fun hf => ?_, fun hf => ?_⟩, fun hlt => ?_⟩
  · have heq : t = ((s.withConceal z (count + 1)).appendRun su z m .conceal w .conceal).1 :=
      (State.concealSlot_of_within fresh hle).trans (if_pos hf)
    have hzone := (s.withConceal z (count + 1)).zone_appendRun su m .conceal w .conceal z
    have hstays : s.SlotStays t z w (count + 1) := by
      rw [heq]
      exact ⟨by rw [hzone, s.zone_withConceal], by rw [hzone, s.zone_withConceal], State.window_appendRun ..⟩
    refine ⟨fun hroom => ⟨hstays, ?_⟩, fun hfull => ⟨hstays, ?_⟩⟩
    · have htime := State.timeline_appendRun_of_room su m .conceal w .conceal ht' hroom
      have htime' := State.timeline_appendRun_of_room su m .conceal w .conceal ht hroom
      have hrw := State.rw_appendRun_of_room su m .conceal w .conceal ht' hroom
      have hrw' := State.rw_appendRun_of_room su m .conceal w .conceal ht hroom
      rw [heq]
      refine ⟨⟨_, newRun (s.windowRec w) w m .conceal .conceal, htime, rfl, rfl, rfl, rfl, rfl⟩,
        (s.appendRun su z m .conceal w .conceal).1, ?_, htime.trans htime'.symm, ?_⟩
      · rw [State.appendRun_of_room su m .conceal w .conceal ht hroom]
      · rw [hrw, hrw']
        exact State.hand_rw_congr _ rfl rfl rfl
    · rw [heq]
      refine ⟨State.timeline_appendRun_of_full su m _ w _ ht' (Nat.not_lt.mp hfull), ?_⟩
      rw [State.rw_appendRun_of_full su m _ w _ ht' (Nat.not_lt.mp hfull)]
      split
      · rfl
      · exact State.hand_rw_congr _ rfl rfl rfl
  · have heq : t = s.withConceal z (count + 1) := (State.concealSlot_of_within fresh hle).trans (if_neg (by simp [hf]))
    rw [heq]
    exact ⟨⟨by rw [s.zone_withConceal], by rw [s.zone_withConceal], rfl⟩, ht', rfl⟩
  · have heq : t = (s.withConceal z (count + 1)).forcedReturn su z m w := State.concealSlot_of_over fresh hlt
    rw [heq]
    exact ⟨fun hroom => State.forcedReturn_of_room ht hroom hw hnone _,
      fun hfull => State.forcedReturn_of_full ht (Nat.not_lt.mp hfull) _⟩

/-- A slot on which a regional run is wanted (R136, R138, R141). -/
theorem State.wantedSlot_spec (ht : (s.zone z).timeline = some tl) (source : RunSource) (cause : RunCause) :
    let t := s.wantedSlot su z m w source cause
    (tl.log.length < 32 → s.SlotStays t z w 0 ∧ s.SlotMade t su z m w tl source cause) ∧
    (¬ tl.log.length < 32 → s.SlotStays t z w ((s.zone z).conceal + 1) ∧ s.SlotRefused t z m tl source cause) := by
  intro t
  have hzone := s.zone_appendRun su m source w cause z
  have hwindow := s.window_appendRun su m source w cause z w
  refine ⟨fun hroom => ?_, fun hroom => ?_⟩
  · have happend : s.appendRun su z m source w cause = ((s.appendRun su z m source w cause).1, true) := by
      rw [State.appendRun_of_room su m source w cause ht hroom]
    have htime := State.timeline_appendRun_of_room su m source w cause ht hroom
    generalize (s.appendRun su z m source w cause).1 = x at *
    have heq : t = x.withConceal z 0 := State.wantedSlot_of_made happend
    have hxtime : ((x.withConceal z 0).zone z).timeline = (x.zone z).timeline := by rw [x.zone_withConceal]
    rw [heq]
    refine ⟨⟨by rw [x.zone_withConceal], by rw [x.zone_withConceal, hzone], hwindow⟩,
      ⟨_, newRun (s.windowRec w) w m source cause, hxtime.trans htime, rfl, rfl, rfl, rfl, rfl⟩, x, happend, hxtime, rfl⟩
  · have hfull := Nat.not_lt.mp hroom
    have happend : s.appendRun su z m source w cause = ((s.appendRun su z m source w cause).1, false) := by
      rw [State.appendRun_of_full su m source w cause ht hfull]
    have htime := State.timeline_appendRun_of_full su m source w cause ht hfull
    have hrw := State.rw_appendRun_of_full su m source w cause ht hfull
    have hps := s.sameBut_appendRun su m source w cause z .ps (by simp)
    generalize (s.appendRun su z m source w cause).1 = x at *
    have hcount : (x.zone z).conceal = (s.zone z).conceal := by rw [hzone]
    have heq : t = x.withConceal z ((s.zone z).conceal + 1) := by
      have hslot : t = x.concealSlot su z m w false := State.wantedSlot_of_refused happend
      rw [hslot, ← hcount]
      by_cases hle : (x.zone z).conceal + 1 ≤ (x.windowRec w).limit
      · exact (State.concealSlot_of_within false hle).trans (if_neg (by simp))
      · have htime' := State.timeline_withConceal htime ((x.zone z).conceal + 1)
        have hagain := State.appendRun_of_full su m .national w .forcedReturn htime' hfull
        rw [State.concealSlot_of_over false (Nat.not_le.mp hle), State.forcedReturn,
          (State.returnNational_of_full .forcedReturn .aborted htime' hfull).1, hagain]
        rfl
    rw [heq]
    refine ⟨⟨by rw [x.zone_withConceal], by rw [x.zone_withConceal, hzone], hwindow⟩, ?_, hrw⟩
    rw [x.zone_withConceal]
    exact htime

end

/-- Settles O45: the source of a slot inside a window, by the count, the slot and the open run. -/
theorem sourceInsideWindow : Obligations.SourceInsideWindow := by
  intro s su z m w r tl hin hr ht hnone t limit count room appended made refused unchanged stays aborted setTag resumes
  have hw : (s.zone z).status.window? = some w := by
    rcases hin with h | ⟨c, h, hs⟩
    · rw [h]; rfl
    · rw [hs]; rfl
  have hslot : t = s.inWindowSlot su z m w := by
    rcases hin with h | ⟨c, h, hs⟩
    · show s.chooseSource su z m = _
      simp only [State.chooseSource, h]
    · show s.chooseSource su z m = _
      simp only [State.chooseSource, hs]
  obtain ⟨hzones, hwindows, hcommand, hpin, hrest⟩ := s.slotKept_inWindowSlot su z m w
  have hconceal := fun fresh => State.concealSlot_spec (su := su) (m := m) ht hw hnone fresh
  have hwanted := fun source cause => State.wantedSlot_spec (su := su) (m := m) (w := w) ht source cause
  have regional : ∀ want p, count ≤ limit → setTag want → tl.openSource = .regional p →
      t = s.regionalSlot su z m w r p want := fun want p hle ⟨en, hen, hwant⟩ hopen => by
    have htag := State.setTag_eq_some_iff.mpr ⟨hen, hwant⟩
    rw [hslot, State.inWindowSlot, if_neg (Nat.not_lt.mpr hle)]
    simp only [htag, hr, ht, hopen]
  have concealed : ∀ want, count ≤ limit → setTag want → tl.openSource = .conceal →
      t = s.concealedSlot su z m w r want := fun want hle ⟨en, hen, hwant⟩ hopen => by
    have htag := State.setTag_eq_some_iff.mpr ⟨hen, hwant⟩
    rw [hslot, State.inWindowSlot, if_neg (Nat.not_lt.mpr hle)]
    simp only [htag, hr, ht, hopen]
  have hresumes : ∀ want p, p ∈ s.candidates su z m r want ↔ resumes want p := fun want p => State.mem_candidates
  refine ⟨⟨hslot ▸ hzones, hslot ▸ hwindows, hslot ▸ hcommand, hslot ▸ hpin, hslot ▸ hrest⟩, fun hlt => ?_, fun hle hno => ?_,
    fun want p hle hset hopen => ?_, fun want hle hset hopen => ?_⟩
  · have heq : t = (s.withConceal z count).forcedReturn su z m w := by
      rw [hslot, State.inWindowSlot, if_pos hlt, s.withConceal_self]
    clear_value t
    subst heq
    exact ⟨fun hroom => State.forcedReturn_of_room ht hroom hw hnone count,
      fun hroom => State.forcedReturn_of_full ht (Nat.not_lt.mp hroom) count⟩
  · rw [hslot, State.inWindowSlot, if_neg (Nat.not_lt.mpr hle)]
    cases htag : s.setTag su z m (s.windowRec w).pairs with
    | none => rfl
    | some q =>
      obtain ⟨en, want⟩ := q
      exact absurd (State.setTag_eq_some_iff.mp htag) fun ⟨hen, hwant⟩ => hno want ⟨en, hen, hwant⟩
  · have heq := (regional want p hle hset hopen).trans (State.regionalSlot_eq p)
    intro own other
    refine ⟨fun h1 => ?_, fun h1 h2 => ?_, fun h1 h2 => ?_⟩
    · rw [if_pos h1] at heq
      clear_value t
      subst heq
      exact ⟨⟨by rw [s.zone_withConceal], by rw [s.zone_withConceal], rfl⟩, State.timeline_withConceal ht 0, rfl⟩
    · rw [if_neg h1, if_pos h2] at heq
      clear_value t
      subst heq
      exact hwanted (.regional (otherPath p)) .pathChange
    · rw [if_neg h1, if_neg h2] at heq
      obtain ⟨hwithin, hover⟩ := hconceal true
      clear_value t
      subst heq
      exact ⟨fun hc => (hwithin hc).1 rfl, hover⟩
  · have heq := concealed want hle hset hopen
    obtain ⟨hnot, hsome⟩ := State.preferPath_spec (s := s) (r := r) (s.windowRec w).preferredPath (s.candidates su z m r want)
    refine ⟨fun ⟨q, hq⟩ => ?_, fun hno => ?_⟩
    · obtain ⟨p, hp⟩ := Option.ne_none_iff_exists'.mp
        (hnot.not.mpr (List.ne_nil_of_mem ((hresumes want q).mpr hq)))
      rw [State.concealedSlot_of_some hp] at heq
      refine ⟨p, (hsome p hp).congr (hresumes want), ?_⟩
      clear_value t
      subst heq
      exact hwanted (.regional p) .resume
    · have hnil : s.candidates su z m r want = [] :=
        List.eq_nil_iff_forall_not_mem.mpr fun p hp => hno ⟨p, (hresumes want p).mp hp⟩
      rw [State.concealedSlot_of_none (hnot.mpr hnil)] at heq
      obtain ⟨hwithin, hover⟩ := hconceal false
      clear_value t
      subst heq
      exact ⟨fun hc => (hwithin hc).2 rfl, hover⟩

end Sys2Proof.Machine
end

section
/-! Deciding a zone slot by slot, the spread rule, and the break list at the end of a slot (R103, R128, R131, R142, R156). -/

namespace Sys2Proof.Machine

/-! ## Slot by slot (R131) -/

theorem ssn_add_succ (h : SSN) (i : Nat) : h + 1 + BitVec.ofNat 32 i = h + BitVec.ofNat 32 (i + 1) := by
  rw [BitVec.ofNat_add, BitVec.add_assoc, BitVec.add_comm (BitVec.ofNat 32 i)]
  rfl

/-- Slots decided in turn, from the zone's horizon on. -/
theorem State.decideSlots_spec (su : Setup) (z : Fin 24) (k : Nat) (s : State) (t : Timeline)
    (ht : (s.zone z).timeline = some t) :
    State.decideSlots su z k s =
      (List.range k).foldl (fun x i => x.decideSlot su z (t.horizon + BitVec.ofNat 32 (i + 1))) s ∧
    ∃ t', ((State.decideSlots su z k s).zone z).timeline = some t' ∧ t'.horizon = t.horizon + BitVec.ofNat 32 k ∧
      t'.trail = t.trail := by
  induction k generalizing s t with
  | zero => exact ⟨rfl, t, ht, by simp, rfl⟩
  | succ k ih =>
    obtain ⟨-, hmoved, -⟩ := s.decideSlot_moves su z (t.horizon + 1)
    obtain ⟨t1, ht1, hhorizon, htrail⟩ := hmoved t ht
    obtain ⟨hfold, t', ht', hh, htr⟩ := ih (s.decideSlot su z (t.horizon + 1)) t1 ht1
    have hstep : State.decideSlots su z (k + 1) s = State.decideSlots su z k (s.decideSlot su z (t.horizon + 1)) := by
      simp only [State.decideSlots, ht]
    rw [hstep]
    refine ⟨?_, t', ht', ?_, htr.trans htrail⟩
    · rw [hfold, List.range_succ_eq_map, List.foldl_cons, List.foldl_map]
      refine congrArg (fun f => List.foldl f _ (List.range k)) ?_
      funext x i
      rw [hhorizon, ssn_add_succ]
    · rw [hh, hhorizon, ssn_add_succ]

theorem State.decideTo_of_ahead {s : State} {su : Setup} {z : Fin 24} {n : SSN} {t : Timeline}
    (ht : (s.zone z).timeline = some t) (h : precedes t.horizon n = true) :
    s.decideTo su z n = State.decideSlots su z (distance t.horizon n) s := by
  simp only [State.decideTo, ht, h, if_true]

theorem State.decideTo_of_not_ahead {s : State} {su : Setup} {z : Fin 24} {n : SSN} {t : Timeline}
    (ht : (s.zone z).timeline = some t) (h : precedes t.horizon n = false) : s.decideTo su z n = s := by
  simp [State.decideTo, ht, h]

theorem State.decideTo_of_unset {s : State} {su : Setup} {z : Fin 24} {n : SSN} (ht : (s.zone z).timeline = none) :
    s.decideTo su z n = s := by
  simp only [State.decideTo, ht]

/-- A zone decided up to an SSN after its horizon. -/
theorem State.decideTo_spec {s : State} {su : Setup} {z : Fin 24} {n : SSN} {t : Timeline} (ht : (s.zone z).timeline = some t)
    (h : precedes t.horizon n = true) :
    s.decideTo su z n = (List.range (n - t.horizon).toNat).foldl
      (fun x i => x.decideSlot su z (t.horizon + BitVec.ofNat 32 (i + 1))) s ∧
    ∃ t', ((s.decideTo su z n).zone z).timeline = some t' ∧ t'.horizon = n ∧ t'.trail = t.trail := by
  obtain ⟨hfold, t', ht', hh, htr⟩ := State.decideSlots_spec su z (distance t.horizon n) s t ht
  have hn : t.horizon + BitVec.ofNat 32 (distance t.horizon n) = n := by
    simp only [distance]
    bv_omega
  rw [State.decideTo_of_ahead ht h]
  exact ⟨hfold, t', ht', hh.trans hn, htr⟩

theorem State.zone_decideTo_of_ne (s : State) (su : Setup) {z k : Fin 24} (n : SSN) (hk : k ≠ z) :
    (s.decideTo su z n).zone k = s.zone k := by
  have hslots : ∀ (j : Nat) (s : State), (State.decideSlots su z j s).zone k = s.zone k := fun j => by
    induction j with
    | zero => exact fun _ => rfl
    | succ j ih =>
      intro s
      unfold State.decideSlots
      split
      · rfl
      · exact (ih _).trans ((s.decideSlot_moves su z _).1 k hk)
  unfold State.decideTo
  split
  · rfl
  · split
    · exact hslots _ s
    · rfl

/-! ## The spread rule (R156) -/

section
variable {s : State} {su : Setup} {z : Fin 24} {f : Fin 32} {n : SSN}

theorem State.mem_laggards {k : Fin 32} : k ∈ s.laggards su z f n ↔ k ≠ f ∧ su.feedZone k = some z ∧
    ∃ q, (s.feed k).status = .attached q ∧ precedes q.last (n - BitVec.ofNat 32 su.spreadMax) = true := by
  simp only [State.laggards, List.mem_filter, State.mem_attachedFeeds, Bool.and_eq_true, bne_iff_ne]
  refine ⟨fun ⟨⟨hz, q, hq⟩, hne, hlag⟩ => ⟨hne, hz, q, hq, ?_⟩, fun ⟨hne, hz, q, hq, hlag⟩ => ⟨⟨hz, q, hq⟩, hne, ?_⟩⟩
  · simpa [hq, FeedStatus.position?, ssnSub] using hlag
  · simpa [hq, FeedStatus.position?, ssnSub] using hlag

theorem State.laggards_pairwise : (s.laggards su z f n).Pairwise (· < ·) := (s.attachedFeeds_pairwise su z).filter _

theorem State.spreadRule_eq {t : Timeline} (ht : (s.zone z).timeline = some t) : s.spreadRule su z f n =
    if su.spreadMax < (n - t.trail).toNat then s.slipAll su .spread (s.laggards su z f n) else s := by
  simp only [State.spreadRule, ht]
  rfl

end

/-! ## The break list at the end of a slot (R142) -/

theorem mapOpenRun_append (f : Run → Run) (front : List Run) (run : Run) :
    mapOpenRun f (front ++ [run]) = front ++ [f run] := by
  induction front with
  | nil => rfl
  | cons r front ih =>
    have hne : front ++ [run] ≠ [] := by simp
    obtain ⟨x, rest, hx⟩ := List.exists_cons_of_ne_nil hne
    rw [List.cons_append, hx, mapOpenRun, ← hx, ih, List.cons_append]
    simp

/-- The place of a tag among the pairs that have it. -/
theorem pairPlace_iff (pairs : List (Tag × Tag)) (t : Tag) (i : Nat) :
    pairs.findIdx? (fun x => x.1 == t) = some i ↔ (pairedTag pairs t).isSome = true ∧ pairPlace pairs t = i := by
  rw [List.findIdx?_eq_some_iff_findIdx_eq]
  refine and_congr_left fun hi => ?_
  have hlt : i < pairs.length ↔ ∃ x ∈ pairs, (x.1 == t) = true := hi ▸ List.findIdx_lt_length
  rw [hlt, pairedTag, Option.isSome_map, List.find?_isSome]

/-- A cell that is served carries the tag of the usable national entry (R143). -/
theorem State.tag?_servedContent {s : State} {su : Setup} {z : Fin 24} {run : Run} {n : SSN} {t : Tag} :
    (s.servedContent su z run n).tag? = some t ↔
      s.servedContent su z run n ≠ .null ∧ ∃ e, s.usableEntry su .national z n = some e ∧ e.tag = t := by
  unfold State.servedContent
  cases s.usableEntry su .national z n with
  | none => simp [Served.tag?]
  | some e =>
    dsimp only
    repeat' split
    all_goals simp [Served.tag?]

/-- Whether the break list of a run takes the slot: the place of the served cell's tag is absent in it (R142). -/
def State.TakesBreak (s : State) (su : Setup) (z : Fin 24) (run : Run) (n : SSN) (kept : RunWindow) (i : Nat) : Prop :=
  run.cause ≠ .pathChange ∧ kept.breaks[i]? = some none ∧ s.servedContent su z run n ≠ .null ∧
    ∃ e, s.usableEntry su .national z n = some e ∧ kept.pairs.findIdx? (fun x => x.1 == e.tag) = some i

section
variable {s : State} {su : Setup} {z : Fin 24} {run : Run} {n : SSN}

theorem State.markBreak_of_takes {kept : RunWindow} {i : Nat} (hw : run.window = some kept)
    (h : s.TakesBreak su z run n kept i) : markBreak run (s.servedContent su z run n) n =
      { run with window := some { kept with breaks := kept.breaks.set i (some n) } } := by
  obtain ⟨hcause, hbreak, hserved, e, he, hplace⟩ := h
  have htag := State.tag?_servedContent.mpr ⟨hserved, e, he, rfl⟩
  obtain ⟨hpaired, hi⟩ := (pairPlace_iff kept.pairs e.tag i).mp hplace
  have hfirst : ¬ (run.cause = .pathChange ∨ (pairedTag kept.pairs e.tag).isNone = true) := by
    rintro (hc | hc)
    · exact hcause hc
    · rw [Option.isNone_iff_eq_none] at hc
      simp [hc] at hpaired
  simp only [markBreak, hw, htag, if_neg hfirst, hi, hbreak, Option.join_some, Option.isSome_none, Bool.false_eq_true, if_false]

theorem State.markBreak_of_not_takes
    (h : ¬ ∃ kept i, run.window = some kept ∧ i < kept.breaks.length ∧ s.TakesBreak su z run n kept i) :
    markBreak run (s.servedContent su z run n) n = run := by
  unfold markBreak
  split
  · next kept t hw htag =>
    split
    · rfl
    · next hfirst =>
      split
      · rfl
      · next hjoin =>
        simp only [not_or, Bool.not_eq_true, Option.isNone_eq_false_iff] at hfirst
        obtain ⟨hserved, e, he, rfl⟩ := State.tag?_servedContent.mp htag
        have hplace := (pairPlace_iff kept.pairs e.tag _).mpr ⟨hfirst.2, rfl⟩
        have hout : kept.breaks.length ≤ pairPlace kept.pairs e.tag := by
          by_contra hlt
          have hlt := Nat.not_le.mp hlt
          refine h ⟨kept, _, hw, hlt, hfirst.1, ?_, hserved, e, he, hplace⟩
          rw [List.getElem?_eq_getElem hlt] at hjoin ⊢
          simpa using hjoin
        have hset : kept.breaks.set (pairPlace kept.pairs e.tag) (some n) = kept.breaks := List.set_eq_of_length_le hout
        rw [hset, ← hw]
  · rfl

end

theorem Run.breakFalls_iff {run : Run} {kept : RunWindow} (hw : run.window = some kept) (tag : Tag) (n : SSN) :
    run.breakFalls tag n = true ↔ run.cause ≠ .pathChange ∧
      ∃ i, kept.pairs.findIdx? (fun x => x.1 == tag) = some i ∧ kept.breaks[i]? = some (some n) := by
  simp only [Run.breakFalls, hw, Bool.and_eq_true, bne_iff_ne, beq_iff_eq, pairPlace_iff, Option.join_eq_some_iff, and_assoc]
  exact and_congr_right fun _ => ⟨fun ⟨hp, hb⟩ => ⟨_, hp, rfl, hb⟩, fun ⟨i, hp, hi, hb⟩ => ⟨hp, hi ▸ hb⟩⟩

theorem State.closeSlot_eq {s : State} {su : Setup} {z : Fin 24} {m : SSN} {t : Timeline} (ht : (s.zone z).timeline = some t) :
    s.closeSlot su z m = s.updZone z (fun x => x.withTimeline
      { t with log := mapOpenRun (fun r => markBreak r (s.servedContent su z r m) m) t.log, horizon := m }) := by
  simp only [State.closeSlot, ht]

/-- Settles O41: a zone is decided slot by slot, after the spread rule, and each slot ends with its break list. -/
theorem decisionMovesHorizon : Obligations.DecisionMovesHorizon := by
  intro s su z n
  refine ⟨fun t ht h => State.decideTo_spec ht h, fun t ht h => State.decideTo_of_not_ahead ht h, State.decideTo_of_unset,
    fun k hk => s.zone_decideTo_of_ne su n hk, (s.zoned_decideTo su z n).sameBut, fun f reread t ht => ?_, fun f t ht => ?_, ?_,
    fun h1 h2 => ?_, fun t front run ht hlog => ?_⟩
  · simp [State.prepareRead, ht]
  · rw [State.spreadRule_eq ht]
    refine ⟨fun h => ⟨s.laggards su z f n, State.laggards_pairwise, fun k => State.mem_laggards, ?_⟩, fun h => if_neg (by omega)⟩
    rw [if_pos h]
    exact InTurn.foldl (fun s k => s.leftAttached_slip su .spread k) _ s
  · intro entered returned sourced
    simp only [State.decideSlot, State.settleSlot, State.stateSteps, State.entrySteps, Bool.or_eq_true, sourced, returned,
      entered]
  · unfold State.chooseSource
    split
    · next w hw => exact absurd hw (h1 w)
    · next w c h hw => exact absurd hw (h2 w c h)
    · rfl
  · rw [State.closeSlot_eq ht, hlog, mapOpenRun_append]
    refine ⟨markBreak run (s.servedContent su z run n) n, s.zone_updZone z _, fun k hk => s.zone_updZone_ne z k _ hk,
      fun _ => rfl, s.sameBut_updZone z _, ⟨fun kept i hw _ htakes => State.markBreak_of_takes hw htakes,
        State.markBreak_of_not_takes⟩, fun kept tag hw => Run.breakFalls_iff hw tag n, fun hw tag => ?_⟩
    simp only [Run.breakFalls, hw]

end Sys2Proof.Machine
end

section
/-! The reference state, the pulse and the stall check (R150, R172, R182 to R185). -/

namespace Sys2Proof.Machine

/-! ## What a handing reads -/

/-- What a handing does to the Report Writer depends on the run state, the tick count and the Report Writer alone. -/
theorem State.hand_rw_of_ticks {s t : State} (r : Report) (ps : t.ps = s.ps) (tick : t.tb.tickCount = s.tb.tickCount)
    (rw : t.rw = s.rw) : (t.hand r).rw = (s.hand r).rw := by
  have hconfig : t.isConfig = s.isConfig := by rw [State.isConfig, ps, State.isConfig]
  have hqueued : (t.enqueue r).rw = (s.enqueue r).rw := by simp only [State.enqueue, rw, tick]
  have hlost : t.loseRecord.rw = s.loseRecord.rw := by simp only [State.loseRecord, rw]
  simp only [State.hand, hconfig, ps, rw]
  repeat' split
  all_goals assumption

theorem State.ps_hand (s : State) (r : Report) : (s.hand r).ps = s.ps := s.sameBut_hand r .ps (by simp)

theorem State.tb_hand (s : State) (r : Report) : (s.hand r).tb = s.tb := s.sameBut_hand r .tb (by simp)

/-! ## A slip and the examination after it -/

/-- A stall slip as R185 has it. -/
def State.StallSlipped (su : Setup) (f : Fin 32) (s t : State) : Prop :=
  ∃ a b, State.LeftAttached su .slipped .stall f s a ∧
    ((∃ z, s.TrailMoved a z) → State.Examined su a.rg.held a b) ∧
    ((∀ z, ¬ s.TrailMoved a z) → b = a) ∧ b.PortSettled t

section
variable (s : State) (su : Setup) (reason : FeedReason) (f : Fin 32)

/-- No slip sets a zone. -/
theorem State.slip_unset {z : Fin 24} (h : (s.zone z).timeline = none) : ((s.slip su reason f).zone z).timeline = none := by
  unfold State.slip
  split
  · next p _ =>
    cases hz : su.feedZone f with
    | none =>
      have hleft : s.leaveAttached su f p .slipped reason = s.dropFeed su f p .slipped reason := by
        simp [State.leaveAttached, hz]
      have hzs : (s.dropFeed su f p .slipped reason).zs = s.zs := (s.feedChanged_dropFeed su f p .slipped reason).rest .zs (by simp)
      rw [hleft]
      exact (congrArg (fun x : ZoneScheduler => x.zones[z].timeline) hzs).trans h
    | some k =>
      obtain ⟨hothers, hunset, hfollowed⟩ := s.leaveAttached_zones (p := p) (target := .slipped) (reason := reason) hz (by simp)
      by_cases hk : z = k
      · subst hk
        by_cases hleft : (s.attachedFeeds su z).filter (fun k => k != f) = []
        · exact (hunset hleft).1
        · obtain ⟨x, -, hx⟩ := hfollowed hleft
          rw [hx, h]
          rfl
      · rw [hothers z hk, h]
  · exact h

/-- A stall slip: the slip, then the examination where some trail has moved, then the port. -/
theorem State.slipStall_spec : State.StallSlipped su f s (s.slipStall su f) := by
  have hmoved := State.trailsMoved_iff (s := s) (t := s.slip su .stall f) fun z hz => s.slip_unset su .stall f hz
  refine ⟨s.slip su .stall f, s.examineAfter (s.slip su .stall f) su, s.leftAttached_slip su .stall f, fun h => ?_,
    fun h => ?_, State.portSettled_settlePort _⟩
  · rw [State.examineAfter, if_pos (hmoved.mpr h)]
    exact State.examined_examine _ su
  · rw [State.examineAfter, if_neg fun c => ?_]
    obtain ⟨z, hz⟩ := hmoved.mp c
    exact h z hz

theorem State.sameBut_slipStall : s.SameBut (s.slipStall su f) [.la, .ic, .zs, .vr, .rg, .rw] :=
  (((s.scheduled_slip su .stall f).sameBut.mono (by simp)).trans
    ((State.examinationKept_examineAfter s (s.slip su .stall f) su).rest.mono (by simp))).trans
    ((State.arbitrated_settlePort _).sameBut.mono (by simp))

theorem State.vr_slipStall : (s.slipStall su f).vr = (s.slip su .stall f).vr :=
  ((State.arbitrated_settlePort _).sameBut .vr (by simp)).trans
    ((State.examinationKept_examineAfter s (s.slip su .stall f) su).rest .vr (by simp))

/-- Attached feeds slipped for a stall one after the other: each of them is SLIPPED, no other feed changes. -/
theorem State.feed_slipStalls (feeds : List (Fin 32)) (hn : feeds.Nodup)
    (hattached : ∀ f ∈ feeds, ∃ p, (s.feed f).status = .attached p) (k : Fin 32) :
    (feeds.foldl (fun s f => s.slipStall su f) s).feed k =
      if k ∈ feeds then { status := .slipped, inFlight := (s.feed k).inFlight.map InFlight.uncounted } else s.feed k := by
  induction feeds generalizing s with
  | nil => rfl
  | cons f feeds ih =>
    obtain ⟨hf, hn⟩ := List.nodup_cons.mp hn
    obtain ⟨p, hp⟩ := hattached f (by simp)
    have hfeed := fun k => (State.feed_congr (s.vr_slipStall su f) k).trans (s.feed_slip su .stall f k hp)
    have hrest : ∀ j, j ≠ f → (s.slipStall su f).feed j = s.feed j := fun j hj => by rw [hfeed, if_neg hj]
    refine (ih (s.slipStall su f) hn fun j hj => ?_).trans ?_
    · have hjf : j ≠ f := fun e => hf (e ▸ hj)
      rw [hrest j hjf]
      exact hattached j (by simp [hj])
    · by_cases hk : k = f
      · subst hk
        rw [if_neg hf, hfeed, if_pos rfl, if_pos (by simp)]
      · simp [hrest k hk, hk]

theorem State.sameBut_slipStalls (feeds : List (Fin 32)) :
    s.SameBut (feeds.foldl (fun s f => s.slipStall su f) s) [.la, .ic, .zs, .vr, .rg, .rw] := by
  induction feeds generalizing s with
  | nil => exact .refl s _
  | cons f feeds ih => exact ((s.sameBut_slipStall su f).trans (ih _)).mono (by simp)

end

/-! ## Stall counts at a pulse (R184, R185) -/

section
variable (s : State) (checked : Bool)

theorem State.feed_settleStalls (k : Fin 32) : (s.settleStalls checked).feed k = (s.feed k).settleStall checked := by
  simp [State.feed, State.settleStalls]

theorem Feed.settleStall_of_not_attached {f : Feed} (h : ∀ p, f.status ≠ .attached p) : f.settleStall checked = f := by
  unfold Feed.settleStall
  split
  · next p hp => exact absurd hp (h p)
  · rfl

theorem Feed.settleStall_of_attached {f : Feed} {p : Position} (h : f.status = .attached p) :
    f.settleStall checked = { f with status := .attached (p.settleStall checked) } := by
  simp only [Feed.settleStall, h]

theorem Position.settleStall_checked (p : Position) : p.settleStall true =
    { p with stall := if p.readSincePulse then 0 else p.stall + 1, readSincePulse := false } := by
  cases h : p.readSincePulse <;> simp [Position.settleStall, h]

theorem Position.settleStall_unchecked (p : Position) : p.settleStall false =
    { p with stall := 0, readSincePulse := false } := rfl

theorem State.mem_stalledFeeds (su : Setup) {f : Fin 32} :
    f ∈ s.stalledFeeds su ↔ ∃ p, (s.feed f).status = .attached p ∧ su.stallPulses ≤ p.stall := by
  simp only [State.stalledFeeds, List.mem_filter, List.mem_finRange, true_and]
  split
  · next p hp => simp [hp]
  · next hn =>
    refine iff_of_false (by simp) ?_
    rintro ⟨p, hp, -⟩
    exact hn p hp

theorem State.stalledFeeds_pairwise (su : Setup) : (s.stalledFeeds su).Pairwise (· < ·) :=
  (List.pairwise_lt_finRange 32).filter _

end

/-! ## The reports of a pulse (R183) -/

section
variable (s : State) (su : Setup)

theorem State.sameBut_reportPulse (before : RefState) : s.SameBut (s.reportPulse su before) [.rw] := by
  have hfirst : s.SameBut (if before = .locked then s else s.handReference before .locked) [.rw] := by
    split
    · exact .refl s _
    · exact s.sameBut_hand _
  unfold State.reportPulse
  dsimp only
  split
  · exact (hfirst.trans (State.sameBut_hand _ _)).mono (by simp)
  · exact hfirst

/-- The state in which a counted pulse has handed its REFERENCE report, where it hands one. -/
def State.pulseLocked (s : State) : State :=
  if s.tb.refState = .locked then s
  else s.hand (.reference (s.tb.pulseCount + 1) s.tb.tickCount s.ic.natHead s.tb.refState .locked)

theorem State.rw_reportPulse : (s.countPulse.reportPulse su s.tb.refState).rw =
    (if su.pulseReport then s.pulseLocked.hand (.pulse (s.tb.pulseCount + 1) s.tb.tickCount s.ic.natHead .locked)
      else s.pulseLocked).rw := by
  have hcounted : ∀ r, (s.countPulse.hand r).rw = (s.hand r).rw := fun r => State.hand_rw_of_ticks r rfl rfl rfl
  unfold State.reportPulse State.pulseLocked State.handReference
  dsimp only
  by_cases hl : s.tb.refState = .locked
  · simp only [if_pos hl]
    split
    · exact hcounted _
    · rfl
  · simp only [if_neg hl]
    split
    · simp only [State.tb_hand]
      refine State.hand_rw_of_ticks _ ?_ ?_ (hcounted _)
      · simp only [State.ps_hand, State.countPulse]
      · simp only [State.tb_hand, State.countPulse]
    · exact hcounted _

/-- The state a pulse's slips begin from: the pulse counted and reported, the stall counts settled. -/
def State.pulseCounted (s : State) (su : Setup) : State :=
  (s.countPulse.reportPulse su s.tb.refState).settleStalls (s.tb.refState == .locked && su.stallPulses != 0)

/-- The feeds a pulse slips (R185). -/
def State.pulseSlips (s : State) (su : Setup) : List (Fin 32) :=
  if s.tb.refState == .locked && su.stallPulses != 0 then (s.pulseCounted su).stalledFeeds su else []

theorem State.takePulse_eq :
    s.takePulse su = (s.pulseSlips su).foldl (fun s f => s.slipStall su f) (s.pulseCounted su) := by
  unfold State.takePulse State.stallCheck State.pulseSlips State.pulseCounted State.slipStalled
  dsimp only
  split
  · rfl
  · rfl

theorem State.pulseCounted_tb : (s.pulseCounted su).tb = s.countPulse.tb :=
  State.sameBut_reportPulse s.countPulse su s.tb.refState .tb (by simp)

theorem State.sameBut_pulseCounted : s.SameBut (s.pulseCounted su) [.vr, .tb, .rw] := by
  have hcount : s.SameBut s.countPulse [.tb] := s.sameBut_tb _
  have hreport := State.sameBut_reportPulse s.countPulse su s.tb.refState
  have hsettle : (s.countPulse.reportPulse su s.tb.refState).SameBut (s.pulseCounted su) [.vr] := State.sameBut_vr _ _
  exact ((hcount.mono (by simp)).trans (hreport.mono (by simp))).trans (hsettle.mono (by simp))

theorem State.feed_pulseCounted (k : Fin 32) :
    (s.pulseCounted su).feed k = (s.feed k).settleStall (s.tb.refState == .locked && su.stallPulses != 0) := by
  rw [State.pulseCounted, State.feed_settleStalls]
  congr 1
  exact State.feed_congr (State.sameBut_reportPulse s.countPulse su s.tb.refState .vr (by simp)) k

end

/-! ## The pulse timeout (R182) -/

section
variable (s : State) (su : Setup)

theorem State.expirePulse_of_early (h : s.tb.refState = .lost ∨ s.tb.pulseTimeout = none ∨
    ∃ n, s.tb.pulseTimeout = some n ∧ n < su.pulseTimeout) : s.expirePulse su = s := by
  unfold State.expirePulse
  split
  · rfl
  · next n hr hp =>
    rw [if_neg]
    obtain h | h | ⟨m, hm, hlt⟩ := h
    · simp_all
    · simp_all
    · simp_all
  · rfl

theorem State.expirePulse_of_reached {n : Nat} (hr : s.tb.refState ≠ .lost) (hp : s.tb.pulseTimeout = some n)
    (hn : su.pulseTimeout ≤ n) : s.expirePulse su = s.loseReference := by
  unfold State.expirePulse
  split
  · next h => exact absurd h hr
  · next m hm _ =>
    obtain rfl : m = n := Option.some_inj.mp (hm.symm.trans hp)
    rw [if_pos hn]
  · simp_all

end

/-- Settles O50: the pulse timeout loses the reference, and a pulse counts, reports, settles the stall counts and slips
the feeds that have stalled, in turn. -/
theorem referenceChanges : Obligations.ReferenceChanges := by
  refine ⟨fun s su hsu => ?_, fun s => ?_⟩
  · have hexec : exec .pulseTimeoutExpiry s = .next (s.expirePulse su) := by
      simp [exec, execPulseTimeoutExpiry, hsu]
    refine ⟨fun n hr hp hn => ?_, fun h => by rw [hexec, s.expirePulse_of_early su h]⟩
    rw [hexec, s.expirePulse_of_reached su hr hp hn]
    refine ⟨_, rfl, State.tb_hand _ _, State.hand_rw_of_ticks _ rfl rfl rfl, ?_⟩
    have hlost : s.SameBut { s with tb := { s.tb with refState := .lost, pulseTimeout := none } } [.tb] := s.sameBut_tb _
    have hreported := State.sameBut_hand { s with tb := { s.tb with refState := .lost, pulseTimeout := none } }
      (.reference s.tb.pulseCount s.tb.captureTick s.tb.captureHead s.tb.refState .lost)
    exact (hlost.mono (by simp)).trans (hreported.mono (by simp))
  · have hexec : exec .refPulse s = .next (match s.setup with | some su => s.takePulse su | none => s) := rfl
    refine ⟨fun hsu => by rw [hexec, hsu], fun su hsu => ?_⟩
    rw [hsu] at hexec
    have hchecked : (s.tb.refState == .locked && su.stallPulses != 0) = true ↔
        s.tb.refState = .locked ∧ su.stallPulses ≠ 0 := by simp
    have hq := s.feed_pulseCounted su
    have hqnot : ∀ f, (∀ p, (s.feed f).status ≠ .attached p) → (s.pulseCounted su).feed f = s.feed f := fun f hf => by
      rw [hq, Feed.settleStall_of_not_attached _ hf]
    have hqchecked : (s.tb.refState = .locked ∧ su.stallPulses ≠ 0) → ∀ f p, (s.feed f).status = .attached p →
        (s.pulseCounted su).feed f = { s.feed f with status := .attached { p with
          stall := if p.readSincePulse then 0 else p.stall + 1, readSincePulse := false } } := fun hc f p hp => by
      rw [hq, hchecked.mpr hc, Feed.settleStall_of_attached _ hp, Position.settleStall_checked]
    have hqunchecked : ¬ (s.tb.refState = .locked ∧ su.stallPulses ≠ 0) → ∀ f p, (s.feed f).status = .attached p →
        (s.pulseCounted su).feed f = { s.feed f with status := .attached { p with stall := 0, readSincePulse := false } } :=
      fun hc f p hp => by
        rw [hq, Bool.eq_false_iff.mpr (hchecked.not.mpr hc), Feed.settleStall_of_attached _ hp, Position.settleStall_unchecked]
    have hmem : ∀ f, f ∈ s.pulseSlips su ↔ (s.tb.refState = .locked ∧ su.stallPulses ≠ 0) ∧
        ∃ p, ((s.pulseCounted su).feed f).status = .attached p ∧ su.stallPulses ≤ p.stall := fun f => by
      unfold State.pulseSlips
      split
      · next h => rw [State.mem_stalledFeeds, and_iff_right (hchecked.mp h)]
      · next h => exact iff_of_false (by simp) fun c => h (hchecked.mpr c.1)
    have hpairwise : (s.pulseSlips su).Pairwise (· < ·) := by
      unfold State.pulseSlips
      split
      · exact State.stalledFeeds_pairwise _ su
      · exact .nil
    have hsame := State.sameBut_slipStalls (s.pulseCounted su) su (s.pulseSlips su)
    have hfeed := (s.pulseCounted su).feed_slipStalls su (s.pulseSlips su) (hpairwise.imp fun h => Fin.ne_of_lt h)
      fun f hf => by
        obtain ⟨-, p, hp, -⟩ := (hmem f).mp hf
        exact ⟨p, hp⟩
    have hturn := InTurn.foldl (act := State.StallSlipped su) (fun x f => State.slipStall_spec x su f) (s.pulseSlips su)
      (s.pulseCounted su)
    rw [← State.takePulse_eq] at hsame hfeed hturn
    have htb : (s.takePulse su).tb = s.countPulse.tb := (hsame .tb (by simp)).trans (s.pulseCounted_tb su)
    refine ⟨s.takePulse su, hexec, htb, ?_, fun f hf => ?_, fun f p hp => ?_, ?_⟩
    · refine ⟨s.pulseCounted su, s.pulseSlips su, s.rw_reportPulse su, (s.pulseCounted_tb su).trans htb.symm,
        s.sameBut_pulseCounted su, hqnot, fun f p hp => ⟨fun hc => hqchecked hc f p hp, fun hc => hqunchecked hc f p hp⟩,
        hpairwise, hmem, hturn⟩
    · rw [hfeed, if_neg, hqnot f hf]
      intro hc
      obtain ⟨-, p, hp, -⟩ := (hmem f).mp hc
      rw [hqnot f hf] at hp
      exact hf p hp
    · refine ⟨fun hc => ?_, fun hc => ⟨fun hlt => ?_, fun hle => ?_⟩⟩
      · rw [hfeed, if_neg fun h => hc ((hmem f).mp h).1, hqunchecked hc f p hp]
      · rw [hfeed, if_neg, hqchecked hc f p hp]
        intro h
        obtain ⟨-, x, hx, hle⟩ := (hmem f).mp h
        rw [hqchecked hc f p hp] at hx
        obtain rfl := FeedStatus.attached.inj hx
        exact absurd hle (Nat.not_le.mpr hlt)
      · have hin : f ∈ s.pulseSlips su := (hmem f).mpr ⟨hc, _, by rw [hqchecked hc f p hp], hle⟩
        rw [hfeed, if_pos hin]
        refine ⟨rfl, ?_⟩
        rw [hqchecked hc f p hp]
    · exact ((s.sameBut_pulseCounted su).mono (by simp)).trans (hsame.mono (by simp))

end Sys2Proof.Machine
end

section
/-! STOP: the CANCELLED reports, the feeds that go to DETACHED and the held writes that no drain hold keeps (R64, R152,
R172, R176). -/

namespace Sys2Proof.Machine

/-! ## Reports handed one after the other -/

section
variable {s t : State}

/-- What handings do to the Report Writer depends on whether the part is in CONFIG, the drain flag, the tick count and the
Report Writer alone. -/
theorem State.hand_rw_of_config (r : Report) (config : t.isConfig = s.isConfig) (flag : t.ps.drainFlag = s.ps.drainFlag)
    (tick : t.tb.tickCount = s.tb.tickCount) (rw : t.rw = s.rw) : (t.hand r).rw = (s.hand r).rw := by
  have hqueued : (t.enqueue r).rw = (s.enqueue r).rw := by simp only [State.enqueue, rw, tick]
  have hlost : t.loseRecord.rw = s.loseRecord.rw := by simp only [State.loseRecord, rw]
  simp only [State.hand, config, flag, rw]
  repeat' split
  all_goals assumption

theorem State.handAll_rw_of_config (reports : List Report) (config : t.isConfig = s.isConfig)
    (flag : t.ps.drainFlag = s.ps.drainFlag) (tick : t.tb.tickCount = s.tb.tickCount) (rw : t.rw = s.rw) :
    (t.handAll reports).rw = (s.handAll reports).rw := by
  induction reports generalizing s t with
  | nil => exact rw
  | cons r reports ih =>
    refine ih (s := s.hand r) (t := t.hand r) ?_ ?_ ?_ (State.hand_rw_of_config r config flag tick rw)
    · simpa only [State.isConfig, State.ps_hand] using config
    · simpa only [State.ps_hand] using flag
    · simpa only [State.tb_hand] using tick

theorem State.sameBut_handAll (s : State) (reports : List Report) : s.SameBut (s.handAll reports) [.rw] := by
  induction reports generalizing s with
  | nil => exact .refl s _
  | cons r reports ih => exact (s.sameBut_hand r).trans (ih _)

end

/-! ## Windows at STOP (R64) -/

section
variable (s : State)

/-- The report of a window that STOP cancels. -/
def State.stoppedReport (s : State) (w : Fin 64) : Report :=
  .windowState w (byte (s.windowRec w).regionByte) (s.windowRec w).start .cancelled none

theorem State.stoppedReport_congr {s t : State} (h : t.ps = s.ps) : t.stoppedReport = s.stoppedReport := by
  funext w
  simp only [State.stoppedReport, State.windowRec, h]

theorem State.foldl_reportStopped (l : List (Fin 64)) : l.foldl State.reportStopped s =
    s.handAll ((l.filter (fun w => (s.window w).status.open?)).map s.stoppedReport) := by
  induction l generalizing s with
  | nil => rfl
  | cons w l ih =>
    rw [List.foldl_cons, ih, List.filter_cons]
    unfold State.reportStopped
    split
    · have hreport := State.stoppedReport_congr (s.ps_hand (s.stoppedReport w))
      have hhand : s.handWindowState w .cancelled none = s.hand (s.stoppedReport w) := rfl
      simp only [hhand, State.window_hand, hreport]
      rfl
    · rfl

end

/-! ## Feeds at STOP (R152) -/

/-- A feed at STOP. -/
def Feed.stopped (x : Feed) : Feed :=
  { status := .detached
    inFlight := match x.status with
      | .attached _ => x.inFlight.map InFlight.uncounted
      | _ => x.inFlight }

section
variable (s : State) (su : Setup)

theorem State.feed_stopFeed (f k : Fin 32) :
    (s.stopFeed su f).feed k = if k = f then (s.feed f).stopped else s.feed k := by
  have changed := fun (x : Feed) (n : SSN) (b : FeedNews) => s.feedChanged_setFeed su f x n b .stop
  have apply : ∀ (x : Feed) (n : SSN) (b : FeedNews) (t : State), s.FeedChanged t su f x n b .stop →
      t.feed k = if k = f then x else s.feed k := fun x n b t h => by
    split
    · next hk => rw [hk, h.feed]
    · next hk => exact h.feeds k hk
  unfold State.stopFeed
  split
  · next p hp =>
    rw [apply _ _ _ _ (s.feedChanged_dropFeed su f p .detached .stop)]
    simp only [Feed.stopped, hp]
  · next hp =>
    refine (apply _ _ _ _ (changed { s.feed f with status := .detached } 0 .slipped)).trans ?_
    simp only [Feed.stopped, hp]
  · next hp =>
    split
    · next hk =>
      subst hk
      generalize s.feed k = x at hp
      obtain ⟨status, inFlight⟩ := x
      obtain rfl : status = .detached := hp
      rfl
    · rfl

theorem State.feed_stopFeeds (l : List (Fin 32)) (hl : l.Nodup) (k : Fin 32) :
    (l.foldl (fun s f => s.stopFeed su f) s).feed k = if k ∈ l then (s.feed k).stopped else s.feed k := by
  induction l generalizing s with
  | nil => rfl
  | cons f l ih =>
    obtain ⟨hf, hl⟩ := List.nodup_cons.mp hl
    rw [List.foldl_cons, ih _ hl, State.feed_stopFeed]
    by_cases hk : k = f
    · subst hk
      simp [hf]
    · simp [hk]

theorem State.sameBut_stopFeeds (l : List (Fin 32)) :
    s.SameBut (l.foldl (fun s f => s.stopFeed su f) s) [.vr, .rw] := by
  induction l generalizing s with
  | nil => exact .refl s _
  | cons f l ih =>
    refine State.SameBut.trans ?_ (ih _)
    have h := s.feedStopped_stopFeed su f
    unfold State.FeedStopped at h
    split at h
    · exact h.rest
    · exact h.rest
    · show s.SameBut (s.stopFeed su f) _
      rw [h]
      exact .refl s _

end

/-! ## The held list at STOP (R172, R176) -/

/-- What an examination in STOPPING does to the held list and the lanes. -/
structure State.Drained (l : List HeldWrite) (s t : State) : Prop where
  held : t.rg.held = s.rg.held.filter (fun x => !l.any (fun h => h.lane == x.lane && !s.drainHold h))
  presented : ∀ h ∈ l, s.drainHold h = false → t.lane (ext h.lane) = .waiting { req := h.req, kind := .released }
  lanes : ∀ k, (∀ h ∈ l, s.drainHold h = false → k ≠ ext h.lane) → t.lane k = s.lane k
  arbiter : t.la = { s.la with lanes := t.la.lanes }
  rest : s.SameBut t [.la, .rg]

theorem State.stillHeld_of_stopped {s : State} (hrun : s.isRunning = false) (su : Setup) (h : HeldWrite) :
    s.StillHeld su h ↔ s.drainHold h = true := by
  rw [← State.heldBack_iff, State.heldBack, if_neg (by simp [hrun])]

theorem State.drainHold_congr {s t : State} (h : t.vr = s.vr) : t.drainHold = s.drainHold := by
  funext x
  have hf := State.feed_congr h
  simp only [State.drainHold, hf]

theorem State.Examined.drained {su : Setup} {l : List HeldWrite} {s t : State} (hrun : s.isRunning = false)
    (hl : (l.map (·.lane)).Nodup) (h : State.Examined su l s t) : State.Drained l s t := by
  induction l generalizing s with
  | nil =>
    obtain rfl : s = t := h.symm
    exact ⟨by simp, by simp, fun _ _ => rfl, rfl, .refl _ _⟩
  | cons x l ih =>
    obtain ⟨hx, hl⟩ := List.nodup_cons.mp (List.map_cons ▸ hl)
    have hapart : ∀ h ∈ l, ext x.lane ≠ ext h.lane := fun h hh c =>
      hx (ext_inj.mp c ▸ List.mem_map_of_mem hh)
    obtain ⟨u, ⟨hheld, hreleased⟩, hrest⟩ := h
    rw [State.stillHeld_of_stopped hrun] at hheld hreleased
    cases hx : s.drainHold x with
    | true =>
      obtain rfl := hheld hx
      have next := ih hrun hl hrest
      refine ⟨next.held.trans (by simp [hx]), fun h hh hd => ?_, fun k hk => next.lanes k fun h hh => hk h (by simp [hh]),
        next.arbiter, next.rest⟩
      rcases List.mem_cons.mp hh with rfl | hh
      · simp [hx] at hd
      · exact next.presented h hh hd
    | false =>
      have r := hreleased (by simp [hx])
      have hsame := r.unaccepted hrun
      have hps : u.ps = s.ps := hsame .ps (by simp)
      have hvr : u.vr = s.vr := hsame .vr (by simp)
      have hlane := r.lane
      rw [if_neg (by simp [hrun])] at hlane
      have next := ih (by simpa only [State.isRunning, hps] using hrun) hl hrest
      have hdrain := State.drainHold_congr hvr
      refine ⟨?_, fun h hh hd => ?_, fun k hk => ?_, ?_, hsame.trans next.rest⟩
      · rw [next.held, r.list, List.filter_filter, hdrain]
        refine List.filter_congr fun y _ => ?_
        simp only [List.any_cons, hx, Bool.not_false, Bool.and_true, Bool.not_or, bne]
        rw [Bool.and_comm, show (y.lane == x.lane) = (x.lane == y.lane) from Bool.beq_comm]
      · rcases List.mem_cons.mp hh with rfl | hh
        · rw [next.lanes _ fun k hk _ => hapart k hk, hlane]
        · exact next.presented h hh (hdrain ▸ hd)
      · rw [next.lanes k fun h hh hd => hk h (by simp [hh]) (hdrain ▸ hd), r.lanes k (hk x (by simp) hx)]
      · rw [next.arbiter, r.arbiter]

/-! ## STOP -/

theorem InFlight.uncounted_slot (x : InFlight) : x.uncounted.ring = x.ring ∧ x.uncounted.addr = x.addr := ⟨rfl, rfl⟩

theorem State.drainHold_of_stopped {s t : State} (h : ∀ f, t.feed f = (s.feed f).stopped) : t.drainHold = s.drainHold := by
  funext x
  unfold State.drainHold
  refine congrArg (fun p => (List.finRange 32).any p) (funext fun f => ?_)
  rw [h f, Feed.stopped]
  cases (s.feed f).status <;> cases (s.feed f).inFlight <;> rfl

/-- The state in which STOP has answered, set the run state, reported the windows and unset the zones. -/
def State.stopStarted (u : State) (su : Setup) : State :=
  ((u.handResult u.command .accepted).withPlan (u.ps.stopping su u.command.ticket)).stopZones

theorem State.command_congr {s t : State} (h : t.ps = s.ps) : t.command = s.command := by
  simp only [State.command, h]

theorem State.doStop_eq (u : State) (su : Setup) : u.doStop su u.command =
    ((List.finRange 32).foldl (fun s f => s.stopFeed su f) (u.stopStarted su)).examine su := by
  have hps : (u.handResult u.command .accepted).ps = u.ps := u.sameBut_handResult u.command .accepted .ps (by simp)
  have hticket : (u.handResult u.command .accepted).command.ticket = u.command.ticket :=
    congrArg CommandRec.ticket (State.command_congr hps)
  unfold State.doStop State.stopSetup State.stopStarted
  rw [hps, hticket]

theorem State.stopStarted_spec (u : State) (su : Setup) (hrun : u.ps.run = .running su) :
    (u.stopStarted su).ps = { u.ps with run := .stopping su, stopTicket := u.command.ticket } ∧
    (u.stopStarted su).zs = u.zs.stopped ∧
    (u.stopStarted su).rw = ((u.handResult u.command .accepted).handAll
      (((List.finRange 64).filter (fun w => (u.window w).status.open?)).map u.stoppedReport)).rw ∧
    u.SameBut (u.stopStarted su) [.ps, .zs, .rw] := by
  have hresult := u.sameBut_handResult u.command .accepted
  have hconfig : (u.handResult u.command .accepted).isConfig = u.isConfig := by
    simp only [State.isConfig, show (u.handResult u.command .accepted).ps = u.ps from hresult .ps (by simp)]
  have hflag : (u.handResult u.command .accepted).ps.drainFlag = u.ps.drainFlag := by
    rw [show (u.handResult u.command .accepted).ps = u.ps from hresult .ps (by simp)]
  have hwindow := u.window_handResult u.command .accepted
  unfold State.stopStarted State.stopZones
  dsimp only
  generalize u.handResult u.command .accepted = c at *
  rw [State.foldl_reportStopped]
  have hreport : (c.withPlan (u.ps.stopping su u.command.ticket)).stoppedReport = u.stoppedReport := rfl
  have hopen : (fun w => ((c.withPlan (u.ps.stopping su u.command.ticket)).window w).status.open?) =
      fun w => (u.window w).status.open? := funext fun w => congrArg (fun x : Window => x.status.open?) (hwindow w)
  rw [hreport, hopen]
  have hreported := (c.withPlan (u.ps.stopping su u.command.ticket)).sameBut_handAll
    (((List.finRange 64).filter (fun w => (u.window w).status.open?)).map u.stoppedReport)
  have hrw := State.handAll_rw_of_config (s := c) (t := c.withPlan (u.ps.stopping su u.command.ticket))
    (((List.finRange 64).filter (fun w => (u.window w).status.open?)).map u.stoppedReport)
    (by rw [hconfig, State.isConfig, State.isConfig, hrun]; rfl) hflag.symm rfl rfl
  generalize (c.withPlan (u.ps.stopping su u.command.ticket)).handAll _ = b at *
  refine ⟨hreported .ps (by simp), ?_, hrw, ?_⟩
  · show b.zs.stopped = _
    rw [show b.zs = c.zs from hreported .zs (by simp), show c.zs = u.zs from hresult .zs (by simp)]
  · have hplan : c.SameBut (c.withPlan (u.ps.stopping su u.command.ticket)) [.ps] := c.sameBut_ps _
    have hzones : b.SameBut (b.withZones b.zs.stopped) [.zs] := b.sameBut_zs _
    exact (((hresult.mono (by simp)).trans (hplan.mono (by simp))).trans (hreported.mono (by simp))).trans
      (hzones.mono (by simp))

theorem window_stopped (zs : ZoneScheduler) (w : Fin 64) :
    zs.stopped.windows[w].status = .empty ∧ ∀ z : Fin 24, zs.stopped.windows[w].outcomes[z] = none := by
  have hreset : ZoneScheduler.reset.windows[w] = Window.reset := by
    simp [ZoneScheduler.reset]
  rw [show zs.stopped.windows[w] = Window.reset from hreset]
  exact ⟨rfl, fun z => by simp [Window.reset]⟩

/-- Settles O26: what STOP reports, in its order, and the state every block takes. -/
theorem stopTaken : Obligations.StopTaken := by
  intro s l g a su h hrun hheld
  have hlanded := s.planLanded_planDone l a
  have hexec : exec .stop s = .next (((s.planDone l a).doStop su (s.planDone l a).command).finish l g .okay []) :=
    congrArg Host.Outcome.next (h.act_inRunning hrun State.doStop)
  have hurun := (s.run_planDone l a).trans hrun
  have hheld : ((s.planDone l a).rg.held.map (·.lane)).Nodup := by
    rw [show (s.planDone l a).rg = s.rg from hlanded.rest .rg (by simp)]
    exact hheld.2
  generalize s.planDone l a = u at *
  rw [State.doStop_eq] at hexec
  obtain ⟨hps, hzs, hrw, hsame⟩ := u.stopStarted_spec su hurun
  generalize u.stopStarted su = x at *
  have hturn := InTurn.foldl (fun s f => State.feedStopped_stopFeed s su f) (List.finRange 32) x
  have hstopped := x.sameBut_stopFeeds su (List.finRange 32)
  have hfeed := x.feed_stopFeeds su (List.finRange 32) (List.nodup_finRange 32)
  generalize (List.finRange 32).foldl (fun s f => s.stopFeed su f) x = y at *
  have hxvr : x.vr = u.vr := hsame .vr (by simp)
  have hfeed : ∀ f, y.feed f = (u.feed f).stopped := fun f => by
    rw [hfeed, if_pos (List.mem_finRange f), State.feed_congr hxvr]
  have hyps : y.ps = x.ps := hstopped .ps (by simp)
  have hyrg : y.rg = u.rg := (hstopped .rg (by simp)).trans (hsame .rg (by simp))
  have hyla : y.la = u.la := (hstopped .la (by simp)).trans (hsame .la (by simp))
  have hylane : ∀ k, y.lane k = u.lane k := fun k => congrArg (fun x : LaneArbiter => x.lanes[k]) hyla
  have hdrain := State.drainHold_of_stopped hfeed
  have hdrained := (y.examined_examine su).drained (by rw [State.isRunning, hyps, hps]) (by rwa [hyrg])
  rw [hyrg] at hdrained
  generalize y.examine su = v at *
  obtain ⟨hlist, hpresented, hlanes, harbiter, hrest⟩ := hdrained
  have hvps : v.ps = x.ps := (hrest .ps (by simp)).trans hyps
  have hvzs : v.zs = u.zs.stopped := ((hrest .zs (by simp)).trans (hstopped .zs (by simp))).trans hzs
  have hvvr : v.vr = y.vr := hrest .vr (by simp)
  rw [hdrain] at hlist hpresented hlanes
  rw [hyla] at harbiter
  refine ⟨u, v, hlanded, hexec, hvps.trans hps, ⟨x, y, hxvr, hvps.symm, hsame .tb (by simp), hrw, hturn, hvvr,
    hrest .rw (by simp)⟩, fun w => ?_, fun z => ?_, fun f => ?_, ?_, hpresented, fun k hk => ?_, harbiter,
    ((hsame.mono (by simp)).trans (hstopped.mono (by simp))).trans (hrest.mono (by simp))⟩
  · rw [show v.window w = u.zs.stopped.windows[w] from congrArg (fun x : ZoneScheduler => x.windows[w]) hvzs]
    exact window_stopped u.zs w
  · rw [show v.zone z = u.zs.stopped.zones[z] from congrArg (fun x : ZoneScheduler => x.zones[z]) hvzs]
    simp [ZoneScheduler.stopped, Zone.stopped, State.zone]
  · rw [State.feed_congr hvvr, hfeed]
    exact ⟨rfl, rfl⟩
  · rw [hlist, hyrg]
    refine List.filter_congr fun x hx => ?_
    have hany : (u.rg.held.any fun h => h.lane == x.lane && !u.drainHold h) = !u.drainHold x := by
      rw [Bool.eq_iff_iff, List.any_eq_true]
      constructor
      · rintro ⟨h, hh, hlane⟩
        simp only [Bool.and_eq_true, beq_iff_eq] at hlane
        rw [← List.inj_on_of_nodup_map hheld hh hx hlane.1]
        exact hlane.2
      · exact fun hd => ⟨x, hx, by simp [hd]⟩
    rw [hany, Bool.not_not]
  · rw [hlanes k hk, hylane]

end Sys2Proof.Machine
end

section
/-! The end of the drain, and report-lane writes that complete (R21, R24, R27, R35, R65, R66, R189 to R194). -/

namespace Sys2Proof.Machine

/-! ## Entry to CONFIG from a state close to the one before -/

/-- What an entry to CONFIG says does not ask for the Lane Arbiter, the memory, the drain flag or the parts of the Report
Writer that the entry sets. -/
theorem State.EnteredConfig.of_report {s u t : State} (h : u.EnteredConfig t) (same : s.SameBut u [.la, .ps, .rw, .mem, .freeCount])
    (run : { u.ps with run := .config, drainFlag := false } = { s.ps with run := .config, drainFlag := false })
    (write : u.rw.writeIndex = s.rw.writeIndex) (read : u.rw.readIndex = s.rw.readIndex)
    (readWrite : u.rw.readWrite = s.rw.readWrite) : s.EnteredConfig t :=
  { h with
    run := h.run.trans run
    windows := fun w => (h.windows w).trans (State.window_congr (same .zs (by simp)) w)
    timebase := by rw [h.timebase, show u.tb = s.tb from same .tb (by simp)]
    reports := by rw [← write, ← read]; exact h.reports
    readWrite := by rw [← readWrite]; exact h.readWrite
    rest := (same.mono (by simp)).trans h.rest }

/-! ## An access presented at the report lane -/

section
variable (s : State) (k : Nat) (data : List Byte) (kind : AccessKind)

/-- A report-lane access, LINK clear (R21). -/
def reportAccess (k : Nat) (data : List Byte) (kind : AccessKind) : Access :=
  { req := { addr := BitVec.ofNat 36 k, body := .write data, link := false }, kind := kind }

theorem State.presentReport_la :
    (s.presentReport k data kind).la = s.la.withReport (.waiting (reportAccess k data kind)) := rfl

theorem State.sameBut_presentReport : s.SameBut (s.presentReport k data kind) [.la] := s.sameBut_la _

theorem State.presentReport_settled :
    ((s.presentReport k data kind).settlePort.lane reportLane = .waiting (reportAccess k data kind) ∨
      (s.presentReport k data kind).settlePort.lane reportLane = .active (reportAccess k data kind)) ∧
    (s.presentReport k data kind).settlePort.SettledFrom (s.la.withReport (.waiting (reportAccess k data kind))) ∧
    s.SameBut (s.presentReport k data kind).settlePort [.la] :=
  ⟨State.present_lanes s reportLane _, State.settledFrom_settlePort _ _ rfl,
    (s.sameBut_presentReport k data kind).trans (State.arbitrated_settlePort _).sameBut⟩

end

theorem State.ringFull_iff (s : State) (su : Setup) :
    s.ringFull su = true ↔ (s.rw.writeIndex + 1) % su.reportSize = s.rw.readIndex := by
  simp [State.ringFull]

/-! ## The drain (R65) -/

theorem AccessKind.isRingWrite_eq_false_iff (x : AccessKind) :
    x.isRingWrite = false ↔ (∀ ring k, x ≠ .ring ring k) ∧ x ≠ .released := by
  cases x <;> simp [AccessKind.isRingWrite]

theorem State.drained_iff (s : State) : s.drained = true ↔
    (∀ l a, (s.lane l).presented? = some a → (∀ ring k, a.kind ≠ .ring ring k) ∧ a.kind ≠ .released) ∧
    (∀ f, (s.feed f).inFlight = none) ∧ s.rg.held = [] ∧ s.rw.queue = [] ∧ s.rw.hand = none ∧ s.lane reportLane = .idle := by
  have hpresented : s.presented.all (fun x => !x.2.kind.isRingWrite) = true ↔
      ∀ l a, (s.lane l).presented? = some a → (∀ ring k, a.kind ≠ .ring ring k) ∧ a.kind ≠ .released := by
    simp only [List.all_eq_true, Prod.forall, State.mem_presented, State.Presents, Bool.not_eq_true',
      AccessKind.isRingWrite_eq_false_iff]
  simp only [State.drained, Bool.and_eq_true, hpresented, List.all_eq_true, List.mem_finRange, true_imp_iff,
    Option.isNone_iff_eq_none, List.isEmpty_iff, LaneState.idle?_iff, and_assoc]

theorem State.la_enterConfig (s : State) (hidle : ∀ g, s.la.port ≠ .busy g) :
    s.enterConfig.la = { s.la with port := .free, urgentPtr := 0, normalPtr := 0 } := by
  cases hport : s.la.port with
  | free => simp only [State.enterConfig, hport]
  | busy g => exact absurd hport (hidle g)
  | reserved r => simp only [State.enterConfig, hport]

/-- The drain flag is set. -/
def State.drainFlagged (s : State) : State := { s with ps := { s.ps with drainFlag := true } }

theorem State.sameBut_drainFlagged (s : State) : s.SameBut s.drainFlagged [.ps] := s.sameBut_ps _

section
variable {s : State} {su : Setup}

/-- The STOPPED record, as the state stands (R65, R181). -/
def State.stoppedRecord (s : State) : Record := { tick := s.tb.tickCount, report := .stopped s.ps.stopTicket s.rw.overrun }

theorem State.endDrain_of_room (h : s.ringFull su = false) : s.endDrain su =
    ((s.drainFlagged.takeInHand s.stoppedRecord []).presentReport (su.reportSlot s.rw.writeIndex) s.stoppedRecord.bytes
      .record).settlePort := by
  have hfull : ¬ s.drainFlagged.ringFull su = true := Bool.not_eq_true _ ▸ h
  exact if_neg hfull

theorem State.endDrain_of_full (h : s.ringFull su = true) (hidle : ∀ g, s.la.port ≠ .busy g) :
    s.endDrain su = s.drainFlagged.loseRecord.enterConfig.settlePort := by
  have hfull : s.drainFlagged.ringFull su = true := h
  refine (if_pos hfull).trans ?_
  cases hport : s.la.port with
  | busy g => exact absurd hport (hidle g)
  | _ => simp only <;> rfl

theorem State.endDrain_of_full_busy {g : Grant} (h : s.ringFull su = true) (hbusy : s.la.port = .busy g) :
    s.endDrain su = s.drainFlagged.loseRecord := by
  have hfull : s.drainFlagged.ringFull su = true := h
  refine (if_pos hfull).trans ?_
  simp only [hbusy] <;> rfl

theorem State.sameBut_drainFlagged_rw (x : ReportWriter) : s.SameBut { s.drainFlagged with rw := x } [.ps, .rw] :=
  (s.sameBut_drainFlagged.mono (by simp)).trans ((s.drainFlagged.sameBut_rw x).mono (by simp))

end

/-- Settles O53: the end of the drain writes STOPPED, or with a full ring discards it and enters CONFIG. -/
theorem drainEnds : Obligations.DrainEnds := by
  intro s su hrun
  have hexec : exec .drainEnd s = .next (if !s.ps.drainFlag && s.drained then s.endDrain su else s) := by
    simp only [exec, execDrainEnd, hrun]
  refine ⟨s.ringFull_iff su, ?_⟩
  intro conditions stopped
  have hdrained : s.drained = true ↔ conditions := s.drained_iff
  refine ⟨fun h => ?_, fun hflag hc => ?_⟩
  · rw [hexec, if_neg]
    intro hc
    simp only [Bool.and_eq_true, Bool.not_eq_true', hdrained] at hc
    rcases h with h | h
    · exact absurd (h.symm.trans hc.1) (by simp)
    · exact h hc.2
  rw [hexec, if_pos (by simp [hflag, hdrained.mpr hc])]
  obtain ⟨-, -, -, hqueue, hhand, -⟩ := hc
  refine ⟨_, rfl, fun hroom => ?_, fun hfull hidle => ?_, fun g hfull hbusy => ?_⟩
  · have hpresent := (s.drainFlagged.takeInHand s.stoppedRecord []).presentReport_settled
      (su.reportSlot s.rw.writeIndex) s.stoppedRecord.bytes .record
    rw [← State.endDrain_of_room hroom] at hpresent
    obtain ⟨hlane, hsettled, hsame⟩ := hpresent
    refine ⟨hsame .ps (by simp), (hsame .rw (by simp)).trans ?_, ⟨hlane, hsettled⟩,
      ((State.sameBut_drainFlagged_rw _).mono (by simp)).trans (hsame.mono (by simp))⟩
    show ({ s.rw with queue := [], hand := some stopped } : ReportWriter) = _
    rw [← hqueue]
  · have hentered := s.drainFlagged.loseRecord.enteredConfig_enterConfig hidle
    have hport := s.drainFlagged.loseRecord.la_enterConfig hidle
    have hsame : s.SameBut s.drainFlagged.loseRecord [.la, .ps, .rw, .mem, .freeCount] :=
      (State.sameBut_drainFlagged_rw _).mono (by simp)
    have harb := State.arbitrated_settlePort s.drainFlagged.loseRecord.enterConfig
    rw [State.endDrain_of_full hfull hidle]
    refine ⟨(hentered.of_report hsame rfl rfl rfl rfl).settlePort (congrArg LaneArbiter.port hport),
      harb.sameBut .mem (by simp), State.settledFrom_settlePort _ _ hport, (harb.sameBut .rw (by simp)).trans ?_⟩
    show ({ s.rw with
      overrun := true, discardSince := true, queue := [], hand := none, readWrite := _ } : ReportWriter) = _
    rw [← hqueue, ← hhand]
    rfl
  · rw [State.endDrain_of_full_busy hfull hbusy]
    refine ⟨rfl, ?_, rfl, State.sameBut_drainFlagged_rw _⟩
    simp [State.entryDue, State.isStopping, State.loseRecord, State.drainFlagged, hrun, hhand]

/-! ## Report-lane writes that complete -/

section
variable {s b : State} {g : Grant} {x : MemAnswer} {lane : LaneState}

/-- A reservation that R27 makes after a report-lane write. -/
def State.ReservesReport (s : State) (g : Grant) (x : MemAnswer) : Prop :=
  s.isConfig = false ∧ g.link = true ∧ x = .okay ∧ g.count < 8 ∧ ∀ k, s.Waits k → s.isUrgent k = false

/-- The port after a report-lane write, with the report lane as given. -/
def State.ClosedReport (s : State) (g : Grant) (x : MemAnswer) (lane : LaneState) (t : State) : Prop :=
  (¬ s.ReservesReport g x → t.SettledFrom { s.la.withReport lane with port := .free }) ∧
  (s.ReservesReport g x → t.SettledFrom { s.la.withReport lane with
    port := .reserved { lane := reportLane, urgent := false, wait := 0, count := g.count } })

/-- A reservation asks for the urgent lanes that wait, and the report lane, never urgent, is none of them (R21, R27). -/
theorem State.makesReservation_report (hg : g.lane = reportLane) (hla : b.la = s.la.withReport lane) (hps : b.ps = s.ps) : b.makesReservation g x = true ↔ s.ReservesReport g x := by
  have hurgent : ∀ k, b.isUrgent k = s.isUrgent k := fun k => by simp only [State.isUrgent, State.setup, hps]
  have hconfig : b.isConfig = s.isConfig := by simp only [State.isConfig, hps]
  have hlane : ∀ k, k ≠ reportLane → b.lane k = s.lane k := fun k hk => by
    show b.la.lanes[k] = s.la.lanes[k]
    rw [hla]
    simp [LaneArbiter.withReport, Fin.val_ne_of_ne (Ne.symm hk)]
  have hwaits : (b.waitingIn true).all (fun l => l == g.lane) = true ↔ ∀ k, s.Waits k → s.isUrgent k = false := by
    simp only [List.all_eq_true, State.mem_waitingIn, beq_iff_eq, hg, hurgent]
    refine ⟨fun h k hk => ?_, fun h k ⟨hw, hu⟩ => ?_⟩
    · rw [← Bool.not_eq_true]
      intro hu
      have hne : k ≠ reportLane := by
        rintro rfl
        simp at hu
      exact hne (h k ⟨by simpa only [State.Waits, hlane k hne] using hk, hu⟩)
    · by_contra hne
      exact absurd (h k (by simpa only [State.Waits, hlane k hne] using hw)) (by simp [hu])
  simp only [State.makesReservation, hconfig, hg, hurgent, State.isUrgent_reportLane, Bool.and_eq_true, Bool.or_eq_true,
    Bool.not_eq_true', beq_iff_eq, decide_eq_true_eq, Bool.false_eq_true, false_or, hg ▸ hwaits, and_assoc]
  exact Iff.rfl

theorem State.closedReport_closePort (hg : g.lane = reportLane) (hla : b.la = s.la.withReport lane) (hps : b.ps = s.ps) : s.ClosedReport g x lane (b.closePort g x) := by
  have hmakes := State.makesReservation_report (x := x) hg hla hps
  obtain ⟨hfree, hreserved⟩ := b.settledFrom_closePort g x _ hla
  rw [hg, State.isUrgent_reportLane] at hreserved
  exact ⟨fun h => hfree (by rw [← Bool.not_eq_true, hmakes]; exact h), fun h => hreserved (hmakes.mpr h)⟩

end

section
variable (s : State) (g : Grant) (a : Access) (x : MemAnswer)

/-- A report-lane write answered: memory as the answer leaves it, the lane idle. -/
def State.reportAnswered (s : State) (a : Access) (x : MemAnswer) : State :=
  (s.settleMemory a.req x).setLane reportLane .idle

theorem State.reportAnswered_la : (s.reportAnswered a x).la = s.la.withReport .idle := by
  show (s.settleMemory a.req x).la.withReport .idle = _
  rw [show (s.settleMemory a.req x).la = s.la from s.sameBut_settleMemory a.req x .la (by simp)]

theorem State.sameBut_reportAnswered : s.SameBut (s.reportAnswered a x) [.la, .mem, .freeCount] :=
  ((s.sameBut_settleMemory a.req x).mono (by simp)).trans ((State.sameBut_la _ _).mono (by simp))

theorem State.reportAnswered_memoryAfter : s.MemoryAfter (s.reportAnswered a x) a.req x :=
  (s.memoryAfter_settleMemory a.req x).of_mem rfl

variable {s g a x}

/-- What the port leaves of a report-lane write whose act changed the Report Writer and the report lane alone. -/
theorem State.closePort_report {rw : ReportWriter} {lane : LaneState} (hg : g.lane = reportLane) {b : State}
    (hla : b.la = s.la.withReport lane) (hrw : b.rw = rw) (hmem : b.mem = (s.reportAnswered a x).mem)
    (hsame : s.SameBut b [.la, .rw, .mem, .freeCount]) :
    s.MemoryAfter (b.closePort g x) a.req x ∧ (b.closePort g x).rw = rw ∧
    ((b.closePort g x).lane reportLane = lane ∨
      ∃ q, lane = .waiting q ∧ (b.closePort g x).lane reportLane = .active q) ∧
    s.ClosedReport g x lane (b.closePort g x) ∧ s.SameBut (b.closePort g x) [.la, .rw, .mem, .freeCount] := by
  have harb := (b.arbitrated_closePort g x).sameBut
  have hlane : b.lane reportLane = lane := by
    show b.la.lanes[reportLane] = lane
    rw [hla]
    exact Vector.getElem_set_self ..
  refine ⟨(s.reportAnswered_memoryAfter a x).of_mem ((harb .mem (by simp)).trans hmem), (harb .rw (by simp)).trans hrw, ?_,
    State.closedReport_closePort hg hla (hsame .ps (by simp)), hsame.trans (harb.mono (by simp))⟩
  rw [← hlane]
  exact State.settlePort_lanes (b.setPort _) reportLane

/-- An entry to CONFIG at the completion of a report-lane write leaves a FREE port with its pointers at lane 0. -/
theorem State.closePort_entered {b : State} (hla : b.la = s.la.withReport .idle) (hmem : b.mem = (s.reportAnswered a x).mem)
    (hsame : s.SameBut b [.la, .rw, .mem, .freeCount]) (write : b.rw.writeIndex = s.rw.writeIndex)
    (read : b.rw.readIndex = s.rw.readIndex) (readWrite : b.rw.readWrite = s.rw.readWrite) :
    let t := b.enterConfig.closePort g x
    s.MemoryAfter t a.req x ∧ t.rw = { b.rw with queue := [], hand := none, readWrite := b.rw.readWrite.overtake } ∧
    t.lane reportLane = .idle ∧ s.EnteredConfig t ∧
    t.SettledFrom { s.la.withReport .idle with port := .free, urgentPtr := 0, normalPtr := 0 } := by
  intro t
  have ht : t = (b.setPort .free).enterConfig.settlePort := by
    have hnone : b.enterConfig.makesReservation g x = false := rfl
    show State.settlePort _ = _
    rw [hnone]
    rfl
  have hentered := State.enteredConfig_enterConfig (b.setPort .free) (by simp [State.setPort])
  have hfrom : s.EnteredConfig (b.setPort .free).enterConfig := by
    refine hentered.of_report (u := b.setPort .free) ?_ ?_ write read readWrite
    · exact (hsame.mono (by simp)).trans ((b.sameBut_la _).mono (by simp))
    · rw [show (b.setPort .free).ps = s.ps from hsame .ps (by simp)]
  have hport : (b.setPort .free).enterConfig.la =
      { s.la.withReport .idle with port := .free, urgentPtr := 0, normalPtr := 0 } := by
    rw [← hla]
    rfl
  have harb := State.arbitrated_settlePort (b.setPort .free).enterConfig
  have hidle : (b.setPort .free).enterConfig.lane reportLane = .idle := by
    show (b.setPort .free).enterConfig.la.lanes[reportLane] = .idle
    rw [hport]
    exact Vector.getElem_set_self ..
  rw [ht]
  refine ⟨(s.reportAnswered_memoryAfter a x).of_mem ((harb.sameBut .mem (by simp)).trans hmem), harb.sameBut .rw (by simp), ?_,
    hfrom.settlePort rfl, State.settledFrom_settlePort _ _ hport⟩
  rcases State.settlePort_lanes (b.setPort .free).enterConfig reportLane with h | ⟨q, h, -⟩
  · rw [h, hidle]
  · rw [hidle] at h
    simp at h

/-- A lane that is idle is granted nothing. -/
theorem LaneState.idle_or_granted {y : LaneState}
    (h : y = .idle ∨ ∃ q, LaneState.idle = .waiting q ∧ y = .active q) : y = .idle := by
  rcases h with h | ⟨q, h, -⟩
  · exact h
  · simp at h

theorem State.isStopping_congr {s t : State} (h : t.ps = s.ps) : t.isStopping = s.isStopping := by
  simp only [State.isStopping, h]

end

theorem State.irqAsserted_iff (s : State) : s.irqAsserted = true ↔ s.isConfig = false ∧ s.resetAsserted = false ∧
    (s.rw.writeIndex ≠ s.rw.readIndex ∨ s.rw.overrun = true) := by
  simp [State.irqAsserted, and_assoc]

/-- The part enters CONFIG where the record that was written was STOPPED (R190, R194). -/
def State.enterIfStopped (b : State) : State := if b.isStopping && b.ps.drainFlag then b.enterConfig else b

theorem State.recordFailed_eq (b : State) : b.recordFailed = b.loseRecord.dropHand.enterIfStopped := rfl

theorem State.indexWordDone_eq (b : State) : b.indexWordDone = b.dropHand.enterIfStopped := rfl

/-- What the completion of a report-lane write leaves that presents no further one (R189, R190, R194). -/
structure State.ReportLeft (s : State) (g : Grant) (a : Access) (x : MemAnswer) (rw : ReportWriter) (t : State) : Prop where
  memory : s.MemoryAfter t a.req x
  hand : t.rw.hand = none
  writeIndex : t.rw.writeIndex = s.rw.writeIndex
  readIndex : t.rw.readIndex = s.rw.readIndex
  overrun : t.rw.overrun = rw.overrun
  discardSince : t.rw.discardSince = rw.discardSince
  idle : t.lane reportLane = .idle
  entered : s.isStopping = true ∧ s.ps.drainFlag = true → s.EnteredConfig t ∧
    t.SettledFrom { s.la.withReport .idle with port := .free, urgentPtr := 0, normalPtr := 0 }
  stays : ¬ (s.isStopping = true ∧ s.ps.drainFlag = true) →
    t.rw = rw ∧ s.ClosedReport g x .idle t ∧ s.SameBut t [.la, .rw, .mem, .freeCount]

theorem State.reportLeft_enterIfStopped {s b : State} {g : Grant} {a : Access} {x : MemAnswer} {rw : ReportWriter}
    (hg : g.lane = reportLane) (hla : b.la = s.la.withReport .idle) (hmem : b.mem = (s.reportAnswered a x).mem)
    (hsame : s.SameBut b [.la, .rw, .mem, .freeCount]) (hrw : b.rw = rw) (hhand : rw.hand = none)
    (hwrite : rw.writeIndex = s.rw.writeIndex) (hread : rw.readIndex = s.rw.readIndex)
    (hreadWrite : rw.readWrite = s.rw.readWrite) : s.ReportLeft g a x rw (b.enterIfStopped.closePort g x) := by
  subst hrw
  have hps : b.ps = s.ps := hsame .ps (by simp)
  have hentering : (b.isStopping && b.ps.drainFlag) = true ↔ s.isStopping = true ∧ s.ps.drainFlag = true := by
    rw [Bool.and_eq_true, State.isStopping_congr hps, hps]
  by_cases h : s.isStopping = true ∧ s.ps.drainFlag = true
  · rw [State.enterIfStopped, if_pos (hentering.mpr h)]
    obtain ⟨hmemory, htrw, hidle, hentered, hsettled⟩ :=
      State.closePort_entered (g := g) hla hmem hsame hwrite hread hreadWrite
    exact { memory := hmemory
            hand := by rw [htrw]
            writeIndex := by rw [htrw]; exact hwrite
            readIndex := by rw [htrw]; exact hread
            overrun := by rw [htrw]
            discardSince := by rw [htrw]
            idle := hidle
            entered := fun _ => ⟨hentered, hsettled⟩
            stays := fun hn => absurd h hn }
  · rw [State.enterIfStopped, if_neg (hentering.not.mpr h)]
    obtain ⟨hmemory, htrw, hidle, hclosed, hkept⟩ := State.closePort_report hg hla rfl hmem hsame
    exact { memory := hmemory
            hand := by rw [htrw]; exact hhand
            writeIndex := by rw [htrw]; exact hwrite
            readIndex := by rw [htrw]; exact hread
            overrun := by rw [htrw]
            discardSince := by rw [htrw]
            idle := LaneState.idle_or_granted hidle
            entered := fun hc => absurd hc h
            stays := fun _ => ⟨htrw, hclosed, hkept⟩ }

/-- Settles O55: when IRQ_N is asserted, and what the completion of each report-lane write leaves. -/
theorem reportWritesComplete : Obligations.ReportWritesComplete := by
  refine ⟨State.irqAsserted_iff, fun s g a x hprogress hg => ?_⟩
  have hreport : s.reportInProgress = some (g, a) := State.reportInProgress_eq_some_iff.mpr ⟨hprogress, hg⟩
  have hla := s.reportAnswered_la a x
  have hsame := s.sameBut_reportAnswered a x
  have hrw : (s.reportAnswered a x).rw = s.rw := hsame .rw (by simp)
  have hacted : ∀ y, s.SameBut { s.reportAnswered a x with rw := y } [.la, .rw, .mem, .freeCount] := fun y =>
    (hsame.mono (by simp)).trans ((State.sameBut_rw _ y).mono (by simp))
  intro entering reserves closes leaves
  refine ⟨fun hkind => ?_, fun su hkind hsu hx => ?_, fun su hkind hsu hx => ?_, fun hkind => ?_⟩
  · have hexec : exec (.recordWriteComplete x) s = .next ((s.reportAnswered a x).dropHand.closePort g x) := by
      simp only [exec, execRecordWriteComplete, hreport, hkind] <;> rfl
    obtain ⟨hmem, htrw, hidle, hclosed, hkept⟩ := State.closePort_report (g := g) (b := (s.reportAnswered a x).dropHand)
      (rw := { s.rw with hand := none }) hg hla (by rw [← hrw]; rfl) rfl (hacted _)
    exact ⟨_, hexec, hmem, htrw, LaneState.idle_or_granted hidle, hclosed, hkept⟩
  · subst hx
    have hexec : exec (.recordWriteComplete .okay) s =
        .next (((s.reportAnswered a .okay).recordLanded su).closePort g .okay) := by
      simp only [exec, execRecordWriteComplete, hreport, hkind, hsu] <;> rfl
    have hlanded : ((s.reportAnswered a .okay).recordLanded su).la = s.la.withReport (.waiting
        (reportAccess (s.planBase + 0x2108) (beBytes 4 ((s.rw.writeIndex + 1) % su.reportSize) ++
          [if s.rw.overrun then 1 else 0, 0, 0, 0]) .indexWord)) := by
      have hbase : (s.reportAnswered a .okay).planBase = s.planBase := by
        simp only [State.planBase, show (s.reportAnswered a .okay).ac = s.ac from hsame .ac (by simp)]
      refine Eq.trans (b := (s.reportAnswered a .okay).la.withReport (.waiting (reportAccess
        ((s.reportAnswered a .okay).planBase + writeIndexWord)
        (indexWordBytes (((s.reportAnswered a .okay).rw.writeIndex + 1) % su.reportSize) (s.reportAnswered a .okay).rw.overrun)
        .indexWord))) rfl ?_
      rw [hla, hbase, hrw]
      simp [LaneArbiter.withReport, indexWordBytes, flagByte, writeIndexWord]
    obtain ⟨hmem, htrw, hlane, hclosed, hkept⟩ := State.closePort_report (g := g) (a := a)
      (rw := { s.rw with writeIndex := (s.rw.writeIndex + 1) % su.reportSize }) hg hlanded (by rw [← hrw]; rfl) rfl
      (((hacted _).mono (by simp)).trans ((State.sameBut_la _ _).mono (by simp)))
    refine ⟨_, hexec, hmem, htrw, ⟨hlane.imp id ?_, hclosed⟩, hkept⟩
    rintro ⟨q, hq, hactive⟩
    rwa [← LaneState.waiting.inj hq] at hactive
  · subst hx
    have hexec : exec (.recordWriteComplete .error) s = .next (((s.reportAnswered a .error).recordFailed).closePort g .error) := by
      simp only [exec, execRecordWriteComplete, hreport, hkind, hsu] <;> rfl
    have h : s.ReportLeft g a .error { s.rw with hand := none, overrun := true, discardSince := true } _ :=
      State.reportLeft_enterIfStopped (b := (s.reportAnswered a .error).loseRecord.dropHand) hg hla rfl (hacted _)
        (by rw [← hrw]; rfl) rfl rfl rfl rfl
    exact ⟨_, hexec, h.memory, h.hand, h.writeIndex, h.readIndex, h.overrun, h.discardSince, h.idle, h.entered, h.stays⟩
  · have hexec : exec (.writeIndexWordComplete x) s = .next ((s.reportAnswered a x).indexWordDone.closePort g x) := by
      simp only [exec, execWriteIndexWordComplete, hreport, hkind] <;> rfl
    have h : s.ReportLeft g a x { s.rw with hand := none } _ :=
      State.reportLeft_enterIfStopped (b := (s.reportAnswered a x).dropHand) hg hla rfl (hacted _)
        (by rw [← hrw]; rfl) rfl rfl rfl rfl
    exact ⟨_, hexec, h.memory, h.hand, h.writeIndex, h.readIndex, h.overrun, h.discardSince, h.idle, h.entered, h.stays⟩

end Sys2Proof.Machine
end

section
/-! The bytes of a record by its fields (section 12.7, R196), and the taking of a report (R188, R189, R191). -/

namespace Sys2Proof.Machine

/-! ## Numbers spelt one after the other -/

/-- Sized numbers spelt one after the other, most significant byte first. -/
def spell (parts : List (Nat × Nat)) : List Byte := parts.flatMap fun x => beBytes x.1 x.2

/-- Sized numbers with the offsets that they have from an offset on. -/
def placed : Nat → List (Nat × Nat) → List (Nat × Nat × Nat)
  | _, [] => []
  | o, x :: parts => (o, x.1, x.2) :: placed (o + x.1) parts

/-- How many bytes sized numbers take. -/
def sizeOf (parts : List (Nat × Nat)) : Nat := (parts.map (·.1)).sum

theorem length_spell (parts : List (Nat × Nat)) : (spell parts).length = sizeOf parts := by
  simp [spell, sizeOf, List.length_flatMap, length_beBytes]

theorem spell_cons (x : Nat × Nat) (parts : List (Nat × Nat)) : spell (x :: parts) = beBytes x.1 x.2 ++ spell parts := rfl

theorem spell_append (a b : List (Nat × Nat)) : spell (a ++ b) = spell a ++ spell b := List.flatMap_append

/-- A placed number stands at its offset. -/
theorem take_drop_spell {parts : List (Nat × Nat)} {k o n v : Nat} (h : (o, n, v) ∈ placed k parts) :
    k ≤ o ∧ o + n ≤ k + sizeOf parts ∧ ((spell parts).drop (o - k)).take n = beBytes n v := by
  induction parts generalizing k with
  | nil => simp [placed] at h
  | cons x parts ih =>
    have hsize : sizeOf (x :: parts) = x.1 + sizeOf parts := by simp [sizeOf]
    rcases List.mem_cons.mp h with h | h
    · obtain ⟨rfl, rfl⟩ : o = k ∧ x = (n, v) := by simpa [eq_comm] using h
      refine ⟨le_rfl, by omega, ?_⟩
      rw [spell_cons, Nat.sub_self]
      exact List.take_left' (length_beBytes _ _)
    · obtain ⟨hle, hend, htake⟩ := ih h
      refine ⟨by omega, by omega, ?_⟩
      rw [spell_cons, List.drop_append, List.drop_eq_nil_of_le (by rw [length_beBytes]; omega), length_beBytes, List.nil_append,
        ← htake]
      congr 2
      omega

theorem getD_beBytes_zero (n i : Nat) : (beBytes n 0).getD i 0 = 0 := by
  induction n generalizing i with
  | zero => rfl
  | succ n ih =>
    cases i with
    | zero => simp [beBytes]
    | succ i => simpa [beBytes] using ih i

/-- A byte that no placed number but 0 takes is 0. -/
theorem getD_spell_zero {parts : List (Nat × Nat)} {k i : Nat} (hk : k ≤ i)
    (h : ∀ x ∈ placed k parts, x.2.2 ≠ 0 → i < x.1 ∨ x.1 + x.2.1 ≤ i) : (spell parts).getD (i - k) 0 = 0 := by
  induction parts generalizing k with
  | nil => rfl
  | cons x parts ih =>
    rw [spell_cons]
    by_cases hi : i < k + x.1
    · have hzero : x.2 = 0 := by
        by_contra hne
        rcases h (k, x.1, x.2) (by simp [placed]) hne with h | h <;> simp only at h <;> omega
      rw [List.getD_append _ _ _ _ (by rw [length_beBytes]; omega), hzero]
      exact getD_beBytes_zero _ _
    · rw [List.getD_append_right _ _ _ _ (by rw [length_beBytes]; omega), length_beBytes,
        show i - k - x.1 = i - (k + x.1) by omega]
      exact ih (by omega) fun y hy => h y (by simp [placed, hy])

theorem beBytes_one (v : Nat) : beBytes 1 v = [byte v] := by simp [beBytes, byte]

theorem beBytes_zero (n : Nat) : beBytes n 0 = List.replicate n 0 := by
  induction n with
  | zero => rfl
  | succ n ih => simp [beBytes, ih, List.replicate_succ]

/-- Sized numbers filled up with zeros. -/
theorem padTo_spell {n : Nat} {parts : List (Nat × Nat)} (h : sizeOf parts ≤ n) :
    padTo n (spell parts) = spell (parts ++ [(n - sizeOf parts, 0)]) := by
  rw [spell_append, padTo, List.take_append, length_spell, List.take_of_length_le (by rw [length_spell]; exact h),
    List.take_replicate]
  simp [spell, beBytes_zero]

/-! ## The parts of a record -/

/-- The subject of a report by sized numbers. -/
def Report.subjectParts : Report → List (Nat × Nat)
  | .setupResult ticket _ _ => [(1, 0), (2, ticket.toNat)]
  | .stopped ticket _ => [(1, 0), (2, ticket.toNat)]
  | .commandResult code ticket arg1 _ _ => [(1, code.toNat), (2, ticket.toNat), (4, arg1.toNat)]
  | .windowState w region _ _ _ => [(1, w.val), (1, region.toNat)]
  | .zoneOutcome w region z _ _ => [(1, w.val), (1, region.toNat), (1, z.val)]
  | .switch z region w _ _ _ _ _ => [(1, z.val), (1, region.toNat), (1, (w.map (·.val)).getD 0xFF)]
  | .logFull z _ _ _ _ _ => [(1, z.val)]
  | .pathState r p _ _ _ _ => [(1, r.val), (1, pathCode p)]
  | .lateCell ring slot _ _ _ => [(1, ring.code), (2, slot)]
  | .accessRefused l d a _ _ => [(1, l.val), (1, directionCode d), (5, a.toNat)]
  | .memoryFault l d a => [(1, l.val), (1, directionCode d), (5, a.toNat)]
  | .feedState f zone lane _ _ _ _ _ => [(1, f.val), (1, zone.toNat), (1, lane.toNat)]
  | .holdExpired l ring slot _ _ _ _ => [(1, l.val), (1, ring.code), (2, slot)]
  | .holdState zones _ _ _ => [(3, 0), (4, zones.toNat)]
  | .pulse count _ _ _ => [(3, 0), (4, count.toNat)]
  | .reference count _ _ _ _ => [(3, 0), (4, count.toNat)]

/-- The detail of a report by sized numbers. -/
def Report.detailParts : Report → List (Nat × Nat)
  | .setupResult _ result offset => [(1, result.code), (1, 0), (2, offset)]
  | .stopped _ overrun => [(1, overrun.toNat)]
  | .commandResult _ _ _ _ result => [(1, result.code)]
  | .windowState _ _ _ news reason => [(1, news.code), (1, (reason.map (·.code)).getD 0)]
  | .zoneOutcome _ _ _ _ outcome => [(1, outcome.code)]
  | .switch _ _ _ _ source previous cause runs => [(1, source.code), (1, previous.code), (1, cause.code), (1, runs)]
  | .logFull _ _ source cause openSource trail =>
    [(1, source.code), (1, cause.code), (1, openSource.code), (1, 0), (4, trail.toNat)]
  | .pathState _ _ _ before after score => [(1, before.code), (1, after.code), (1, score)]
  | .lateCell _ _ _ good zones => [(1, if good then 2 else 3), (3, 0), (4, zones.toNat)]
  | .accessRefused _ _ _ reason _ => [(1, reason.code)]
  | .memoryFault _ _ _ => []
  | .feedState _ _ _ _ before after reason attached =>
    [(1, before.code), (1, after.code), (1, reason.code), (1, attached)]
  | .holdExpired _ _ _ _ new slipped expiries => [(4, new.toNat), (1, slipped), (3, 0), (4, expiries)]
  | .holdState _ on source kind => [(1, on.toNat), (1, source.code), (1, holdKindCode kind)]
  | .pulse _ tick head state => [(4, tick.toNat), (1, head.isNone.toNat), (1, state.code)]
  | .reference _ tick head before after =>
    [(4, tick.toNat), (1, head.isNone.toNat), (1, before.code), (1, after.code)]

theorem flagByte_eq (b : Bool) : flagByte b = byte b.toNat := by cases b <;> rfl

theorem byte_toNat (b : Byte) : byte b.toNat = b := by simp [byte]

theorem Report.subject_eq (r : Report) : r.subject = spell r.subjectParts := by
  cases r <;> simp [Report.subject, Report.subjectParts, spell, beBytes_one, beBytes_zero, byte_toNat, Config.noneCode,
    List.replicate_succ] <;> rfl

theorem Report.detail_eq (r : Report) : r.detail = spell r.detailParts := by
  cases r <;> simp [Report.detail, Report.detailParts, spell, beBytes_one, beBytes_zero, flagByte_eq,
    List.replicate_succ]
  case lateCell _ _ _ good _ => cases good <;> rfl

theorem Report.sizeOf_parts_le (r : Report) : sizeOf r.subjectParts ≤ 7 ∧ sizeOf r.detailParts ≤ 16 := by
  cases r <;> simp [Report.subjectParts, Report.detailParts, sizeOf]

/-- A record by sized numbers, 0 where no field stands. -/
def Record.parts (r : Record) : List (Nat × Nat) :=
  [(1, r.report.kind)] ++ (r.report.subjectParts ++ [(7 - sizeOf r.report.subjectParts, 0)]) ++ [(4, r.tick.toNat)] ++
    [(4, r.report.ssn.toNat)] ++ (r.report.detailParts ++ [(16 - sizeOf r.report.detailParts, 0)])

theorem Record.bytes_eq (r : Record) : r.bytes = spell r.parts := by
  obtain ⟨hs, hd⟩ := r.report.sizeOf_parts_le
  simp only [Record.bytes, Record.parts, spell_append, Report.subject_eq, Report.detail_eq, padTo_spell hs, padTo_spell hd]
  simp [spell, beBytes_one]

theorem Record.sizeOf_parts (r : Record) : sizeOf r.parts = 32 := by
  obtain ⟨hs, hd⟩ := r.report.sizeOf_parts_le
  simp only [Record.parts, sizeOf, List.map_append, List.sum_append, List.map_cons, List.map_nil, List.sum_cons,
    List.sum_nil] at *
  omega

theorem Record.fields_placed (r : Record) : ∀ x ∈ (8, 4, r.tick.toNat) :: r.report.fields, x ∈ placed 0 r.parts := by
  obtain ⟨tick, report⟩ := r
  cases report <;> simp [Report.fields, Record.parts, Report.subjectParts, Report.detailParts, sizeOf, placed, Report.kind,
    Report.ssn]

theorem Record.placed_fields (r : Record) : ∀ x ∈ placed 0 r.parts, x.2.2 ≠ 0 → x ∈ (8, 4, r.tick.toNat) :: r.report.fields := by
  obtain ⟨tick, report⟩ := r
  cases report <;> simp [Report.fields, Record.parts, Report.subjectParts, Report.detailParts, sizeOf, placed, Report.kind,
    Report.ssn]

theorem Record.laidOut (r : Record) : r.LaidOut := by
  have hlength : r.bytes.length = 32 := by rw [r.bytes_eq, length_spell, r.sizeOf_parts]
  refine ⟨hlength, fun ⟨o, n, v⟩ hx => ?_, fun i _ h => ?_⟩
  · obtain ⟨-, hend, htake⟩ := take_drop_spell (r.fields_placed _ hx)
    rw [r.sizeOf_parts] at hend
    show bigEndian _ o n = v % 256 ^ n
    rw [bigEndian_getD _ (by omega), r.bytes_eq, ← Nat.sub_zero o, htake, beNat_beBytes]
  · rw [r.bytes_eq, ← Nat.sub_zero i]
    exact getD_spell_zero (Nat.zero_le i) fun x hx hne => h x (r.placed_fields x hx hne)

theorem codesAsListed : CodesAsListed := by
  refine ⟨rfl, rfl, rfl, rfl, rfl, rfl, rfl, rfl, rfl, rfl, rfl, rfl, rfl, rfl, rfl, rfl, rfl, fun r p => ?_⟩
  cases p <;> rfl

/-! ## The taking of a report -/

section
variable {s : State} {r : Record} {rest : List Record}

theorem State.reportLaneIdle_iff : s.reportLaneIdle = true ↔ s.rw.hand = none ∧ s.lane reportLane = .idle := by
  simp [State.reportLaneIdle, LaneState.idle?_iff]

/-- The report in hand presented at the report lane. -/
theorem State.takeInHand_presented (k : Nat) (data : List Byte) (kind : AccessKind) :
    let t := ((s.takeInHand r rest).presentReport k data kind).settlePort
    (t.lane reportLane = .waiting (reportAccess k data kind) ∨ t.lane reportLane = .active (reportAccess k data kind)) ∧
    t.SettledFrom (s.la.withReport (.waiting (reportAccess k data kind))) ∧
    t.rw = { s.rw with queue := rest, hand := some r } ∧ s.SameBut t [.la, .rw] := by
  obtain ⟨hlane, hsettled, hsame⟩ := (s.takeInHand r rest).presentReport_settled k data kind
  exact ⟨hlane, hsettled, hsame .rw (by simp), ((s.sameBut_rw _).mono (by simp)).trans (hsame.mono (by simp))⟩

end

/-- Settles O54: the codes and bytes of records, and the taking of the oldest report. -/
theorem reportTaken : Obligations.ReportTaken := by
  refine ⟨codesAsListed, Record.laidOut, fun s => ?_⟩
  have hexec : exec .reportTake s =
      .next (if s.reportLaneIdle && !s.rw.queue.isEmpty then s.takeReport.settlePort else s) := rfl
  refine ⟨fun h => ?_, fun r rest hhand hidle hqueue => ?_⟩
  · rw [hexec, if_neg]
    simp only [Bool.and_eq_true, State.reportLaneIdle_iff, Bool.not_eq_true', List.isEmpty_eq_false_iff]
    rintro ⟨⟨hhand, hidle⟩, hqueue⟩
    rcases h with h | h | h
    · exact h hhand
    · exact h hidle
    · exact hqueue h
  rw [hexec, if_pos (by simp [State.reportLaneIdle_iff.mpr ⟨hhand, hidle⟩, hqueue])]
  intro write presents
  refine ⟨_, rfl, fun hsu => ?_, fun su hsu => ⟨s.ringFull_iff su, fun hfull => ?_, fun hroom => ?_⟩⟩
  · have htake : s.takeReport = s.writeStandby r rest := by simp only [State.takeReport, hqueue, hsu]
    rw [htake]
    exact State.takeInHand_presented _ _ _
  · have htake : s.takeReport = s.discardQueue := by simp only [State.takeReport, hqueue, hsu, if_pos hfull]
    have harb := s.discardQueue.arbitrated_settlePort
    rw [htake]
    refine ⟨harb.sameBut .rw (by simp), ?_, State.settledFrom_settlePort _ _ rfl, ?_⟩
    · refine LaneState.idle_or_granted ?_
      have := s.discardQueue.settlePort_lanes reportLane
      rwa [State.LaneOrGranted, show s.discardQueue.lane reportLane = .idle from hidle] at this
    · exact ((s.sameBut_rw _).mono (by simp)).trans (harb.sameBut.mono (by simp))
  · have htake : s.takeReport = s.writeRecord su r rest := by
      simp only [State.takeReport, hqueue, hsu, if_neg (Bool.eq_false_iff.mp hroom)]
    rw [htake]
    exact State.takeInHand_presented _ _ _

end Sys2Proof.Machine
end

section
/-! COMMIT validation: the ten checks in their order, each with the least offset at which it fails (R60, R61). -/

namespace Sys2Proof.Machine

/-! ## The first failure of a check -/

/-- A check's result is the least offset at which it fails, none where it fails at none. -/
structure LeastFailure (result : Option Nat) (fails : Nat → Prop) : Prop where
  passes : result = none → ∀ o, ¬ fails o
  least : ∀ o, result = some o → fails o ∧ ∀ o', fails o' → o ≤ o'

section
variable {result : Option Nat} {fails fails' : Nat → Prop}

theorem LeastFailure.congr (h : LeastFailure result fails) (hf : ∀ o, fails o ↔ fails' o) : LeastFailure result fails' := by
  obtain rfl : fails = fails' := funext fun o => propext (hf o)
  exact h

theorem LeastFailure.eq_none_iff (h : LeastFailure result fails) : result = none ↔ ∀ o, ¬ fails o := by
  refine ⟨h.passes, fun hn => ?_⟩
  cases hr : result with
  | none => rfl
  | some o => exact absurd (h.least o hr).1 (hn o)

theorem LeastFailure.eq_some_iff (h : LeastFailure result fails) {o : Nat} :
    result = some o ↔ fails o ∧ ∀ o', fails o' → o ≤ o' := by
  refine ⟨h.least o, fun ⟨hf, hleast⟩ => ?_⟩
  cases hr : result with
  | none => exact absurd hf (h.passes hr o)
  | some x =>
    obtain ⟨hx, hxleast⟩ := h.least x hr
    rw [Nat.le_antisymm (hxleast o hf) (hleast x hx)]

end

/-- The least member of a list of offsets. -/
theorem leastFailure_min (l : List Nat) : LeastFailure l.min? (· ∈ l) where
  passes h o ho := by simp [List.min?_eq_none_iff.mp h] at ho
  least o h := List.min?_eq_some_iff.mp h

/-- A list of checks in the order of their offsets. -/
theorem leastFailure_firstFailure (l : List (Bool × Nat)) (hl : (l.map (·.2)).Pairwise (· ≤ ·)) :
    LeastFailure (firstFailure l) (fun o => (false, o) ∈ l) := by
  induction l with
  | nil => exact ⟨fun _ o => by simp, fun o h => by simp [firstFailure] at h⟩
  | cons x l ih =>
    obtain ⟨ok, o⟩ := x
    obtain ⟨hhead, htail⟩ := List.pairwise_cons.mp hl
    cases ok with
    | true => exact LeastFailure.congr (ih htail) fun o => by simp
    | false =>
      refine ⟨fun h => by simp [firstFailure] at h, fun o' h => ?_⟩
      obtain rfl : o = o' := by simpa [firstFailure] using h
      refine ⟨by simp, fun o' ho' => ?_⟩
      rcases List.mem_cons.mp ho' with h | h
      · exact (congrArg (·.2) h).ge
      · exact hhead o' (List.mem_map_of_mem h)

theorem map_find?_eq_firstFailure {α : Type} (l : List α) (p : α → Bool) (g : α → Nat) :
    (l.find? p).map g = firstFailure (l.map fun x => (!p x, g x)) := by
  induction l with
  | nil => rfl
  | cons x l ih => cases h : p x <;> simp [h, firstFailure, ih]

/-! ## The order of fields -/

/-- Offsets that rise with an index from a base on. -/
theorem pairwise_rising {α : Type} {l : List α} {r : α → α → Prop} {g : α → Nat} (hl : l.Pairwise r)
    (h : ∀ a b, r a b → g a ≤ g b) : (l.map g).Pairwise (· ≤ ·) :=
  List.pairwise_map.mpr (hl.imp fun {a b} hab => h a b hab)

/-- Offsets in groups that rise with an index. -/
theorem pairwise_rising_flatMap {α : Type} {l : List α} {r : α → α → Prop} {g : α → List Nat} (hl : l.Pairwise r)
    (hg : ∀ a, (g a).Pairwise (· ≤ ·)) (h : ∀ a b, r a b → ∀ x ∈ g a, ∀ y ∈ g b, x ≤ y) :
    (l.flatMap g).Pairwise (· ≤ ·) :=
  List.pairwise_flatMap.mpr ⟨fun a _ => hg a, hl.imp fun {a b} hab => h a b hab⟩

theorem pairwise_append_of_le {a b : List Nat} {c : Nat} (ha : a.Pairwise (· ≤ ·)) (hb : b.Pairwise (· ≤ ·))
    (hac : ∀ x ∈ a, x ≤ c) (hcb : ∀ y ∈ b, c ≤ y) : (a ++ b).Pairwise (· ≤ ·) :=
  List.pairwise_append.mpr ⟨ha, hb, fun x hx y hy => (hac x hx).trans (hcb y hy)⟩

theorem pairwise_finRange_filter {n : Nat} (p : Fin n → Bool) : ((List.finRange n).filter p).Pairwise (· < ·) :=
  (List.pairwise_lt_finRange n).filter p

/-! ## Check 1: unsettled words, outstanding plan writes, and plain writes -/

section
variable (s : State) (su : Setup)

theorem Setup.isRingOrReport_iff {e : Extent} (he : e ∈ su.areaMap) :
    e.area.isRingOrReport = true ↔ ∀ f, e.area ≠ .view f := by
  rcases (su.mem_areaMap_iff e).mp he with rfl | ⟨r, p, -, ha, -⟩ | ⟨f, -, ha, -⟩ | rfl
  · simp [Area.isRingOrReport]
  · simp [Area.isRingOrReport, ha]
  · simp [Area.isRingOrReport, ha]
  · simp [Area.isRingOrReport]

theorem State.mem_plainWriteFields {o : Nat} : o ∈ s.plainWriteFields su ↔
    ∃ l a d, (s.lane l).presented? = some a ∧ a.kind = .plain ∧ a.req.body = .write d ∧
      ∃ e ∈ su.areaMap, e.has a.req.base = true ∧ (∀ f, e.area ≠ .view f) ∧ o = e.field := by
  simp only [State.plainWriteFields, List.mem_flatMap, Prod.exists, State.mem_presented, State.Presents]
  refine exists_congr fun l => exists_congr fun a => ?_
  split
  · next d hkind hbody =>
    simp only [List.mem_map, List.mem_filter, Bool.and_eq_true, hkind, hbody, true_and]
    constructor
    · rintro ⟨hp, e, ⟨he, hring, hhas⟩, rfl⟩
      exact ⟨d, hp, rfl, e, he, hhas, (su.isRingOrReport_iff he).mp hring, rfl⟩
    · rintro ⟨d, hp, -, e, he, hhas, hview, rfl⟩
      exact ⟨hp, e, ⟨he, (su.isRingOrReport_iff he).mpr hview, hhas⟩, rfl⟩
  · next hno =>
    refine iff_of_false (by simp) ?_
    rintro ⟨d, -, hkind, hbody, -⟩
    exact hno d hkind hbody

theorem State.unsettledAt_least : LeastFailure (s.unsettledAt su) (s.SetupFails su .unsettled) := by
  have hwords := leastFailure_min (s.ps.unknown.filter (· < 512))
  have houtstanding := leastFailure_min
    ((s.outstandingPlan.filter (fun x => s.covers x.2.req 0 0x1000)).map (fun x => s.planOffset x.2.req))
  have hplain := leastFailure_min (s.plainWriteFields su)
  have hword : ∀ w, w ∈ s.ps.unknown.filter (· < 512) ↔ w ∈ s.ps.unknown ∧ w < 512 := fun w => by simp
  have hwrite : ∀ o, o ∈ (s.outstandingPlan.filter (fun x => s.covers x.2.req 0 0x1000)).map (fun x => s.planOffset x.2.req) ↔
      ∃ x ∈ s.outstandingPlan, s.covers x.2.req 0 4096 = true ∧ o = s.planOffset x.2.req := fun o => by
    simp only [List.mem_map, List.mem_filter, and_assoc, eq_comm (b := o)]
  unfold State.unsettledAt
  split
  · next w hw =>
    obtain ⟨hin, hleast⟩ := hwords.least w hw
    obtain ⟨hunknown, hlt⟩ := (hword w).mp hin
    have someWord : ∃ w ∈ s.ps.unknown, w < 512 := ⟨w, hunknown, hlt⟩
    refine ⟨fun h => by simp at h, fun o h => ?_⟩
    obtain rfl := Option.some_inj.mp h
    refine ⟨.inl ⟨w, hunknown, hlt, rfl⟩, fun o' h' => ?_⟩
    rcases h' with ⟨w', hw', hlt', rfl⟩ | h' | h'
    · have := hleast w' ((hword w').mpr ⟨hw', hlt'⟩)
      omega
    · exact absurd someWord h'.1
    · exact absurd someWord h'.1
  · next hw =>
    have noWord : ¬ ∃ w ∈ s.ps.unknown, w < 512 := fun ⟨w, hw', hlt⟩ =>
      hwords.passes hw w ((hword w).mpr ⟨hw', hlt⟩)
    split
    · next o hmin =>
      refine LeastFailure.congr (hmin ▸ houtstanding) fun o' => (hwrite o').trans ?_
      refine ⟨fun ⟨x, hx, hcovers, ho⟩ => .inr (.inl ⟨noWord, x, hx, hcovers, ho⟩), ?_⟩
      rintro (⟨w, hw, hlt, -⟩ | ⟨-, h⟩ | ⟨-, hno, -⟩)
      · exact absurd ⟨w, hw, hlt⟩ noWord
      · exact h
      · obtain ⟨x, hx, hcovers, -⟩ := (hwrite o).mp (houtstanding.least o hmin).1
        exact absurd ⟨x, hx, hcovers⟩ hno
    · next hmin =>
      have noWrite : ¬ ∃ x ∈ s.outstandingPlan, s.covers x.2.req 0 4096 = true := fun ⟨x, hx, hcovers⟩ =>
        houtstanding.passes hmin _ ((hwrite _).mpr ⟨x, hx, hcovers, rfl⟩)
      refine LeastFailure.congr hplain fun o => (s.mem_plainWriteFields su).trans ?_
      refine ⟨fun h => .inr (.inr ⟨noWord, noWrite, h⟩), ?_⟩
      rintro (⟨w, hw, hlt, -⟩ | ⟨-, x, hx, hcovers, -⟩ | ⟨-, -, h⟩)
      · exact absurd ⟨w, hw, hlt⟩ noWord
      · exact absurd ⟨x, hx, hcovers⟩ noWrite
      · exact h

end

/-! ## Checks 2 and 3: the areas -/

section
variable (s : State) (su : Setup)

/-- The fields of the areas stand in their order (R61). -/
theorem Setup.areaMap_rising : (su.areaMap.map (·.field)).Pairwise (· ≤ ·) := by
  have hregional : ∀ x ∈ (((List.finRange 12).filter (fun r => su.regions[r].enabled)).flatMap (fun r =>
      [Path.a, Path.b].map (fun p => Extent.mk (.regional r p) (su.ringBase (.regional r p)) (su.rs * 256) 0x008))).map (·.field),
      x = 0x008 := by
    simp only [List.mem_map, List.mem_flatMap]
    rintro x ⟨e, ⟨r, -, p, -, rfl⟩, rfl⟩
    rfl
  have hview : ∀ x ∈ (((List.finRange 32).filter (fun f => su.feeds[f].enabled)).map (fun f =>
      Extent.mk (.view f) (su.viewBaseOf f) (su.nr * 256) 0x010)).map (·.field), x = 0x010 := by
    simp only [List.mem_map]
    rintro x ⟨e, ⟨f, -, rfl⟩, rfl⟩
    rfl
  have constant : ∀ (l : List Nat) (c : Nat), (∀ x ∈ l, x = c) → l.Pairwise (· ≤ ·) := fun l c h =>
    List.pairwise_of_forall_mem_list fun x hx y hy => (h x hx).trans (h y hy).symm |>.le
  simp only [Setup.areaMap, List.map_append, List.pairwise_append, List.map_cons, List.map_nil, List.mem_append,
    List.mem_singleton, List.pairwise_singleton, true_and]
  refine ⟨⟨⟨constant _ _ hregional, ?_⟩, constant _ _ hview, ?_⟩, ?_⟩
  · rintro x rfl y hy
    exact Nat.zero_le _
  · rintro x (rfl | hx) y hy
    · exact Nat.zero_le _
    · rw [hregional x hx, hview y hy]
      omega
  · rintro x ((rfl | hx) | hx) y rfl
    · exact Nat.zero_le _
    · rw [hregional x hx]
      omega
    · rw [hview x hx]
      omega

theorem Setup.rangeFailure_least (s : State) : LeastFailure su.rangeFailure (s.SetupFails su .areaRange) := by
  unfold Setup.rangeFailure
  rw [map_find?_eq_firstFailure]
  refine (leastFailure_firstFailure _ ?_).congr fun o => ?_
  · rw [List.map_map]
    exact su.areaMap_rising
  · simp only [List.mem_map, Prod.mk.injEq, Bool.not_eq_false', Extent.outOfRange, decide_eq_true_eq, State.SetupFails,
      eq_comm (b := o)]

/-- The first extent of a list that overlaps an earlier one. -/
theorem leastFailure_firstOverlap (earlier l : List Extent) (hl : (l.map (·.field)).Pairwise (· ≤ ·)) :
    LeastFailure (firstOverlap earlier l) (fun o => ∃ (i j : Nat) (x y : Extent), i < j ∧ earlier.length ≤ j ∧
      (earlier.reverse ++ l)[i]? = some x ∧ (earlier.reverse ++ l)[j]? = some y ∧
      overlaps x.base x.length y.base y.length = true ∧ o = y.field) := by
  induction l generalizing earlier with
  | nil =>
    refine ⟨fun _ o => ?_, fun o h => by simp [firstOverlap] at h⟩
    rintro ⟨i, j, x, y, -, hj, -, hy, -⟩
    have := (List.getElem?_eq_some_iff.mp hy).1
    simp at this
    omega
  | cons e l ih =>
    obtain ⟨hhead, htail⟩ := List.pairwise_cons.mp hl
    have hshift : (e :: earlier).reverse ++ l = earlier.reverse ++ e :: l := by simp
    have hat : (earlier.reverse ++ e :: l)[earlier.length]? = some e := by
      rw [List.getElem?_append_right (by simp)]
      simp
    have hbefore : ∀ i x, i < earlier.length → (earlier.reverse ++ e :: l)[i]? = some x → x ∈ earlier := fun i x hi hx => by
      rw [List.getElem?_append_left (by simpa using hi)] at hx
      simpa using List.mem_of_getElem? hx
    rw [firstOverlap]
    split
    · next hover =>
      simp only [List.any_eq_true] at hover
      obtain ⟨x, hx, hover⟩ := hover
      refine ⟨fun h => by simp at h, fun o h => ?_⟩
      obtain rfl := Option.some_inj.mp h
      refine ⟨?_, ?_⟩
      · obtain ⟨i, hi, hget⟩ := List.getElem_of_mem (List.mem_reverse.mpr hx)
        have hi' : i < earlier.length := by simpa using hi
        refine ⟨i, earlier.length, x, e, hi', le_rfl, ?_, hat, hover, rfl⟩
        rw [List.getElem?_append_left hi, List.getElem?_eq_getElem hi, hget]
      · rintro o' ⟨i, j, x, y, -, hj, -, hy, -, rfl⟩
        rw [List.getElem?_append_right (by simpa using hj)] at hy
        rcases List.mem_cons.mp (List.mem_of_getElem? hy) with rfl | h
        · exact le_rfl
        · exact hhead _ (List.mem_map_of_mem h)
    · next hover =>
      refine (ih (e :: earlier) htail).congr fun o => ?_
      rw [hshift]
      refine exists_congr fun i => exists_congr fun j => exists_congr fun x => exists_congr fun y => and_congr_right fun hij => ?_
      refine ⟨fun ⟨hj, h⟩ => ⟨by simp at hj; omega, h⟩, fun ⟨hj, hx, hy, hxy, ho⟩ => ⟨?_, hx, hy, hxy, ho⟩⟩
      rcases Nat.lt_or_eq_of_le hj with hj | hj
      · simpa using hj
      · subst hj
        obtain rfl := Option.some_inj.mp (hat.symm.trans hy)
        simp only [List.any_eq_true, not_exists, not_and] at hover
        exact absurd hxy (hover x (hbefore i x hij hx))

theorem State.overlapFailure_least : LeastFailure (s.overlapFailure su) (s.SetupFails su .areaOverlap) := by
  refine (leastFailure_firstOverlap [s.planExtent] su.areaMap su.areaMap_rising).congr fun o => ?_
  show _ ↔ ∃ (i j : Nat) (x y : Extent), i < j ∧ _
  refine exists_congr fun i => exists_congr fun j => exists_congr fun x => exists_congr fun y => and_congr_right fun hij => ?_
  exact and_iff_right (by simp; omega)

end

/-! ## Checks 4 to 10: single fields -/

section
variable (s : State) (su : Setup)

/-- A power of two within a range of exponents (R60 check 4). -/
theorem powerOfTwoIn_iff {a b n : Nat} (hb : b < 16) :
    powerOfTwoIn (2 ^ a) (2 ^ b) n = true ↔ ∃ i, a ≤ i ∧ i ≤ b ∧ n = 2 ^ i := by
  simp only [powerOfTwoIn, Bool.and_eq_true, decide_eq_true_eq, List.any_eq_true, List.mem_range, beq_iff_eq]
  constructor
  · rintro ⟨⟨ha, hb⟩, i, -, rfl⟩
    exact ⟨i, (Nat.pow_le_pow_iff_right (by omega)).mp ha, (Nat.pow_le_pow_iff_right (by omega)).mp hb, rfl⟩
  · rintro ⟨i, ha, hi, rfl⟩
    exact ⟨⟨Nat.pow_le_pow_right (by omega) ha, Nat.pow_le_pow_right (by omega) hi⟩, i, by omega, rfl⟩

theorem inRange_eq_false_iff {lo hi n : Nat} : inRange lo hi n = false ↔ ¬ (lo ≤ n ∧ n ≤ hi) := by simp [inRange]

theorem Setup.sizeFailure_least (s : State) : LeastFailure su.sizeFailure (s.SetupFails su .ringSize) := by
  refine (leastFailure_firstFailure _ (by simp)).congr fun o => ?_
  have hnr := powerOfTwoIn_iff (a := 8) (b := 13) (n := su.nr) (by omega)
  have hrs := powerOfTwoIn_iff (a := 8) (b := 12) (n := su.rs) (by omega)
  have hreport := powerOfTwoIn_iff (a := 6) (b := 12) (n := su.reportSize) (by omega)
  simp only [Nat.reducePow] at hnr hrs hreport
  simp only [List.mem_cons, Prod.mk.injEq, List.not_mem_nil, or_false, eq_comm (a := false), ← Bool.not_eq_true, hnr, hrs,
    hreport, State.SetupFails]

theorem Setup.isIngest_iff {n : Nat} : su.isIngest n = true ↔ ∃ l : Fin 8, n = l.val ∧ su.classOf l = some .ingest := by
  unfold Setup.isIngest
  split
  · next l hl =>
    obtain rfl := toFin?_eq_some_iff.mp hl
    simp [← Fin.ext_iff]
  · next hn =>
    refine iff_of_false (by simp) ?_
    rintro ⟨l, hl, -⟩
    exact absurd (hn.symm.trans (toFin?_eq_some_iff.mpr hl)) (by simp)

theorem Setup.isFeedLane_iff {n : Nat} : su.isFeedLane n = true ↔ n = 0xFF ∨
    ∃ l : Fin 8, n = l.val ∧ su.classOf l = some .emission ∧ su.lanes[l].urgent = true := by
  unfold Setup.isFeedLane
  rw [Bool.or_eq_true, beq_iff_eq]
  refine or_congr Iff.rfl ?_
  split
  · next l hl =>
    obtain rfl := toFin?_eq_some_iff.mp hl
    simp [← Fin.ext_iff]
  · next hn =>
    refine iff_of_false (by simp) ?_
    rintro ⟨l, hl, -⟩
    exact absurd (hn.symm.trans (toFin?_eq_some_iff.mpr hl)) (by simp)

theorem groupModeOf_isSome_eq_false_iff {n : Nat} : (groupModeOf n).isSome = false ↔ 1 < n := by
  match n with
  | 0 => simp [groupModeOf]
  | 1 => simp [groupModeOf]
  | n + 2 => simp [groupModeOf]

theorem laneClassOf_isSome_eq_false_iff {n : Nat} : (laneClassOf n).isSome = false ↔ 3 < n := by
  match n with
  | 0 => simp [laneClassOf]
  | 1 => simp [laneClassOf]
  | 2 => simp [laneClassOf]
  | 3 => simp [laneClassOf]
  | n + 4 => simp [laneClassOf]

theorem Setup.laneFailure_least (s : State) : LeastFailure su.laneFailure (s.SetupFails su .laneRole) := by
  refine (leastFailure_firstFailure _ ?_).congr fun o => ?_
  · simp only [List.map_append, List.map_map, List.map_flatMap]
    refine pairwise_append_of_le (c := 0x181) (pairwise_append_of_le (c := 0x080) (pairwise_append_of_le (c := 0x040) (by simp)
      (pairwise_rising (List.pairwise_lt_finRange 8) fun a b h => by simp; omega) ?_ ?_)
      (pairwise_rising_flatMap (pairwise_finRange_filter _) (fun r => by simp [pathCode]) fun a b h => by
        simp [pathCode]; omega) ?_ ?_)
      (pairwise_rising (pairwise_finRange_filter _) fun a b h => by simp; omega) ?_ ?_
    · simp
    · simp
    · simp only [List.forall_mem_append]
      refine ⟨by simp, ?_⟩
      simp only [List.forall_mem_map, List.mem_finRange, true_imp_iff, Function.comp]
      omega
    · simp only [List.forall_mem_flatMap, List.forall_mem_map, Function.comp]
      omega
    · simp only [List.forall_mem_append, List.forall_mem_flatMap, List.forall_mem_map, List.mem_finRange, true_imp_iff,
        Function.comp]
      refine ⟨⟨by simp, by omega⟩, fun r _ p _ => ?_⟩
      have : pathCode p ≤ 1 := by cases p <;> simp [pathCode]
      omega
    · simp only [List.forall_mem_map, Function.comp]
      omega
  · have hcontrol : ((List.finRange 8).any fun l => su.classOf l == some .control) = false ↔ ∀ l, su.classOf l ≠ some .control := by
      simp
    have hcls : ∀ l : Fin 8, (su.classOf l).isSome = false ↔ 3 < su.lanes[l].cls := fun l => laneClassOf_isSome_eq_false_iff
    have hpath : ∀ r p, (su.isIngest (su.pathLane r p) && su.pathLane r p != su.natLane) = false ↔
        (¬ ∃ l : Fin 8, su.pathLane r p = l.val ∧ su.classOf l = some .ingest) ∨ su.pathLane r p = su.natLane := fun r p => by
      rw [Bool.and_eq_false_iff, ← Bool.not_eq_true, Setup.isIngest_iff, bne_eq_false_iff_eq]
    have hfeed : ∀ n, su.isFeedLane n = false ↔ n ≠ 0xFF ∧
        ¬ ∃ l : Fin 8, n = l.val ∧ su.classOf l = some .emission ∧ su.lanes[l].urgent = true := fun n => by
      rw [← Bool.not_eq_true, Setup.isFeedLane_iff, not_or]
    simp only [List.mem_append, List.mem_map, List.mem_flatMap, List.mem_filter, List.mem_finRange, true_and, List.mem_cons,
      Prod.mk.injEq, List.not_mem_nil, or_false, State.SetupFails, eq_comm (a := false), groupModeOf_isSome_eq_false_iff,
      hcontrol, hcls, hpath, hfeed, ← Bool.not_eq_true (su.isIngest _), Setup.isIngest_iff, or_assoc, eq_comm (b := o), and_assoc]
    refine or_congr Iff.rfl (or_congr Iff.rfl (or_congr Iff.rfl (or_congr Iff.rfl (or_congr Iff.rfl (or_congr ?_ Iff.rfl)))))
    refine exists_congr fun r => ⟨fun ⟨hr, p, _, h⟩ => ⟨p, hr, h⟩, fun ⟨p, hr, h⟩ => ⟨hr, p, ?_, h⟩⟩
    cases p <;> simp

theorem Setup.regionFailure_least (s : State) : LeastFailure su.regionFailure (s.SetupFails su .regionDef) := by
  refine (leastFailure_firstFailure _ ?_).congr fun o => ?_
  · rw [List.map_flatMap]
    exact pairwise_rising_flatMap (pairwise_finRange_filter _) (fun r => by simp) fun a b h => by simp; omega
  · simp only [List.mem_flatMap, List.mem_filter, List.mem_finRange, true_and, List.mem_cons, Prod.mk.injEq, List.not_mem_nil,
      or_false, State.SetupFails, bne_eq_false_iff_eq, decide_eq_false_iff_not, eq_comm (a := false), not_lt]

theorem Setup.zoneOk_iff (z : Fin 24) : su.zoneOk z = true ↔ su.zones[z].region = 0xFF ∨
    ∃ r : Fin 12, su.zones[z].region = r.val ∧ su.regions[r].enabled = true := by
  unfold Setup.zoneOk
  rw [Bool.or_eq_true, beq_iff_eq]
  refine or_congr Iff.rfl ?_
  split
  · next l hl =>
    have hl := toFin?_eq_some_iff.mp hl
    exact ⟨fun h => ⟨l, hl, h⟩, fun ⟨k, hk, h⟩ => by rwa [Fin.ext (hl.symm.trans hk)]⟩
  · next hn =>
    refine iff_of_false (by simp) ?_
    rintro ⟨l, hl, -⟩
    exact absurd (hn.symm.trans (toFin?_eq_some_iff.mpr hl)) (by simp)

theorem Setup.zoneFailure_least (s : State) : LeastFailure su.zoneFailure (s.SetupFails su .zoneDef) := by
  refine (leastFailure_firstFailure _ ?_).congr fun o => ?_
  · rw [List.map_map]
    exact pairwise_rising (pairwise_finRange_filter _) fun a b h => by simp; omega
  · simp only [List.mem_map, Setup.mem_enabledZones, Prod.mk.injEq, State.SetupFails, ← Bool.not_eq_true, Setup.zoneOk_iff,
      not_or, and_assoc, eq_comm (b := o)]

theorem Setup.feedOk_iff (f : Fin 32) : su.feedOk f = true ↔
    ∃ z : Fin 24, su.feeds[f].zone = z.val ∧ su.zones[z].enabled = true := by
  unfold Setup.feedOk
  split
  · next l hl =>
    have hl := toFin?_eq_some_iff.mp hl
    exact ⟨fun h => ⟨l, hl, h⟩, fun ⟨k, hk, h⟩ => by rwa [Fin.ext (hl.symm.trans hk)]⟩
  · next hn =>
    refine iff_of_false (by simp) ?_
    rintro ⟨l, hl, -⟩
    exact absurd (hn.symm.trans (toFin?_eq_some_iff.mpr hl)) (by simp)

theorem Setup.feedFailure_least (s : State) : LeastFailure su.feedFailure (s.SetupFails su .feedDef) := by
  refine (leastFailure_firstFailure _ ?_).congr fun o => ?_
  · rw [List.map_map]
    exact pairwise_rising (pairwise_finRange_filter _) fun a b h => by simp; omega
  · simp only [List.mem_map, List.mem_filter, List.mem_finRange, true_and, Prod.mk.injEq, State.SetupFails,
      ← Bool.not_eq_true, Setup.feedOk_iff, eq_comm (b := o)]

theorem Setup.profileFailure_least (s : State) : LeastFailure su.profileFailure (s.SetupFails su .profileDef) := by
  refine (leastFailure_firstFailure _ ?_).congr fun o => ?_
  · rw [List.map_flatMap]
    exact pairwise_rising_flatMap (List.pairwise_lt_finRange 4) (fun i => by simp) fun a b h => by simp; omega
  · simp only [List.mem_flatMap, List.mem_finRange, true_and, List.mem_cons, Prod.mk.injEq, List.not_mem_nil,
      or_false, State.SetupFails, eq_comm (a := false), inRange_eq_false_iff, decide_eq_false_iff_not]
    refine exists_congr fun i => ?_
    have shift : ∀ n, 0x200 + 8 * i.val + n = 0x200 + n + 8 * i.val := fun n => by omega
    rw [shift, shift, shift]

theorem Setup.timingFailure_least (s : State) : LeastFailure su.timingFailure (s.SetupFails su .timingDef) := by
  refine (leastFailure_firstFailure _ (by simp)).congr fun o => ?_
  simp only [List.mem_cons, Prod.mk.injEq, List.not_mem_nil, or_false, eq_comm (a := false), inRange_eq_false_iff,
    State.SetupFails, Nat.zero_le, true_and, not_le]

end

/-! ## The checks in their order (R60) -/

/-- The checks of a list, each with a code of its own in rising order: the first that fails. -/
theorem firstReason_spec {fails : SetupResult → Nat → Prop} (l : List (SetupResult × Option Nat))
    (hcode : (l.map (·.1.code)).Pairwise (· < ·)) (hl : ∀ x ∈ l, LeastFailure x.2 (fails x.1)) :
    (firstReason l = none ↔ ∀ x ∈ l, ∀ o, ¬ fails x.1 o) ∧
    ∀ reason o, firstReason l = some (reason, o) ↔ reason ∈ l.map (·.1) ∧ fails reason o ∧ (∀ o', fails reason o' → o ≤ o') ∧
      ∀ x ∈ l, x.1.code < reason.code → ∀ o', ¬ fails x.1 o' := by
  induction l with
  | nil => exact ⟨by simp [firstReason], fun reason o => by simp [firstReason]⟩
  | cons x l ih =>
    obtain ⟨first, result⟩ := x
    obtain ⟨hhead, htail⟩ := List.pairwise_cons.mp hcode
    have hfirst : LeastFailure result (fails first) := hl (first, result) (by simp)
    obtain ⟨ihnone, ihsome⟩ := ih htail fun x hx => hl x (by simp [hx])
    have hlater : ∀ x ∈ l, first.code < x.1.code := fun x hx => hhead _ (List.mem_map_of_mem (f := fun x => x.1.code) hx)
    cases result with
    | none =>
      have hpasses := hfirst.passes rfl
      refine ⟨ihnone.trans (by simp [hpasses]), fun reason o => (ihsome reason o).trans ?_⟩
      simp only [List.map_cons, List.mem_cons, forall_eq_or_imp, hpasses, not_false_eq_true, implies_true, true_and]
      refine ⟨fun ⟨hm, h⟩ => ⟨.inr hm, h⟩, fun ⟨hm, h⟩ => ⟨hm.resolve_left ?_, h⟩⟩
      rintro rfl
      exact hpasses o h.1
    | some o₁ =>
      obtain ⟨hfails, hleast⟩ := hfirst.least o₁ rfl
      refine ⟨iff_of_false (by simp [firstReason]) fun h => h (first, some o₁) (by simp) o₁ hfails, fun reason o => ?_⟩
      simp only [firstReason, Option.some.injEq, Prod.mk.injEq]
      constructor
      · rintro ⟨rfl, rfl⟩
        refine ⟨by simp, hfails, hleast, fun x hx hlt => ?_⟩
        rcases List.mem_cons.mp hx with rfl | hx
        · exact absurd hlt (Nat.lt_irrefl _)
        · exact absurd (hlater x hx) (Nat.lt_asymm hlt)
      · rintro ⟨hm, hf, hle, hearlier⟩
        obtain rfl : first = reason := by
          rcases List.mem_cons.mp hm with h | h
          · exact h.symm
          · obtain ⟨x, hx, rfl⟩ := List.mem_map.mp h
            exact absurd hfails (hearlier (first, some o₁) (by simp) (hlater x hx) o₁)
        exact ⟨rfl, Nat.le_antisymm (hleast o hf) (hle o₁ hfails)⟩

/-- Settles O25: validation passes a setup that meets every check, and else names the first that fails and its offset. -/
theorem committedSetupIsValid : Obligations.CommittedSetupIsValid := by
  intro s su
  obtain ⟨hnone, hsome⟩ := firstReason_spec (fails := s.SetupFails su)
    [(.unsettled, s.unsettledAt su), (.areaRange, su.rangeFailure), (.areaOverlap, s.overlapFailure su),
      (.ringSize, su.sizeFailure), (.laneRole, su.laneFailure), (.regionDef, su.regionFailure), (.zoneDef, su.zoneFailure),
      (.feedDef, su.feedFailure), (.profileDef, su.profileFailure), (.timingDef, su.timingFailure)]
    (by simp [SetupResult.code]) (by
      simp only [List.forall_mem_cons, List.not_mem_nil, false_imp_iff, implies_true, and_true]
      exact ⟨s.unsettledAt_least su, su.rangeFailure_least s, s.overlapFailure_least su, su.sizeFailure_least s,
        su.laneFailure_least s, su.regionFailure_least s, su.zoneFailure_least s, su.feedFailure_least s,
        su.profileFailure_least s, su.timingFailure_least s⟩)
  have every : ∀ p : SetupResult → Prop, (p .ok) → ((∀ x ∈ [(SetupResult.unsettled, s.unsettledAt su),
      (.areaRange, su.rangeFailure), (.areaOverlap, s.overlapFailure su), (.ringSize, su.sizeFailure),
      (.laneRole, su.laneFailure), (.regionDef, su.regionFailure), (.zoneDef, su.zoneFailure), (.feedDef, su.feedFailure),
      (.profileDef, su.profileFailure), (.timingDef, su.timingFailure)], p x.1) ↔ ∀ reason, p reason) := fun p hok => by
    simp only [List.forall_mem_cons, List.not_mem_nil, false_imp_iff, implies_true, and_true]
    exact ⟨fun h reason => by cases reason <;> tauto, fun h => by tauto⟩
  have hno : ∀ o, ¬ s.SetupFails su .ok o := fun o h => h
  refine ⟨hnone.trans (every (fun reason => ∀ o, ¬ s.SetupFails su reason o) hno), fun reason o => ?_⟩
  refine (hsome reason o).trans ⟨fun ⟨_, hf, hle, hearlier⟩ => ⟨hf, hle, ?_⟩, fun ⟨hf, hle, hearlier⟩ => ⟨?_, hf, hle, ?_⟩⟩
  · have := (every (fun x => x.code < reason.code → ∀ o', ¬ s.SetupFails su x o') fun _ => hno).mp hearlier
    exact fun earlier o' hlt => this earlier hlt o'
  · cases reason with
    | ok => exact absurd hf (hno o)
    | _ => simp
  · exact (every (fun x => x.code < reason.code → ∀ o', ¬ s.SetupFails su x o') fun _ => hno).mpr
      fun x hlt o' => hearlier x o' hlt

end Sys2Proof.Machine
end

section
/-! COMMIT, and the records that a plan write submits (R55, R62, R63, R72 to R76, R117; sections 12.4 and 12.5). -/

namespace Sys2Proof.Machine

/-! ## The setup block and the window records (sections 12.4 and 12.5) -/

theorem flagAt_iff (m : Memory) (a : Nat) : flagAt m a = true ↔ bigEndian (readByte m) a 1 ≠ 0 := by
  rw [bigEndian_readBytes, flagAt, bne_iff_ne]

theorem setupOfCopy_laidOut (m : Memory) : (setupOfCopy m).LaidOut m := by
  have field := fun a n => (bigEndian_readBytes m a n).symm
  have base : ∀ a, baseAt m a = bigEndian (readByte m) a 8 / 256 * 256 := fun a => by rw [baseAt, field]
  refine ⟨base _, base _, base _, base _, field _ _, field _ _, field _ _, field _ _, field _ _, field _ _, field _ _,
    field _ _, field _ _, field _ _, field _ _, field _ _, field _ _, flagAt_iff m _, field _ _, field _ _, field _ _,
    fun l => ?_, fun r => ?_, fun z => ?_, fun f => ?_, fun i => ?_⟩
  all_goals simp only [setupOfCopy, Fin.getElem_fin, Vector.getElem_ofFn, flagAt_iff, field, and_self]

theorem windowRecAt_laidOut (m : Memory) (w : Fin 64) : (windowRecAt m w).LaidOut m w := by
  have field := fun a n => (bigEndian_readBytes m a n).symm
  have tag : ∀ a, (tagAt m a).toNat = bigEndian (readByte m) a 2 % 4096 := fun a => by
    rw [tagAt, BitVec.toNat_ofNat, bigEndian_readBytes]
  refine ⟨field _ _, field _ _, field _ _, field _ _, field _ _, field _ _, toNat_ofNat_fieldAt _ _ 4 32 (by decide),
    toNat_ofNat_fieldAt _ _ 4 32 (by decide), ?_, fun i h => ?_⟩
  · simp only [windowRecAt, List.length_map, List.length_range]
  · simp only [windowRecAt, List.getElem_map, List.getElem_range, tag, windowOffset, windowTable, Nat.add_assoc, and_self]

/-! ## COMMIT -/

section
variable (u : State) (su : Setup)

theorem State.hand_of_room {s : State} (r : Report) (hconfig : s.isConfig = false) (hflag : s.ps.drainFlag = false)
    (hroom : s.rw.queue.length < 16) : s.hand r = s.enqueue r := by
  simp [State.hand, hconfig, hflag, Config.queueCapacity, hroom]

/-- The setup in force with its result, and the HOLD_STATE report of a HOLD_REQ line that is high (R63, R117). -/
def State.committed (u : State) (su : Setup) : State :=
  let s := (u.commitState su).hand (.setupResult u.command.ticket .ok 0)
  if s.holdReq then s.handPinHold su true else s

theorem State.commitSetup_of_valid (h : u.validateSetup (setupOfCopy u.ps.planCopy) = none) :
    u.commitSetup = u.committed (setupOfCopy u.ps.planCopy) := by
  unfold State.commitSetup
  dsimp only
  rw [h]
  rfl

theorem State.commitSetup_of_failed {reason : SetupResult} {o : Nat}
    (h : u.validateSetup (setupOfCopy u.ps.planCopy) = some (reason, o)) :
    u.commitSetup = u.hand (.setupResult u.command.ticket reason o) := by
  unfold State.commitSetup
  dsimp only
  rw [h]

theorem State.committed_spec : (u.commitState su).SameBut (u.committed su) [.rw] ∧
    (u.committed su).rw = { (u.commitState su).rw with
      queue := { tick := 0, report := .setupResult u.command.ticket .ok 0 } ::
        (if u.holdReq then
          [{ tick := 0, report := .holdState (zoneSetOf su.enabledZones) true .pin (some .hard) }]
        else []) } := by
  have hfirst : (u.commitState su).hand (.setupResult u.command.ticket .ok 0) =
      (u.commitState su).enqueue (.setupResult u.command.ticket .ok 0) := State.hand_of_room _ rfl rfl (by simp [State.commitState])
  have hsame : (u.commitState su).SameBut ((u.commitState su).enqueue (.setupResult u.command.ticket .ok 0)) [.rw] :=
    State.sameBut_rw _ _
  unfold State.committed
  dsimp only
  rw [hfirst]
  by_cases hreq : u.holdReq = true
  · rw [if_pos (show ((u.commitState su).enqueue _).holdReq = true from hreq), if_pos hreq]
    refine ⟨hsame.trans (State.sameBut_hand _ _), ?_⟩
    unfold State.handPinHold
    rw [State.hand_of_room _ rfl rfl (by simp [State.enqueue, State.commitState])]
    rfl
  · rw [if_neg (show ¬ ((u.commitState su).enqueue _).holdReq = true from hreq), if_neg hreq]
    exact ⟨hsame, rfl⟩

end

/-- Every block at a successful COMMIT (R63, R117). -/
theorem State.commitState_spec (u : State) (su : Setup) :
    let b := u.commitState su
    (∀ ring slot, b.entry ring slot = none) ∧ (∀ ring, b.head ring = none) ∧
    (∀ r p, (b.path r p).score = 0 ∧ (b.path r p).health = .unseen ∧ (b.path r p).timer = none) ∧
    (∀ w, (b.window w).status = .empty) ∧
    (∀ z, (b.zone z).status = .national ∧ (b.zone z).commandHold = none ∧
      ((b.zone z).pinHold = true ↔ su.zones[z].enabled = true ∧ u.holdReq = true) ∧
      (b.zone z).conceal = 0 ∧ (b.zone z).timeline = none) ∧
    (∀ f, (b.feed f).status = .detached ∧ (b.feed f).inFlight = none) ∧
    u.SameBut b [.la, .ps, .ic, .zs, .vr, .rg, .tb, .rw] := by
  intro b
  have hic : b.ic = State.reset.ic := rfl
  have hvr : b.vr = State.reset.vr := rfl
  have hwindow : ∀ w, b.window w = State.reset.window w := fun w => rfl
  have hzone : ∀ z, b.zone z = { Zone.reset with pinHold := su.zones[z].enabled && u.holdReq } := fun z =>
    Vector.getElem_ofFn ..
  refine ⟨fun ring slot => State.entry_congr hic ring slot, fun ring => (State.head_congr hic ring).trans (State.head_reset ring),
    fun r p => ?_, fun w => ?_, fun z => ?_, fun f => ?_, fun p hp => ?_⟩
  · rw [State.path_congr hic, State.path_reset]
    exact ⟨rfl, rfl, rfl⟩
  · rw [hwindow, State.window_reset]
    rfl
  · rw [hzone]
    exact ⟨rfl, rfl, by simp, rfl, rfl⟩
  · rw [State.feed_congr hvr, State.feed_reset]
    exact ⟨rfl, rfl⟩
  · cases p <;> first | (exfalso; simp at hp; done) | rfl

/-- Settles O24: a COMMIT reports the check that failed, or brings the setup into force. -/
theorem commitTaken : Obligations.CommitTaken := by
  refine ⟨setupOfCopy_laidOut, fun s l g a h hrun => ?_⟩
  have hexec : exec .commit s = .next (((s.planDone l a).doCommit).finish l g .okay []) :=
    congrArg Host.Outcome.next (h.act _)
  have hcommit : (s.planDone l a).doCommit = (s.planDone l a).commitSetup := by
    simp only [State.doCommit, (s.run_planDone l a).trans hrun]
  rw [hcommit] at hexec
  refine ⟨_, _, s.planLanded_planDone l a, hexec, ?_⟩
  generalize s.planDone l a = u
  dsimp only
  refine ⟨fun reason o hfail => u.commitSetup_of_failed hfail, fun hvalid => ?_⟩
  rw [u.commitSetup_of_valid hvalid]
  generalize setupOfCopy u.ps.planCopy = su
  obtain ⟨hsame, hrw⟩ := u.committed_spec su
  obtain ⟨hentries, hheads, hpaths, hwindows, hzones, hfeeds, hcommit⟩ := u.commitState_spec su
  have hic : (u.committed su).ic = (u.commitState su).ic := hsame .ic (by simp)
  have hzs : (u.committed su).zs = (u.commitState su).zs := hsame .zs (by simp)
  have hvr : (u.committed su).vr = (u.commitState su).vr := hsame .vr (by simp)
  have htb : (u.committed su).tb = (u.commitState su).tb := hsame .tb (by simp)
  refine ⟨hsame .ps (by simp), hsame .la (by simp), fun ring slot => (State.entry_congr hic ring slot).trans (hentries ring slot),
    fun ring => (State.head_congr hic ring).trans (hheads ring), fun r p => ?_, fun w => ?_, fun z => ?_,
    fun f => ?_, congrArg RingGuard.held (hsame .rg (by simp)), ?_⟩
  · rw [State.path_congr hic]
    exact hpaths r p
  · rw [State.window_congr hzs]
    exact hwindows w
  · rw [State.zone_congr hzs]
    exact hzones z
  · rw [State.feed_congr hvr]
    exact hfeeds f
  · rw [htb, hrw]
    refine ⟨rfl, rfl, rfl, rfl, rfl, rfl, rfl, rfl, rfl, rfl, rfl, rfl, rfl, rfl, ?_, hcommit.trans (hsame.mono (by simp))⟩
    rw [State.irqAsserted, hrw]
    simp [State.commitState]

/-! ## Records submitted -/

section
variable (u : State) (l : Fin 9) (w : Fin 64)

theorem State.sameBut_setWindow (x : Window) : u.SameBut (u.setWindow w x) [.zs] := u.sameBut_zs _

/-- A window set with its report: the window, the others, the zones, the report. -/
theorem State.windowReported_spec (x : Window) (news : WindowNews) (reason : Option RejectReason) :
    let t := (u.setWindow w x).handWindowState w news reason
    t.window w = x ∧ (∀ v, v ≠ w → t.window v = u.window v) ∧ (∀ z, t.zone z = u.zone z) ∧
    t.rw = (u.hand (.windowState w (byte (u.windowRec w).regionByte) (u.windowRec w).start news reason)).rw ∧
    u.SameBut t [.zs, .rw] := by
  unfold State.handWindowState
  refine ⟨?_, fun v hv => ?_, fun z => ?_, State.hand_rw_congr _ rfl rfl rfl,
    ((u.sameBut_setWindow w x).mono (by simp)).trans ((State.sameBut_hand _ _).mono (by simp))⟩
  · rw [State.window_hand, State.window_setWindow_eq, if_pos rfl]
  · rw [State.window_hand, State.window_setWindow_eq, if_neg (Ne.symm hv)]
  · rw [State.zone_hand]
    rfl

theorem State.submitRecord_of_not_running (h : u.isRunning = false) : u.submitRecord l w = u.rejectSubmit w .notRunning := by
  unfold State.submitRecord
  split
  · next hrun => simp [State.isRunning, hrun] at h
  · rfl

variable {u} {su : Setup}

theorem State.submitRecord_of_rejected {reason : RejectReason} (hrun : u.ps.run = .running su)
    (h : u.validateSubmit su w l = some reason) : u.submitRecord l w = u.rejectSubmit w reason := by
  simp only [State.submitRecord, hrun, h]

theorem State.submitRecord_of_accepted (hrun : u.ps.run = .running su) (h : u.validateSubmit su w l = none) :
    u.submitRecord l w = u.acceptSubmit w := by
  simp only [State.submitRecord, hrun, h]

end

/-- What the examination of a record sets its window to, and what it leaves of the rest (R72, R75). -/
theorem State.submitRecord_spec (u : State) (l : Fin 9) (w : Fin 64) :
    (((u.submitRecord l w).window w).status = .rejected ∨
      (u.isRunning = true ∧ ((u.submitRecord l w).window w).status = .pending ∧
        ∀ z : Fin 24, ((u.submitRecord l w).window w).outcomes[z] = none)) ∧
    (∀ v, v ≠ w → (u.submitRecord l w).window v = u.window v) ∧ (∀ z, (u.submitRecord l w).zone z = u.zone z) ∧
    u.SameBut (u.submitRecord l w) [.zs, .rw] := by
  have rejected : ∀ reason, ((u.rejectSubmit w reason).window w).status = .rejected ∧
      (∀ v, v ≠ w → (u.rejectSubmit w reason).window v = u.window v) ∧
      (∀ z, (u.rejectSubmit w reason).zone z = u.zone z) ∧ u.SameBut (u.rejectSubmit w reason) [.zs, .rw] := fun reason => by
    obtain ⟨hw, hv, hz, -, hsame⟩ := u.windowReported_spec w { u.window w with status := .rejected } .rejected (some reason)
    exact ⟨congrArg Window.status hw, hv, hz, hsame⟩
  cases hrunning : u.isRunning with
  | false =>
    rw [u.submitRecord_of_not_running l w hrunning]
    obtain ⟨hw, hrest⟩ := rejected .notRunning
    exact ⟨.inl hw, hrest⟩
  | true =>
    obtain ⟨su, hrun⟩ : ∃ su, u.ps.run = .running su := by
      cases hr : u.ps.run with
      | running su => exact ⟨su, rfl⟩
      | _ => simp [State.isRunning, hr] at hrunning
    cases hvalid : u.validateSubmit su w l with
    | some reason =>
      rw [State.submitRecord_of_rejected l w hrun hvalid]
      obtain ⟨hw, hrest⟩ := rejected reason
      exact ⟨.inl hw, hrest⟩
    | none =>
      rw [State.submitRecord_of_accepted l w hrun hvalid]
      obtain ⟨hw, hv, hz, -, hsame⟩ := u.windowReported_spec w { Window.reset with status := .pending } .pending none
      exact ⟨.inr ⟨rfl, congrArg Window.status hw, fun z => (congrArg (·.outcomes[z]) hw).trans (Window.outcomes_reset z)⟩, hv, hz, hsame⟩

/-- Records examined one after the other: each window that is examined, and all else (R76). -/
theorem State.submitRecords_spec (u : State) (l : Fin 9) (ws : List (Fin 64)) (hws : ws.Nodup) :
    let v := ws.foldl (fun t w => t.submitRecord l w) u
    (∀ w ∈ ws, (v.window w).status = .rejected ∨
      (u.isRunning = true ∧ (v.window w).status = .pending ∧ ∀ z : Fin 24, (v.window w).outcomes[z] = none)) ∧
    (∀ w, w ∉ ws → v.window w = u.window w) ∧ (∀ z, v.zone z = u.zone z) ∧ u.SameBut v [.zs, .rw] := by
  induction ws generalizing u with
  | nil => exact ⟨by simp, fun _ _ => rfl, fun _ => rfl, .refl u _⟩
  | cons w ws ih =>
    obtain ⟨hw, hws⟩ := List.nodup_cons.mp hws
    obtain ⟨hself, hothers, hzones, hsame⟩ := u.submitRecord_spec l w
    obtain ⟨ihin, ihout, ihzones, ihsame⟩ := ih (u.submitRecord l w) hws
    have hrunning : (u.submitRecord l w).isRunning = u.isRunning := by
      simp only [State.isRunning, show (u.submitRecord l w).ps = u.ps from hsame .ps (by simp)]
    refine ⟨fun x hx => ?_, fun x hx => ?_, fun z => (ihzones z).trans (hzones z), hsame.trans ihsame⟩
    · rcases List.mem_cons.mp hx with rfl | hx
      · rw [List.foldl_cons, ihout x hw]
        exact hself
      · rw [← hrunning]
        exact ihin x hx
    · obtain ⟨hxw, hxws⟩ := not_or.mp (List.mem_cons.not.mp hx)
      exact (ihout x hxws).trans (hothers x hxw)

theorem State.mem_submittedRecords (u : State) (r : Request) {w : Fin 64} :
    w ∈ u.submittedRecords r ↔ u.covers r (windowOffset w) 8 = true ∧ (u.windowRec w).action = 1 := by
  simp [State.submittedRecords, State.coveredControls, and_comm]

theorem State.submittedRecords_pairwise (u : State) (r : Request) : (u.submittedRecords r).Pairwise (· < ·) :=
  (pairwise_finRange_filter _).filter _

/-- Settles O22: the records a plan write submits are examined in ascending index, each PENDING or REJECTED with its
report. -/
theorem submitExaminesRecords : Obligations.SubmitExaminesRecords := by
  refine ⟨windowRecAt_laidOut, fun s l g a h => ?_, fun u l w => ?_⟩
  · have hexec : exec .submit s = .next (((s.planDone l a).submitRecords (ext l) a.req).finish l g .okay []) :=
      congrArg Host.Outcome.next (h.act _)
    have hpairwise := (s.planDone l a).submittedRecords_pairwise a.req
    obtain ⟨hin, hout, hzones, hsame⟩ :=
      (s.planDone l a).submitRecords_spec (ext l) _ (hpairwise.imp fun {x y} hxy => Fin.ne_of_lt hxy)
    rw [s.isRunning_planDone l a] at hin
    exact ⟨_, _, s.planLanded_planDone l a, hexec, rfl, hpairwise, fun w => State.mem_submittedRecords _ _, hout, hin, hzones,
      hsame⟩
  · obtain ⟨-, hothers, hzones, hsame⟩ := u.submitRecord_spec l w
    have rejected : ∀ reason, (u.rejectSubmit w reason).window w = { u.window w with status := .rejected } ∧
        (u.rejectSubmit w reason).rw =
          (u.hand (.windowState w (byte (u.windowRec w).regionByte) (u.windowRec w).start .rejected (some reason))).rw :=
      fun reason => by
        obtain ⟨hw, -, -, hrw, -⟩ := u.windowReported_spec w { u.window w with status := .rejected } .rejected (some reason)
        exact ⟨hw, hrw⟩
    refine ⟨hothers, hzones, hsame, fun hrun => ?_, fun su hrun => ⟨fun reason hvalid => ?_, fun hvalid => ?_⟩⟩
    · rw [u.submitRecord_of_not_running l w hrun]
      exact rejected .notRunning
    · rw [State.submitRecord_of_rejected l w hrun hvalid]
      exact rejected reason
    · rw [State.submitRecord_of_accepted l w hrun hvalid]
      obtain ⟨hw, -, -, hrw, -⟩ := u.windowReported_spec w { Window.reset with status := .pending } .pending none
      exact ⟨congrArg Window.status hw, fun z => (congrArg (·.outcomes[z]) hw).trans (Window.outcomes_reset z), hrw⟩

end Sys2Proof.Machine
end

section
/-! A zone's trail after feeds have slipped, and what a view read prepares (R13, R125, R126, R150, R156, R157). -/

namespace Sys2Proof.Machine

/-! ## The least of lasts between trail and horizon (R125, R126) -/

theorem distance_lt_of_atOrBefore {a b : SSN} (h : atOrBefore a b = true) : distance a b < 2 ^ 31 := by
  rcases (atOrBefore_iff a b).mp h with rfl | h
  · simp [distance]
  · have := (precedes_iff a b).mp h
    omega

theorem atOrBefore_of_distance_lt {a b : SSN} (h : distance a b < 2 ^ 31) : atOrBefore a b = true := by
  rw [atOrBefore_iff, precedes_iff]
  rcases Nat.eq_zero_or_pos (distance a b) with h0 | h0
  · exact .inl ((distance_eq_zero_iff a b).mp h0)
  · exact .inr ⟨h0, by omega⟩

/-- A base before its bound keeps what lies between, seen from a member that is no later. -/
theorem between_of_base {base x y bound : SSN} (hx : between base x bound = true) (hy : between base y bound = true)
    (hle : distance base x ≤ distance base y) :
    between x y bound = true ∧ distance x bound ≤ distance base bound := by
  rw [between_iff] at hx hy
  have hspan := distance_lt_of_atOrBefore hx.1
  have hxy := distance_of_base_le hle
  have hxb := distance_of_base_le hx.2
  rw [between_iff]
  exact ⟨⟨atOrBefore_of_distance_lt (by omega), by omega⟩, by omega⟩

/-- The trail recomputed from an SSN: the SSN where it is after the trail, with the runs it passes retired. -/
def Timeline.recomputed (tl : Timeline) (x : SSN) : Timeline :=
  if precedes tl.trail x then { tl with trail := x, log := retire x tl.log } else tl

theorem Timeline.horizon_recomputed (tl : Timeline) (x : SSN) : (tl.recomputed x).horizon = tl.horizon := by
  unfold Timeline.recomputed
  split <;> rfl

theorem Timeline.trail_recomputed (tl : Timeline) (x : SSN) :
    (tl.recomputed x).trail = if precedes tl.trail x then x else tl.trail := by
  unfold Timeline.recomputed
  split <;> rfl

/-- With every last between trail and horizon, the trail recomputed is the least of them, and bounds them in its turn. -/
theorem Timeline.trail_recomputed_of_between {tl : Timeline} {xs : List SSN} {x : SSN} (hx : least xs = some x)
    (h : ∀ y ∈ xs, between tl.trail y tl.horizon = true) :
    (tl.recomputed x).trail = x ∧ x ∈ xs ∧ distance x tl.horizon ≤ distance tl.trail tl.horizon ∧
    ∀ y ∈ xs, between x y tl.horizon = true := by
  cases xs with
  | nil => simp [least] at hx
  | cons first rest =>
    have hspan : ∀ y ∈ first :: rest, distance tl.trail y < 2 ^ 31 := fun y hy => by
      obtain ⟨hbefore, hle⟩ := (between_iff ..).mp (h y hy)
      have := distance_lt_of_atOrBefore hbefore
      omega
    obtain ⟨hmem, hle⟩ := foldl_lesser_nearest rest first hspan
    obtain rfl : rest.foldl lesser first = x := by simpa [least] using hx
    refine ⟨?_, hmem, (between_of_base (h _ hmem) (h _ hmem) le_rfl).2, fun y hy =>
      (between_of_base (h _ hmem) (h y hy) (hle y hy)).1⟩
    rw [Timeline.trail_recomputed]
    split
    · rfl
    · next hno =>
      rcases (atOrBefore_iff ..).mp (atOrBefore_of_distance_lt (hspan _ hmem)) with heq | hp
      · exact heq
      · exact absurd hp hno

/-! ## A slip that leaves another feed attached -/

section
variable {s : State} {su : Setup} {z : Fin 24} {f : Fin 32} {reason : FeedReason}

/-- Every attached feed's last lies between its zone's trail and horizon (R125). -/
def State.LastsWithin (s : State) (su : Setup) (z : Fin 24) (tl : Timeline) : Prop :=
  ∀ k q, (s.feed k).status = .attached q → su.feedZone k = some z → between tl.trail q.last tl.horizon = true

theorem State.mem_lasts {x : SSN} : x ∈ s.lasts su z ↔ ∃ k q, (s.feed k).status = .attached q ∧ su.feedZone k = some z ∧ q.last = x := by
  simp only [State.lasts, List.mem_filterMap, State.mem_attachedFeeds]
  constructor
  · rintro ⟨k, ⟨hz, q, hq⟩, hx⟩
    exact ⟨k, q, hq, hz, by simpa [hq, FeedStatus.position?] using hx⟩
  · rintro ⟨k, q, hq, hz, rfl⟩
    exact ⟨k, ⟨hz, q, hq⟩, by simp [hq, FeedStatus.position?]⟩

theorem State.LastsWithin.lasts {tl : Timeline} (h : s.LastsWithin su z tl) :
    ∀ y ∈ s.lasts su z, between tl.trail y tl.horizon = true := fun y hy => by
  obtain ⟨k, q, hq, hz, rfl⟩ := State.mem_lasts.mp hy
  exact h k q hq hz

/-- The lasts of a zone that feed `k` has left. -/
theorem State.lasts_slip {k : Fin 32} {q : Position} (hk : (s.feed k).status = .attached q) :
    ((s.attachedFeeds su z).filter (fun j => j != k)).filterMap (fun j => (s.feed j).status.position?.map (·.last)) =
      (s.slip su reason k).lasts su z := by
  have hfeed := fun j => s.feed_slip su reason k j hk
  have hrest : ∀ j, j ≠ k → (s.slip su reason k).feed j = s.feed j := fun j hj => by rw [hfeed, if_neg hj]
  rw [State.lasts, State.attachedFeeds_of_left (s := s) (f := k) (fun p => by simp [hfeed]) hrest]
  exact (State.lasts_of_left hrest).symm

/-- A slip in a zone where another feed stays attached. -/
theorem State.slip_beside {k : Fin 32} {p q : Position} {tl : Timeline} (hk : (s.feed k).status = .attached q)
    (hkz : su.feedZone k = some z) (hf : (s.feed f).status = .attached p) (hfz : su.feedZone f = some z) (hkf : k ≠ f)
    (ht : (s.zone z).timeline = some tl) :
    (∀ j, j ≠ z → (s.slip su reason k).zone j = s.zone j) ∧
    ∃ x, least ((s.slip su reason k).lasts su z) = some x ∧
      ((s.slip su reason k).zone z).timeline = some (tl.recomputed x) := by
  have hslip : s.slip su reason k = s.leaveAttached su k q .slipped reason := by simp only [State.slip, hk]
  obtain ⟨hothers, -, hfollowed⟩ := s.leaveAttached_zones (p := q) (target := .slipped) (reason := reason) hkz (by simp)
  rw [← hslip] at hothers hfollowed
  have hne : (s.attachedFeeds su z).filter (fun j => j != k) ≠ [] :=
    List.ne_nil_of_mem (a := f) (List.mem_filter.mpr ⟨State.mem_attachedFeeds.mpr ⟨hfz, p, hf⟩, by simpa using hkf.symm⟩)
  obtain ⟨x, hx, hzone⟩ := hfollowed hne
  rw [State.lasts_slip hk] at hx
  refine ⟨hothers, x, hx, ?_⟩
  rw [hzone, ht]
  rfl

/-- Feeds of a zone slipped one after the other, another feed staying attached: the horizon stays, and with every last
between trail and horizon the trail becomes the least of those that are left. -/
theorem State.slipAll_beside {feeds : List (Fin 32)} (hn : feeds.Nodup)
    (hfeeds : ∀ k ∈ feeds, k ≠ f ∧ su.feedZone k = some z ∧ ∃ q, (s.feed k).status = .attached q) {p : Position}
    (hf : (s.feed f).status = .attached p) (hfz : su.feedZone f = some z) {tl : Timeline} (ht : (s.zone z).timeline = some tl) :
    let d := s.slipAll su reason feeds
    (∀ j, j ≠ z → d.zone j = s.zone j) ∧
    ∃ td, (d.zone z).timeline = some td ∧ td.horizon = tl.horizon ∧ (feeds = [] → td.trail = tl.trail) ∧
      (s.LastsWithin su z tl → d.LastsWithin su z td ∧ distance td.trail td.horizon ≤ distance tl.trail tl.horizon ∧
        (feeds ≠ [] → least (d.lasts su z) = some td.trail)) := by
  induction feeds generalizing s tl with
  | nil => exact ⟨fun _ _ => rfl, tl, ht, rfl, fun _ => rfl, fun h => ⟨h, le_rfl, fun hne => absurd rfl hne⟩⟩
  | cons k feeds ih =>
    obtain ⟨hk, hn⟩ := List.nodup_cons.mp hn
    obtain ⟨hkf, hkz, q, hq⟩ := hfeeds k (by simp)
    obtain ⟨hothers, x, hx, htime⟩ := s.slip_beside (reason := reason) hq hkz hf hfz hkf ht
    have hfeed := fun j => s.feed_slip su reason k j hq
    have hrest : ∀ j, j ≠ k → (s.slip su reason k).feed j = s.feed j := fun j hj => by rw [hfeed, if_neg hj]
    obtain ⟨hzones, td, htd, hhorizon, hnone, hwithin⟩ := ih (s := s.slip su reason k) hn
      (fun j hj => by
        obtain ⟨hjf, hjz, hattached⟩ := hfeeds j (by simp [hj])
        rw [hrest j fun e => hk (e ▸ hj)]
        exact ⟨hjf, hjz, hattached⟩)
      (by rw [hrest f hkf.symm]; exact hf) htime
    refine ⟨fun j hj => (hzones j hj).trans (hothers j hj), td, htd, hhorizon.trans (Timeline.horizon_recomputed tl x),
      fun hc => absurd hc (by simp), fun h => ?_⟩
    have hstay : (s.slip su reason k).LastsWithin su z tl := fun j r hj hz => by
      by_cases hjk : j = k
      · rw [hfeed, if_pos hjk] at hj
        simp at hj
      · exact h j r (by rw [← hrest j hjk]; exact hj) hz
    obtain ⟨htrail, -, hdist, hbounds⟩ := Timeline.trail_recomputed_of_between hx hstay.lasts
    have hnext : (s.slip su reason k).LastsWithin su z (tl.recomputed x) := fun j r hj hz => by
      rw [htrail, Timeline.horizon_recomputed]
      exact hbounds _ (State.mem_lasts.mpr ⟨j, r, hj, hz, rfl⟩)
    obtain ⟨hlast, hle, hleast⟩ := hwithin hnext
    rw [htrail, Timeline.horizon_recomputed] at hle
    refine ⟨hlast, hle.trans hdist, fun _ => ?_⟩
    by_cases hempty : feeds = []
    · subst hempty
      rw [hnone rfl, htrail]
      exact hx
    · exact hleast hempty

end

/-! ## What a view read prepares (R157 step 1) -/

section
variable {s : State} {su : Setup} {z : Fin 24} {f : Fin 32} {n : SSN} {reread : Bool}

/-- The feeds that the spread rule slips for a read (R156). -/
def State.SpreadSlips (s : State) (su : Setup) (z : Fin 24) (f : Fin 32) (n : SSN) (reread : Bool) (tl : Timeline)
    (k : Fin 32) : Prop :=
  reread = false ∧ precedes tl.horizon n = true ∧ su.spreadMax < (n - tl.trail).toNat ∧ k ≠ f ∧ su.feedZone k = some z ∧
    ∃ q, (s.feed k).status = .attached q ∧ precedes q.last (n - BitVec.ofNat 32 su.spreadMax) = true

/-- The same as a list, in ascending number. -/
def State.spreadSlips (s : State) (su : Setup) (z : Fin 24) (f : Fin 32) (n : SSN) (reread : Bool) (tl : Timeline) :
    List (Fin 32) :=
  if reread = false ∧ precedes tl.horizon n = true ∧ su.spreadMax < (n - tl.trail).toNat then s.laggards su z f n else []

theorem State.mem_spreadSlips {tl : Timeline} {k : Fin 32} :
    k ∈ s.spreadSlips su z f n reread tl ↔ s.SpreadSlips su z f n reread tl k := by
  unfold State.spreadSlips State.SpreadSlips
  split
  · next h =>
    obtain ⟨h1, h2, h3⟩ := h
    rw [State.mem_laggards]
    exact ⟨fun h => ⟨h1, h2, h3, h⟩, fun ⟨_, _, _, h⟩ => h⟩
  · next h => exact iff_of_false (by simp) fun ⟨h1, h2, h3, _⟩ => h ⟨h1, h2, h3⟩

theorem State.spreadSlips_nodup {tl : Timeline} : (s.spreadSlips su z f n reread tl).Nodup := by
  unfold State.spreadSlips
  split
  · exact State.laggards_pairwise.imp fun h => Fin.ne_of_lt h
  · exact List.nodup_nil

theorem State.prepareRead_eq {tl : Timeline} (ht : (s.zone z).timeline = some tl) : s.prepareRead su z f n reread =
    if reread = false ∧ precedes tl.horizon n = true then
      (s.slipAll su .spread (s.spreadSlips su z f n reread tl)).decideTo su z n
    else s.slipAll su .spread (s.spreadSlips su z f n reread tl) := by
  have hcond : (!reread && precedes tl.horizon n) = true ↔ reread = false ∧ precedes tl.horizon n = true := by simp
  simp only [State.prepareRead, ht, hcond]
  split
  · next h =>
    congr 1
    rw [State.spreadRule_eq ht, State.spreadSlips]
    by_cases hs : su.spreadMax < (n - tl.trail).toNat
    · rw [if_pos hs, if_pos ⟨h.1, h.2, hs⟩]
    · rw [if_neg hs, if_neg fun c => hs c.2.2]
      rfl
  · next h =>
    rw [State.spreadSlips, if_neg fun c => h ⟨c.1, c.2.1⟩]
    rfl

theorem State.sameBut_slipAll (s : State) (su : Setup) (reason : FeedReason) (feeds : List (Fin 32)) :
    s.SameBut (s.slipAll su reason feeds) [.zs, .vr, .rw] := (s.scheduled_slipAll su reason feeds).sameBut

/-- The zone, the feeds and all else after what a view read prepares. -/
theorem State.prepareRead_spec {p : Position} {tl : Timeline} (hf : (s.feed f).status = .attached p)
    (hfz : su.feedZone f = some z) (ht : (s.zone z).timeline = some tl) :
    let d := s.prepareRead su z f n reread
    (∃ td, (d.zone z).timeline = some td ∧
      td.horizon = (if reread = false ∧ precedes tl.horizon n = true then n else tl.horizon) ∧
      ((∀ k, ¬ s.SpreadSlips su z f n reread tl k) → td.trail = tl.trail) ∧
      (s.LastsWithin su z tl → d.LastsWithin su z { td with horizon := tl.horizon } ∧
        distance td.trail tl.horizon ≤ distance tl.trail tl.horizon ∧
        ((∃ k, s.SpreadSlips su z f n reread tl k) → least (d.lasts su z) = some td.trail))) ∧
    (∀ k, (s.SpreadSlips su z f n reread tl k →
        d.feed k = { status := .slipped, inFlight := (s.feed k).inFlight.map InFlight.uncounted }) ∧
      (¬ s.SpreadSlips su z f n reread tl k → d.feed k = s.feed k)) ∧
    (∀ k, k ≠ z → d.zone k = s.zone k) ∧ s.SameBut d [.zs, .vr, .rw] := by
  intro d
  have hslips := fun k => State.mem_spreadSlips (s := s) (su := su) (z := z) (f := f) (n := n) (reread := reread) (tl := tl) (k := k)
  have hd : d = _ := State.prepareRead_eq ht
  have hfeed := s.feed_slipAll su .spread (s.spreadSlips su z f n reread tl) State.spreadSlips_nodup fun k hk => by
    obtain ⟨-, -, -, -, -, q, hq, -⟩ := (hslips k).mp hk
    exact ⟨q, hq⟩
  obtain ⟨hzones, tu, htu, hhorizon, hnone, hwithin⟩ := s.slipAll_beside (reason := .spread) State.spreadSlips_nodup
    (fun k hk => by
      obtain ⟨-, -, -, hkf, hkz, q, hq, -⟩ := (hslips k).mp hk
      exact ⟨hkf, hkz, q, hq⟩) hf hfz ht
  have hsame := s.sameBut_slipAll su .spread (s.spreadSlips su z f n reread tl)
  have hempty : s.spreadSlips su z f n reread tl = [] ↔ ∀ k, ¬ s.SpreadSlips su z f n reread tl k := by
    rw [List.eq_nil_iff_forall_not_mem]
    exact forall_congr' fun k => not_congr (hslips k)
  have hsome : s.spreadSlips su z f n reread tl ≠ [] ↔ ∃ k, s.SpreadSlips su z f n reread tl k := by
    rw [Ne, hempty, not_forall_not]
  rw [← hsome, ← hempty]
  generalize s.slipAll su .spread (s.spreadSlips su z f n reread tl) = u at *
  have feeds : ∀ v : State, v.vr = u.vr → ∀ k, (s.SpreadSlips su z f n reread tl k →
        v.feed k = { status := .slipped, inFlight := (s.feed k).inFlight.map InFlight.uncounted }) ∧
      (¬ s.SpreadSlips su z f n reread tl k → v.feed k = s.feed k) := fun v hv k => by
    rw [State.feed_congr hv, hfeed]
    exact ⟨fun h => if_pos ((hslips k).mpr h), fun h => if_neg ((hslips k).not.mpr h)⟩
  rw [hd]
  split
  · next h =>
    have hdecided := u.zoned_decideTo su z n
    obtain ⟨-, td, htd, hth, htt⟩ := State.decideTo_spec htu (n := n) (su := su) (by rw [hhorizon]; exact h.2)
    have hlasts : (u.decideTo su z n).lasts su z = u.lasts su z := by
      simp only [State.lasts, State.attachedFeeds, State.feed_congr hdecided.vr]
    refine ⟨⟨td, htd, hth, fun he => htt.trans (hnone he), fun hw => ?_⟩, feeds _ hdecided.vr,
      fun k hk => (u.zone_decideTo_of_ne su n hk).trans (hzones k hk), hsame.trans (hdecided.sameBut.mono (by simp))⟩
    obtain ⟨hlast, hle, hleast⟩ := hwithin hw
    rw [hhorizon] at hle
    refine ⟨fun k q hq hz => ?_, by rw [htt]; exact hle, fun hne => by rw [hlasts, htt]; exact hleast hne⟩
    show between td.trail q.last tl.horizon = true
    rw [htt, ← hhorizon]
    exact hlast k q (by rw [← hq, State.feed_congr hdecided.vr]) hz
  · next h =>
    refine ⟨⟨tu, htu, hhorizon, hnone, fun hw => ?_⟩, feeds u rfl, hzones, hsame⟩
    obtain ⟨hlast, hle, hleast⟩ := hwithin hw
    rw [hhorizon] at hle
    refine ⟨fun k q hq hz => ?_, hle, hleast⟩
    show between tu.trail q.last tl.horizon = true
    rw [← hhorizon]
    exact hlast k q hq hz

end

end Sys2Proof.Machine
end

section
/-! View reads served: content, the null cell answered at once, and the ring cell that is read (R126, R129, R143, R144,
R156 to R159, R161, R172). -/

namespace Sys2Proof.Machine

/-! ## Content and origin (R143, R144, R159) -/

section
variable {s : State} {su : Setup} {z : Fin 24} {n : SSN}

theorem State.contentFor_of_none (h : s.queryRun z n = none) : s.contentFor su z n = (.null, false) := by
  simp only [State.contentFor, h]

theorem State.contentFor_of_run {run : Run} (h : s.queryRun z n = some run) : s.contentFor su z n =
    (s.servedContent su z run n, ((s.servedContent su z run n).tag?.map (fun t => run.breakFalls t n)).getD false) := by
  simp only [State.contentFor, h]

theorem Served.tag?_eq_some_iff {x : Served} {tag : Tag} :
    x.tag? = some tag ↔ x = .national tag ∨ ∃ p, x = .regional p tag := by
  cases x <;> simp [Served.tag?]

theorem Served.origin_regional {r : Fin 12} (h : su.zoneRegion z = some r) (p : Path) (tag : Tag) :
    Served.origin su z (.regional p tag) = some (.regional r p, some tag) := by
  simp [Served.origin, h]

/-- Moving a feed on leaves what an SSN's content is made of. -/
theorem State.moveNext_eq (s : State) (f : Fin 32) (n : SSN) (reread : Bool) :
    s.moveNext f n reread = { s with vr := (s.moveNext f n reread).vr } := by
  unfold State.moveNext
  repeat' split
  all_goals rfl

theorem State.contentFor_moveNext (f : Fin 32) (m : SSN) (reread : Bool) :
    (s.moveNext f m reread).contentFor su z n = s.contentFor su z n := by
  rw [s.moveNext_eq f m reread]
  rfl

theorem State.feed_moveNext {f : Fin 32} {p : Position} {reread : Bool} (hp : (s.feed f).status = .attached p) (k : Fin 32) :
    (s.moveNext f n reread).feed k =
      if k = f then { s.feed f with status := .attached { p with next := if reread then p.next else n + 1 } } else s.feed k := by
  simp only [State.moveNext, hp]
  cases reread with
  | true =>
    rw [if_pos rfl]
    by_cases hk : k = f
    · subst hk
      rw [if_pos rfl, if_pos rfl, ← hp]
    · rw [if_neg hk]
  | false =>
    rw [if_neg (by simp), State.feed_setFeed_eq]
    simp only [eq_comm, Bool.false_eq_true, if_false]

end

/-! ## An answer given at once (R19, R28) -/

section
variable (v : State) (l : Fin 8) (x : Response)

/-- A response delivered at once: its lane idle and without a reservation, the port settled. -/
theorem State.answer_spec :
    let t := v.answer l x.status x.data
    t.la.responses[l] = some x ∧ t.lane (ext l) = .idle ∧ (∀ y, t.la.port = .reserved y → y.lane ≠ ext l) ∧
    (∀ k, k ≠ ext l → v.LaneOrGranted t k) ∧ t.SettledFrom (v.la.delivered l x (v.la.port.without (ext l))) ∧
    v.SameBut t [.la] := by
  intro t
  have herase := State.arbitrated_endReservation ((v.setLane (ext l) .idle).respond l x) (ext l)
  have hsettle := State.arbitrated_settlePort (((v.setLane (ext l) .idle).respond l x).endReservation (ext l))
  have hlanes : ∀ k, (((v.setLane (ext l) .idle).respond l x).endReservation (ext l)).lane k =
      (v.setLane (ext l) .idle).lane k := fun k => by
    show (((v.setLane (ext l) .idle).respond l x).endReservation (ext l)).la.lanes[k] = _
    rw [State.la_endReservation]
    rfl
  have hgrants := State.settlePort_lanes (((v.setLane (ext l) .idle).respond l x).endReservation (ext l))
  refine ⟨?_, ?_, fun y hy => ?_, fun k hk => ?_, State.settledFrom_settlePort _ _ (State.la_endReservation _ _), ?_⟩
  · refine (congrArg (·[l]) (herase.trans hsettle).responses).trans ?_
    exact Vector.getElem_set_self ..
  · have := hgrants (ext l)
    rw [State.LaneOrGranted, hlanes, show (v.setLane (ext l) .idle).lane (ext l) = .idle from Vector.getElem_set_self ..] at this
    exact LaneState.idle_or_granted this
  · exact State.endReservation_port _ _ y (State.settlePort_reserved _ y hy)
  · have := hgrants k
    rwa [State.LaneOrGranted, hlanes, v.lane_setLane_of_ne _ (Ne.symm hk)] at this
  · exact (v.sameBut_la _).trans (herase.trans hsettle).sameBut

end

/-! ## Serving a view read (R157 to R159) -/

theorem State.LaneOrGranted.trans {a b c : State} {k : Fin 9} (h : a.LaneOrGranted b k) (h' : b.LaneOrGranted c k) :
    a.LaneOrGranted c k := by
  rcases h with h | ⟨q, hq, hactive⟩
  · rcases h' with h' | ⟨q, hq, hactive⟩
    · exact .inl (h'.trans h)
    · exact .inr ⟨q, h.symm.trans hq, hactive⟩
  · rcases h' with h' | ⟨q', hq', -⟩
    · exact .inr ⟨q, hq, h'.trans hactive⟩
    · rw [hactive] at hq'
      simp at hq'

section
variable {s0 d : State} {su : Setup} {l : Fin 8} {f : Fin 32} {z : Fin 24} {p : Position} {n : SSN} {reread : Bool}
  {td : Timeline}

/-- The feed that reads, once its next has moved on. -/
def Position.movedOn (p : Position) (n : SSN) (reread : Bool) : Position :=
  { p with next := if reread then p.next else n + 1 }

/-- A null cell completes the read (R158, R161): the zone and the feeds. -/
theorem State.completed_spec (hf : (d.feed f).status = .attached p) (hz : su.feedZone f = some z)
    (htd : (d.zone z).timeline = some td) :
    let y := (d.moveNext f n reread).completeFeed su f n
    (∀ k, y.feed k = if k = f then { d.feed f with status := .attached { p.movedOn n reread with
        last := n, readDone := true, readSincePulse := true } } else d.feed k) ∧
    (∀ k, k ≠ z → y.zone k = d.zone k) ∧ (∀ w, y.window w = d.window w) ∧
    (∃ x, least ((d.attachedFeeds su z).filterMap (fun k =>
        if k = f then some n else (d.feed k).status.position?.map (·.last))) = some x ∧
      y.zone z = { d.zone z with timeline := some (td.recomputed x) }) ∧
    ({ d with vr := y.vr } : State).TrailFollowed y su z ∧ d.SameBut y [.zs, .vr] := by
  intro y
  have hmoved := State.feed_moveNext (n := n) (reread := reread) hf
  have hf' : ((d.moveNext f n reread).feed f).status = .attached (p.movedOn n reread) := by rw [hmoved, if_pos rfl]; rfl
  have hrest : ∀ k, k ≠ f → (d.moveNext f n reread).feed k = d.feed k := fun k hk => by rw [hmoved, if_neg hk]
  have hfeed := State.feed_completeFeed (n := n) hf' hz
  obtain ⟨hzones, hwindows, x, hx, hzone⟩ := State.completeFeed_zones (n := n) hf' hz
  have hfollowed := State.trailFollowed_completeFeed (d.moveNext f n reread) su f z n _ hf' hz
  obtain ⟨hattached, -⟩ := State.attachedFeeds_of_moved hf hf' hrest su z
  have heq := d.moveNext_eq f n reread
  have hzs : (d.moveNext f n reread).zs = d.zs := by rw [heq]
  refine ⟨fun k => ?_, fun k hk => ?_, fun w => ?_, ⟨x, ?_, ?_⟩, ?_, ?_⟩
  · rw [hfeed k, hmoved f, if_pos rfl]
    split
    · rfl
    · next hk => exact hrest k hk
  · rw [hzones k hk, State.zone_congr hzs]
  · rw [hwindows w, State.window_congr hzs]
  · rw [← hx, hattached]
    refine congrArg least (List.filterMap_congr fun k _ => ?_)
    by_cases hk : k = f
    · rw [if_pos hk, if_pos hk]
    · rw [if_neg hk, if_neg hk, hrest k hk]
  · rw [hzone, State.zone_congr hzs, htd]
    rfl
  · have hsame : ({ d.moveNext f n reread with vr := y.vr } : State) = { d with vr := y.vr } := by rw [heq]
    rw [← hsame]
    exact hfollowed
  · have hmove : d.SameBut (d.moveNext f n reread) [.vr] := by
      rw [heq]
      exact d.sameBut_vr _
    exact (hmove.mono (by simp)).trans (State.sameBut_completeFeed _ su f n)

/-- The access of a redirected read (R159). -/
def Setup.redirectAccess (su : Setup) (f : Fin 32) (n : SSN) (link : Bool) (ring : RingId) : Access :=
  { req := { addr := BitVec.ofNat 36 (su.slotAddr ring (su.slotOf ring n)), body := .read 256, link := link }
    kind := .view f }

/-- A ring cell is read (R159): the feeds, the lanes and the rest, the port settled. -/
theorem State.redirected_spec {s : State} {r : Request} (hla : d.la = (s.setLane (ext l) (.taken r)).la)
    (hf : (d.feed f).status = .attached p) (link : Bool) (ring : RingId) (tag : Option Tag) (brk : Bool) :
    let y := ((d.moveNext f n reread).redirect su l f n link ring tag brk).settlePort
    (∀ k, y.feed k = if k = f then
        { status := .attached (p.movedOn n reread)
          inFlight := some { ssn := n, ring := ring, addr := (su.redirectAccess f n link ring).req.addr, patchTag := tag,
                             setBreak := brk, counting := true } }
      else d.feed k) ∧
    s.PresentedAs y l (su.redirectAccess f n link ring) ∧ d.SameBut y [.la, .vr] := by
  intro y
  have hmoved := State.feed_moveNext (n := n) (reread := reread) hf
  have heq := d.moveNext_eq f n reread
  have hla' : (d.moveNext f n reread).la = (s.setLane (ext l) (.taken r)).la := by rw [heq]; exact hla
  have hset : ∀ x, d.SameBut ((d.moveNext f n reread).setFeed f x) [.vr] := fun x => by
    have hmove : d.SameBut (d.moveNext f n reread) [.vr] := by
      rw [heq]
      exact d.sameBut_vr _
    exact hmove.trans (State.sameBut_setFeed _ f x)
  have hpresent : ∀ x : State, x.SameBut (x.present (ext l) (su.redirectAccess f n link ring)).settlePort [.la] := fun x =>
    (x.sameBut_la _).trans (State.arbitrated_settlePort _).sameBut
  refine ⟨fun k => ?_, ?_, ((hset _).mono (by simp)).trans ((hpresent _).mono (by simp))⟩
  · refine (State.feed_congr (hpresent _ .vr (by simp)) k).trans ?_
    rw [State.feed_setFeed_eq]
    by_cases hk : k = f
    · subst hk
      rw [if_pos rfl, if_pos rfl, hmoved, if_pos rfl]
      rfl
    · rw [if_neg (Ne.symm hk), if_neg hk, hmoved, if_neg hk]
  · exact State.presentedAs_of_taken (y := (d.moveNext f n reread).setFeed f _) hla' _

end

/-- A view read served from `d`, what step 1 of R157 prepared: the state `y` that the read leaves, the held list examined
to `v`, and the state `t` at the end. -/
structure State.ReadServed (s d y v t : State) (su : Setup) (l : Fin 8) (f : Fin 32) (z : Fin 24) (p : Position) (n : SSN)
    (reread link : Bool) (r : Request) (td : Timeline) (content : Served × Bool) : Prop where
  feeds : ∀ k, k ≠ f → y.feed k = d.feed k
  zones : ∀ k, k ≠ z → y.zone k = d.zone k
  windows : ∀ w, y.window w = d.window w
  frame : d.SameBut y [.la, .zs, .vr]
  zone : ∃ ty, y.zone z = { d.zone z with timeline := some ty } ∧ ty.horizon = td.horizon ∧
    (content.1.origin su z = none → ∃ x, least ((d.attachedFeeds su z).filterMap (fun k =>
        if k = f then some n else (d.feed k).status.position?.map (·.last))) = some x ∧
      ty.trail = if precedes td.trail x then x else td.trail) ∧
    (content.1.origin su z ≠ none → ty.trail = td.trail)
  examined : v = s.examineAfter y su
  ending : v.SameBut t [.la]
  lanesBefore : ∀ k, k ≠ ext l → s.LaneOrGranted y k
  lanesAfter : ∀ k, k ≠ ext l → v.LaneOrGranted t k
  null : content.1.origin su z = none →
    y.la = s.la.withLane l (.taken r) ∧ ({ d with vr := y.vr } : State).TrailFollowed y su z ∧
    t.SettledFrom (v.la.delivered l { status := .okay, data := nullCell n } (v.la.port.without (ext l))) ∧
    t.la.responses[l] = some { status := .okay, data := nullCell n } ∧ t.lane (ext l) = .idle ∧
    (∀ x, t.la.port = .reserved x → x.lane ≠ ext l) ∧
    y.feed f = { d.feed f with
      status := .attached { p.movedOn n reread with last := n, readDone := true, readSincePulse := true } }
  ring : ∀ ring tag, content.1.origin su z = some (ring, tag) →
    y.zs = d.zs ∧ s.PresentedAs y l (su.redirectAccess f n link ring) ∧ v.PortSettled t ∧ t = v.settlePort ∧
    y.feed f =
      { status := .attached (p.movedOn n reread)
        inFlight := some { ssn := n, ring := ring, addr := (su.redirectAccess f n link ring).req.addr, patchTag := tag,
                           setBreak := content.2, counting := true } }

theorem State.examineAfter_congr {s s' : State} (h : s'.zs = s.zs) (t : State) (su : Setup) :
    s'.examineAfter t su = s.examineAfter t su := by
  have hzone : s'.zone = s.zone := funext (State.zone_congr h)
  unfold State.examineAfter State.trailsMoved
  rw [hzone]

section
variable {s : State} {su : Setup} {l : Fin 8} {f : Fin 32} {z : Fin 24} {p : Position} {n : SSN} {reread : Bool}
  {r : Request} {td : Timeline}

/-- A view read that is served, by where its cell comes from. -/
theorem State.serveRead_spec (hz : su.feedZone f = some z) :
    let s0 := s.setLane (ext l) (.taken r)
    let d := s0.prepareRead su z f n reread
    d.la = s0.la → (d.feed f).status = .attached p → (d.zone z).timeline = some td →
    ∃ y v, s.ReadServed d y v (s0.serveRead su l f z r n reread) su l f z p n reread r.link r td (d.contentFor su z n) := by
  intro s0 d hla hf htd
  have hcontent : (d.moveNext f n reread).contentFor su z n = d.contentFor su z n := State.contentFor_moveNext f n reread
  have hserve : s0.serveRead su l f z r n reread =
      match (d.contentFor su z n).1.origin su z with
      | some (ring, tag) => (s0.examineAfter
          ((d.moveNext f n reread).redirect su l f n r.link ring tag (d.contentFor su z n).2).settlePort su).settlePort
      | none => (s0.examineAfter ((d.moveNext f n reread).completeFeed su f n) su).answer l .okay (nullCell n) := by
    rw [← hcontent]
    rfl
  have hs0 : ∀ y : State, s0.examineAfter y su = s.examineAfter y su := fun y => State.examineAfter_congr rfl y su
  have hlanes : ∀ k, k ≠ ext l → d.lane k = s.lane k := fun k hk =>
    (congrArg (fun x : LaneArbiter => x.lanes[k]) hla).trans (s.lane_setLane_of_ne _ (Ne.symm hk))
  cases horigin : (d.contentFor su z n).1.origin su z with
  | none =>
    rw [horigin] at hserve
    obtain ⟨hfeeds, hzones, hwindows, ⟨x, hx, hzone⟩, hfollowed, hsame⟩ :=
      State.completed_spec (n := n) (reread := reread) hf hz htd
    obtain ⟨hresponse, hidle, hport, hgrants, hsettled, hending⟩ :=
      (s0.examineAfter ((d.moveNext f n reread).completeFeed su f n) su).answer_spec l { status := .okay, data := nullCell n }
    refine ⟨_, _, {
      feeds := fun k hk => by rw [hfeeds, if_neg hk]
      zones := hzones
      windows := hwindows
      frame := hsame.mono (by simp)
      zone := ⟨_, hzone, Timeline.horizon_recomputed td x, fun _ => ⟨x, hx, Timeline.trail_recomputed td x⟩,
        fun h => absurd horigin h⟩
      examined := hs0 _
      ending := by rw [hserve]; exact hending
      lanesBefore := fun k hk => .inl ((congrArg (fun x : LaneArbiter => x.lanes[k]) (hsame .la (by simp))).trans (hlanes k hk))
      lanesAfter := fun k hk => by rw [hserve]; exact hgrants k hk
      null := fun _ => ?_
      ring := fun ring tag h => by simp [horigin] at h }⟩
    rw [hserve]
    exact ⟨(hsame .la (by simp)).trans hla, hfollowed, hsettled, hresponse, hidle, hport, by rw [hfeeds, if_pos rfl]⟩
  | some origin =>
    obtain ⟨ring, tag⟩ := origin
    rw [horigin] at hserve
    obtain ⟨hfeeds, hpresented, hsame⟩ :=
      State.redirected_spec (su := su) (n := n) (reread := reread) hla hf r.link ring tag (d.contentFor su z n).2
    have hzs := hsame .zs (by simp)
    refine ⟨_, _, {
      feeds := fun k hk => by rw [hfeeds, if_neg hk]
      zones := fun k _ => State.zone_congr hzs k
      windows := fun w => State.window_congr hzs w
      frame := hsame.mono (by simp)
      zone := ⟨td, by rw [State.zone_congr hzs, ← htd], rfl, fun h => by simp [horigin] at h, fun _ => rfl⟩
      examined := hs0 _
      ending := by rw [hserve]; exact (State.arbitrated_settlePort _).sameBut
      lanesBefore := fun k hk => hpresented.others.lanes k hk
      lanesAfter := fun k _ => by rw [hserve]; exact State.settlePort_lanes _ k
      null := fun h => by simp [horigin] at h
      ring := fun ring' tag' h => ?_ }⟩
    obtain ⟨rfl, rfl⟩ : ring = ring' ∧ tag = tag' := by simpa [horigin] using h
    rw [hserve]
    exact ⟨hzs, hpresented, State.portSettled_settlePort _, rfl, by rw [hfeeds, if_pos rfl]⟩

end

/-- Settles O39: the content of an SSN, its ring, and a view read that is served. -/
theorem viewReadServed : Obligations.ViewReadServed := by
  refine ⟨fun s su z n => ⟨State.contentFor_of_none, fun run hrun => ⟨_, State.contentFor_of_run hrun, ?_⟩⟩,
    fun su z tag r p => ⟨rfl, rfl, fun hr => Served.origin_regional hr p tag⟩, ?_⟩
  · simp only [← Served.tag?_eq_some_iff]
    cases (s.servedContent su z run n).tag? with
    | none => simp
    | some tag => exact ⟨fun h => ⟨tag, h, rfl⟩, fun ⟨_, h, e⟩ => Option.some_inj.mp e ▸ h⟩
  · intro s su l f z addr link p n reread tl
    dsimp only
    intro hreq hrun hp hz ht hheld hread
    have hsu : s.setup = some su := by simp [State.setup, hrun, RunState.setup]
    have hexec : exec (.laneRequest l .read addr 256 link []) s =
        .next ((s.setLane (ext l) (.taken (makeRequest .read addr 256 link []))).serveRead su l f z
          (makeRequest .read addr 256 link []) n reread) := by
      refine (hreq.takes.exec ..).trans (congrArg Host.Outcome.next ((hreq.takeRequest hsu rfl).trans ?_))
      exact State.takeViewRead_of_serve (by simp [State.isRunning, State.setLane, hrun]) rfl hp hread hz
    obtain ⟨⟨td, htd, hhorizon, hnone, hwithin⟩, hfeeds, hzones, hprepared⟩ :=
      State.prepareRead_spec (s := s.setLane (ext l) (.taken (makeRequest .read addr 256 link []))) (n := n) (reread := reread)
        hp hz ht
    have hla : ((s.setLane (ext l) (.taken (makeRequest .read addr 256 link []))).prepareRead su z f n reread).la =
        (s.setLane (ext l) (.taken (makeRequest .read addr 256 link []))).la := hprepared .la (by simp)
    have hf : (((s.setLane (ext l) (.taken (makeRequest .read addr 256 link []))).prepareRead su z f n reread).feed f) = s.feed f :=
      (hfeeds f).2 fun h => h.2.2.2.1 rfl
    obtain ⟨y, v, hserved⟩ := State.serveRead_spec (r := makeRequest .read addr 256 link []) (reread := reread) hz hla
      (by rw [hf]; exact hp) htd
    have hbefore := s.sameBut_la (s.setLane (ext l) (.taken (makeRequest .read addr 256 link []))).la
    have hfrom : s.SameBut ((s.setLane (ext l) (.taken (makeRequest .read addr 256 link []))).prepareRead su z f n reread)
        [.la, .zs, .vr, .rw] := State.SameBut.trans (t := s.setLane (ext l) (.taken (makeRequest .read addr 256 link [])))
          (hbefore.mono (by simp)) (hprepared.mono (by simp))
    refine ⟨_, _, hexec, rfl, ?_⟩
    generalize (s.setLane (ext l) (.taken (makeRequest .read addr 256 link []))).prepareRead su z f n reread = d at *
    generalize State.serveRead _ su l f z _ n reread = t at *
    obtain ⟨ty, hty, htyh, htynull, htyring⟩ := hserved.zone
    have hkept := State.examinationKept_examineAfter s y su
    rw [← hserved.examined] at hkept
    have hvr : t.vr = y.vr := (hserved.ending .vr (by simp)).trans (hkept.rest .vr (by simp))
    have htime : ∀ k, (t.zone k).timeline = (y.zone k).timeline := fun k => by
      rw [State.zone_congr (hserved.ending .zs (by simp))]
      exact hkept.timelines k
    have hyrg : y.rg = s.rg := (hserved.frame .rg (by simp)).trans (hfrom .rg (by simp))
    have htz : (t.zone z).timeline = some ty := by rw [htime, hty]
    have hothers : ∀ k, k ≠ z → (y.zone k).timeline = (s.zone k).timeline := fun k hk => by
      rw [hserved.zones k hk, hzones k hk]
      rfl
    have hexamined := State.examineAfter_spec (s := s) (t := y) su hothers fun h => by simp [ht] at h
    rw [← hserved.examined] at hexamined
    have hfree : ∀ h ∈ y.rg.held, ext l ≠ ext h.lane := fun h hh c => by
      have hlane := hheld.1 h (hyrg ▸ hh)
      rw [← c, hreq.takes.idle] at hlane
      simp at hlane
    have hattached : (List.finRange 32).filter (fun k => decide
        ((d.feed k).status.position?.isSome = true ∧ su.feedZone k = some z)) = d.attachedFeeds su z :=
      List.filter_congr fun k _ => by rw [Bool.eq_iff_iff]; simp
    refine ⟨⟨ty, td, htz, htd, htyh.trans hhorizon, hnone, fun hw k hk => ?_, fun served brk hc => ?_⟩,
      fun served brk hc => ⟨fun ho => ?_, fun ring tag ho => ?_⟩, fun k hk => ?_, fun served brk hc => ?_, fun k hk => ?_,
      fun k hk hheldk => ?_, ?_⟩
    · obtain ⟨-, -, hleast⟩ := hwithin hw
      rw [hattached]
      exact hleast ⟨k, hk⟩
    · rw [hc] at htynull htyring
      exact ⟨htynull, htyring⟩
    · obtain ⟨-, -, -, hresponse, hidle, hport, hfeed⟩ := hserved.null (by rw [hc]; exact ho)
      refine ⟨hresponse, hidle, hport, ?_⟩
      rw [State.feed_congr hvr, hfeed, hf]
      rfl
    · obtain ⟨-, hpresented, -, hsettle, hfeed⟩ := hserved.ring ring tag (by rw [hc]; exact ho)
      refine ⟨?_, ?_, ?_⟩
      · have hlane := hpresented.lane
        rw [← hkept.lanes (ext l) hfree] at hlane
        have hgrant := v.settlePort_lanes (ext l)
        rw [← hsettle] at hgrant
        rcases hgrant with h | ⟨q, hq, hactive⟩
        · rw [h]
          exact hlane
        · rcases hlane with h | h
          · rw [h] at hq
            rw [← LaneState.waiting.inj hq] at hactive
            exact .inr hactive
          · rw [h] at hq
            simp at hq
      · rw [hsettle, v.arbitrated_settlePort.responses, hkept.arbiter]
        exact hpresented.response
      · rw [State.feed_congr hvr, hfeed, hc]
        rfl
    · rw [State.feed_congr hvr, hserved.feeds k hk]
      exact hfeeds k
    · refine ⟨y, v, hyrg, (hserved.frame .ic (by simp)).trans (hfrom .ic (by simp)), hvr.symm, hserved.frame,
        hserved.windows, hserved.zones, by rw [htz, hty], hexamined.1, hexamined.2, fun ho => ?_, fun ring tag ho => ?_⟩
      · obtain ⟨hyla, hfollowed, hsettled, -⟩ := hserved.null (by rw [hc]; exact ho)
        exact ⟨hyla, hfollowed, hserved.ending, hsettled⟩
      · obtain ⟨hzs, hpresented, hsettled, -⟩ := hserved.ring ring tag (by rw [hc]; exact ho)
        exact ⟨hzs, hpresented.port, hsettled⟩
    · rw [htime, hothers k hk]
    · have hv : v.lane k = y.lane k := hkept.lanes k fun h hh => hheldk h (hyrg ▸ hh)
      exact (hserved.lanesBefore k hk).trans (State.LaneOrGranted.trans (.inl hv) (hserved.lanesAfter k hk))
    · exact (((hfrom.mono (by simp)).trans (hserved.frame.mono (by simp))).trans (hkept.rest.mono (by simp))).trans
        (hserved.ending.mono (by simp))

end Sys2Proof.Machine
end

section
/-! When the Plan Shadow's copies can be trusted outside RESET_N (R53 to R57): which accesses are safe for them, and
the acts that leave memory, copies and straps as they are. -/

namespace Sys2Proof.Machine

/-! ## Safe requests -/

section
variable {s : State} {r : Request}

theorem Request.apart_of_read {n : Nat} (h : r.body = .read n) (a k : Nat) : r.Apart a k := .inl (by rw [h]; rfl)

theorem Body.length_data_le (b : Body) : b.data.length ≤ b.length := by cases b <;> simp [Body.data, Body.length]

/-- A well-formed request that begins outside the plan area ends outside it: it lies in one block of 256 bytes. -/
theorem State.apart_of_outside (hform : r.formOk = true) (hout : s.planExtent.has r.base = false) :
    r.Apart s.planBase copyEnd := by
  have hdata := r.body.length_data_le
  obtain ⟨_, _, _, _, hblock⟩ := r.formOk_iff.mp hform
  have hplan : ¬ (s.planBase ≤ r.base ∧ r.base < s.planBase + 65536) := fun hin =>
    absurd ((Extent.has_iff s.planExtent r.base).mpr hin) (by simp [hout])
  simp only [State.planBase] at hplan
  simp only [Request.Apart, State.planBase, copyEnd]
  omega

/-- A well-formed plan write has whole words, and the plan area is whole blocks. -/
theorem State.planSafe_of_inside (hform : r.formOk = true) (hin : s.planExtent.has r.base = true)
    (hwrite : ∃ d, r.body = .write d) : Access.PlanSafe s.planBase { req := r, kind := .plan false } := by
  obtain ⟨_, _, hlength, hbase, hblock⟩ := r.formOk_iff.mp hform
  obtain ⟨hlow, hhigh⟩ : s.planBase ≤ r.base ∧ r.base < s.planBase + 65536 := (Extent.has_iff s.planExtent r.base).mp hin
  rw [Access.PlanSafe, if_pos rfl]
  refine ⟨hwrite, hlow, ?_, hbase, hlength⟩
  simp only [State.planBase, planLength] at *
  omega

/-- A write that covers the read index word lies in its block, past the copies. -/
theorem State.apart_of_readIndex (hform : r.formOk = true) (hin : s.planExtent.has r.base = true)
    (hcovers : s.covers r readIndexWord 8 = true) : r.Apart s.planBase copyEnd := by
  obtain ⟨_, _, _, _, hblock⟩ := r.formOk_iff.mp hform
  obtain ⟨hlow, _⟩ : s.planBase ≤ r.base ∧ r.base < s.planBase + 65536 := (Extent.has_iff s.planExtent r.base).mp hin
  have hword : r.base - s.planBase < 8456 ∧ 8448 < r.base - s.planBase + r.body.length ∧ 0 < r.body.length ∧ 0 < 8 :=
    of_decide_eq_true hcovers
  simp only [Request.Apart, State.planBase, copyEnd] at *
  omega

end

theorem Access.planSafe_of_ne {a : Access} {base : Nat} (h : a.kind ≠ .plan false) :
    a.PlanSafe base ↔ a.req.Apart base copyEnd := by
  rw [Access.PlanSafe, if_neg h]

/-! ## Trust in the copies -/

/-- RESET_N is not asserted, and what `PlanSound` asks then. The plan write at lane `off`, which completes, may cover the record of an
open window: its completion submits that record. -/
structure State.PlanTrusted (off : Option (Fin 9)) (s : State) : Prop where
  accesses : ∀ l a, s.Presents l a → a.PlanSafe s.planBase
  held : ∀ h ∈ s.rg.held, h.req.Apart s.planBase copyEnd
  ring : ∀ su, s.setup = some su →
    su.reportBase + 32 * su.reportSize ≤ 2 ^ 36 ∧
    (su.reportBase + 32 * su.reportSize ≤ s.planBase ∨ s.planBase + copyEnd ≤ su.reportBase) ∧
    s.rw.writeIndex < su.reportSize
  known : ∀ w < 1024, w ∉ s.ps.unknown → s.WordAgrees w
  setup : s.isConfig = false → (∀ w < 512, w ∉ s.ps.unknown) ∧ s.NonePending 0 0x1000
  windows : ∀ w, (s.window w).status.open? = true →
    (∀ k ∈ s.ps.unknown, overlaps (windowOffset w) 64 (8 * k) 8 = false) ∧
    ∀ l a, some l ≠ off → s.Presents l a → a.kind.isPlan = true → s.covers a.req (windowOffset w) 64 = false
  rising : RisingKeys s.mem ∧ RisingKeys s.ps.planCopy
  awake : s.resetAsserted = false

theorem State.PlanSound.trusted {s : State} (h : s.PlanSound) (hawake : s.resetAsserted = false) : s.PlanTrusted none where
  accesses := h.accesses
  held := h.held
  ring := h.ring
  known := h.known
  setup := h.setup
  windows := fun w hw => ⟨(h.windows w hw).1, fun l a _ ha hplan => (h.windows w hw).2 l a ha hplan⟩
  rising := h.rising
  awake := hawake

/-- Outside RESET_N the trust is all of `PlanSound`. -/
theorem State.PlanTrusted.sound {s : State} (h : s.PlanTrusted none) : s.PlanSound where
  accesses := h.accesses
  held := h.held
  ring := h.ring
  known := h.known
  setup := h.setup
  windows := fun w hw => ⟨(h.windows w hw).1, fun l a ha hplan => (h.windows w hw).2 l a nofun ha hplan⟩
  reset := fun hr => by rw [h.awake] at hr; cases hr
  rising := h.rising

theorem State.PlanTrusted.but {s : State} (h : s.PlanTrusted none) (off : Option (Fin 9)) : s.PlanTrusted off :=
  { h with windows := fun w hw => ⟨(h.windows w hw).1, fun l a _ => (h.windows w hw).2 l a nofun⟩ }

/-- Memory, copies and straps are as before, no window has opened, and what has come to the port or the held list is
safe for the copies and under no lock. -/
structure State.PlanMoved (s t : State) : Prop where
  ac : t.ac = s.ac
  ps : t.ps = s.ps
  mem : t.mem = s.mem
  writeIndex : t.rw.writeIndex = s.rw.writeIndex
  resetAsserted : t.resetAsserted = s.resetAsserted
  opens : ∀ w, (t.window w).status.open? = true → (s.window w).status.open? = true
  held : ∀ h ∈ t.rg.held, h.req.Apart s.planBase copyEnd
  presents : ∀ l a, t.Presents l a →
    s.Presents l a ∨ (a.PlanSafe s.planBase ∧ (a.kind.isPlan = true → s.planLocked a.req = false))

theorem State.PlanTrusted.moved {off : Option (Fin 9)} {s t : State} (h : s.PlanTrusted off) (k : s.PlanMoved t) :
    t.PlanTrusted off := by
  have hbase : t.planBase = s.planBase := by simp only [State.planBase, k.ac]
  have hcovers : ∀ r o n, t.covers r o n = s.covers r o n := fun r o n => by
    simp only [State.covers, State.planOffset, hbase]
  have hunlocked : ∀ r, s.planLocked r = false → (s.isConfig = false → s.covers r 0 4096 = false) ∧
      ∀ w, (s.window w).status.open? = true → s.covers r (windowOffset w) 64 = false := fun r hr => by
    rw [← Bool.not_eq_true, State.planLocked_iff, not_or, not_and, not_exists] at hr
    obtain ⟨hsetup, hwindow⟩ := hr
    exact ⟨fun hc => by simpa using hsetup hc, fun w hw => by simpa using fun hcov => hwindow w ⟨hw, hcov⟩⟩
  refine ⟨fun l a ha => ?_, ?_, ?_, ?_, ?_, fun w hw => ?_, ?_, k.resetAsserted.trans h.awake⟩
  · rw [hbase]
    exact (k.presents l a ha).elim (h.accesses l a) fun hsafe => hsafe.1
  · rw [hbase]
    exact k.held
  · rw [hbase, k.writeIndex, State.setup, k.ps]
    exact h.ring
  · intro w hw hknown i hi
    rw [k.mem, hbase, k.ps]
    exact h.known w hw (k.ps ▸ hknown) i hi
  · rw [k.ps, State.isConfig, k.ps]
    intro hconfig
    obtain ⟨hknown, hpending⟩ := h.setup hconfig
    refine ⟨hknown, fun l a ha hplan => ?_⟩
    rw [hcovers]
    exact (k.presents l a ha).elim (fun hold => hpending l a hold hplan)
      fun hnew => (hunlocked _ (hnew.2 hplan)).1 hconfig
  · obtain ⟨hknown, hpending⟩ := h.windows w (k.opens w hw)
    rw [k.ps]
    refine ⟨hknown, fun l a hl ha hplan => ?_⟩
    rw [hcovers]
    exact (k.presents l a ha).elim (fun hold => hpending l a hl hold hplan)
      fun hnew => (hunlocked _ (hnew.2 hplan)).2 w (k.opens w hw)
  · rw [k.mem, k.ps]
    exact h.rising

/-- The access that completes leaves its lane. -/
theorem State.PlanTrusted.leaves {s : State} {l : Fin 9} (h : s.PlanTrusted (some l)) :
    (s.setLane l .idle).PlanTrusted none := by
  have hold : ∀ k a, (s.setLane l .idle).Presents k a → k ≠ l ∧ s.Presents k a := fun k a ha => by
    unfold State.Presents at *
    rw [State.lane_setLane_eq] at ha
    split at ha
    · cases ha
    · next hne => exact ⟨Ne.symm hne, ha⟩
  exact {
    accesses := fun k a ha => h.accesses k a (hold k a ha).2
    held := h.held
    ring := h.ring
    known := h.known
    setup := fun hc => ⟨(h.setup hc).1, fun k a ha => (h.setup hc).2 k a (hold k a ha).2⟩
    windows := fun w hw => ⟨(h.windows w hw).1, fun k a _ ha =>
      (h.windows w hw).2 k a (by simpa using (hold k a ha).1) (hold k a ha).2⟩
    rising := h.rising
    awake := h.awake }

section
variable {off : Option (Fin 9)} {s t : State}

/-- A write that a held one becomes at its release stays apart from the copies. -/
theorem ReleasedFrom.planSafe {held : List HeldWrite} {l : Fin 9} {a : Access} {base : Nat} (h : ReleasedFrom held l a)
    (hheld : ∀ x ∈ held, x.req.Apart base copyEnd) : a.PlanSafe base ∧ a.kind.isPlan = false := by
  obtain ⟨x, hx, _, hreq, hkind⟩ := h
  rcases hkind with hkind | hkind <;>
    exact ⟨(Access.planSafe_of_ne (by simp [hkind])).mpr (hreq ▸ hheld x hx), by simp [hkind, AccessKind.isPlan]⟩

theorem State.PlanTrusted.acted {held : List HeldWrite} (h : s.PlanTrusted off) (k : Acted held s t)
    (hheld : ∀ x ∈ held, x.req.Apart s.planBase copyEnd) : t.PlanTrusted off :=
  h.moved {
    ac := k.ac
    ps := k.ps
    mem := k.mem
    writeIndex := k.rw.writeIndex
    resetAsserted := k.resetAsserted
    opens := k.opens
    held := fun x hx => by
      obtain ⟨y, hy, _, _, _, _, _, hreq⟩ := k.heldFrom x hx
      exact hreq ▸ h.held y hy
    presents := fun l a ha => (k.presents l a ha).imp id fun hreleased => by
      obtain ⟨hsafe, hplan⟩ := hreleased.planSafe hheld
      exact ⟨hsafe, fun e => by rw [hplan] at e; cases e⟩ }

theorem State.PlanTrusted.acts (h : s.PlanTrusted off) (k : Acted s.rg.held s t) : t.PlanTrusted off := h.acted k h.held

theorem State.PlanTrusted.scheduled (h : s.PlanTrusted off) (k : Scheduled s t) : t.PlanTrusted off :=
  h.acted (k.acted []) (by simp)

theorem State.PlanTrusted.zoned (h : s.PlanTrusted off) (k : Zoned s t) : t.PlanTrusted off := h.scheduled k.scheduled

theorem State.PlanTrusted.arbitrated (h : s.PlanTrusted off) (k : Arbitrated s t) : t.PlanTrusted off :=
  h.acted (k.acted []) (by simp)

theorem State.PlanTrusted.hand (h : s.PlanTrusted off) (r : Report) : (s.hand r).PlanTrusted off := h.zoned (s.zoned_hand r)

theorem State.PlanTrusted.settlePort (h : s.PlanTrusted off) : s.settlePort.PlanTrusted off :=
  h.arbitrated s.arbitrated_settlePort

theorem State.PlanTrusted.closePort (h : s.PlanTrusted off) (g : Grant) (x : MemAnswer) :
    (s.closePort g x).PlanTrusted off :=
  h.arbitrated (s.arbitrated_closePort g x)

end

/-! ## Taking requests -/

section
variable {s : State} {l : Fin 8} {r : Request}

theorem Arbitrated.presents {t : State} (h : Arbitrated s t) {k : Fin 9} {a : Access} : t.Presents k a ↔ s.Presents k a := by
  rw [State.Presents, State.Presents, h.presented]

theorem State.presents_of_setLane_off {k j : Fin 9} {a : Access} {x : LaneState} (hx : x.presented? = none)
    (h : (s.setLane j x).Presents k a) : s.Presents k a := by
  rw [State.Presents, State.lane_setLane_eq] at h
  split at h
  · rw [hx] at h
    cases h
  · exact h

theorem State.presents_of_refuse {k : Fin 9} {a : Access} {reason : RefusalReason} {n : SSN}
    (h : (s.refuse l r reason n).Presents k a) : s.Presents k a := by
  unfold State.refuse State.answer at h
  rw [((State.arbitrated_endReservation _ _).trans (State.arbitrated_settlePort _)).presents] at h
  have hhand := State.presents_of_setLane_off (j := ext l) (x := .idle) rfl
    (show ((s.hand (.accessRefused l r.body.dir r.addr reason n)).setLane (ext l) .idle).Presents k a from h)
  unfold State.Presents at hhand ⊢
  rwa [State.lane_congr (State.zoned_hand s _).scheduled.la] at hhand

/-- A plan write that does not cover the read index word is not taken as a read index write. -/
theorem State.presents_of_takePlanWrite {k : Fin 9} {a : Access} (hcovers : s.covers r readIndexWord 8 = false)
    (h : (s.takePlanWrite l r).Presents k a) : s.Presents k a ∨ a.kind = .plan false := by
  cases hlocked : s.planLocked r with
  | true => exact .inl (State.presents_of_refuse (State.takePlanWrite_of_locked hlocked ▸ h))
  | false =>
    rw [State.takePlanWrite_of_plain hlocked (.inr hcovers), (State.arbitrated_settlePort _).presents] at h
    exact (State.presents_present _ _ _ _ _ h).imp id fun hnew => by rw [hnew.2]

/-- What a request brings to the port. -/
theorem State.presents_takeRequest {k : Fin 9} {a : Access} (h : (s.takeRequest l r).Presents k a) :
    s.Presents k a ∨ ReleasedFrom s.rg.held k a ∨
      (s.FreshAccess r a ∧ (a.kind = .plan true → s.covers r readIndexWord 8 = true)) := by
  rcases (s.took_takeRequest l r).presents k a h with hold | hreleased | ⟨_, hfresh⟩
  · exact .inl hold
  · exact .inr (.inl hreleased)
  by_cases hcovers : a.kind = .plan true → s.covers r readIndexWord 8 = true
  · exact .inr (.inr ⟨hfresh, hcovers⟩)
  rw [Classical.not_imp, Bool.not_eq_true] at hcovers
  obtain ⟨hkind, hcovers⟩ := hcovers
  obtain ⟨hform, hplan⟩ := hfresh
  rw [hkind] at hplan
  obtain ⟨_, hin, ⟨d, hwrite⟩, _⟩ := hplan
  have htaken {j : Fin 9} {b : Access} : (s.setLane (ext l) (.taken r)).Presents j b → s.Presents j b :=
    State.presents_of_setLane_off rfl
  by_cases hclass : s.laneClass l = .none
  · exact .inl (htaken (State.presents_of_refuse (State.takeRequest_of_laneOff hform hclass ▸ h)))
  cases hmay : s.may l (s.classify r.base) r.body.dir with
  | false => exact .inl (htaken (State.presents_of_refuse (State.takeRequest_of_rights hform hclass hmay ▸ h)))
  | true =>
    rw [State.takeRequest_of_permitted hform hclass hmay, (s.classify_plan r.base).mpr hin] at h
    have hroute : (s.setLane (ext l) (.taken r)).route l r .plan = (s.setLane (ext l) (.taken r)).takePlanWrite l r := by
      simp only [State.route, hwrite]
    rw [hroute] at h
    rcases State.presents_of_takePlanWrite (s := s.setLane (ext l) (.taken r)) hcovers h with hold | hother
    · exact .inl (htaken hold)
    · rw [hkind] at hother
      cases hother

/-- A fresh access is safe for the copies and under no lock. -/
theorem State.FreshAccess.planSafe {a : Access} (h : s.FreshAccess r a)
    (hindex : a.kind = .plan true → s.covers r readIndexWord 8 = true) :
    a.PlanSafe s.planBase ∧ (a.kind.isPlan = true → s.planLocked a.req = false) := by
  obtain ⟨req, kind⟩ := a
  obtain ⟨hform, hplace⟩ := h
  cases kind with
  | plain =>
    obtain ⟨rfl, hplace⟩ := hplace
    exact ⟨(Access.planSafe_of_ne (by simp)).mpr (hplace.elim .inl (State.apart_of_outside hform)), nofun⟩
  | plan readIndex =>
    obtain ⟨rfl, hin, hwrite, hunlocked⟩ := hplace
    refine ⟨?_, fun _ => hunlocked⟩
    cases readIndex with
    | false => exact State.planSafe_of_inside hform hin hwrite
    | true => exact (Access.planSafe_of_ne (by simp)).mpr (State.apart_of_readIndex hform hin (hindex rfl))
  | ring g k =>
    obtain ⟨rfl, hout⟩ := hplace
    exact ⟨(Access.planSafe_of_ne (by simp)).mpr (State.apart_of_outside hform hout), nofun⟩
  | view f => exact ⟨(Access.planSafe_of_ne (by simp)).mpr (Request.apart_of_read hplace _ _), nofun⟩
  | released => exact hplace.elim
  | record => exact hplace.elim
  | standby => exact hplace.elim
  | indexWord => exact hplace.elim

theorem State.PlanTrusted.takeRequest {off : Option (Fin 9)} (h : s.PlanTrusted off) (l : Fin 8) (r : Request) :
    (s.takeRequest l r).PlanTrusted off := by
  have htook := s.took_takeRequest l r
  exact h.moved {
    ac := htook.ac
    ps := htook.ps
    mem := htook.mem
    writeIndex := htook.rw.writeIndex
    resetAsserted := htook.resetAsserted
    opens := htook.opens
    held := fun x hx => by
      rcases htook.heldFrom x hx with ⟨y, hy, _, _, _, _, _, hreq⟩ | ⟨_, hreq, hform, hout⟩
      · exact hreq ▸ h.held y hy
      · exact hreq ▸ State.apart_of_outside hform hout
    presents := fun k a ha => by
      rcases State.presents_takeRequest ha with hold | hreleased | ⟨hfresh, hindex⟩
      · exact .inl hold
      · obtain ⟨hsafe, hplan⟩ := hreleased.planSafe h.held
        exact .inr ⟨hsafe, fun e => by rw [hplan] at e; cases e⟩
      · exact .inr (hfresh.planSafe hindex) }

end

section
variable {off : Option (Fin 9)} {s : State}

/-- Requests kept and responses are nothing to the copies. -/
theorem State.PlanTrusted.of_lanes {t : State} (h : s.PlanTrusted off) (hrest : t = { s with la := t.la })
    (hlanes : t.la.lanes = s.la.lanes) : t.PlanTrusted off := by
  rw [hrest]
  have hpresents : ∀ l a, { s with la := t.la }.Presents l a → s.Presents l a := fun l a ha => by
    unfold State.Presents State.lane at *
    rwa [← hlanes]
  exact h.moved { ac := rfl, ps := rfl, mem := rfl, writeIndex := rfl, resetAsserted := rfl, opens := fun _ => id, held := h.held
                  presents := fun l a ha => .inl (hpresents l a ha) }

theorem State.PlanTrusted.takeKept (h : s.PlanTrusted off) (l : Fin 8) (q : List Request) :
    (State.takeKept l q s).PlanTrusted off := by
  induction q generalizing s with
  | nil => exact h.of_lanes rfl rfl
  | cons r q ih =>
    unfold State.takeKept
    split
    · exact ih (h.takeRequest l r)
    · exact h.of_lanes rfl rfl

theorem State.PlanTrusted.presentRequest (h : s.PlanTrusted off) (l : Fin 8) (r : Request) :
    (s.presentRequest l r).PlanTrusted off :=
  h.takeKept l _

/-- In CONFIG no setup is in force. -/
theorem State.PlanTrusted.enterConfig (h : s.PlanTrusted off) : s.enterConfig.PlanTrusted off where
  accesses := h.accesses
  held := h.held
  ring := nofun
  known := h.known
  setup := nofun
  windows := h.windows
  rising := h.rising
  awake := h.awake

theorem State.PlanTrusted.enterIfDue (h : s.PlanTrusted off) : s.enterIfDue.PlanTrusted off := by
  unfold State.enterIfDue
  split
  · exact h.enterConfig
  · exact h

/-- The end of an external completion: its lane is idle before anything is taken there. -/
theorem State.PlanTrusted.finish {l : Fin 8} (h : s.PlanTrusted (some (ext l))) (g : Grant) (x : MemAnswer) (d : List Byte) :
    (s.finish l g x d).PlanTrusted none := by
  have hidle : ((s.setLane (ext l) .idle).respond l { status := answerStatus x, data := d }).PlanTrusted none :=
    h.leaves.of_lanes rfl rfl
  exact (hidle.enterIfDue.closePort g x).takeKept l _

end

end Sys2Proof.Machine
end

section
/-! Trust in the copies at the completion of an access: of one that writes nothing there, and of a plan write
(R53 to R57). -/

namespace Sys2Proof.Machine

section
variable {off : Option (Fin 9)} {s t : State}

theorem State.risingKeys_settleMemory (h : RisingKeys s.mem) (r : Request) (x : MemAnswer) :
    RisingKeys (s.settleMemory r x).mem := by
  cases x <;> exact risingKeys_writeBytes _ _ h

/-- Memory is written outside the copies' places. -/
theorem State.PlanTrusted.settleMemory (h : s.PlanTrusted off) {r : Request} (hr : r.Apart s.planBase copyEnd)
    (x : MemAnswer) : (s.settleMemory r x).PlanTrusted off := by
  have hread : ∀ i < copyEnd, readByte (s.settleMemory r x).mem (s.planBase + i) = readByte s.mem (s.planBase + i) :=
    fun i hi => s.readByte_settleMemory r x _ (by
      rcases hr with hr | hr | hr
      · rw [hr, List.length_nil]
        omega
      · exact .inr (by omega)
      · exact .inl (by omega))
  rw [s.settleMemory_changes]
  exact { h with
    accesses := h.accesses
    known := fun w hw hknown i hi => (hread _ (by simp only [copyEnd]; omega)).trans (h.known w hw hknown i hi)
    setup := h.setup
    windows := h.windows
    rising := ⟨s.risingKeys_settleMemory h.rising.1 r x, h.rising.2⟩ }

/-- After a plan write, which was under no lock: every word still known agrees, and only words it covers have become
unknown. -/
theorem State.PlanTrusted.planWritten (h : s.PlanTrusted none) {l : Fin 9} {a : Access} (ha : s.Presents l a)
    (hkind : a.kind = .plan false) (hframe : s.SameBut t [.mem, .freeCount, .rw, .ps])
    (hindex : t.rw.writeIndex = s.rw.writeIndex) (hrun : t.ps.run = s.ps.run)
    (hunknown : ∀ w ∈ t.ps.unknown,
      w ∈ s.ps.unknown ∨ overlaps (s.planOffset a.req) a.req.body.length (8 * w) 8 = true)
    (hagree : ∀ w < 1024, w ∉ t.ps.unknown → t.WordAgrees w)
    (hrising : RisingKeys t.mem ∧ RisingKeys t.ps.planCopy) : t.PlanTrusted none := by
  have hla := hframe .la (by simp)
  have hzs := hframe .zs (by simp)
  have hrg : t.rg = s.rg := hframe .rg (by simp)
  have hac : t.ac = s.ac := hframe .ac (by simp)
  have hbase : t.planBase = s.planBase := by simp only [State.planBase, hac]
  have hpresents : ∀ k b, t.Presents k b ↔ s.Presents k b := fun k b => by
    rw [State.Presents, State.Presents, State.lane_congr hla]
  have hcovers : ∀ r o n, t.covers r o n = s.covers r o n := fun r o n => by
    simp only [State.covers, State.planOffset, hbase]
  have hplan : a.kind.isPlan = true := by rw [hkind]; rfl
  refine ⟨fun k b hb => ?_, ?_, ?_, hagree, fun hconfig => ?_, fun w hw => ?_, hrising,
    (hframe .resetAsserted (by simp)).trans h.awake⟩
  · rw [hbase]
    exact h.accesses k b ((hpresents k b).mp hb)
  · rw [hrg, hbase]
    exact h.held
  · rw [hbase, hindex, State.setup, hrun]
    exact h.ring
  · have hold : s.isConfig = false := by rwa [State.isConfig, hrun] at hconfig
    obtain ⟨hknown, hpending⟩ := h.setup hold
    refine ⟨fun w hw hin => (hunknown w hin).elim (hknown w hw) fun hover => ?_, fun k b hb hp => ?_⟩
    · have hclear : overlaps (s.planOffset a.req) a.req.body.length 0 4096 = false := hpending l a ha hplan
      rw [overlaps_eq_false_iff] at hclear
      rw [← Bool.not_eq_false, overlaps_eq_false_iff] at hover
      omega
    · rw [hcovers]
      exact hpending k b ((hpresents k b).mp hb) hp
  · rw [State.window_congr hzs] at hw
    obtain ⟨hknown, hpending⟩ := h.windows w hw
    refine ⟨fun k hk => (hunknown k hk).elim (hknown k) fun hover => ?_, fun k b hne hb hp => ?_⟩
    · have hclear : overlaps (s.planOffset a.req) a.req.body.length (windowOffset w) 64 = false := hpending l a nofun ha hplan
      obtain ⟨_, hlow, _, hwords⟩ : (∃ d, a.req.body = .write d) ∧ s.planBase ≤ a.req.base ∧ _ ∧ _ := by
        have := h.accesses l a ha
        rwa [Access.PlanSafe, if_pos hkind] at this
      rw [overlaps_eq_false_iff] at hclear ⊢
      rw [← Bool.not_eq_false, overlaps_eq_false_iff] at hover
      simp only [windowOffset, windowTable, State.planOffset, State.planBase] at *
      omega
    · rw [hcovers]
      exact hpending k b hne ((hpresents k b).mp hb) hp

/-- A plan write is of whole words. -/
theorem Access.PlanSafe.words {a : Access} {base : Nat} (h : a.PlanSafe base) (hkind : a.kind = .plan false) :
    (∃ d, a.req.body = .write d) ∧ base ≤ a.req.base ∧ a.req.base % 8 = 0 ∧ a.req.body.data.length % 8 = 0 := by
  rw [Access.PlanSafe, if_pos hkind] at h
  obtain ⟨⟨d, hd⟩, hlow, _, hbase, hlength⟩ := h
  rw [hd] at hlength
  exact ⟨⟨d, hd⟩, hlow, hbase, by rwa [hd]⟩

/-- With OKAY the bytes written are in memory and in the copies, and every word they touch is written whole. -/
theorem State.PlanTrusted.planLanded (h : s.PlanTrusted none) {l : Fin 8} {a : Access} (ha : s.Presents (ext l) a)
    (hkind : a.kind = .plan false) : ((s.answered l a .okay).copyLanded a.req).PlanTrusted none := by
  obtain ⟨⟨d, hd⟩, hlow, hbase, hlength⟩ := (h.accesses _ a ha).words hkind
  have hlanded := s.planLanded_copyLanded l a
  have hmod : s.planBase % 8 = 0 := by
    simp only [State.planBase]
    omega
  have hoffset : s.planOffset a.req + s.planBase = a.req.base := Nat.sub_add_cancel hlow
  refine h.planWritten ha hkind (hlanded.rest.mono (by simp)) rfl rfl (fun w hw => .inl ((hlanded.known w).mp hw).1)
    (fun w hw hknown i hi => ?_) ⟨risingKeys_writeBytes _ _ h.rising.1, risingKeys_writeBytes _ _ h.rising.2⟩
  show readByte (landed s.mem a.req) (s.planBase + (8 * w + i)) = _
  rw [hlanded.copy h.rising.2 _ (by simp only [copyEnd]; omega)]
  split
  · rw [landed, readByte_writeBytes_inside _ _ _ h.rising.1 (by omega) (by omega)]
    congr 1
    omega
  · rw [landed, readByte_writeBytes_outside _ _ _ _ (by omega)]
    refine h.known w hw (fun hold => hknown ((hlanded.known w).mpr ⟨hold, ?_⟩)) i hi
    rw [overlaps_eq_false_iff]
    omega

theorem State.copyUnsettled_fields (u : State) (r : Request) :
    (u.copyUnsettled r).mem = u.mem ∧ (u.copyUnsettled r).rw = u.rw ∧ (u.copyUnsettled r).ps.run = u.ps.run ∧
      (u.copyUnsettled r).ps.planCopy = u.ps.planCopy ∧ (u.copyUnsettled r).planBase = u.planBase := by
  simp only [State.copyUnsettled, State.withPlan, PlanShadow.unsettled, State.planBase, and_self]

/-- With ERROR every word the write touches is unknown, and memory is as before elsewhere. -/
theorem State.PlanTrusted.planFailed (h : s.PlanTrusted none) {l : Fin 8} {a : Access} (ha : s.Presents (ext l) a)
    (hkind : a.kind = .plan false) : ((s.answered l a .error).copyUnsettled a.req).PlanTrusted none := by
  obtain ⟨⟨d, hd⟩, hlow, hbase, hlength⟩ := (h.accesses _ a ha).words hkind
  have hbody : a.req.body.length = a.req.body.data.length := by rw [hd]; rfl
  have hanswered := s.sameBut_answered l a .error
  have hps : (s.answered l a .error).ps = s.ps := hanswered .ps (by simp)
  have hplan : (s.answered l a .error).planBase = s.planBase := by
    simp only [State.planBase, show (s.answered l a .error).ac = s.ac from hanswered .ac (by simp)]
  have hoffset : (s.answered l a .error).planOffset a.req = s.planOffset a.req := by simp only [State.planOffset, hplan]
  have hunknown : ∀ w, w ∈ ((s.answered l a .error).copyUnsettled a.req).ps.unknown ↔
      w < 1024 ∧ (w ∈ s.ps.unknown ∨ overlaps (s.planOffset a.req) a.req.body.length (8 * w) 8 = true) := fun w => by
    rw [← hps, ← hoffset]
    exact PlanShadow.mem_unknown_unsettled _ _ _ w
  obtain ⟨hmem', hrw, hrun, hcopy, hbase'⟩ := (s.answered l a .error).copyUnsettled_fields a.req
  have hmem : (s.answered l a .error).mem = (s.settleMemory a.req .error).mem := s.answered_mem l a .error
  refine h.planWritten ha hkind ((hanswered.mono (by simp)).trans (State.sameBut_ps _ _ |>.mono (by simp))) ?_ ?_
    (fun w hw => ((hunknown w).mp hw).2) (fun w hw hknown i hi => ?_) ⟨?_, ?_⟩
  · rw [hrw, s.answered_rw]
    exact (State.zoned_hand _ _).scheduled.rw.writeIndex
  · rw [hrun, hps]
  · rw [hunknown, not_and, not_or, Bool.not_eq_true, overlaps_eq_false_iff, State.planOffset] at hknown
    obtain ⟨hold, hclear⟩ := hknown hw
    rw [hmem', hcopy, hbase', hmem, hps, hplan, s.readByte_settleMemory _ _ _ (by omega)]
    exact h.known w hw hold i hi
  · rw [hmem', hmem]
    exact s.risingKeys_settleMemory h.rising.1 _ _
  · rw [hcopy, hps]
    exact h.rising.2

/-- Any other access writes outside the copies' places. -/
theorem State.PlanTrusted.answered (h : s.PlanTrusted off) {l : Fin 8} {a : Access} (ha : s.Presents (ext l) a)
    (hkind : a.kind ≠ .plan false) (x : MemAnswer) : (s.answered l a x).PlanTrusted off := by
  have hsettled := h.settleMemory ((Access.planSafe_of_ne hkind).mp (h.accesses _ a ha)) x
  cases x with
  | okay => exact hsettled
  | error => exact hsettled.hand _

end

end Sys2Proof.Machine
end

section
/-! What the acts of the commands do to the trust in the copies: submits, COMMIT, STOP and the others (R57). -/

namespace Sys2Proof.Machine

section
variable {off : Option (Fin 9)} {s : State}

/-- A state alike in all that the trust is about, but for reports. -/
theorem State.PlanTrusted.of_same {t : State} {l : List Part} (h : s.PlanTrusted off) (hsame : s.SameBut t l)
    (hparts : ∀ p ∈ [Part.la, .ps, .zs, .rg, .ac, .mem, .resetAsserted], p ∉ l) (hindex : t.rw.writeIndex = s.rw.writeIndex) :
    t.PlanTrusted off := by
  have hrg : t.rg = s.rg := hsame .rg (hparts _ (by simp))
  exact h.moved {
    ac := hsame .ac (hparts _ (by simp))
    ps := hsame .ps (hparts _ (by simp))
    mem := hsame .mem (hparts _ (by simp))
    writeIndex := hindex
    resetAsserted := hsame .resetAsserted (hparts _ (by simp))
    opens := fun w hw => by rwa [State.window_congr (hsame .zs (hparts _ (by simp)))] at hw
    held := by
      rw [hrg]
      exact h.held
    presents := fun k a ha => .inl (by
      rw [State.Presents, State.lane_congr (hsame .la (hparts _ (by simp)))] at ha
      exact ha) }

theorem State.PlanTrusted.handResult (h : s.PlanTrusted off) (c : CommandRec) (x : CommandResult) :
    (s.handResult c x).PlanTrusted off :=
  h.hand _

/-- A fold of acts each of which keeps the trust. -/
theorem State.PlanTrusted.foldl {α : Type} {f : State → α → State} (h : s.PlanTrusted off)
    (hf : ∀ u x, u.PlanTrusted off → (f u x).PlanTrusted off) (l : List α) : (l.foldl f s).PlanTrusted off := by
  induction l generalizing s with
  | nil => exact h
  | cons x l ih => exact ih (hf s x h)

/-! ## Submits (R72 to R76) -/

/-- A window whose record is settled but for the write that completes may open. -/
theorem State.PlanTrusted.setWindow (h : s.PlanTrusted off) (w : Fin 64) (x : Window)
    (hx : x.status.open? = true → (∀ k ∈ s.ps.unknown, overlaps (windowOffset w) 64 (8 * k) 8 = false) ∧
      ∀ l a, some l ≠ off → s.Presents l a → a.kind.isPlan = true → s.covers a.req (windowOffset w) 64 = false) :
    (s.setWindow w x).PlanTrusted off where
  accesses := h.accesses
  held := h.held
  ring := h.ring
  known := h.known
  setup := h.setup
  windows := fun v hv => by
    rw [State.window_setWindow_eq] at hv
    split at hv
    · next hwv => exact hwv ▸ hx hv
    · exact h.windows v hv
  rising := h.rising
  awake := h.awake

theorem State.mem_outstandingPlan (l : Fin 9) (a : Access) :
    (l, a) ∈ s.outstandingPlan ↔ s.Presents l a ∧ a.kind.isPlan = true := by
  rw [State.outstandingPlan, List.mem_filter, State.mem_presented]
  refine and_congr_right fun _ => ?_
  cases a.kind <;> simp [AccessKind.isPlan]

theorem State.PlanTrusted.submitRecord {l : Fin 9} (h : s.PlanTrusted (some l)) (w : Fin 64) :
    (s.submitRecord l w).PlanTrusted (some l) := by
  have hreject : ∀ reason, (s.rejectSubmit w reason).PlanTrusted (some l) := fun reason =>
    (h.setWindow w _ (by simp [WindowStatus.open?])).hand _
  unfold State.submitRecord
  split
  · next su hrun =>
    split
    · exact hreject _
    · next hvalid =>
      refine (h.setWindow w _ fun _ => ?_).hand _
      have hsettled : s.recordSettled w l = true := by
        by_contra hnot
        rw [State.validateSubmit_eq_firstRejection, State.submitChecks, firstRejection_cons_eq_none_iff] at hvalid
        exact hnot hvalid.1
      obtain ⟨hknown, hpending⟩ := (s.recordSettled_iff w l).mp hsettled
      exact ⟨hknown, fun k a hk ha hplan => (hpending (k, a) ((s.mem_outstandingPlan k a).mpr ⟨ha, hplan⟩)).resolve_left
        (by simpa using hk)⟩
  · exact hreject _

theorem State.PlanTrusted.submitRecords {l : Fin 9} (h : s.PlanTrusted (some l)) (r : Request) :
    (s.submitRecords l r).PlanTrusted (some l) :=
  h.foldl (fun _ w hu => hu.submitRecord w) _

/-! ## COMMIT (R60 to R63) -/

/-- A valid setup's report ring lies in memory and clear of the plan area. -/
theorem State.report_of_valid {su : Setup} (h : s.validateSetup su = none) :
    su.reportBase + 32 * su.reportSize ≤ 2 ^ 36 ∧
    (su.reportBase + 32 * su.reportSize ≤ s.planBase ∨ s.planBase + copyEnd ≤ su.reportBase) ∧ 0 < su.reportSize := by
  have hvalid := (committedSetupIsValid s su).1.mp h
  have hsize : 0 < su.reportSize := by
    by_contra hzero
    refine hvalid .ringSize 0x024 (.inr (.inr ⟨?_, rfl⟩))
    rintro ⟨i, _, _, hi⟩
    have := Nat.two_pow_pos i
    omega
  have hmem : { area := .report, base := su.reportBase, length := su.reportSize * 32, field := 0x018 : Extent } ∈ su.areaMap := by
    simp [Setup.areaMap]
  have hrange : ¬ (2 ^ 36 ≤ su.reportBase ∨ 2 ^ 36 < su.reportBase + su.reportSize * 32) := fun hout =>
    hvalid .areaRange 0x018 ⟨_, hmem, hout, rfl⟩
  have hclear : overlaps s.planBase planLength su.reportBase (su.reportSize * 32) = false := by
    by_contra hover
    obtain ⟨j, hj⟩ := List.mem_iff_getElem?.mp hmem
    exact hvalid .areaOverlap 0x018 ⟨0, j + 1, s.planExtent, _, by omega, rfl, hj, Bool.not_eq_false _ ▸ hover, rfl⟩
  rw [overlaps_eq_false_iff] at hclear
  simp only [planLength, copyEnd] at *
  omega

/-- A valid setup's block is known and no write to it is outstanding. -/
theorem State.settled_of_valid {su : Setup} (h : s.validateSetup su = none) :
    (∀ w < 512, w ∉ s.ps.unknown) ∧ s.NonePending 0 0x1000 := by
  have hvalid := (committedSetupIsValid s su).1.mp h
  have hknown : ∀ w < 512, w ∉ s.ps.unknown := fun w hw hin => hvalid .unsettled (8 * w) (.inl ⟨w, hin, hw, rfl⟩)
  refine ⟨hknown, fun l a ha hplan => ?_⟩
  by_contra hcovers
  exact hvalid .unsettled (s.planOffset a.req) (.inr (.inl ⟨fun ⟨w, hin, hw⟩ => hknown w hw hin, (l, a),
    (s.mem_outstandingPlan l a).mpr ⟨ha, hplan⟩, by simpa using hcovers, rfl⟩))

theorem State.PlanTrusted.commitState (h : s.PlanTrusted off) {su : Setup} (hvalid : s.validateSetup su = none) :
    (s.commitState su).PlanTrusted off where
  accesses := h.accesses
  held := nofun
  ring := fun su' hsu => by
    obtain rfl : su = su' := Option.some.inj hsu
    exact s.report_of_valid hvalid
  known := h.known
  setup := fun _ => s.settled_of_valid hvalid
  windows := fun w hw => by
    rw [(s.commitState_spec su).2.2.2.1 w] at hw
    cases hw
  rising := h.rising
  awake := h.awake

theorem State.PlanTrusted.doCommit (h : s.PlanTrusted off) : s.doCommit.PlanTrusted off := by
  unfold State.doCommit
  split
  · cases hvalid : s.validateSetup (setupOfCopy s.ps.planCopy) with
    | none =>
      rw [State.commitSetup_of_valid _ hvalid]
      have hcommitted := (h.commitState hvalid).hand (.setupResult s.command.ticket .ok 0)
      unfold State.committed
      dsimp only
      split
      · exact hcommitted.hand _
      · exact hcommitted
    | some failed =>
      rw [State.commitSetup_of_failed _ hvalid]
      exact h.hand _
  · exact h.handResult _ _

/-! ## STOP (R64) -/

/-- The setup in force stays in force. -/
theorem State.PlanTrusted.stopping (h : s.PlanTrusted off) {su : Setup} (hrun : s.ps.run = .running su) (ticket : BitVec 16) :
    (s.withPlan (s.ps.stopping su ticket)).PlanTrusted off where
  accesses := h.accesses
  held := h.held
  ring := fun su' hsu => h.ring su' (by rw [State.setup, hrun]; exact hsu)
  known := h.known
  setup := fun _ => h.setup (by rw [State.isConfig, hrun])
  windows := h.windows
  rising := h.rising
  awake := h.awake

theorem State.PlanTrusted.stopZones (h : s.PlanTrusted off) : s.stopZones.PlanTrusted off := by
  unfold State.stopZones
  have hreported : ((List.finRange 64).foldl State.reportStopped s).PlanTrusted off :=
    h.foldl (fun u w hu => by
      unfold State.reportStopped
      split
      · exact hu.hand _
      · exact hu) _
  dsimp only
  generalize (List.finRange 64).foldl State.reportStopped s = u at hreported ⊢
  exact {
    hreported with
    accesses := hreported.accesses
    known := hreported.known
    setup := hreported.setup
    windows := fun w hw => by
      have hreset : (u.withZones u.zs.stopped).window w = State.reset.window w := rfl
      rw [hreset, State.window_reset] at hw
      cases hw }

theorem State.PlanTrusted.stopSetup (h : s.PlanTrusted off) {su : Setup} (hrun : s.ps.run = .running su) :
    (s.stopSetup su).PlanTrusted off := by
  unfold State.stopSetup
  have hstopped := ((h.stopping hrun s.command.ticket).stopZones).foldl
    (fun u f hu => hu.scheduled (u.scheduled_stopFeed su f)) (List.finRange 32)
  exact hstopped.acts (State.acted_examine _ su)

/-! ## The commands of RUNNING -/

theorem State.PlanTrusted.inRunning (h : s.PlanTrusted off) {act : Setup → CommandRec → State}
    (hact : ∀ su c, s.ps.run = .running su → (act su c).PlanTrusted off) : (s.inRunning act).PlanTrusted off := by
  unfold State.inRunning
  split
  · next su hrun => exact hact su _ hrun
  · exact h.handResult _ _

theorem State.PlanTrusted.examineAfter (h : s.PlanTrusted off) (b : State) (su : Setup) :
    (State.examineAfter b s su).PlanTrusted off :=
  h.acts (State.acted_examineAfter_list b s su)

theorem State.PlanTrusted.doCancel (h : s.PlanTrusted off) (su : Setup) (c : CommandRec) : (s.doCancel su c).PlanTrusted off := by
  unfold State.doCancel
  split
  · exact h.handResult _ _
  · dsimp only
    split
    · exact (h.handResult _ _).zoned (State.zoned_cancelWindow _ su _)
    · exact h.handResult _ _

theorem State.PlanTrusted.doHold (h : s.PlanTrusted off) (su : Setup) (c : CommandRec) : (s.doHold su c).PlanTrusted off := by
  unfold State.doHold
  split
  · exact h.handResult _ _
  · split
    · exact (h.handResult _ _).zoned (State.zoned_holdZones _ su _ _)
    · exact h.handResult _ _

theorem State.PlanTrusted.doRelease (h : s.PlanTrusted off) (su : Setup) (c : CommandRec) :
    (s.doRelease su c).PlanTrusted off := by
  unfold State.doRelease
  split
  · exact ((h.handResult _ _).zoned (State.zoned_updZones _ (zonesIn c.arg1) Zone.commandReleased fun _ => rfl)).hand _
  · exact h.handResult _ _

theorem State.PlanTrusted.doAttach (h : s.PlanTrusted off) (su : Setup) (c : CommandRec) : (s.doAttach su c).PlanTrusted off := by
  unfold State.doAttach
  split
  · exact h.handResult _ _
  · dsimp only
    split
    · exact (h.handResult _ _).scheduled (State.scheduled_attachFeed _ su _ _)
    · exact h.handResult _ _

theorem State.PlanTrusted.doDetach (h : s.PlanTrusted off) (su : Setup) (c : CommandRec) : (s.doDetach su c).PlanTrusted off := by
  unfold State.doDetach
  split
  · exact h.handResult _ _
  · dsimp only
    split
    · exact ((h.handResult _ _).scheduled (State.scheduled_detachFeed _ su _)).examineAfter _ su
    · exact h.handResult _ _

/-! ## Plan writes that complete -/

theorem State.presents_externalInProgress {l : Fin 8} {g : Grant} {a : Access}
    (hp : s.externalInProgress = some (l, g, a)) : s.Presents (ext l) a := by
  obtain ⟨hp, hlane⟩ := State.externalInProgress_eq_some_iff.mp hp
  obtain ⟨_, hactive⟩ := State.inProgress_eq_some_iff.mp hp
  rw [State.Presents, ← hlane, hactive]
  rfl

theorem State.PlanTrusted.planAct (h : s.PlanTrusted none) (row : PlanRow) (act : Fin 8 → Request → State → State)
    (hact : ∀ l r u, u.PlanTrusted (some (ext l)) → (act l r u).PlanTrusted (some (ext l))) :
    (s.planAct row act).PlanTrusted none := by
  unfold State.planAct
  split
  · next l g a hp =>
    split
    · next hkind =>
      split
      · exact (hact l a.req _ ((h.planLanded (s.presents_externalInProgress hp) hkind).but _)).finish g _ _
      · exact h
    · exact h
  · exact h

theorem State.PlanTrusted.planFault (h : s.PlanTrusted none) : s.planFault.PlanTrusted none := by
  unfold State.planFault
  split
  · next l g a hp =>
    split
    · next hkind => exact ((h.planFailed (s.presents_externalInProgress hp) hkind).but _).finish g _ _
    · exact h
  · exact h

end

end Sys2Proof.Machine
end

section
/-! The trust in the Plan Shadow's copies through every command, and the quiet of RESET_N (R36, R53 to R57). -/

namespace Sys2Proof.Machine

section
variable {off : Option (Fin 9)} {s : State}

/-! ## The other completions -/

theorem State.PlanTrusted.withIngest (h : s.PlanTrusted off) (x : IngestChecker) : ({ s with ic := x } : State).PlanTrusted off :=
  h.of_same (s.sameBut_ic x) (by simp) rfl

theorem State.PlanTrusted.withTimebase (h : s.PlanTrusted off) (x : Timebase) : ({ s with tb := x } : State).PlanTrusted off :=
  h.of_same (s.sameBut_tb x) (by simp) rfl

theorem State.PlanTrusted.withReports (h : s.PlanTrusted off) {x : ReportWriter} (hx : x.writeIndex = s.rw.writeIndex) :
    ({ s with rw := x } : State).PlanTrusted off :=
  h.of_same (s.sameBut_rw x) (by simp) hx

theorem State.PlanTrusted.takeReadIndex (h : s.PlanTrusted off) (o : Nat) (d : List Byte) (x : MemAnswer) :
    (s.takeReadIndex o d x).PlanTrusted off := by
  unfold State.takeReadIndex
  split <;> exact h.withReports rfl

theorem State.PlanTrusted.setHealth (h : s.PlanTrusted off) (r : Fin 12) (p : Path) (x : Health) :
    (s.setHealth r p x).PlanTrusted off := by
  unfold State.setHealth
  dsimp only
  split
  · exact h
  · exact (h.withIngest _).hand _

theorem State.PlanTrusted.completeRingWrite (h : s.PlanTrusted off) (su : Setup) (ring : RingId) (k : Nat) (x : MemAnswer) :
    (s.completeRingWrite su ring k x).PlanTrusted off := by
  unfold State.completeRingWrite
  split
  · exact h
  · next e _ =>
    split
    · dsimp only
      generalize hu : s.setEntry ring k _ = u
      have hset : u.PlanTrusted off := hu ▸ h.withIngest _
      generalize hv : (if s.lateSet su ring e.ssn = 0 then u else u.hand _) = v
      have hlate : v.PlanTrusted off := by
        rw [← hv]
        split
        · exact hset
        · exact hset.hand _
      cases ring
      · exact hlate
      · exact (hlate.withIngest _).setHealth _ _ _
    · exact h

theorem State.PlanTrusted.completeViewRead (h : s.PlanTrusted off) (su : Setup) (f : Fin 32) (rd : InFlight) :
    (s.completeViewRead su f rd).PlanTrusted off := by
  unfold State.completeViewRead
  have hset := h.scheduled (s.scheduled_setFeed f { s.feed f with inFlight := Option.none })
  refine State.PlanTrusted.acts ?_ (State.acted_examine _ su)
  split
  · exact hset.scheduled (State.scheduled_completeFeed _ su f _)
  · exact hset

/-- The end of an access that is no plan write, its block having done what it does. -/
theorem State.PlanTrusted.completed (h : s.PlanTrusted none) {l : Fin 8} {g : Grant} {a : Access}
    (hp : s.externalInProgress = some (l, g, a)) (hkind : a.kind ≠ .plan false) (x : MemAnswer) :
    (s.answered l a x).PlanTrusted (some (ext l)) :=
  (h.answered (s.presents_externalInProgress hp) hkind x).but _

/-! ## The report lane -/

/-- A report-lane write clear of the copies. -/
theorem State.PlanTrusted.presentReport (h : s.PlanTrusted off) {k : AccessKind} (hkind : k.isPlan = false) {o : Nat}
    (d : List Byte) (ho : o < 2 ^ 36) (hout : o + d.length ≤ s.planBase ∨ s.planBase + copyEnd ≤ o) :
    (s.presentReport o d k).PlanTrusted off := by
  have hbase : (BitVec.ofNat 36 o).toNat = o := by rw [BitVec.toNat_ofNat, Nat.mod_eq_of_lt ho]
  refine h.moved { ac := rfl, ps := rfl, mem := rfl, writeIndex := rfl, resetAsserted := rfl, opens := fun _ => id, held := h.held
                   presents := fun l a ha => ?_ }
  rcases s.presents_present _ _ _ _ ha with hold | ⟨_, rfl⟩
  · exact .inl hold
  · refine .inr ⟨(Access.planSafe_of_ne fun e => ?_).mpr ?_, fun e => ?_⟩
    · exact absurd hkind (by rw [show k = .plan false from e]; decide)
    · show _ ∨ (BitVec.ofNat 36 o).toNat + d.length ≤ _ ∨ _ ≤ (BitVec.ofNat 36 o).toNat
      rw [hbase]
      exact .inr hout
    · exact absurd (hkind.symm.trans e) nofun

theorem Record.length_bytes (r : Record) : r.bytes.length = 32 := by
  simp [Record.bytes, length_padTo, length_beBytes]

/-- The standby record and the write index word lie in the plan area, past the copies. -/
theorem State.PlanTrusted.presentInPlan (h : s.PlanTrusted off) {k : AccessKind} (hkind : k.isPlan = false) {o : Nat}
    (d : List Byte) (hlow : copyEnd ≤ o) (hhigh : o < 2 ^ 32) : (s.presentReport (s.planBase + o) d k).PlanTrusted off := by
  have hsel := s.ac.planSel.isLt
  refine h.presentReport hkind d ?_ (.inr (by omega))
  simp only [State.planBase]
  omega

theorem State.PlanTrusted.writeRecord (h : s.PlanTrusted off) {su : Setup} (hsu : s.setup = some su) (r : Record)
    (rest : List Record) : (s.writeRecord su r rest).PlanTrusted off := by
  obtain ⟨hrange, hclear, hindex⟩ := h.ring su hsu
  have hhand : (s.takeInHand r rest).PlanTrusted off := h.withReports rfl
  refine hhand.presentReport rfl r.bytes ?_ ?_
  · simp only [Setup.reportSlot]
    omega
  · show _ ≤ s.planBase ∨ s.planBase + copyEnd ≤ _
    rw [r.length_bytes]
    simp only [Setup.reportSlot]
    omega

theorem State.PlanTrusted.takeReport (h : s.PlanTrusted off) : s.takeReport.PlanTrusted off := by
  unfold State.takeReport
  split
  · exact h
  · next r rest _ =>
    split
    · exact (h.withReports (x := { s.rw with queue := rest, hand := some r }) rfl).presentInPlan rfl r.bytes
        (by decide) (by decide)
    · next su hsu =>
      split
      · exact h.withReports rfl
      · exact h.writeRecord hsu r rest

theorem State.PlanTrusted.dropHand (h : s.PlanTrusted off) : s.dropHand.PlanTrusted off := h.withReports rfl

theorem State.PlanTrusted.loseRecord (h : s.PlanTrusted off) : s.loseRecord.PlanTrusted off := h.withReports rfl

theorem State.PlanTrusted.enteringIf (h : s.PlanTrusted off) (c : Bool) :
    (if c = true then s.enterConfig else s).PlanTrusted off := by
  split
  · exact h.enterConfig
  · exact h

/-- The index moves within the ring. -/
theorem State.PlanTrusted.recordLanded (h : s.PlanTrusted off) {su : Setup} (hsu : s.setup = some su) :
    (s.recordLanded su).PlanTrusted off := by
  have hmoved : ({ s with rw := { s.rw with writeIndex := (s.rw.writeIndex + 1) % su.reportSize } } : State).PlanTrusted off :=
    { h with
      accesses := h.accesses
      known := h.known
      setup := h.setup
      windows := h.windows
      ring := fun su' hsu' => by
        obtain rfl : su = su' := Option.some.inj (hsu.symm.trans hsu')
        obtain ⟨hrange, hclear, hindex⟩ := h.ring su hsu
        exact ⟨hrange, hclear, Nat.mod_lt _ (by omega)⟩ }
  exact hmoved.presentInPlan rfl _ (by decide) (by decide)

theorem State.PlanTrusted.recordAnswered (h : s.PlanTrusted off) {su : Setup} (hsu : s.setup = some su) (x : MemAnswer) :
    (s.recordAnswered su x).PlanTrusted off := by
  cases x
  · exact h.recordLanded hsu
  · exact h.loseRecord.dropHand.enteringIf _

theorem State.PlanTrusted.indexWordDone (h : s.PlanTrusted off) : s.indexWordDone.PlanTrusted off := h.dropHand.enteringIf _

/-- A report-lane write is answered and its lane idle. -/
theorem State.PlanTrusted.reportAnswered (h : s.PlanTrusted none) {g : Grant} {a : Access}
    (hp : s.reportInProgress = some (g, a)) (hkind : a.kind ≠ .plan false) (x : MemAnswer) :
    ((s.settleMemory a.req x).setLane reportLane .idle).PlanTrusted none := by
  obtain ⟨hp, hlane⟩ := State.reportInProgress_eq_some_iff.mp hp
  obtain ⟨_, hactive⟩ := State.inProgress_eq_some_iff.mp hp
  have ha : s.Presents g.lane a := by
    rw [State.Presents, hactive]
    rfl
  exact ((h.settleMemory ((Access.planSafe_of_ne hkind).mp (h.accesses _ a ha)) x).but _).leaves

theorem State.PlanTrusted.endDrain (h : s.PlanTrusted off) {su : Setup} (hrun : s.ps.run = .stopping su) :
    (s.endDrain su).PlanTrusted off := by
  unfold State.endDrain
  have hflag : ({ s with ps := { s.ps with drainFlag := true } } : State).PlanTrusted off :=
    { h with accesses := h.accesses, ring := h.ring, known := h.known, setup := h.setup, windows := h.windows }
  dsimp only
  split
  · split
    · exact hflag.loseRecord
    · exact hflag.loseRecord.enterConfig.settlePort
  · refine (hflag.writeRecord ?_ _ _).settlePort
    show s.ps.run.setup = _
    rw [hrun]
    rfl

/-! ## The Timebase and the expiries -/

theorem State.PlanTrusted.tickAll (h : s.PlanTrusted off) (su : Setup) : (s.tickAll su).PlanTrusted off :=
  h.moved { ac := rfl, ps := rfl, mem := rfl, writeIndex := rfl, resetAsserted := rfl, opens := fun _ => id
            held := fun y hy => by
              obtain ⟨x, hx, rfl⟩ := List.mem_map.mp hy
              exact h.held x hx
            presents := fun _ _ ha => .inl ha }

theorem State.PlanTrusted.refclk (h : s.PlanTrusted off) : s.refclk.PlanTrusted off := by
  unfold State.refclk
  split
  · exact h
  · split
    · exact h.withTimebase _
    · exact h.tickAll _

theorem State.PlanTrusted.expireLink (h : s.PlanTrusted off) (su : Setup) : (s.expireLink su).PlanTrusted off := by
  unfold State.expireLink
  split
  · split
    · exact (h.arbitrated (s.arbitrated_setPort .free)).settlePort
    · exact h
  · exact h

theorem State.PlanTrusted.expireSilence (h : s.PlanTrusted off) (su : Setup) (r : Fin 12) (p : Path) :
    (s.expireSilence su r p).PlanTrusted off := by
  unfold State.expireSilence
  split
  · split
    · exact (h.withIngest _).setHealth _ _ _
    · exact h
  · exact h

theorem State.PlanTrusted.expireHoldOf (h : s.PlanTrusted off) (su : Setup) (l : Fin 8) :
    (s.expireHoldOf su l).PlanTrusted off := by
  unfold State.expireHoldOf
  split
  · exact (h.acts (s.acted_expireHold su _)).settlePort
  · exact h

theorem State.PlanTrusted.expirePulse (h : s.PlanTrusted off) (su : Setup) : (s.expirePulse su).PlanTrusted off := by
  unfold State.expirePulse
  split
  · exact h
  · split
    · exact (h.withTimebase _).hand _
    · exact h
  · exact h

theorem State.PlanTrusted.reportPulse (h : s.PlanTrusted off) (su : Setup) (b : RefState) :
    (s.reportPulse su b).PlanTrusted off := by
  unfold State.reportPulse
  have hreference : (if b = .locked then s else s.handReference b .locked).PlanTrusted off := by
    split
    · exact h
    · exact h.hand _
  dsimp only
  split
  · exact hreference.hand _
  · exact hreference

theorem State.PlanTrusted.stallCheck (h : s.PlanTrusted off) (su : Setup) (b : RefState) : (s.stallCheck su b).PlanTrusted off := by
  unfold State.stallCheck
  have hsettled : (s.settleStalls (b == .locked && su.stallPulses != 0)).PlanTrusted off :=
    h.of_same (s.sameBut_vr _) (by simp) rfl
  dsimp only
  split
  · exact hsettled.foldl (fun u f hu => ((hu.scheduled (u.scheduled_slip su .stall f)).examineAfter u su).settlePort) _
  · exact hsettled

theorem State.PlanTrusted.takePulse (h : s.PlanTrusted off) (su : Setup) : (s.takePulse su).PlanTrusted off :=
  ((h.withTimebase _).reportPulse su _).stallCheck su _

end

/-! ## RESET_N (R36, R38) -/

/-- Nothing is there to be done: in CONFIG, nothing presented, held or queued. -/
structure State.Quiet (s : State) : Prop where
  config : s.isConfig = true
  unknown : ∀ w < 1024, w ∈ s.ps.unknown
  presented : ∀ l, (s.lane l).presented? = none
  held : s.rg.held = []
  queue : s.rw.queue = []
  windows : ∀ w, (s.window w).status.open? = false

section
variable {s : State}

theorem State.PlanSound.quiet (h : s.PlanSound) (hreset : s.resetAsserted = true) : s.Quiet := by
  obtain ⟨hconfig, hunknown, hpresented, hheld, hqueue, hwindows⟩ := h.reset hreset
  exact ⟨hconfig, hunknown, hpresented, hheld, hqueue, hwindows⟩

theorem State.Quiet.sound (h : s.Quiet) (hrising : RisingKeys s.mem ∧ RisingKeys s.ps.planCopy) : s.PlanSound where
  accesses := fun l a ha => by rw [h.presented l] at ha; cases ha
  held := fun x hx => by rw [h.held] at hx; cases hx
  ring := fun su hsu => by rw [State.setup_eq_none_of_isConfig h.config] at hsu; cases hsu
  known := fun w hw hknown => absurd (h.unknown w hw) hknown
  setup := fun hc => by rw [h.config] at hc; cases hc
  windows := fun w hw => by rw [h.windows w] at hw; cases hw
  reset := fun _ => ⟨h.config, h.unknown, h.presented, h.held, h.queue, h.windows⟩
  rising := hrising

theorem State.quiet_of_reset {t : State} (hla : t.la = State.reset.la) (hps : t.ps = PlanShadow.reset) (hzs : t.zs = State.reset.zs)
    (hrg : t.rg = State.reset.rg) (hrw : t.rw = State.reset.rw) : t.Quiet where
  config := by rw [State.isConfig, hps]; rfl
  unknown := fun w hw => by
    simp only [hps, PlanShadow.reset, List.mem_range]
    exact hw
  presented := fun l => by
    rw [State.lane_congr hla, State.lane_reset]
    rfl
  held := by rw [hrg]; rfl
  queue := by rw [hrw]; rfl
  windows := fun w => by
    rw [State.window_congr hzs, State.window_reset]
    rfl

theorem State.risingKeys_abandonAccess (h : RisingKeys s.mem) : RisingKeys s.abandonAccess.mem := by
  unfold State.abandonAccess
  split
  · exact risingKeys_writeBytes _ _ h
  · exact h

theorem State.planSound_resetNAssert (h : RisingKeys s.mem) :
    ({ s.abandonAccess.resetBlocks with resetAsserted := true } : State).PlanSound := by
  have hquiet : ({ s.abandonAccess.resetBlocks with resetAsserted := true } : State).Quiet :=
    State.quiet_of_reset rfl rfl rfl rfl rfl
  exact hquiet.sound ⟨State.risingKeys_abandonAccess h, .nil⟩

end

end Sys2Proof.Machine
end

section
/-! Every command keeps the conditions under which the Plan Shadow's copies can be trusted (R53 to R57). -/

namespace Sys2Proof.Machine

section
variable {s t : State}

/-! ## While RESET_N is asserted -/

theorem State.Quiet.inProgress (h : s.Quiet) : s.inProgress = none := by
  rw [Option.eq_none_iff_forall_ne_some]
  rintro ⟨g, a⟩ hp
  have hpresented := h.presented g.lane
  rw [(State.inProgress_eq_some_iff.mp hp).2] at hpresented
  cases hpresented

theorem State.Quiet.externalInProgress (h : s.Quiet) : s.externalInProgress = none := by
  rw [State.externalInProgress, h.inProgress]

theorem State.Quiet.reportInProgress (h : s.Quiet) : s.reportInProgress = none := by
  rw [State.reportInProgress, h.inProgress]

theorem State.Quiet.planAct (h : s.Quiet) (row : PlanRow) (act : Fin 8 → Request → State → State) : s.planAct row act = s := by
  rw [State.planAct, h.externalInProgress]

/-- The straps are sampled with nothing there that the plan area's place matters to. -/
theorem State.PlanSound.resetNRelease (h : s.PlanSound) (hreset : s.resetAsserted = true) (p : BitVec 4) :
    ({ s with ac := { planSel := p }, resetAsserted := false } : State).PlanSound := by
  have hquiet := h.quiet hreset
  have hsampled : ({ s with ac := { planSel := p }, resetAsserted := false } : State).Quiet :=
    ⟨hquiet.config, hquiet.unknown, hquiet.presented, hquiet.held, hquiet.queue, hquiet.windows⟩
  exact hsampled.sound h.rising

theorem State.PlanSound.withHoldReq (h : s.PlanSound) (level : Bool) : (s.withHoldReq level).PlanSound :=
  ⟨h.accesses, h.held, h.ring, h.known, h.setup, h.windows, h.reset, h.rising⟩

/-- While RESET_N is asserted a command does nothing but move that line or HOLD_REQ (R36, R117). -/
theorem State.PlanSound.exec_of_reset {c : Instr} (h : s.PlanSound) (hreset : s.resetAsserted = true)
    (hexec : exec c s = .next t) : t.PlanSound := by
  have hquiet := h.quiet hreset
  have hsetup := State.setup_eq_none_of_isConfig hquiet.config
  have hplan : ∀ row act, (Host.Outcome.next (s.planAct row act) : Host.Outcome State Fault Refusal) = .next t →
      t.PlanSound := fun row act e => by
    rw [hquiet.planAct] at e
    cases e
    exact h
  cases c with
  | resetNAssert =>
    cases hexec
    exact State.planSound_resetNAssert h.rising.1
  | resetNRelease p =>
    cases hexec
    rw [if_pos hreset]
    exact h.resetNRelease hreset p
  | laneRequest l d addr n link data =>
    cases hexec
    rw [if_pos hreset]
    exact h
  | plainAccessComplete x =>
    simp only [exec, execPlainAccessComplete, hquiet.externalInProgress] at hexec
    cases hexec
    exact h
  | planWriteComplete x =>
    cases x with
    | okay => exact hplan _ _ hexec
    | error =>
      simp only [exec, execPlanWriteComplete, State.planFault, hquiet.externalInProgress] at hexec
      cases hexec
      exact h
  | submit => exact hplan _ _ hexec
  | commit => exact hplan _ _ hexec
  | stop => exact hplan _ _ hexec
  | cancel => exact hplan _ _ hexec
  | hold => exact hplan _ _ hexec
  | release => exact hplan _ _ hexec
  | attach => exact hplan _ _ hexec
  | detach => exact hplan _ _ hexec
  | badCommand => exact hplan _ _ hexec
  | readIndexWrite x =>
    simp only [exec, execReadIndexWrite, hquiet.externalInProgress] at hexec
    cases hexec
    exact h
  | ringWriteComplete x =>
    simp only [exec, execRingWriteComplete, hquiet.externalInProgress] at hexec
    cases hexec
    exact h
  | viewReadComplete x =>
    simp only [exec, execViewReadComplete, hquiet.externalInProgress] at hexec
    cases hexec
    exact h
  | tick =>
    simp only [exec, execTick, hsetup] at hexec
    cases hexec
    exact h
  | linkWaitExpiry =>
    simp only [exec, execLinkWaitExpiry, hsetup] at hexec
    cases hexec
    exact h
  | silenceLimitExpiry r p =>
    simp only [exec, execSilenceLimitExpiry, hsetup] at hexec
    cases hexec
    exact h
  | holdLimitExpiry l =>
    simp only [exec, execHoldLimitExpiry, hsetup] at hexec
    cases hexec
    exact h
  | pulseTimeoutExpiry =>
    simp only [exec, execPulseTimeoutExpiry, hsetup] at hexec
    cases hexec
    exact h
  | refPulse =>
    simp only [exec, execRefPulse, hsetup] at hexec
    cases hexec
    exact h
  | holdReqAssert =>
    simp only [exec, execHoldReqAssert, hsetup] at hexec
    cases hexec
    split
    · exact h
    · exact h.withHoldReq true
  | holdReqDeassert =>
    simp only [exec, execHoldReqDeassert, hsetup] at hexec
    cases hexec
    split
    · exact h.withHoldReq false
    · exact h
  | drainEnd =>
    cases hexec
    split
    · next hrun => exact absurd hquiet.config (by simp [State.isConfig, hrun])
    · exact h
  | reportTake =>
    simp only [exec, execReportTake, hquiet.queue, List.isEmpty_nil, Bool.not_true, Bool.and_false, if_neg Bool.false_ne_true]
      at hexec
    cases hexec
    exact h
  | recordWriteComplete x =>
    simp only [exec, execRecordWriteComplete, hquiet.reportInProgress] at hexec
    cases hexec
    exact h
  | writeIndexWordComplete x =>
    simp only [exec, execWriteIndexWordComplete, hquiet.reportInProgress] at hexec
    cases hexec
    exact h

/-! ## Outside RESET_N -/

theorem State.PlanTrusted.withHoldReq (h : s.PlanTrusted none) (level : Bool) : (s.withHoldReq level).PlanTrusted none :=
  ⟨h.accesses, h.held, h.ring, h.known, h.setup, h.windows, h.rising, h.awake⟩

/-- Every command outside RESET_N keeps the trust, RESET_N_ASSERT apart, which ends it in quiet. -/
theorem State.PlanTrusted.exec {c : Instr} (h : s.PlanTrusted none) (hexec : exec c s = .next t) : t.PlanSound := by
  cases c with
  | resetNAssert =>
    cases hexec
    exact State.planSound_resetNAssert h.rising.1
  | resetNRelease p =>
    cases hexec
    rw [if_neg (by simp [h.awake])]
    exact h.sound
  | laneRequest l d addr n link data =>
    cases hexec
    split
    · exact h.sound
    · exact (h.presentRequest l _).sound
  | plainAccessComplete x =>
    simp only [Machine.exec, execPlainAccessComplete] at hexec
    split at hexec
    · next l g a hp =>
      split at hexec <;> cases hexec
      · next hkind => exact ((h.completed hp (by simp [hkind]) x).finish g _ _).sound
      · exact h.sound
    · cases hexec
      exact h.sound
  | planWriteComplete x =>
    cases x <;> cases hexec
    · exact (h.planAct _ _ fun _ _ u hu => hu).sound
    · exact h.planFault.sound
  | submit =>
    cases hexec
    exact (h.planAct _ _ fun l r u hu => hu.submitRecords r).sound
  | commit =>
    cases hexec
    exact (h.planAct _ _ fun _ _ u hu => hu.doCommit).sound
  | stop =>
    cases hexec
    refine (h.planAct _ _ fun _ _ u hu => hu.inRunning fun su c hrun => ?_).sound
    refine (hu.handResult c .accepted).stopSetup ?_
    have hps : (u.handResult c .accepted).ps = u.ps := (u.zoned_hand _).scheduled.ps
    rw [hps, hrun]
  | cancel =>
    cases hexec
    exact (h.planAct _ _ fun _ _ u hu => hu.inRunning fun su c _ => hu.doCancel su c).sound
  | hold =>
    cases hexec
    exact (h.planAct _ _ fun _ _ u hu => hu.inRunning fun su c _ => hu.doHold su c).sound
  | release =>
    cases hexec
    exact (h.planAct _ _ fun _ _ u hu => hu.inRunning fun su c _ => hu.doRelease su c).sound
  | attach =>
    cases hexec
    exact (h.planAct _ _ fun _ _ u hu => hu.inRunning fun su c _ => hu.doAttach su c).sound
  | detach =>
    cases hexec
    exact (h.planAct _ _ fun _ _ u hu => hu.inRunning fun su c _ => hu.doDetach su c).sound
  | badCommand =>
    cases hexec
    exact (h.planAct _ _ fun _ _ u hu => hu.handResult _ _).sound
  | readIndexWrite x =>
    simp only [Machine.exec, execReadIndexWrite] at hexec
    split at hexec
    · next l g a hp =>
      split at hexec <;> cases hexec
      · next hkind => exact (((h.completed hp (by simp [hkind]) x).takeReadIndex _ _ x).finish g _ _).sound
      · exact h.sound
    · cases hexec
      exact h.sound
  | ringWriteComplete x =>
    simp only [Machine.exec, execRingWriteComplete] at hexec
    split at hexec
    · next l g a su hp _ =>
      split at hexec <;> cases hexec
      · next hkind => exact (((h.completed hp (by simp [hkind]) x).completeRingWrite su _ _ x).finish g _ _).sound
      · next hkind => exact ((h.completed hp (by simp [hkind]) x).finish g _ _).sound
      · exact h.sound
    · cases hexec
      exact h.sound
  | viewReadComplete x =>
    simp only [Machine.exec, execViewReadComplete] at hexec
    split at hexec
    · next l g a su hp _ =>
      split at hexec
      · next hkind =>
        split at hexec <;> cases hexec
        · exact (((h.completed hp (by simp [hkind]) x).completeViewRead su _ _).finish g _ _).sound
        · exact h.sound
      · cases hexec
        exact h.sound
    · cases hexec
      exact h.sound
  | tick =>
    cases hexec
    split
    · exact (h.tickAll _).sound
    · exact h.sound
  | linkWaitExpiry =>
    cases hexec
    split
    · exact (h.expireLink _).sound
    · exact h.sound
  | silenceLimitExpiry r p =>
    cases hexec
    split
    · exact (h.expireSilence _ r p).sound
    · exact h.sound
  | holdLimitExpiry l =>
    cases hexec
    split
    · exact (h.expireHoldOf _ l).sound
    · exact h.sound
  | pulseTimeoutExpiry =>
    cases hexec
    split
    · exact (h.expirePulse _).sound
    · exact h.sound
  | refPulse =>
    cases hexec
    split
    · exact (h.takePulse _).sound
    · exact h.sound
  | holdReqAssert =>
    cases hexec
    split
    · exact h.sound
    · split
      · exact ((h.withHoldReq true).zoned (State.zoned_assertPin _ _)).sound
      · exact (h.withHoldReq true).sound
  | holdReqDeassert =>
    cases hexec
    split
    · split
      · exact ((h.withHoldReq false).zoned (State.zoned_deassertPin _ _)).sound
      · exact (h.withHoldReq false).sound
    · exact h.sound
  | drainEnd =>
    cases hexec
    split
    · next su hrun =>
      split
      · exact (h.endDrain hrun).sound
      · exact h.sound
    · exact h.sound
  | reportTake =>
    cases hexec
    split
    · exact h.takeReport.settlePort.sound
    · exact h.sound
  | recordWriteComplete x =>
    simp only [Machine.exec, execRecordWriteComplete] at hexec
    split at hexec
    · next g a hp =>
      split at hexec <;> cases hexec
      · next hkind => exact ((h.reportAnswered hp (by simp [hkind]) x).dropHand.closePort g x).sound
      · next hkind hsu =>
        have hidle := h.reportAnswered hp (by simp [hkind]) x
        refine ((hidle.recordAnswered ?_ x).closePort g x).sound
        cases x <;> exact hsu
      · exact h.sound
    · cases hexec
      exact h.sound
  | writeIndexWordComplete x =>
    simp only [Machine.exec, execWriteIndexWordComplete] at hexec
    split at hexec
    · next g a hp =>
      split at hexec <;> cases hexec
      · next hkind => exact ((h.reportAnswered hp (by simp [hkind]) x).indexWordDone.closePort g x).sound
      · exact h.sound
    · cases hexec
      exact h.sound

end

/-- Settles O59: an access taken is safe for the copies and under no lock, so a write that completes brings memory and
copies along together, or makes its words unknown; under RESET_N nothing goes on at all. -/
theorem stepKeepsPlanSound : Obligations.StepKeepsPlanSound := by
  intro s t h hstep
  unfold step at hstep
  split at hstep
  · cases hstep
    cases hreset : s.resetAsserted with
    | true =>
      rw [State.refclk, State.setup_eq_none_of_isConfig (h.quiet hreset).config]
      exact h
    | false => exact (h.trusted hreset).refclk.sound
  · next c q hq =>
    have hrest : (s.withPending q).PlanSound := ⟨h.accesses, h.held, h.ring, h.known, h.setup, h.windows, h.reset, h.rising⟩
    cases hreset : s.resetAsserted with
    | true => exact hrest.exec_of_reset hreset hstep
    | false => exact (hrest.trusted hreset).exec hstep

end Sys2Proof.Machine
end

section
/-! The laws of zones and feeds as an invariant that the acts of a step keep one by one (R125, R145): what it says, and
the acts that touch neither feeds nor timelines. -/

namespace Sys2Proof.Machine

/-! ## The laws (R125, R145, R147, R159) -/

/-- A zone is set exactly while it has an attached feed, and every attached feed has a zone. -/
structure State.FeedsPlaced (s : State) (su : Setup) : Prop where
  set : ∀ z, (s.zone z).timeline.isSome = true ↔ ∃ f p, (s.feed f).status = .attached p ∧ su.feedZone f = some z
  zoned : ∀ f p, (s.feed f).status = .attached p → (su.feedZone f).isSome = true

/-- No zone is set and no feed attached. -/
structure State.NoFeeds (s : State) : Prop where
  unset : ∀ z, (s.zone z).timeline = none
  apart : ∀ f p, (s.feed f).status ≠ .attached p

/-- What an attached feed's next follows: its last, or the SSN of its read in flight that counts. -/
structure Position.Awaits (p : Position) (flight : Option InFlight) (horizon : SSN) : Prop where
  resting : (∀ rd, flight = some rd → rd.counting = false) → p.next = p.last + 1
  reading : ∀ rd, flight = some rd → rd.counting = true → p.next = rd.ssn + 1 ∧ between p.last rd.ssn horizon = true

/-- The laws of R125 for one zone with its trail and horizon. -/
structure State.ZoneLawful (s : State) (su : Setup) (z : Fin 24) (trail horizon : SSN) : Prop where
  spread : distance trail horizon ≤ su.spreadMax
  least : ∃ f p, (s.feed f).status = .attached p ∧ su.feedZone f = some z ∧ p.last = trail
  feeds : ∀ f p, (s.feed f).status = .attached p → su.feedZone f = some z →
    between trail p.last horizon = true ∧ p.Awaits (s.feed f).inFlight horizon

/-- Every read that counts is an attached feed's and stands at the feed's lane, which is none of those in hand. -/
def State.ReadsAtLanes (s : State) (su : Setup) (off : List (Fin 8)) : Prop :=
  ∀ f rd, (s.feed f).inFlight = some rd → rd.counting = true → (∃ p, (s.feed f).status = .attached p) ∧
    ∃ l a, su.feedLane f = some l ∧ l ∉ off ∧ s.Presents (ext l) a ∧ a.kind = .view f

/-- A held write's lane is busy with it, at the port nothing of the lane's, and the lane is none of those in hand. -/
def State.HeldApart (s : State) (off : List (Fin 8)) : Prop :=
  ∀ h ∈ s.rg.held, h.lane ∉ off ∧ (s.lane (ext h.lane)).presented? = none ∧ (s.lane (ext h.lane)).idle? = false

/-- The laws for all zones and feeds in RUNNING. -/
structure State.FeedsLawful (s : State) (su : Setup) (off : List (Fin 8)) : Prop where
  limits : 1 ≤ su.spreadMax ∧ su.spreadMax < 2 ^ 29
  reads : s.ReadsAtLanes su off
  held : s.HeldApart off
  zones : ∀ z t, (s.zone z).timeline = some t → s.ZoneLawful su z t.trail t.horizon

/-- The laws in whatever run state; `strict` asks for those of SSNs too. -/
structure State.FeedsRuled (strict : Prop) (off : List (Fin 8)) (s : State) : Prop where
  running : ∀ su, s.ps.run = .running su → s.FeedsPlaced su ∧ (strict → s.FeedsLawful su off)
  stopped : s.isRunning = false → s.NoFeeds

section
variable {strict : Prop} {off : List (Fin 8)} {s t : State} {su : Setup}

theorem State.isRunning_of_running (h : s.ps.run = .running su) : s.isRunning = true := by
  simp [State.isRunning, h]

theorem State.exists_running (h : s.isRunning = true) : ∃ su, s.ps.run = .running su := by
  unfold State.isRunning at h
  split at h
  · next su hrun => exact ⟨su, hrun⟩
  · cases h

theorem State.zonesFollowFeeds_of_running (h : s.ps.run = .running su) : s.ZonesFollowFeeds ↔ s.FeedsPlaced su := by
  unfold State.ZonesFollowFeeds
  rw [h]
  exact ⟨fun ⟨hset, hzoned⟩ => ⟨hset, hzoned⟩, fun ⟨hset, hzoned⟩ => ⟨hset, hzoned⟩⟩

theorem State.zonesFollowFeeds_of_stopped (h : s.isRunning = false) : s.ZonesFollowFeeds ↔ s.NoFeeds := by
  unfold State.ZonesFollowFeeds
  split
  · next su hrun => rw [State.isRunning_of_running hrun] at h; cases h
  · exact ⟨fun ⟨hunset, hapart⟩ => ⟨hunset, hapart⟩, fun ⟨hunset, hapart⟩ => ⟨hunset, hapart⟩⟩

theorem State.FeedsRuled.zonesFollowFeeds (h : s.FeedsRuled strict off) : s.ZonesFollowFeeds := by
  cases hrun : s.isRunning with
  | true =>
    obtain ⟨su, hsu⟩ := State.exists_running hrun
    exact (State.zonesFollowFeeds_of_running hsu).mpr (h.running su hsu).1
  | false => exact (State.zonesFollowFeeds_of_stopped hrun).mpr (h.stopped hrun)

theorem State.ZonesFollowFeeds.ruled (h : s.ZonesFollowFeeds) (hlawful : ∀ su, s.ps.run = .running su → strict → s.FeedsLawful su off) :
    s.FeedsRuled strict off where
  running := fun su hsu => ⟨(State.zonesFollowFeeds_of_running hsu).mp h, hlawful su hsu⟩
  stopped := fun hrun => (State.zonesFollowFeeds_of_stopped hrun).mp h

theorem State.HeldLanes.apart (h : s.HeldLanes) : s.HeldApart [] := fun x hx => by
  rw [h.1 x hx]
  exact ⟨by simp, rfl, rfl⟩

theorem State.FeedsWithinZones.lawful (h : s.FeedsWithinZones) (hrun : s.ps.run = .running su) (hplaced : s.FeedsPlaced su)
    (hheld : s.HeldApart []) : s.FeedsLawful su [] := by
  obtain ⟨hlimits, hcounting, hzones⟩ := h su hrun
  refine ⟨hlimits, fun f rd hrd hc => ?_, hheld, fun z t ht => ?_⟩
  · obtain ⟨p, hp⟩ := hcounting f rd hrd hc
    obtain ⟨z, hz⟩ := Option.isSome_iff_exists.mp (hplaced.zoned f p hp)
    obtain ⟨t, ht⟩ := Option.isSome_iff_exists.mp ((hplaced.set z).mpr ⟨f, p, hp, hz⟩)
    obtain ⟨_, _, _, hfeeds⟩ := hzones z t ht
    obtain ⟨_, _, hreading⟩ := hfeeds f p hp hz
    obtain ⟨_, _, l, a, hl, ha, hkind⟩ := hreading rd hrd hc
    exact ⟨⟨p, hp⟩, l, a, hl, by simp, ha, hkind⟩
  · obtain ⟨_, hspread, hleast, hfeeds⟩ := hzones z t ht
    refine ⟨hspread, hleast, fun f p hp hz => ?_⟩
    obtain ⟨hlast, hresting, hreading⟩ := hfeeds f p hp hz
    refine ⟨hlast, hresting, fun rd hrd hc => ?_⟩
    obtain ⟨hnext, hssn, _⟩ := hreading rd hrd hc
    exact ⟨hnext, hssn⟩

theorem State.FeedsRuled.feedsWithinZones (h : s.FeedsRuled True off) : s.FeedsWithinZones := by
  intro su hrun
  obtain ⟨_, hlawful⟩ := h.running su hrun
  obtain ⟨hlimits, hreads, _, hzones⟩ := hlawful trivial
  refine ⟨hlimits, fun f rd hrd hc => (hreads f rd hrd hc).1, fun z t ht => ?_⟩
  obtain ⟨hspread, hleast, hfeeds⟩ := hzones z t ht
  refine ⟨atOrBefore_of_distance_lt (by omega), hspread, hleast, fun f p hp hz => ?_⟩
  obtain ⟨hlast, hresting, hreading⟩ := hfeeds f p hp hz
  refine ⟨hlast, hresting, fun rd hrd hc => ?_⟩
  obtain ⟨hnext, hssn⟩ := hreading rd hrd hc
  obtain ⟨_, l, a, hl, _, ha, hkind⟩ := hreads f rd hrd hc
  exact ⟨hnext, hssn, l, a, hl, ha, hkind⟩

/-! ## Lanes in hand -/

theorem State.FeedsLawful.released (h : s.FeedsLawful su off) : s.FeedsLawful su [] :=
  { h with
    reads := fun f rd hrd hc => by
      obtain ⟨hp, l, a, hl, _, ha⟩ := h.reads f rd hrd hc
      exact ⟨hp, l, a, hl, by simp, ha⟩
    held := fun x hx => ⟨by simp, (h.held x hx).2⟩ }

theorem State.FeedsRuled.released (h : s.FeedsRuled strict off) : s.FeedsRuled strict [] :=
  ⟨fun su hsu => ⟨(h.running su hsu).1, fun hs => ((h.running su hsu).2 hs).released⟩, h.stopped⟩

/-- A lane that is idle, or whose access is no view read that counts, is taken in hand. -/
theorem State.FeedsRuled.inHand (h : s.FeedsRuled strict []) {l : Fin 8}
    (hl : (s.lane (ext l)).idle? = true ∨ ∃ a, s.Presents (ext l) a ∧
      ∀ f, a.kind = .view f → ∀ rd, (s.feed f).inFlight = some rd → rd.counting = false) : s.FeedsRuled strict [l] := by
  refine ⟨fun su hsu => ⟨(h.running su hsu).1, fun hs => ?_⟩, h.stopped⟩
  have hlawful := (h.running su hsu).2 hs
  refine { hlawful with reads := fun f rd hrd hc => ?_, held := fun x hx => ?_ }
  · obtain ⟨hp, k, a, hk, _, ha, hkind⟩ := hlawful.reads f rd hrd hc
    refine ⟨hp, k, a, hk, fun hin => ?_, ha, hkind⟩
    obtain rfl := List.mem_singleton.mp hin
    rcases hl with hidle | ⟨b, hb, hother⟩
    · rw [State.Presents, LaneState.idle?_iff.mp hidle] at ha
      cases ha
    · rw [hother f (Option.some.inj (hb.symm.trans ha) ▸ hkind) rd hrd] at hc
      cases hc
  · obtain ⟨_, hpresented, hbusy⟩ := hlawful.held x hx
    refine ⟨fun hin => ?_, hpresented, hbusy⟩
    obtain rfl := List.mem_singleton.mp hin
    rcases hl with hidle | ⟨b, hb, _⟩
    · rw [hidle] at hbusy
      cases hbusy
    · exact absurd (hpresented.symm.trans hb) nofun

/-! ## Acts that touch neither feeds nor timelines -/

/-- Run state, feeds and timelines are as before; outside the lanes in hand what is at the port is still there, and what
is held still apart from it. -/
structure State.FeedsKept (off : List (Fin 8)) (s t : State) : Prop where
  run : t.ps.run = s.ps.run
  vr : t.vr = s.vr
  timelines : ∀ z, (t.zone z).timeline = (s.zone z).timeline
  presents : s.HeldApart off → ∀ l a, l ∉ off → s.Presents (ext l) a → t.Presents (ext l) a
  held : s.HeldApart off → t.HeldApart off

theorem State.FeedsKept.trans {u : State} (h : s.FeedsKept off t) (k : t.FeedsKept off u) : s.FeedsKept off u where
  run := k.run.trans h.run
  vr := k.vr.trans h.vr
  timelines := fun z => (k.timelines z).trans (h.timelines z)
  presents := fun hs l a hl ha => k.presents (h.held hs) l a hl (h.presents hs l a hl ha)
  held := fun hs => k.held (h.held hs)

theorem State.ZoneLawful.of_feeds {z : Fin 24} {trail horizon : SSN} (h : s.ZoneLawful su z trail horizon)
    (hfeeds : ∀ f, su.feedZone f = some z → t.feed f = s.feed f) : t.ZoneLawful su z trail horizon where
  spread := h.spread
  least := by
    obtain ⟨f, p, hp, hz, htrail⟩ := h.least
    exact ⟨f, p, by rw [hfeeds f hz]; exact hp, hz, htrail⟩
  feeds := fun f p hp hz => by
    rw [hfeeds f hz] at hp ⊢
    exact h.feeds f p hp hz

theorem State.FeedsRuled.kept (h : s.FeedsRuled strict off) (k : s.FeedsKept off t) : t.FeedsRuled strict off := by
  have hfeed : ∀ f, t.feed f = s.feed f := State.feed_congr k.vr
  refine ⟨fun su hsu => ?_, fun hrun => ?_⟩
  · rw [k.run] at hsu
    obtain ⟨hplaced, hlawful⟩ := h.running su hsu
    refine ⟨⟨fun z => ?_, fun f p => ?_⟩, fun hs => ?_⟩
    · simp only [k.timelines, hfeed]
      exact hplaced.set z
    · rw [hfeed]
      exact hplaced.zoned f p
    · obtain ⟨hlimits, hreads, hheld, hzones⟩ := hlawful hs
      refine ⟨hlimits, fun f rd hrd hc => ?_, k.held hheld, fun z tl htl => ?_⟩
      · rw [hfeed] at hrd ⊢
        obtain ⟨hp, l, a, hl, hoff, ha, hkind⟩ := hreads f rd hrd hc
        exact ⟨hp, l, a, hl, hoff, k.presents hheld l a hoff ha, hkind⟩
      · rw [k.timelines] at htl
        exact (hzones z tl htl).of_feeds fun f _ => hfeed f
  · rw [State.isRunning, k.run] at hrun
    obtain ⟨hunset, hapart⟩ := h.stopped hrun
    exact ⟨fun z => (k.timelines z).trans (hunset z), fun f p => by rw [hfeed]; exact hapart f p⟩

/-- Lanes and held list are as before too. -/
theorem State.feedsKept_of_lanes (run : t.ps.run = s.ps.run) (vr : t.vr = s.vr)
    (timelines : ∀ z, (t.zone z).timeline = (s.zone z).timeline) (lanes : t.la.lanes = s.la.lanes) (rg : t.rg = s.rg) :
    s.FeedsKept off t := by
  have hlane : ∀ l, t.lane l = s.lane l := fun l => by simp only [State.lane, lanes]
  refine ⟨run, vr, timelines, fun _ l a _ ha => ?_, fun hs x hx => ?_⟩
  · rw [State.Presents, hlane]
    exact ha
  · rw [rg] at hx
    rw [hlane]
    exact hs x hx

theorem State.FeedsKept.refl (s : State) : s.FeedsKept off s := State.feedsKept_of_lanes rfl rfl (fun _ => rfl) rfl rfl

theorem State.SameBut.feedsKept {l : List Part} (h : s.SameBut t l)
    (hparts : ∀ p ∈ [Part.la, .ps, .zs, .vr, .rg], p ∉ l) : s.FeedsKept off t :=
  State.feedsKept_of_lanes (congrArg PlanShadow.run (h .ps (hparts _ (by simp)))) (h .vr (hparts _ (by simp)))
    (fun z => by rw [State.zone_congr (h .zs (hparts _ (by simp)))])
    (congrArg LaneArbiter.lanes (h .la (hparts _ (by simp)))) (h .rg (hparts _ (by simp)))

theorem Zoned.feedsKept (h : Zoned s t) (timelines : ∀ z, (t.zone z).timeline = (s.zone z).timeline) : s.FeedsKept off t :=
  State.feedsKept_of_lanes (congrArg PlanShadow.run h.scheduled.ps) h.vr timelines (congrArg LaneArbiter.lanes h.scheduled.la)
    h.scheduled.rg

theorem State.feedsKept_hand (s : State) (r : Report) : s.FeedsKept off (s.hand r) :=
  (s.zoned_hand r).feedsKept fun z => by rw [State.zone_congr (s.zs_hand r)]

theorem Arbitrated.feedsKept (h : Arbitrated s t) : s.FeedsKept off t where
  run := by rw [h.changes]
  vr := by rw [h.changes]
  timelines := fun z => by rw [h.changes]; rfl
  presents := fun _ l a _ ha => h.presents.mpr ha
  held := fun hs x hx => by
    rw [h.rg] at hx
    rw [h.presented, h.idle]
    exact hs x hx

/-- The lane in hand may change to anything. -/
theorem State.feedsKept_setLane (s : State) {l : Fin 8} (hl : l ∈ off) (x : LaneState) : s.FeedsKept off (s.setLane (ext l) x) where
  run := rfl
  vr := rfl
  timelines := fun _ => rfl
  presents := fun _ k a hk ha => by
    have hne : ext k ≠ ext l := fun e => hk (ext_inj.mp e ▸ hl)
    rw [State.Presents, s.lane_setLane_of_ne x (Ne.symm hne)]
    exact ha
  held := fun hs y hy => by
    obtain ⟨hoff, hrest⟩ := hs y hy
    have hne : ext y.lane ≠ ext l := fun e => hoff (ext_inj.mp e ▸ hl)
    rw [s.lane_setLane_of_ne x (Ne.symm hne)]
    exact ⟨hoff, hrest⟩

end

end Sys2Proof.Machine
end

section
/-! Acceptance, release and the smaller acts keep feeds, timelines and the reads at their lanes (R24, R85, R86, R172). -/

namespace Sys2Proof.Machine

section
variable {strict : Prop} {off : List (Fin 8)} {s t : State} {su : Setup}

/-! ## Acceptance and release (R85, R86, R172) -/

theorem State.feedsKept_withIngest (s : State) (x : IngestChecker) : s.FeedsKept off { s with ic := x } :=
  (s.sameBut_ic x).feedsKept (by simp)

theorem State.feedsKept_moveHead (s : State) (su : Setup) (g : RingId) (m : SSN) : s.FeedsKept off (s.moveHead su g m) :=
  State.feedsKept_of_lanes (congrArg PlanShadow.run (s.acted_moveHead su g m []).ps) (s.vr_moveHead su g m)
    (s.outcomesGiven_moveHead su g m).timeline (congrArg LaneArbiter.lanes (s.la_moveHead su g m)) (s.rg_moveHead su g m)

/-- Up to the access at the port, an acceptance leaves feeds, timelines and lanes alone. -/
theorem State.feedsKept_acceptRingWrite (s : State) {l : Fin 8} (hl : l ∈ off) (su : Setup) (g : RingId) (k : Nat) (r : Request) :
    s.FeedsKept off (s.acceptRingWrite su l g k r) :=
  ((s.feedsKept_withIngest _).trans (State.feedsKept_moveHead _ su g _)).trans (State.feedsKept_setLane _ hl _)

/-- The held writes left after a release are apart still: their lanes are others. -/
theorem State.HeldApart.release (h : s.HeldApart off) (su : Setup) (x : HeldWrite) : (s.release su x).HeldApart off := by
  have hdropped : ∀ (u : State) (a : Access), u.rg = (s.dropHeld x.lane).rg → u.la = s.la →
      (u.present (ext x.lane) a).HeldApart off := fun u a hrg hla y hy => by
    rw [show (u.present (ext x.lane) a).rg = u.rg from rfl, hrg] at hy
    obtain ⟨hmem, hne⟩ := List.mem_filter.mp hy
    have hlane : ext x.lane ≠ ext y.lane := fun e => by
      rw [ext_inj.mp e] at hne
      simp at hne
    rw [State.present, u.lane_setLane_of_ne _ hlane, State.lane_congr hla]
    exact h y hmem
  unfold State.release
  dsimp only
  split
  · exact hdropped _ _ (State.rg_moveHead _ su _ _) (State.la_moveHead _ su _ _)
  · exact hdropped _ _ rfl rfl

theorem State.HeldApart.examineList (h : s.HeldApart off) (su : Setup) (l : List HeldWrite) :
    (State.examineList su l s).HeldApart off := by
  induction l generalizing s with
  | nil => exact h
  | cons x l ih =>
    rw [State.examineList]
    split
    · exact ih h
    · exact ih (h.release su x)

theorem State.feedsKept_examine (s : State) (su : Setup) : s.FeedsKept off (s.examine su) := by
  obtain ⟨htimelines, _, hlanes, hrest⟩ := (s.examined_examine su).kept
  refine ⟨congrArg PlanShadow.run (hrest .ps (by simp)), hrest .vr (by simp), htimelines, fun hs l a _ ha => ?_,
    fun hs => hs.examineList su _⟩
  rw [State.Presents, hlanes (ext l) fun x hx e => ?_]
  · exact ha
  · exact absurd ((e ▸ (hs x hx).2.1).symm.trans ha) nofun

theorem State.feedsKept_examineAfter (b s : State) (su : Setup) : s.FeedsKept off (State.examineAfter b s su) := by
  unfold State.examineAfter
  split
  · exact s.feedsKept_examine su
  · exact .refl s

/-! ## Acts on zones that leave timelines alone (R114 to R119) -/

theorem State.feedsKept_cancelWindow (s : State) (su : Setup) (w : Fin 64) : s.FeedsKept off (s.cancelWindow su w) := by
  refine (s.zoned_cancelWindow su w).feedsKept fun z => ?_
  obtain ⟨hin, hout, _⟩ := s.cancelWindow_spec su w
  have htaken : ∀ x : Zone, (x.cancelTaken w).timeline = x.timeline := fun x => by
    unfold Zone.cancelTaken
    repeat' split
    all_goals rfl
  by_cases hz : z ∈ s.windowZones su w
  · rw [hin z hz]
    split
    · exact htaken _
    · rfl
  · rw [hout z hz]

theorem State.timeline_updZones (s : State) (l : List (Fin 24)) {f : Zone → Zone} (hf : ∀ x, (f x).timeline = x.timeline)
    (z : Fin 24) : ((s.updZones l f).zone z).timeline = (s.zone z).timeline := by
  unfold State.updZones
  induction l generalizing s with
  | nil => rfl
  | cons k l ih =>
    rw [List.foldl_cons, ih, State.zone_updZone_eq]
    split
    · next e => rw [hf, e]
    · rfl

theorem State.timeline_takeHold (s : State) (kind : HoldKind) (k z : Fin 24) :
    ((s.takeHold kind k).zone z).timeline = (s.zone z).timeline := by
  have hset : ∀ x : ZoneStatus, ((s.updZone k fun y => { y with status := x }).zone z).timeline = (s.zone z).timeline :=
    fun x => by
      rw [State.zone_updZone_eq]
      split
      · next e => rw [e]
      · rfl
  unfold State.takeHold
  split
  · rfl
  · exact (s.outcomesGiven_giveOutcome _ k .heldOff _).timeline z
  · exact hset _
  · split
    · exact hset _
    · rfl

theorem State.timeline_takeHolds (s : State) (su : Setup) (kind : HoldKind) (l : List (Fin 24)) (z : Fin 24) :
    ((s.takeHolds su kind l).zone z).timeline = (s.zone z).timeline := by
  have hholds : ((l.foldl (fun s k => s.takeHold kind k) s).zone z).timeline = (s.zone z).timeline := by
    induction l generalizing s with
    | nil => rfl
    | cons k l ih => rw [List.foldl_cons, ih, State.timeline_takeHold]
  unfold State.takeHolds
  exact ((State.OutcomesGiven.foldl (fun s w => s.outcomesGiven_settleWindow su w) _ _).timeline z).trans hholds

theorem State.feedsKept_holdZones (s : State) (su : Setup) (zs : ZoneSet) (k : HoldKind) :
    s.FeedsKept off (s.holdZones su zs k) := by
  refine (s.zoned_holdZones su zs k).feedsKept fun z => ?_
  unfold State.holdZones
  rw [State.timeline_takeHolds, State.zone_congr (State.zs_hand _ _)]
  exact s.timeline_updZones _ (f := Zone.commandHeld k) (fun _ => rfl) z

theorem State.feedsKept_updZones (s : State) (l : List (Fin 24)) {f : Zone → Zone} (hf : ∀ x, (f x).timeline = x.timeline) :
    s.FeedsKept off (s.updZones l f) :=
  (s.zoned_updZones l f hf).feedsKept (s.timeline_updZones l hf)

theorem State.feedsKept_assertPin (s : State) (su : Setup) : s.FeedsKept off (s.assertPin su) := by
  refine (s.zoned_assertPin su).feedsKept fun z => ?_
  unfold State.assertPin State.handPinHold
  rw [State.timeline_takeHolds, State.zone_congr (State.zs_hand _ _)]
  exact s.timeline_updZones _ (f := Zone.pinned true) (fun _ => rfl) z

theorem State.feedsKept_deassertPin (s : State) (su : Setup) : s.FeedsKept off (s.deassertPin su) :=
  (s.feedsKept_updZones su.enabledZones (f := Zone.pinned false) fun _ => rfl).trans (State.feedsKept_hand _ _)

/-! ## The rules for what is kept -/

theorem State.FeedsRuled.hand (h : s.FeedsRuled strict off) (r : Report) : (s.hand r).FeedsRuled strict off :=
  h.kept (s.feedsKept_hand r)

theorem State.FeedsRuled.handResult (h : s.FeedsRuled strict off) (c : CommandRec) (x : CommandResult) :
    (s.handResult c x).FeedsRuled strict off :=
  h.hand _

theorem State.FeedsRuled.arbitrated (h : s.FeedsRuled strict off) (k : Arbitrated s t) : t.FeedsRuled strict off :=
  h.kept k.feedsKept

theorem State.FeedsRuled.settlePort (h : s.FeedsRuled strict off) : s.settlePort.FeedsRuled strict off :=
  h.arbitrated s.arbitrated_settlePort

theorem State.FeedsRuled.closePort (h : s.FeedsRuled strict off) (g : Grant) (x : MemAnswer) :
    (s.closePort g x).FeedsRuled strict off :=
  h.arbitrated (s.arbitrated_closePort g x)

theorem State.FeedsRuled.endReservation (h : s.FeedsRuled strict off) (l : Fin 9) :
    (s.endReservation l).FeedsRuled strict off :=
  h.arbitrated (s.arbitrated_endReservation l)

theorem State.FeedsRuled.setLane {l : Fin 8} (h : s.FeedsRuled strict off) (hl : l ∈ off) (x : LaneState) :
    (s.setLane (ext l) x).FeedsRuled strict off :=
  h.kept (s.feedsKept_setLane hl x)

/-- What the report lane does is nothing to the feeds' lanes. -/
theorem State.FeedsRuled.setReportLane (h : s.FeedsRuled strict off) (x : LaneState) :
    (s.setLane reportLane x).FeedsRuled strict off := by
  have hlane : ∀ l : Fin 8, (s.setLane reportLane x).lane (ext l) = s.lane (ext l) := fun l =>
    s.lane_setLane_of_ne x (Ne.symm (ext_ne_reportLane l))
  exact h.kept {
    run := rfl
    vr := rfl
    timelines := fun _ => rfl
    presents := fun _ l a _ ha => by
      rw [State.Presents, hlane]
      exact ha
    held := fun hs y hy => by
      rw [hlane]
      exact hs y hy }

theorem State.FeedsRuled.examine (h : s.FeedsRuled strict off) (su : Setup) : (s.examine su).FeedsRuled strict off :=
  h.kept (s.feedsKept_examine su)

theorem State.FeedsRuled.examineAfter (h : s.FeedsRuled strict off) (b : State) (su : Setup) :
    (State.examineAfter b s su).FeedsRuled strict off :=
  h.kept (State.feedsKept_examineAfter b s su)

theorem State.FeedsRuled.withIngest (h : s.FeedsRuled strict off) (x : IngestChecker) :
    ({ s with ic := x } : State).FeedsRuled strict off :=
  h.kept (s.feedsKept_withIngest x)

theorem State.FeedsRuled.withTimebase (h : s.FeedsRuled strict off) (x : Timebase) :
    ({ s with tb := x } : State).FeedsRuled strict off :=
  h.kept ((s.sameBut_tb x).feedsKept (by simp))

theorem State.FeedsRuled.withReports (h : s.FeedsRuled strict off) (x : ReportWriter) :
    ({ s with rw := x } : State).FeedsRuled strict off :=
  h.kept ((s.sameBut_rw x).feedsKept (by simp))

/-- The copies and flags of the Plan Shadow are nothing to the feeds. -/
theorem State.FeedsRuled.withPlan (h : s.FeedsRuled strict off) {x : PlanShadow} (hrun : x.run = s.ps.run) :
    (s.withPlan x).FeedsRuled strict off :=
  h.kept (State.feedsKept_of_lanes hrun rfl (fun _ => rfl) rfl rfl)

theorem State.FeedsRuled.setWindow (h : s.FeedsRuled strict off) (w : Fin 64) (x : Window) :
    (s.setWindow w x).FeedsRuled strict off :=
  h.kept (State.feedsKept_of_lanes rfl rfl (fun _ => rfl) rfl rfl)

/-- Kept requests, responses, port and pointers are nothing to the feeds. -/
theorem State.FeedsRuled.withArbiter (h : s.FeedsRuled strict off) {x : LaneArbiter} (hlanes : x.lanes = s.la.lanes) :
    ({ s with la := x } : State).FeedsRuled strict off :=
  h.kept (State.feedsKept_of_lanes rfl rfl (fun _ => rfl) hlanes rfl)

theorem State.FeedsRuled.settleMemory (h : s.FeedsRuled strict off) (r : Request) (x : MemAnswer) :
    (s.settleMemory r x).FeedsRuled strict off :=
  h.kept ((s.sameBut_settleMemory r x).feedsKept (by simp))

theorem State.FeedsRuled.answered (h : s.FeedsRuled strict off) (l : Fin 8) (a : Access) (x : MemAnswer) :
    (s.answered l a x).FeedsRuled strict off :=
  h.kept ((s.sameBut_answered l a x).feedsKept (by simp))

theorem State.FeedsRuled.foldl {α : Type} {f : State → α → State} (h : s.FeedsRuled strict off)
    (hf : ∀ u x, u.FeedsRuled strict off → (f u x).FeedsRuled strict off) (l : List α) :
    (l.foldl f s).FeedsRuled strict off := by
  induction l generalizing s with
  | nil => exact h
  | cons x l ih => exact ih (hf s x h)

end

end Sys2Proof.Machine
end

section
/-! The laws of zones and feeds through the changes of one zone and its feeds: slips, ATTACH, DETACH, completed reads and
pulses (R126, R127, R147 to R152, R161, R184). -/

namespace Sys2Proof.Machine

/-! ## SSNs between trail and horizon (R13) -/

/-- What lies between a member and the bound lies between base and bound. -/
theorem between_trans {base x y bound : SSN} (hx : between base x bound = true) (hy : between x y bound = true) :
    between base y bound = true := by
  rw [between_iff] at *
  have hspan := distance_lt_of_atOrBefore hx.1
  have hxb := distance_of_base_le hx.2
  refine ⟨hx.1, ?_⟩
  have : distance base y = distance base x + distance x y := by
    have hlt : distance base x + distance x y < 2 ^ 32 := by omega
    unfold distance at *
    bv_omega
  omega

/-- The position that an ATTACH allowed in a set zone gives its feed (R147). -/
theorem between_of_attach {trail horizon start : SSN} (hspan : distance trail horizon < 2 ^ 29)
    (hafter : precedes trail start = true) (hbefore : atOrBefore start (horizon + 1) = true) :
    between trail (start - 1) horizon = true := by
  rw [precedes_iff] at hafter
  have hle := distance_lt_of_atOrBefore hbefore
  rw [between_iff]
  refine ⟨atOrBefore_of_distance_lt (by omega), ?_⟩
  unfold distance at *
  bv_omega

/-! ## One zone after a change (R125) -/

section
variable {strict : Prop} {off off' : List (Fin 8)} {s t : State} {su : Setup} {z : Fin 24}

/-- A trail recomputed from lasts that lie between trail and horizon. -/
theorem State.zoneLawful_recomputed {tl : Timeline} {x : SSN} (hleast : least (t.lasts su z) = some x)
    (hspread : distance tl.trail tl.horizon ≤ su.spreadMax)
    (hfeeds : ∀ f p, (t.feed f).status = .attached p → su.feedZone f = some z →
      between tl.trail p.last tl.horizon = true ∧ p.Awaits (t.feed f).inFlight tl.horizon) :
    t.ZoneLawful su z (tl.recomputed x).trail (tl.recomputed x).horizon := by
  have hwithin : t.LastsWithin su z tl := fun f p hp hz => (hfeeds f p hp hz).1
  obtain ⟨htrail, hmem, hdist, hbounds⟩ := Timeline.trail_recomputed_of_between hleast hwithin.lasts
  rw [htrail, Timeline.horizon_recomputed]
  refine ⟨hdist.trans hspread, ?_, fun f p hp hz => ⟨hbounds _ (State.mem_lasts.mpr ⟨f, p, hp, hz, rfl⟩), (hfeeds f p hp hz).2⟩⟩
  obtain ⟨f, p, hp, hz, hlast⟩ := State.mem_lasts.mp hmem
  exact ⟨f, p, hp, hz, hlast⟩

/-- Only one zone and feeds of it have changed. -/
theorem State.FeedsRuled.of_zone (h : s.FeedsRuled strict off) (hsu : s.ps.run = .running su) (z : Fin 24)
    (hrun : t.ps.run = s.ps.run) (hzones : ∀ k, k ≠ z → (t.zone k).timeline = (s.zone k).timeline)
    (hfeeds : ∀ f, su.feedZone f ≠ some z → t.feed f = s.feed f)
    (hset : (t.zone z).timeline.isSome = true ↔ ∃ f p, (t.feed f).status = .attached p ∧ su.feedZone f = some z)
    (hlawful : strict → s.FeedsPlaced su → s.FeedsLawful su off → t.ReadsAtLanes su off' ∧ t.HeldApart off' ∧
      ∀ tl, (t.zone z).timeline = some tl → t.ZoneLawful su z tl.trail tl.horizon) :
    t.FeedsRuled strict off' := by
  obtain ⟨hplaced, hruled⟩ := h.running su hsu
  refine ⟨fun su' hsu' => ?_, fun hstopped => ?_⟩
  · obtain rfl : su = su' := by
      rw [hrun, hsu] at hsu'
      exact RunState.running.inj hsu'
    refine ⟨⟨fun k => ?_, fun f p hp => ?_⟩, fun hs => ?_⟩
    · by_cases hk : k = z
      · rw [hk]
        exact hset
      · rw [hzones k hk, hplaced.set k]
        refine exists_congr fun f => exists_congr fun p => and_congr_left fun hz => ?_
        rw [hfeeds f (by rw [hz]; simpa using hk)]
    · by_cases hz : su.feedZone f = some z
      · rw [hz]
        rfl
      · rw [hfeeds f hz] at hp
        exact hplaced.zoned f p hp
    · obtain ⟨hreads, hheld, hzone⟩ := hlawful hs hplaced (hruled hs)
      refine ⟨(hruled hs).limits, hreads, hheld, fun k tl htl => ?_⟩
      by_cases hk : k = z
      · subst hk
        exact hzone tl htl
      · rw [hzones k hk] at htl
        exact ((hruled hs).zones k tl htl).of_feeds fun f hf => hfeeds f (by rw [hf]; simpa using hk)
  · rw [State.isRunning, hrun, hsu] at hstopped
    cases hstopped

/-- Reads at lanes that have not changed, of feeds each as before or without a read that counts. -/
theorem State.ReadsAtLanes.of_lanes (h : s.ReadsAtLanes su off) (lanes : t.la.lanes = s.la.lanes)
    (hfeeds : ∀ f rd, (t.feed f).inFlight = some rd → rd.counting = true → (s.feed f).inFlight = some rd ∧
      ((∃ p, (s.feed f).status = .attached p) → ∃ p, (t.feed f).status = .attached p)) : t.ReadsAtLanes su off := by
  intro f rd hrd hc
  obtain ⟨hold, hattached⟩ := hfeeds f rd hrd hc
  obtain ⟨hp, l, a, hl, hoff, ha, hkind⟩ := h f rd hold hc
  refine ⟨hattached hp, l, a, hl, hoff, ?_, hkind⟩
  simp only [State.Presents, State.lane, lanes] at ha ⊢
  exact ha

theorem State.HeldApart.of_lanes (h : s.HeldApart off) (lanes : t.la.lanes = s.la.lanes) (rg : t.rg = s.rg) :
    t.HeldApart off := by
  intro x hx
  rw [rg] at hx
  simp only [State.lane, lanes]
  exact h x hx

/-- The feeds keep next and last, zones, lanes and held list are as before; a read in flight may go that does not count. -/
theorem State.FeedsRuled.of_positions (h : s.FeedsRuled strict off) (hrun : t.ps.run = s.ps.run)
    (htimelines : ∀ z, (t.zone z).timeline = (s.zone z).timeline) (lanes : t.la.lanes = s.la.lanes) (rg : t.rg = s.rg)
    (hkeeps : ∀ f p, (s.feed f).status = .attached p → ∃ q, (t.feed f).status = .attached q)
    (hcomes : ∀ f q, (t.feed f).status = .attached q →
      ∃ p, (s.feed f).status = .attached p ∧ q.next = p.next ∧ q.last = p.last)
    (hflight : strict → ∀ f, (t.feed f).inFlight = (s.feed f).inFlight ∨
      ((t.feed f).inFlight = none ∧ ∀ rd, (s.feed f).inFlight = some rd → rd.counting = false)) :
    t.FeedsRuled strict off := by
  have hattached : ∀ f, (∃ p, (t.feed f).status = .attached p) ↔ ∃ p, (s.feed f).status = .attached p := fun f =>
    ⟨fun ⟨q, hq⟩ => (hcomes f q hq).imp fun _ hp => hp.1, fun ⟨p, hp⟩ => hkeeps f p hp⟩
  refine ⟨fun su hsu => ?_, fun hstopped => ?_⟩
  · rw [hrun] at hsu
    obtain ⟨hplaced, hruled⟩ := h.running su hsu
    refine ⟨⟨fun z => ?_, fun f q hq => ?_⟩, fun hs => ?_⟩
    · rw [htimelines, hplaced.set]
      refine exists_congr fun f => ?_
      rw [exists_and_right, exists_and_right, hattached]
    · obtain ⟨p, hp⟩ := (hattached f).mp ⟨q, hq⟩
      exact hplaced.zoned f p hp
    · obtain ⟨hlimits, hreads, hheld, hzones⟩ := hruled hs
      refine ⟨hlimits, hreads.of_lanes lanes fun f rd hrd hc => ?_, hheld.of_lanes lanes rg, fun z tl htl => ?_⟩
      · rcases hflight hs f with hsame | ⟨hnone, _⟩
        · exact ⟨hsame ▸ hrd, (hattached f).mpr⟩
        · rw [hnone] at hrd
          cases hrd
      · rw [htimelines] at htl
        obtain ⟨hspread, ⟨f, p, hp, hz, htrail⟩, hfeeds⟩ := hzones z tl htl
        refine ⟨hspread, ?_, fun k q hq hk => ?_⟩
        · obtain ⟨q, hq⟩ := hkeeps f p hp
          obtain ⟨p', hp', _, hlast⟩ := hcomes f q hq
          obtain rfl : p = p' := FeedStatus.attached.inj (hp.symm.trans hp')
          exact ⟨f, q, hq, hz, hlast.trans htrail⟩
        · obtain ⟨p, hp, hnext, hlast⟩ := hcomes k q hq
          obtain ⟨hbetween, hresting, hreading⟩ := hfeeds k p hp hk
          rcases hflight hs k with hsame | ⟨hnone, hidle⟩
          · rw [hsame, hlast]
            exact ⟨hbetween, fun hr => by rw [hnext, hlast]; exact hresting hr,
              fun rd hrd hc => by rw [hnext, hlast]; exact hreading rd hrd hc⟩
          · rw [hnone, hlast]
            exact ⟨hbetween, fun _ => by rw [hnext, hlast]; exact hresting hidle, nofun⟩
  · rw [State.isRunning, hrun] at hstopped
    obtain ⟨hunset, hapart⟩ := h.stopped hstopped
    exact ⟨fun z => (htimelines z).trans (hunset z), fun f q hq => by
      obtain ⟨p, hp⟩ := (hattached f).mp ⟨q, hq⟩
      exact hapart f p hp⟩

end

/-! ## Feeds that leave (R149 to R151) -/

section
variable {strict : Prop} {off : List (Fin 8)} {s t : State} {su : Setup} {f : Fin 32} {p : Position} {target : FeedStatus}
  {reason : FeedReason}

/-- A feed leaves: its zone keeps a trail from those that stay, or is unset. -/
theorem State.FeedsRuled.leaveAttached (h : s.FeedsRuled strict off) (hsu : s.ps.run = .running su)
    (hp : (s.feed f).status = .attached p) (htarget : ∀ q, target ≠ .attached q) :
    (s.leaveAttached su f p target reason).FeedsRuled strict off := by
  obtain ⟨hplaced, hruled⟩ := h.running su hsu
  obtain ⟨z, hz⟩ := Option.isSome_iff_exists.mp (hplaced.zoned f p hp)
  obtain ⟨tl, htl⟩ := Option.isSome_iff_exists.mp ((hplaced.set z).mpr ⟨f, p, hp, hz⟩)
  have hscheduled := s.scheduled_leaveAttached su f p target reason
  have hfeed := s.feed_leaveAttached (su := su) (f := f) (p := p) (target := target) (reason := reason)
  obtain ⟨hzones, halone, hfollowed⟩ := s.leaveAttached_zones (p := p) (reason := reason) hz htarget
  generalize s.leaveAttached su f p target reason = t at *
  have hrest : ∀ k, k ≠ f → t.feed k = s.feed k := fun k hk => by rw [hfeed, if_neg hk]
  have hleft : ∀ q, (t.feed f).status ≠ .attached q := fun q => by
    rw [hfeed, if_pos rfl]
    exact htarget q
  have hothers := State.attachedFeeds_of_left (su := su) (z := z) hleft hrest
  have hlasts : ((s.attachedFeeds su z).filter (fun k => k != f)).filterMap
      (fun k => (s.feed k).status.position?.map (·.last)) = t.lasts su z := by
    rw [State.lasts, hothers]
    exact (State.lasts_of_left hrest).symm
  rw [hlasts, ← hothers] at hfollowed
  rw [← hothers] at halone
  have htimeline : ∀ x, (t.zone z).timeline = some x → t.attachedFeeds su z ≠ [] := fun x hx hempty => by
    rw [(halone hempty).1] at hx
    cases hx
  refine h.of_zone hsu z (congrArg PlanShadow.run hscheduled.ps) (fun k hk => by rw [hzones k hk])
    (fun k hk => hrest k fun e => hk (e ▸ hz)) ⟨fun hsome => ?_, fun ⟨k, q, hq, hk⟩ => ?_⟩ fun hs _ hlawful => ?_
  · obtain ⟨x, hx⟩ := Option.isSome_iff_exists.mp hsome
    obtain ⟨k, hk⟩ := List.exists_mem_of_ne_nil _ (htimeline x hx)
    obtain ⟨hkz, q, hq⟩ := State.mem_attachedFeeds.mp hk
    exact ⟨k, q, hq, hkz⟩
  · obtain ⟨x, _, hzone⟩ := hfollowed (List.ne_nil_of_mem (State.mem_attachedFeeds.mpr ⟨hk, q, hq⟩))
    rw [hzone, htl]
    rfl
  · obtain ⟨_, hreads, hheld, hzonesLawful⟩ := hlawful
    have hla := hscheduled.la
    refine ⟨hreads.of_lanes (congrArg LaneArbiter.lanes hla) fun k rd hrd hc => ?_,
      hheld.of_lanes (congrArg LaneArbiter.lanes hla) hscheduled.rg, fun x hx => ?_⟩
    · by_cases hk : k = f
      · rw [hfeed, if_pos hk] at hrd
        obtain ⟨rd', _, rfl⟩ := Option.map_eq_some_iff.mp hrd
        cases hc
      · rw [hrest k hk] at hrd ⊢
        exact ⟨hrd, id⟩
    · obtain ⟨hspread, _, hfeeds⟩ := hzonesLawful z tl htl
      obtain ⟨y, hy, hzone⟩ := hfollowed (htimeline x hx)
      obtain rfl : tl.recomputed y = x := by
        rw [hzone, htl] at hx
        exact Option.some.inj hx
      refine State.zoneLawful_recomputed hy hspread fun k q hq hk => ?_
      have hkf : k ≠ f := fun e => hleft q (e ▸ hq)
      rw [hrest k hkf] at hq ⊢
      exact hfeeds k q hq hk

theorem State.FeedsRuled.slip (h : s.FeedsRuled strict off) (hsu : s.ps.run = .running su) (reason : FeedReason) (f : Fin 32) :
    (s.slip su reason f).FeedsRuled strict off := by
  unfold State.slip
  split
  · next p hp => exact h.leaveAttached hsu hp (by simp)
  · exact h

theorem State.run_slip (s : State) (su : Setup) (reason : FeedReason) (f : Fin 32) :
    (s.slip su reason f).ps.run = s.ps.run :=
  congrArg PlanShadow.run (s.scheduled_slip su reason f).ps

theorem State.FeedsRuled.slipAll (h : s.FeedsRuled strict off) (hsu : s.ps.run = .running su) (reason : FeedReason)
    (feeds : List (Fin 32)) : (s.slipAll su reason feeds).FeedsRuled strict off := by
  unfold State.slipAll
  induction feeds generalizing s with
  | nil => exact h
  | cons f feeds ih => exact ih (h.slip hsu reason f) ((s.run_slip su reason f).trans hsu)

theorem State.FeedsRuled.detachFeed (h : s.FeedsRuled strict off) (hsu : s.ps.run = .running su) (f : Fin 32) :
    (s.detachFeed su f).FeedsRuled strict off := by
  cases hstatus : (s.feed f).status with
  | attached p =>
    rw [State.detachFeed_of_attached hstatus]
    exact h.leaveAttached hsu hstatus (by simp)
  | slipped =>
    obtain ⟨hfeed, hrest, _, hsame⟩ := State.feedChanged_detachFeed (su := su) hstatus
    have hattached : ∀ k q, ((s.detachFeed su f).feed k).status = .attached q ↔ (s.feed k).status = .attached q := fun k q => by
      by_cases hk : k = f
      · rw [hk, hfeed, hstatus]
        simp
      · rw [hrest k hk]
    refine h.of_positions (congrArg PlanShadow.run (hsame .ps (by simp))) (fun z => by rw [State.zone_congr (hsame .zs (by simp))])
      (congrArg LaneArbiter.lanes (hsame .la (by simp))) (hsame .rg (by simp))
      (fun k q hq => ⟨q, (hattached k q).mpr hq⟩) (fun k q hq => ⟨q, (hattached k q).mp hq, rfl, rfl⟩) fun _ k => .inl ?_
    by_cases hk : k = f
    · rw [hk, hfeed]
    · rw [hrest k hk]
  | detached =>
    have hstay : s.detachFeed su f = s := by simp [State.detachFeed, hstatus]
    rw [hstay]
    exact h

end

/-! ## ATTACH (R127, R147) -/

section
variable {strict : Prop} {off : List (Fin 8)} {s : State} {su : Setup} {f : Fin 32} {start : SSN}

theorem Position.awaits_startingAt {flight : Option InFlight} {horizon : SSN}
    (h : ∀ rd, flight = some rd → rd.counting = false) : (Position.startingAt start).Awaits flight horizon where
  resting := fun _ => (BitVec.sub_add_cancel start 1).symm
  reading := fun rd hrd hc => by
    rw [h rd hrd] at hc
    cases hc

theorem State.FeedsRuled.attachFeed (h : s.FeedsRuled strict off) (hsu : s.ps.run = .running su)
    (haccepted : s.attachResult su f start = .accepted) : (s.attachFeed su f start).FeedsRuled strict off := by
  obtain ⟨hplaced, _⟩ := h.running su hsu
  have hbefore : ∀ p, (s.feed f).status ≠ .attached p := fun p hp => by
    rw [State.attachResult_of_attached hp] at haccepted
    cases haccepted
  cases hz : su.feedZone f with
  | none =>
    have hstay : s.attachFeed su f start = s := by simp [State.attachFeed, hz]
    rw [hstay]
    exact h
  | some z =>
    rw [State.attachResult_of_not_attached hbefore hz] at haccepted
    have hrange : ∀ t, (s.zone z).timeline = some t → precedes t.trail start = true ∧ atOrBefore start (t.horizon + 1) = true := by
      by_contra hnot
      rw [if_neg hnot] at haccepted
      cases haccepted
    obtain ⟨hfeed, hrest, hzones, _, _, hsame⟩ := s.attachFeed_spec (start := start) hz hbefore
    obtain ⟨hsetZone, hnewZone, hotherZones, _⟩ := s.zoneSetFor_spec z start
    generalize s.attachFeed su f start = t at *
    refine h.of_zone hsu z (congrArg PlanShadow.run (hsame .ps (by simp))) (fun k hk => by rw [hzones, hotherZones k hk])
      (fun k hk => hrest k fun e => hk (e ▸ hz)) (iff_of_true ?_ ⟨f, _, by rw [hfeed], hz⟩) fun hs _ hlawful => ?_
    · rw [hzones]
      cases htl : (s.zone z).timeline with
      | none => rw [hnewZone htl]; rfl
      | some tl => rw [hsetZone tl htl, htl]; rfl
    · obtain ⟨hlimits, hreads, hheld, hzonesLawful⟩ := hlawful
      have hlanes := congrArg LaneArbiter.lanes (hsame .la (by simp))
      have hidle : ∀ rd, (t.feed f).inFlight = some rd → rd.counting = false := fun rd hrd => by
        rw [hfeed] at hrd
        by_contra hc
        obtain ⟨⟨p, hp⟩, _⟩ := hreads f rd hrd (by simpa using hc)
        exact hbefore p hp
      refine ⟨hreads.of_lanes hlanes fun k rd hrd hc => ?_, hheld.of_lanes hlanes (hsame .rg (by simp)), fun tl htl => ?_⟩
      · by_cases hk : k = f
        · rw [hk] at hrd
          rw [hidle rd hrd] at hc
          cases hc
        · rw [hrest k hk] at hrd ⊢
          exact ⟨hrd, id⟩
      · rw [hzones] at htl
        have hself : ∀ p, (t.feed f).status = .attached p → p = Position.startingAt start := fun p hp => by
          rw [hfeed] at hp
          exact (FeedStatus.attached.inj hp).symm
        cases hold : (s.zone z).timeline with
        | none =>
          rw [hnewZone hold] at htl
          obtain rfl : Timeline.startingAt start = tl := Option.some.inj htl
          have hspan : distance (start - 1) (start - 1) = 0 := (distance_eq_zero_iff _ _).mpr rfl
          refine ⟨hspan.le.trans (Nat.zero_le _), ⟨f, _, by rw [hfeed], hz, rfl⟩, fun k q hq hk => ?_⟩
          obtain rfl : k = f := by
            by_contra hkf
            rw [hrest k hkf] at hq
            have := (hplaced.set z).mpr ⟨k, q, hq, hk⟩
            rw [hold] at this
            cases this
          rw [hself q hq]
          exact ⟨(between_iff ..).mpr ⟨(atOrBefore_iff ..).mpr (.inl rfl), le_rfl⟩, Position.awaits_startingAt hidle⟩
        | some tl' =>
          rw [hsetZone tl' hold, hold] at htl
          obtain rfl := Option.some.inj htl
          obtain ⟨hspread, ⟨k, q, hq, hk, hlast⟩, hfeeds⟩ := hzonesLawful z tl' hold
          obtain ⟨hafter, hupto⟩ := hrange tl' hold
          have hne : ∀ k q, (s.feed k).status = .attached q → k ≠ f := fun k q hq e => hbefore q (e ▸ hq)
          refine ⟨hspread, ⟨k, q, by rw [hrest k (hne k q hq)]; exact hq, hk, hlast⟩, fun j r hr hj => ?_⟩
          by_cases hjf : j = f
          · subst hjf
            rw [hself r hr]
            exact ⟨between_of_attach (by omega) hafter hupto, Position.awaits_startingAt hidle⟩
          · rw [hrest j hjf] at hr ⊢
            exact hfeeds j r hr hj

end

/-! ## Reads that complete, and pulses (R161 to R163, R184) -/

section
variable {strict : Prop} {off : List (Fin 8)} {s : State} {su : Setup} {f : Fin 32}

theorem State.FeedsRuled.viewReadSettled (h : s.FeedsRuled strict off) (hsu : s.ps.run = .running su) {rd : InFlight}
    (hrd : (s.feed f).inFlight = some rd) : (s.viewReadSettled su f rd).FeedsRuled strict off := by
  obtain ⟨hplaced, hruled⟩ := h.running su hsu
  have hsame := State.sameBut_viewReadSettled (s := s) (su := su) (f := f) (rd := rd)
  have hlanes := congrArg LaneArbiter.lanes (hsame .la (by simp))
  have hrun := congrArg PlanShadow.run (hsame .ps (by simp))
  obtain ⟨hnone, hrest⟩ := State.feed_viewReadSettled (s := s) (su := su) (f := f) (rd := rd)
  by_cases hapart : rd.counting = false ∨ ∀ p, (s.feed f).status ≠ .attached p
  · have hsettled := State.viewReadSettled_of_apart (s := s) (su := su) (f := f) (rd := rd) (hapart.imp id .inl)
    have hstatus : ∀ k, ((s.viewReadSettled su f rd).feed k).status = (s.feed k).status := fun k => by
      by_cases hk : k = f
      · rw [hsettled, hk, State.feed_setFeed]
      · rw [hrest k hk]
    refine h.of_positions hrun (fun z => by rw [hsettled]; rfl) hlanes (hsame .rg (by simp))
      (fun k q hq => ⟨q, (hstatus k).trans hq⟩) (fun k q hq => ⟨q, (hstatus k).symm.trans hq, rfl, rfl⟩) fun hs k => ?_
    by_cases hk : k = f
    · subst hk
      refine .inr ⟨hnone, fun rd' hrd' => ?_⟩
      obtain rfl := Option.some.inj (hrd.symm.trans hrd')
      refine hapart.elim id fun hdetached => ?_
      by_contra hc
      obtain ⟨⟨p, hp⟩, _⟩ := (hruled hs).reads k rd hrd (by simpa using hc)
      exact hdetached p hp
    · exact .inl (by rw [hrest k hk])
  · rw [not_or, Bool.not_eq_false, not_forall_not] at hapart
    obtain ⟨hc, p, hp⟩ := hapart
    obtain ⟨z, hz⟩ := Option.isSome_iff_exists.mp (hplaced.zoned f p hp)
    obtain ⟨tl, htl⟩ := Option.isSome_iff_exists.mp ((hplaced.set z).mpr ⟨f, p, hp, hz⟩)
    obtain ⟨hself, hzones, _, hfollowed⟩ := State.viewReadSettled_attached hc hp hz
    generalize s.viewReadSettled su f rd = t at *
    obtain ⟨x, hx, hzone⟩ := hfollowed.zone
    have hx : least (t.lasts su z) = some x := hx
    have htimeline : (t.zone z).timeline = some (tl.recomputed x) := by
      rw [hzone]
      show (s.zone z).timeline.map _ = _
      rw [htl]
      rfl
    refine h.of_zone hsu z hrun (fun k hk => by rw [hzones k hk]) (fun k hk => hrest k fun e => hk (e ▸ hz))
      (iff_of_true (by rw [htimeline]; rfl) ⟨f, _, hself, hz⟩) fun hs _ hlawful => ?_
    obtain ⟨_, hreads, hheld, hzonesLawful⟩ := hlawful
    refine ⟨hreads.of_lanes hlanes fun k rd' hrd' _ => ?_, hheld.of_lanes hlanes (hsame .rg (by simp)), fun y hy => ?_⟩
    · by_cases hk : k = f
      · rw [hk, hnone] at hrd'
        cases hrd'
      · rw [hrest k hk] at hrd' ⊢
        exact ⟨hrd', id⟩
    · obtain rfl : tl.recomputed x = y := Option.some.inj (htimeline.symm.trans hy)
      obtain ⟨hspread, _, hfeeds⟩ := hzonesLawful z tl htl
      refine State.zoneLawful_recomputed hx hspread fun k q hq hk => ?_
      by_cases hkf : k = f
      · subst hkf
        obtain ⟨hbetween, _, hreading⟩ := hfeeds k p hp hz
        obtain ⟨hnext, hssn⟩ := hreading rd hrd hc
        obtain rfl := FeedStatus.attached.inj (hself.symm.trans hq)
        rw [hnone]
        exact ⟨between_trans hbetween hssn, fun _ => hnext, nofun⟩
      · rw [hrest k hkf] at hq ⊢
        exact hfeeds k q hq hk

theorem State.FeedsRuled.completeViewRead (h : s.FeedsRuled strict off) (hsu : s.ps.run = .running su) {rd : InFlight}
    (hrd : (s.feed f).inFlight = some rd) : (s.completeViewRead su f rd).FeedsRuled strict off :=
  (h.viewReadSettled hsu hrd).examine su

theorem State.FeedsRuled.settleStalls (h : s.FeedsRuled strict off) (checked : Bool) :
    (s.settleStalls checked).FeedsRuled strict off := by
  have hfeed := s.feed_settleStalls checked
  refine h.of_positions rfl (fun _ => rfl) rfl rfl (fun f p hp => ?_) (fun f q hq => ?_) fun _ f => .inl ?_
  · rw [hfeed, Feed.settleStall, hp]
    exact ⟨_, rfl⟩
  · rw [hfeed] at hq
    cases hstatus : (s.feed f).status with
    | attached p =>
      simp only [Feed.settleStall, hstatus, FeedStatus.attached.injEq] at hq
      subst hq
      exact ⟨p, rfl, rfl, rfl⟩
    | detached => simp [Feed.settleStall, hstatus] at hq
    | slipped => simp [Feed.settleStall, hstatus] at hq
  · rw [hfeed]
    unfold Feed.settleStall
    split <;> rfl

end

end Sys2Proof.Machine
end

section
/-! The laws of zones and feeds through a view read that is served (R154 to R159). -/

namespace Sys2Proof.Machine

/-! ## A horizon that moves on (R13) -/

theorem distance_add_of_lt {a b c : SSN} (h : distance a b + distance b c < 2 ^ 32) :
    distance a c = distance a b + distance b c := by
  unfold distance at *
  bv_omega

/-- What lies between lies between still when the bound moves on. -/
theorem between_of_later {a x bound later : SSN} (h : between a x bound = true)
    (hlater : distance a bound + distance bound later < 2 ^ 31) : between a x later = true := by
  rw [between_iff] at *
  have hsum := distance_add_of_lt (a := a) (b := bound) (c := later) (by omega)
  exact ⟨atOrBefore_of_distance_lt (by omega), by omega⟩

/-- An SSN that does not lie before another by more than `k` is no more than `k` before it. -/
theorem distance_le_of_not_precedes {a n : SSN} {k : Nat} (hspan : distance a n < 2 ^ 31)
    (h : precedes a (n - BitVec.ofNat 32 k) = false) : distance a n ≤ k := by
  by_contra hfar
  rw [← Bool.not_eq_true, precedes_iff] at h
  apply h
  unfold distance at *
  have hk : (BitVec.ofNat 32 k).toNat = k := by
    rw [BitVec.toNat_ofNat, Nat.mod_eq_of_lt (by omega)]
  bv_omega

theorem least_mem {xs : List SSN} {x : SSN} (h : least xs = some x) : x ∈ xs := by
  cases xs with
  | nil => cases h
  | cons a xs =>
    obtain rfl : xs.foldl lesser a = x := Option.some.inj h
    clear h
    induction xs generalizing a with
    | nil => simp
    | cons b xs ih =>
      have hstep := ih (lesser a b)
      rw [List.foldl_cons]
      rcases List.mem_cons.mp hstep with heq | hmem
      · rw [heq, lesser]
        split <;> simp
      · simp [hmem]

/-! ## What a view read names (R154) -/

section
variable {su : Setup} {p : Position} {k : Nat} {n : SSN} {reread : Bool}

/-- A re-read names the last, another read an SSN after it within the jump limit. -/
theorem Setup.interpretRead_reach (hnext : p.next = p.last + 1) (hlimits : 1 ≤ su.spreadMax ∧ su.spreadMax < 2 ^ 29)
    (h : su.interpretRead p k = .serve n reread) :
    (reread = true → n = p.last) ∧ (reread = false → distance p.last n ≤ su.spreadMax) := by
  have hreach : ∀ d ≤ su.spreadMax - 1, distance p.last (ssnAdd p.next d) ≤ su.spreadMax := fun d hd => by
    have hk : (BitVec.ofNat 32 d).toNat = d := by
      rw [BitVec.toNat_ofNat, Nat.mod_eq_of_lt (by omega)]
    rw [ssnAdd, hnext]
    unfold distance
    bv_omega
  have hzero := hreach 0 (by omega)
  rw [show ssnAdd p.next 0 = p.next from BitVec.add_zero _] at hzero
  unfold Setup.interpretRead at h
  dsimp only at h
  split at h
  · cases h
    exact ⟨nofun, fun _ => hzero⟩
  · split at h
    · split at h
      · cases h
        exact ⟨fun _ => rfl, nofun⟩
      · cases h
    · split at h
      · next hd =>
        cases h
        exact ⟨nofun, fun _ => hreach _ (hd.trans (Nat.min_le_right _ _))⟩
      · cases h

end

section
variable {strict : Prop} {off : List (Fin 8)} {s d : State} {su : Setup} {l : Fin 8} {f : Fin 32} {z : Fin 24} {p : Position}
  {n : SSN} {reread : Bool} {tl td : Timeline}

/-! ## What is prepared (R156, R157 step 1) -/

/-- The zone of a feed in RUNNING is set. -/
theorem State.FeedsPlaced.timeline (h : s.FeedsPlaced su) (hp : (s.feed f).status = .attached p) (hz : su.feedZone f = some z) :
    ∃ tl, (s.zone z).timeline = some tl :=
  Option.isSome_iff_exists.mp ((h.set z).mpr ⟨f, p, hp, hz⟩)

/-- The zone after a read that decides slots: those whose last lay too far back have slipped. -/
theorem State.zoneLawful_decided (h : s.ZoneLawful su z tl.trail tl.horizon) (hlimit : su.spreadMax < 2 ^ 29)
    (hp : (s.feed f).status = .attached p) (hz : su.feedZone f = some z) (hreach : distance p.last n ≤ su.spreadMax)
    (hahead : precedes tl.horizon n = true)
    (hslipped : ∀ k, s.SpreadSlips su z f n false tl k → ∀ q, (d.feed k).status ≠ .attached q)
    (hrest : ∀ k, ¬ s.SpreadSlips su z f n false tl k → d.feed k = s.feed k)
    (hnone : (∀ k, ¬ s.SpreadSlips su z f n false tl k) → td.trail = tl.trail)
    (hwithin : d.LastsWithin su z { td with horizon := tl.horizon })
    (hdist : distance td.trail tl.horizon ≤ distance tl.trail tl.horizon)
    (hleast : (∃ k, s.SpreadSlips su z f n false tl k) → least (d.lasts su z) = some td.trail) :
    d.ZoneLawful su z td.trail n := by
  have hstays : ∀ k q, (d.feed k).status = .attached q → ¬ s.SpreadSlips su z f n false tl k ∧ d.feed k = s.feed k :=
    fun k q hq => by
      have hnot := fun hslip => hslipped k hslip q hq
      exact ⟨hnot, hrest k hnot⟩
  have hf : d.feed f = s.feed f := hrest f fun hslip => hslip.2.2.2.1 rfl
  obtain ⟨k, q, hq, hk, htrail⟩ : ∃ k q, (d.feed k).status = .attached q ∧ su.feedZone k = some z ∧ q.last = td.trail := by
    by_cases hslips : ∃ k, s.SpreadSlips su z f n false tl k
    · exact State.mem_lasts.mp (least_mem (hleast hslips))
    · obtain ⟨k, q, hq, hk, htrail⟩ := h.least
      exact ⟨k, q, by rw [hrest k (not_exists.mp hslips k)]; exact hq, hk, htrail.trans (hnone (not_exists.mp hslips)).symm⟩
  have hspread := h.spread
  have hstep := (precedes_iff ..).mp hahead
  have hflast := hwithin f p (by rw [hf]; exact hp) hz
  have hhorizon : distance tl.horizon n ≤ su.spreadMax := by
    have := (between_of_base hflast hflast le_rfl).2
    have := distance_add_of_lt (a := p.last) (b := tl.horizon) (c := n) (by simp only at *; omega)
    omega
  have htrailHorizon := distance_add_of_lt (a := td.trail) (b := tl.horizon) (c := n) (by omega)
  have hnear : distance td.trail n ≤ su.spreadMax := by
    by_cases hkf : k = f
    · subst hkf
      rw [hf, hp] at hq
      obtain rfl := FeedStatus.attached.inj hq
      rw [← htrail]
      exact hreach
    · rw [← htrail] at htrailHorizon hdist ⊢
      by_cases hspan : su.spreadMax < (n - tl.trail).toNat
      · refine distance_le_of_not_precedes (by omega) ?_
        by_contra hlags
        obtain ⟨hnot, hsame⟩ := hstays k q hq
        exact hnot ⟨rfl, hahead, hspan, hkf, hk, q, by rw [← hsame]; exact hq, by simpa using hlags⟩
      · rw [htrail, hnone fun j hslip => hspan hslip.2.2.1]
        exact not_lt.mp hspan
  refine ⟨hnear, ⟨k, q, hq, hk, htrail⟩, fun j r hr hj => ?_⟩
  obtain ⟨_, hsame⟩ := hstays j r hr
  have hlast := hwithin j r hr hj
  have hjHorizon := (between_of_base hlast hlast le_rfl).2
  refine ⟨between_of_later hlast (by simp only at *; omega), ?_⟩
  rw [hsame] at hr ⊢
  obtain ⟨_, hresting, hreading⟩ := h.feeds j r hr hj
  refine ⟨hresting, fun rd hrd hc => ?_⟩
  obtain ⟨hnext, hssn⟩ := hreading rd hrd hc
  exact ⟨hnext, between_of_later hssn (by simp only at *; omega)⟩

/-- The laws hold once a read is prepared, and what it names lies between its feed's last and the horizon. -/
theorem State.FeedsRuled.prepareRead (h : s.FeedsRuled strict off) (hsu : s.ps.run = .running su)
    (hp : (s.feed f).status = .attached p) (hz : su.feedZone f = some z)
    (hreach : strict → (reread = true → n = p.last) ∧ (reread = false → distance p.last n ≤ su.spreadMax)) :
    (s.prepareRead su z f n reread).FeedsRuled strict off ∧ ((s.prepareRead su z f n reread).feed f) = s.feed f ∧
    ∃ td, ((s.prepareRead su z f n reread).zone z).timeline = some td ∧ (strict → between p.last n td.horizon = true) := by
  obtain ⟨hplaced, hruled⟩ := h.running su hsu
  obtain ⟨tl, htl⟩ := hplaced.timeline hp hz
  obtain ⟨⟨td, htd, hhorizon, hnone, hwithin⟩, hfeeds, hzones, hsame⟩ :=
    State.prepareRead_spec (n := n) (reread := reread) hp hz htl
  generalize s.prepareRead su z f n reread = d at *
  have hf : d.feed f = s.feed f := (hfeeds f).2 fun hslip => hslip.2.2.2.1 rfl
  have hlanes := congrArg LaneArbiter.lanes (hsame .la (by simp))
  have huncounted : ∀ k rd, (d.feed k).inFlight = some rd → rd.counting = true → d.feed k = s.feed k := fun k rd hrd hc => by
    by_cases hslip : s.SpreadSlips su z f n reread tl k
    · rw [(hfeeds k).1 hslip] at hrd
      obtain ⟨rd', _, rfl⟩ := Option.map_eq_some_iff.mp hrd
      cases hc
    · exact (hfeeds k).2 hslip
  have hlasts : ∀ hs : strict, s.LastsWithin su z tl := fun hs k q hq hk => (((hruled hs).zones z tl htl).feeds k q hq hk).1
  refine ⟨h.of_zone hsu z (congrArg PlanShadow.run (hsame .ps (by simp))) (fun k hk => by rw [hzones k hk])
    (fun k hk => (hfeeds k).2 fun hslip => hk hslip.2.2.2.2.1)
    (iff_of_true (by rw [htd]; rfl) ⟨f, p, by rw [hf]; exact hp, hz⟩) fun hs _ hlawful => ⟨?_, ?_, fun x hx => ?_⟩,
    hf, td, htd, fun hs => ?_⟩
  · exact hlawful.reads.of_lanes hlanes fun k rd hrd hc => by
      have hold := huncounted k rd hrd hc
      rw [hold] at hrd ⊢
      exact ⟨hrd, id⟩
  · exact hlawful.held.of_lanes hlanes (hsame .rg (by simp))
  · obtain rfl := Option.some.inj (htd.symm.trans hx)
    have hzone := hlawful.zones z tl htl
    by_cases hdecides : reread = false ∧ precedes tl.horizon n = true
    · obtain ⟨rfl, hahead⟩ := hdecides
      obtain ⟨hlast, hdist, hleast⟩ := hwithin (hlasts hs)
      rw [hhorizon, if_pos ⟨rfl, hahead⟩]
      exact State.zoneLawful_decided hzone hlawful.limits.2 hp hz ((hreach hs).2 rfl) hahead
        (fun k hslip q => by rw [(hfeeds k).1 hslip]; simp) (fun k hslip => (hfeeds k).2 hslip) hnone hlast hdist hleast
    · have hnot : ∀ k, ¬ s.SpreadSlips su z f n reread tl k := fun k hslip => hdecides ⟨hslip.1, hslip.2.1⟩
      rw [hhorizon, if_neg hdecides, hnone hnot]
      exact hzone.of_feeds fun k _ => (hfeeds k).2 (hnot k)
  · have hlast := hlasts hs f p hp hz
    have hspan := ((hruled hs).zones z tl htl).spread
    have hlimit := (hruled hs).limits.2
    have hrange := (between_of_base hlast hlast le_rfl).2
    obtain ⟨hagain, hnew⟩ := hreach hs
    rw [hhorizon, between_iff]
    cases reread with
    | true =>
      rw [if_neg (by simp), hagain rfl, (distance_eq_zero_iff p.last p.last).mpr rfl]
      exact ⟨atOrBefore_of_distance_lt (by omega), Nat.zero_le _⟩
    | false =>
      have hnear := hnew rfl
      by_cases hahead : precedes tl.horizon n = true
      · rw [if_pos ⟨rfl, hahead⟩]
        exact ⟨atOrBefore_of_distance_lt (by omega), le_rfl⟩
      · rw [if_neg (by simp [hahead])]
        refine ⟨atOrBefore_of_distance_lt (by omega), ?_⟩
        by_contra hfar
        refine hahead ((precedes_iff ..).mpr ?_)
        rw [distance_of_base_le (base := p.last) (by omega)]
        omega

end

end Sys2Proof.Machine
end

section
/-! The laws of zones and feeds through the taking of requests and the end of a completion (R18, R85, R157 to R159, R170). -/

namespace Sys2Proof.Machine

section
variable {strict : Prop} {off : List (Fin 8)} {s t d : State} {su : Setup} {l : Fin 8} {f : Fin 32} {z : Fin 24}
  {p : Position} {n : SSN} {reread : Bool} {td : Timeline} {r : Request}

/-! ## Serving a view read (R157 to R159) -/

/-- While its lane is in hand a feed has no read that counts, so its next follows its last. -/
theorem State.FeedsLawful.resting (h : s.FeedsLawful su [l]) (hlane : su.feedLane f = some l) :
    ∀ rd, (s.feed f).inFlight = some rd → rd.counting = false := fun rd hrd => by
  by_contra hc
  obtain ⟨_, k, _, hk, hoff, _⟩ := h.reads f rd hrd (by simpa using hc)
  obtain rfl := Option.some.inj (hlane.symm.trans hk)
  simp at hoff

theorem State.FeedsLawful.next_eq (h : s.FeedsLawful su [l]) (hplaced : s.FeedsPlaced su) (hlane : su.feedLane f = some l)
    (hp : (s.feed f).status = .attached p) (hz : su.feedZone f = some z) : p.next = p.last + 1 := by
  obtain ⟨tl, htl⟩ := hplaced.timeline hp hz
  exact ((h.zones z tl htl).feeds f p hp hz).2.resting (h.resting hlane)

theorem Position.next_movedOn (hnext : p.next = p.last + 1) (hagain : reread = true → n = p.last) :
    (p.movedOn n reread).next = n + 1 := by
  cases reread with
  | true => exact hnext.trans (by rw [hagain rfl])
  | false => rfl

/-- A null cell completes the read at once: the feed moves on, its zone's trail follows. -/
theorem State.FeedsRuled.completedRead (h : d.FeedsRuled strict [l]) (hsu : d.ps.run = .running su)
    (hp : (d.feed f).status = .attached p) (hz : su.feedZone f = some z) (hlane : su.feedLane f = some l)
    (htd : (d.zone z).timeline = some td) (hn : strict → between p.last n td.horizon = true)
    (hagain : strict → reread = true → n = p.last) :
    ((d.moveNext f n reread).completeFeed su f n).FeedsRuled strict [l] := by
  obtain ⟨hfeeds, hzones, _, _, hfollowed, hsame⟩ := State.completed_spec (n := n) (reread := reread) hp hz htd
  generalize (d.moveNext f n reread).completeFeed su f n = t at *
  obtain ⟨x, hx, hzone⟩ := hfollowed.zone
  have hx : least (t.lasts su z) = some x := hx
  have htimeline : (t.zone z).timeline = some (td.recomputed x) := by
    rw [hzone]
    show (d.zone z).timeline.map _ = _
    rw [htd]
    rfl
  have hf := (hfeeds f).trans (if_pos rfl)
  have hrest : ∀ k, k ≠ f → t.feed k = d.feed k := fun k hk => (hfeeds k).trans (if_neg hk)
  have hlanes := congrArg LaneArbiter.lanes (hsame .la (by simp))
  refine h.of_zone hsu z (congrArg PlanShadow.run (hsame .ps (by simp))) (fun k hk => by rw [hzones k hk])
    (fun k hk => hrest k fun e => hk (e ▸ hz)) (iff_of_true (by rw [htimeline]; rfl) ⟨f, _, by rw [hf], hz⟩)
    fun hs hplaced hlawful => ⟨?_, hlawful.held.of_lanes hlanes (hsame .rg (by simp)), fun y hy => ?_⟩
  · refine hlawful.reads.of_lanes hlanes fun k rd hrd hc => ?_
    by_cases hk : k = f
    · rw [hk, hf] at hrd
      exact ⟨hk ▸ hrd, fun _ => ⟨_, by rw [hk, hf]⟩⟩
    · rw [hrest k hk] at hrd ⊢
      exact ⟨hrd, id⟩
  · obtain rfl := Option.some.inj (htimeline.symm.trans hy)
    have hzoneLawful := hlawful.zones z td htd
    have hresting := hlawful.resting hlane
    refine State.zoneLawful_recomputed hx hzoneLawful.spread fun k q hq hk => ?_
    by_cases hkf : k = f
    · subst hkf
      rw [hf] at hq ⊢
      obtain rfl := FeedStatus.attached.inj hq
      refine ⟨between_trans (hzoneLawful.feeds k p hp hk).1 (hn hs), fun _ => ?_, fun rd hrd hc => ?_⟩
      · exact Position.next_movedOn (hlawful.next_eq hplaced hlane hp hk) (hagain hs)
      · rw [hresting rd hrd] at hc
        cases hc
    · rw [hrest k hkf] at hq ⊢
      exact hzoneLawful.feeds k q hq hk

/-- A ring cell's read is in flight, and stands at its feed's lane. -/
theorem State.FeedsRuled.redirect (h : d.FeedsRuled strict [l]) (hsu : d.ps.run = .running su)
    (hp : (d.feed f).status = .attached p) (hz : su.feedZone f = some z) (hlane : su.feedLane f = some l)
    (htd : (d.zone z).timeline = some td) (hn : strict → between p.last n td.horizon = true)
    (hagain : strict → reread = true → n = p.last) (link : Bool) (ring : RingId) (tag : Option Tag) (brk : Bool) :
    ((d.moveNext f n reread).redirect su l f n link ring tag brk).FeedsRuled strict [] := by
  have hmoved := State.feed_moveNext (n := n) (reread := reread) hp
  have heq := d.moveNext_eq f n reread
  have hmove : d.SameBut (d.moveNext f n reread) [.vr] := by
    rw [heq]
    exact d.sameBut_vr _
  have hfeeds : ∀ k, ((d.moveNext f n reread).redirect su l f n link ring tag brk).feed k = if k = f then
      { status := .attached (p.movedOn n reread)
        inFlight := some { ssn := n, ring := ring, addr := BitVec.ofNat 36 (su.slotAddr ring (su.slotOf ring n)),
                           patchTag := tag, setBreak := brk, counting := true } } else d.feed k := fun k => by
    refine (State.feed_setFeed_eq _ _ _ _).trans ?_
    by_cases hk : k = f
    · rw [if_pos hk.symm, if_pos hk, hmoved, if_pos rfl]
      rfl
    · rw [if_neg (Ne.symm hk), if_neg hk, hmoved, if_neg hk]
  have hlanes : ∀ k : Fin 8, k ∉ [l] →
      ((d.moveNext f n reread).redirect su l f n link ring tag brk).lane (ext k) = d.lane (ext k) := fun k hk => by
    refine (State.lane_setLane_of_ne _ _ fun e => hk (by rw [ext_inj.mp e]; simp)).trans ?_
    exact congrArg (fun x : LaneArbiter => x.lanes[ext k]) (hmove .la (by simp))
  have hown : ((d.moveNext f n reread).redirect su l f n link ring tag brk).Presents (ext l)
      (su.redirectAccess f n link ring) := congrArg LaneState.presented? (State.lane_setLane _ _ _)
  have hzs : ((d.moveNext f n reread).redirect su l f n link ring tag brk).zs = d.zs := hmove .zs (by simp)
  have hrun : ((d.moveNext f n reread).redirect su l f n link ring tag brk).ps.run = d.ps.run :=
    congrArg PlanShadow.run (hmove .ps (by simp))
  have hrg : ((d.moveNext f n reread).redirect su l f n link ring tag brk).rg = d.rg := hmove .rg (by simp)
  generalize (d.moveNext f n reread).redirect su l f n link ring tag brk = t at *
  have hf := (hfeeds f).trans (if_pos rfl)
  have hrest : ∀ k, k ≠ f → t.feed k = d.feed k := fun k hk => (hfeeds k).trans (if_neg hk)
  have htimeline : (t.zone z).timeline = some td := by rw [State.zone_congr hzs, htd]
  refine h.of_zone hsu z hrun (fun k _ => by rw [State.zone_congr hzs]) (fun k hk => hrest k fun e => hk (e ▸ hz))
    (iff_of_true (by rw [htimeline]; rfl) ⟨f, _, by rw [hf], hz⟩) fun hs hplaced hlawful => ⟨fun k rd hrd hc => ?_,
      fun x hx => ?_, fun y hy => ?_⟩
  · by_cases hk : k = f
    · subst hk
      exact ⟨⟨_, by rw [hf]⟩, l, _, hlane, by simp, hown, rfl⟩
    · rw [hrest k hk] at hrd ⊢
      obtain ⟨hq, j, a, hj, hoff, ha, hkind⟩ := hlawful.reads k rd hrd hc
      refine ⟨hq, j, a, hj, by simp, ?_, hkind⟩
      rw [State.Presents, hlanes j hoff]
      exact ha
  · rw [hrg] at hx
    obtain ⟨hoff, hapart⟩ := hlawful.held x hx
    rw [hlanes x.lane hoff]
    exact ⟨by simp, hapart⟩
  · obtain rfl := Option.some.inj (htimeline.symm.trans hy)
    obtain ⟨hspread, ⟨k, q, hq, hk, htrail⟩, hlaws⟩ := hlawful.zones z td htd
    refine ⟨hspread, ?_, fun j q hq hj => ?_⟩
    · by_cases hkf : k = f
      · subst hkf
        obtain rfl := FeedStatus.attached.inj (hp.symm.trans hq)
        exact ⟨k, p.movedOn n reread, by rw [hf], hk, htrail⟩
      · exact ⟨k, q, by rw [hrest k hkf]; exact hq, hk, htrail⟩
    · by_cases hjf : j = f
      · subst hjf
        rw [hf] at hq ⊢
        obtain rfl := FeedStatus.attached.inj hq
        refine ⟨(hlaws j p hp hj).1, fun hr => ?_, fun rd hrd _ => ?_⟩
        · exact absurd (hr _ rfl) (by simp)
        · obtain rfl := Option.some.inj hrd
          exact ⟨Position.next_movedOn (hlawful.next_eq hplaced hlane hp hj) (hagain hs), hn hs⟩
      · rw [hrest j hjf] at hq ⊢
        exact hlaws j q hq hj

theorem State.FeedsRuled.answer (h : s.FeedsRuled strict [l]) (x : Status) (data : List Byte) :
    (s.answer l x data).FeedsRuled strict [l] := by
  unfold State.answer
  exact ((((h.setLane (by simp) .idle).withArbiter rfl :
    ((s.setLane (ext l) .idle).respond l { status := x, data := data }).FeedsRuled strict [l]).endReservation _)).settlePort

theorem State.FeedsRuled.refuse (h : s.FeedsRuled strict [l]) (r : Request) (reason : RefusalReason) (n : SSN) :
    (s.refuse l r reason n).FeedsRuled strict [l] :=
  (h.hand _).answer _ _

theorem State.FeedsRuled.serveRead (h : s.FeedsRuled strict [l]) (hsu : s.ps.run = .running su)
    (hp : (s.feed f).status = .attached p) (hz : su.feedZone f = some z) (hlane : su.feedLane f = some l) {k : Nat}
    (hread : su.interpretRead p k = .serve n reread) (r : Request) : (s.serveRead su l f z r n reread).FeedsRuled strict [] := by
  obtain ⟨hplaced, hruled⟩ := h.running su hsu
  have hreach : strict → (reread = true → n = p.last) ∧ (reread = false → distance p.last n ≤ su.spreadMax) := fun hs =>
    Setup.interpretRead_reach ((hruled hs).next_eq hplaced hlane hp hz) (hruled hs).limits hread
  obtain ⟨hprepared, hf, td, htd, hn⟩ := h.prepareRead hsu hp hz hreach
  have hrun : (s.prepareRead su z f n reread).ps.run = .running su :=
    (congrArg PlanShadow.run (s.scheduled_prepareRead su z f n reread).ps).trans hsu
  have hagain := fun hs => (hreach hs).1
  unfold State.serveRead
  dsimp only
  generalize s.prepareRead su z f n reread = d at *
  rw [← hf] at hp
  split
  · exact ((((hprepared.redirect hrun hp hz hlane htd hn hagain _ _ _ _).settlePort).examineAfter s su)).settlePort
  · exact (((hprepared.completedRead hrun hp hz hlane htd hn hagain).examineAfter s su).answer _ _).released

/-! ## Taking a request (R18, R50) -/

theorem State.FeedsRuled.present (h : s.FeedsRuled strict [l]) (a : Access) : (s.present (ext l) a).FeedsRuled strict [l] :=
  h.setLane (by simp) _

theorem State.FeedsRuled.takePlanWrite (h : s.FeedsRuled strict [l]) (r : Request) :
    (s.takePlanWrite l r).FeedsRuled strict [l] := by
  unfold State.takePlanWrite
  split
  · exact h.refuse r _ _
  · split
    · split
      · split
        · exact h.refuse r _ _
        · exact ((h.withReports _ : s.markReadWrite.FeedsRuled strict [l]).present _).settlePort
      · exact (h.present _).settlePort
    · exact (h.present _).settlePort

/-- A write held back keeps its lane busy. -/
theorem State.FeedsRuled.holdWrite (h : s.FeedsRuled strict [l]) (g : RingId) (k : Nat) (old : SSN) (r : Request) :
    (s.holdWrite l g k old r).FeedsRuled strict [] := by
  have hset := h.setLane (l := l) (by simp) (.held r)
  refine ⟨fun su hsu => ?_, fun hrun => ?_⟩
  · obtain ⟨hplaced, hlawful⟩ := hset.running su hsu
    refine ⟨⟨hplaced.set, hplaced.zoned⟩, fun hs => ?_⟩
    have hreleased := (hlawful hs).released
    refine ⟨hreleased.limits, hreleased.reads, fun x hx => ?_, fun z tl htl =>
      (hreleased.zones z tl htl).of_feeds fun _ _ => rfl⟩
    rcases List.mem_append.mp hx with hold | hnew
    · exact hreleased.held x hold
    · obtain rfl := List.mem_singleton.mp hnew
      have hlane : (s.holdWrite l g k old r).lane (ext l) = .held r := State.lane_setLane _ _ _
      rw [hlane]
      exact ⟨by simp, rfl, rfl⟩
  · obtain ⟨hunset, hapart⟩ := hset.stopped hrun
    exact ⟨hunset, hapart⟩

theorem State.FeedsRuled.takeRingWrite (h : s.FeedsRuled strict [l]) (su : Setup) (g : RingId) (r : Request) :
    (s.takeRingWrite su l g r).FeedsRuled strict [] := by
  unfold State.takeRingWrite
  dsimp only
  split
  · exact (h.refuse r _ _).released
  · exact ((h.holdWrite g _ _ r).endReservation _).settlePort
  · exact (h.kept (s.feedsKept_acceptRingWrite (by simp) su g _ r)).settlePort.released

theorem State.run_of_setup (hsu : s.setup = some su) (hrun : s.isRunning = true) : s.ps.run = .running su := by
  obtain ⟨su', hsu'⟩ := State.exists_running hrun
  rw [State.setup, hsu'] at hsu
  rw [hsu', Option.some.inj hsu]

theorem State.FeedsRuled.takeViewRead (h : s.FeedsRuled strict [l]) (hsu : s.setup = some su)
    (hlane : su.feedLane f = some l) (r : Request) : (s.takeViewRead su l f r).FeedsRuled strict [] := by
  have hrefuse := fun reason n => (h.refuse r reason n).released
  unfold State.takeViewRead
  split
  · exact hrefuse _ _
  · next hrun =>
    have hrun : s.ps.run = .running su := State.run_of_setup hsu (by simpa using hrun)
    split
    · exact hrefuse _ _
    · split
      · exact hrefuse _ _
      · exact hrefuse _ _
      · next p hp =>
        split
        · next n reread z hread hz => exact h.serveRead hrun hp hz hlane hread r
        · exact hrefuse _ _
        · exact hrefuse _ _

/-- Only the feed's own lane may read its aperture. -/
theorem State.feedLane_of_may {dir : Direction} (hsu : s.setup = some su) (hmay : s.may l (.view f) dir = true) :
    su.feedLane f = some l := by
  simp only [State.may, hsu] at hmay
  split at hmay
  · cases hmay
  · simp [controlMay] at hmay
  · simp [Setup.ingestMay] at hmay
  · rw [Setup.emissionMay_iff] at hmay
    obtain hplain | ⟨_, g, hg, hlane⟩ := hmay
    · cases hplain
    · rw [Area.view.inj hg]
      exact hlane

theorem State.FeedsRuled.route (h : s.FeedsRuled strict [l]) {area : Area} (hmay : s.may l area r.body.dir = true) :
    (s.route l r area).FeedsRuled strict [] := by
  unfold State.route
  split
  · exact (h.takePlanWrite r).released
  · exact h.takeRingWrite _ _ r
  · exact h.takeRingWrite _ _ r
  · next hsu => exact h.takeViewRead hsu (State.feedLane_of_may hsu hmay) r
  · exact ((h.present _).settlePort).released

theorem State.FeedsRuled.takeRequest (h : s.FeedsRuled strict []) (hidle : (s.lane (ext l)).idle? = true) (r : Request) :
    (s.takeRequest l r).FeedsRuled strict [] := by
  have htaken := (h.inHand (.inl hidle)).setLane (l := l) (by simp) (.taken r)
  unfold State.takeRequest
  dsimp only
  split
  · exact (htaken.refuse r _ _).released
  · split
    · exact (htaken.refuse r _ _).released
    · split
      · exact (htaken.refuse r _ _).released
      · next hmay => exact htaken.route (by simpa using hmay)

theorem State.FeedsRuled.takeKept (h : s.FeedsRuled strict []) (l : Fin 8) (q : List Request) :
    (State.takeKept l q s).FeedsRuled strict [] := by
  induction q generalizing s with
  | nil => exact h.withArbiter rfl
  | cons r q ih =>
    unfold State.takeKept
    split
    · next hidle => exact ih (h.takeRequest hidle r)
    · exact h.withArbiter rfl

theorem State.FeedsRuled.presentRequest (h : s.FeedsRuled strict []) (l : Fin 8) (r : Request) :
    (s.presentRequest l r).FeedsRuled strict [] :=
  h.takeKept l _

/-! ## Changes of run state (R63, R64, R66) -/

/-- Outside RUNNING there is nothing but the absence of feeds. -/
theorem State.NoFeeds.ruled (h : s.NoFeeds) (hrun : s.isRunning = false) : s.FeedsRuled strict off :=
  ⟨fun _ hsu => absurd ((State.isRunning_of_running hsu).symm.trans hrun) nofun, fun _ => h⟩

theorem State.noFeeds_of_reset (hvr : s.vr = State.reset.vr) (hzones : ∀ z, (s.zone z).timeline = none) : s.NoFeeds :=
  ⟨hzones, fun f p => by rw [State.feed_congr hvr, State.feed_reset]; simp⟩

theorem State.feedsRuled_enterConfig (s : State) : s.enterConfig.FeedsRuled strict off := by
  have hnone : s.enterConfig.NoFeeds := State.noFeeds_of_reset rfl fun z => by
    rw [State.zone_enterConfig]
    rfl
  exact hnone.ruled rfl

theorem State.FeedsRuled.enterIfDue (h : s.FeedsRuled strict off) : s.enterIfDue.FeedsRuled strict off := by
  unfold State.enterIfDue
  split
  · exact s.feedsRuled_enterConfig
  · exact h

/-- The end of an external completion: the lane in hand is idle. -/
theorem State.FeedsRuled.finish (h : s.FeedsRuled strict [l]) (g : Grant) (x : MemAnswer) (data : List Byte) :
    (s.finish l g x data).FeedsRuled strict [] := by
  have hidle : ((s.setLane (ext l) .idle).respond l { status := answerStatus x, data := data }).FeedsRuled strict [] :=
    ((h.setLane (by simp) .idle).withArbiter rfl :
      ((s.setLane (ext l) .idle).respond l { status := answerStatus x, data := data }).FeedsRuled strict [l]).released
  exact (hidle.enterIfDue.closePort g x).takeKept l _

/-- A setup comes into force with every zone unset, every feed detached and nothing held. -/
theorem State.feedsRuled_commitState (hvalid : s.validateSetup su = none) : (s.commitState su).FeedsRuled strict off := by
  have hzone : ∀ z, ((s.commitState su).zone z).timeline = none := fun z => by rw [State.zone_commitState]; rfl
  have hfeed : ∀ f, (s.commitState su).feed f = State.reset.feed f := fun f => State.feed_congr rfl f
  have hstatus : ∀ f p, ((s.commitState su).feed f).status ≠ .attached p := fun f p => by
    rw [hfeed, State.feed_reset]
    simp
  refine ⟨fun su' hsu => ?_, nofun⟩
  obtain rfl : su = su' := RunState.running.inj hsu
  refine ⟨⟨fun z => ?_, fun f p hp => absurd hp (hstatus f p)⟩, fun _ => ⟨?_, fun f rd hrd _ => ?_, nofun, fun z tl htl => ?_⟩⟩
  · rw [hzone]
    exact ⟨nofun, fun ⟨f, p, hp, _⟩ => absurd hp (hstatus f p)⟩
  · have hchecks := (committedSetupIsValid s su).1.mp hvalid
    have hspread : 16 ≤ su.spreadMax ∧ su.spreadMax ≤ min su.nr su.rs / 2 := by
      by_contra hout
      exact hchecks .timingDef 0x028 (.inl ⟨hout, rfl⟩)
    have hnr : ∃ i, 8 ≤ i ∧ i ≤ 13 ∧ su.nr = 2 ^ i := by
      by_contra hout
      exact hchecks .ringSize 0x020 (.inl ⟨hout, rfl⟩)
    obtain ⟨i, _, hi, hsize⟩ := hnr
    have hpow : 2 ^ i ≤ 2 ^ 13 := Nat.pow_le_pow_right (by omega) hi
    omega
  · rw [hfeed, State.feed_reset] at hrd
    cases hrd
  · rw [hzone] at htl
    cases htl

end

end Sys2Proof.Machine
end

section
/-! Every command keeps the laws of zones and feeds (R125, R145). -/

namespace Sys2Proof.Machine

section
variable {strict : Prop} {off : List (Fin 8)} {s t : State} {su : Setup} {l : Fin 8} {f : Fin 32} {g : Grant} {a : Access}

/-! ## Run states (R59, R64) -/

theorem State.running_or_stopping (hsu : s.setup = some su) : s.ps.run = .running su ∨ s.ps.run = .stopping su := by
  unfold State.setup RunState.setup at hsu
  split at hsu
  · cases hsu
  · next hrun => exact .inl (Option.some.inj hsu ▸ hrun)
  · next hrun => exact .inr (Option.some.inj hsu ▸ hrun)

theorem State.isRunning_of_stopping (h : s.ps.run = .stopping su) : s.isRunning = false := by
  simp [State.isRunning, h]

/-- A slip under the setup in force: in STOPPING there is no feed to slip. -/
theorem State.FeedsRuled.slipInForce (h : s.FeedsRuled strict off) (hsu : s.setup = some su) (reason : FeedReason) (f : Fin 32) :
    (s.slip su reason f).FeedsRuled strict off := by
  rcases State.running_or_stopping hsu with hrun | hrun
  · exact h.slip hrun reason f
  · have hstay : s.slip su reason f = s := by
      unfold State.slip
      split
      · next p hp => exact absurd hp ((h.stopped (State.isRunning_of_stopping hrun)).apart f p)
      · rfl
    rw [hstay]
    exact h

/-- STOP unsets every zone and detaches every feed. -/
theorem State.feedsRuled_doStop (hrun : s.ps.run = .running su) : (s.doStop su s.command).FeedsRuled strict off := by
  obtain ⟨hps, hzs, _, _⟩ := s.stopStarted_spec su hrun
  have hfeeds := fun k => State.feed_stopFeeds (s := s.stopStarted su) (su := su) (List.finRange 32) (List.nodup_finRange 32) k
  have hsame := State.sameBut_stopFeeds (s := s.stopStarted su) (su := su) (List.finRange 32)
  rw [State.doStop_eq]
  generalize (List.finRange 32).foldl (fun s f => s.stopFeed su f) (s.stopStarted su) = v at *
  refine State.FeedsRuled.examine (State.NoFeeds.ruled ⟨fun z => ?_, fun f p => ?_⟩ ?_) su
  · have hv : v.zs = (s.withZones s.zs.stopped).zs := (hsame .zs (by simp)).trans hzs
    rw [State.zone_congr hv, State.zone_withZones_stopped]
    rfl
  · rw [hfeeds, if_pos (List.mem_finRange f)]
    unfold Feed.stopped
    simp
  · rw [State.isRunning, show v.ps = _ from (hsame .ps (by simp)).trans hps]

/-! ## Acts of completed plan writes (R55) -/

theorem State.FeedsRuled.submitRecord (h : s.FeedsRuled strict off) (l : Fin 9) (w : Fin 64) :
    (s.submitRecord l w).FeedsRuled strict off := by
  unfold State.submitRecord
  repeat' split
  all_goals exact (h.setWindow w _).hand _

theorem State.FeedsRuled.doCommit (h : s.FeedsRuled strict off) : s.doCommit.FeedsRuled strict off := by
  unfold State.doCommit
  split
  · cases hvalid : s.validateSetup (setupOfCopy s.ps.planCopy) with
    | none =>
      rw [State.commitSetup_of_valid _ hvalid]
      have hcommitted := (State.feedsRuled_commitState (strict := strict) (off := off) hvalid).hand
        (.setupResult s.command.ticket .ok 0)
      unfold State.committed
      dsimp only
      split
      · exact hcommitted.hand _
      · exact hcommitted
    | some failed =>
      rw [State.commitSetup_of_failed _ hvalid]
      exact h.hand _
  · exact h.handResult _ _

theorem State.FeedsRuled.inRunning (h : s.FeedsRuled strict off) {act : Setup → CommandRec → State}
    (hact : ∀ su, s.ps.run = .running su → (act su s.command).FeedsRuled strict off) : (s.inRunning act).FeedsRuled strict off := by
  unfold State.inRunning
  split
  · next su hrun => exact hact su hrun
  · exact h.handResult _ _

theorem State.run_handResult (s : State) (c : CommandRec) (x : CommandResult) : (s.handResult c x).ps.run = s.ps.run :=
  congrArg PlanShadow.run (s.zoned_hand _).scheduled.ps

theorem State.FeedsRuled.doCancel (h : s.FeedsRuled strict off) (su : Setup) (c : CommandRec) :
    (s.doCancel su c).FeedsRuled strict off := by
  unfold State.doCancel
  split
  · exact h.handResult _ _
  · dsimp only
    split
    · exact (h.handResult _ _).kept (State.feedsKept_cancelWindow _ su _)
    · exact h.handResult _ _

theorem State.FeedsRuled.doHold (h : s.FeedsRuled strict off) (su : Setup) (c : CommandRec) :
    (s.doHold su c).FeedsRuled strict off := by
  unfold State.doHold
  split
  · exact h.handResult _ _
  · split
    · exact (h.handResult _ _).kept (State.feedsKept_holdZones _ su _ _)
    · exact h.handResult _ _

theorem State.FeedsRuled.doRelease (h : s.FeedsRuled strict off) (su : Setup) (c : CommandRec) :
    (s.doRelease su c).FeedsRuled strict off := by
  unfold State.doRelease
  split
  · exact ((h.handResult _ _).kept (State.feedsKept_updZones _ (zonesIn c.arg1) (f := Zone.commandReleased) fun _ => rfl)).hand _
  · exact h.handResult _ _

theorem State.attachResult_handResult (s : State) (c : CommandRec) (x : CommandResult) (su : Setup) (f : Fin 32) (start : SSN) :
    (s.handResult c x).attachResult su f start = s.attachResult su f start := by
  simp only [State.attachResult, State.handResult, State.feed_congr (s.vr_hand _), State.zone_congr (s.zs_hand _)]

theorem State.FeedsRuled.doAttach (h : s.FeedsRuled strict off) (hrun : s.ps.run = .running su) (c : CommandRec) :
    (s.doAttach su c).FeedsRuled strict off := by
  unfold State.doAttach
  split
  · exact h.handResult _ _
  · dsimp only
    split
    · next haccepted =>
      refine (h.handResult _ _).attachFeed ((s.run_handResult _ _).trans hrun) ?_
      rw [State.attachResult_handResult]
      exact haccepted
    · exact h.handResult _ _

theorem State.FeedsRuled.doDetach (h : s.FeedsRuled strict off) (hrun : s.ps.run = .running su) (c : CommandRec) :
    (s.doDetach su c).FeedsRuled strict off := by
  unfold State.doDetach
  split
  · exact h.handResult _ _
  · dsimp only
    split
    · exact ((h.handResult _ _).detachFeed ((s.run_handResult _ _).trans hrun) _).examineAfter _ su
    · exact h.handResult _ _

/-! ## Completions (R33) -/

/-- The lane of an access in progress that is no view read is taken in hand. -/
theorem State.FeedsRuled.completing (h : s.FeedsRuled strict []) (hp : s.externalInProgress = some (l, g, a))
    (hkind : ∀ f, a.kind ≠ .view f) (x : MemAnswer) : (s.answered l a x).FeedsRuled strict [l] :=
  (h.inHand (.inr ⟨a, s.presents_externalInProgress hp, fun f hf => absurd hf (hkind f)⟩)).answered l a x

theorem State.FeedsRuled.copyLanded (h : s.FeedsRuled strict off) (r : Request) : (s.copyLanded r).FeedsRuled strict off := by
  have hrun : (s.ps.landed (s.planOffset r) r.body.data).run = s.ps.run := by simp only [PlanShadow.landed]
  exact h.withPlan hrun

theorem State.FeedsRuled.planAct (h : s.FeedsRuled strict []) (row : PlanRow) (act : Fin 8 → Request → State → State)
    (hact : ∀ l r u, u.FeedsRuled strict [l] → (act l r u).FeedsRuled strict [l]) : (s.planAct row act).FeedsRuled strict [] := by
  unfold State.planAct
  split
  · next l g a hp =>
    split
    · next hkind =>
      split
      · exact (hact l a.req _ ((h.completing hp (by simp [hkind]) .okay).copyLanded a.req)).finish g _ _
      · exact h
    · exact h
  · exact h

theorem State.FeedsRuled.copyUnsettled (h : s.FeedsRuled strict off) (r : Request) :
    (s.copyUnsettled r).FeedsRuled strict off := by
  obtain ⟨_, _, hrun, _⟩ := s.copyUnsettled_fields r
  exact h.withPlan hrun

theorem State.FeedsRuled.planFault (h : s.FeedsRuled strict []) : s.planFault.FeedsRuled strict [] := by
  unfold State.planFault
  split
  · next l g a hp =>
    split
    · next hkind =>
      exact ((h.completing hp (by simp [hkind]) .error).copyUnsettled a.req).finish g _ _
    · exact h
  · exact h

theorem State.FeedsRuled.takeReadIndex (h : s.FeedsRuled strict off) (o : Nat) (d : List Byte) (x : MemAnswer) :
    (s.takeReadIndex o d x).FeedsRuled strict off := by
  unfold State.takeReadIndex
  split <;> exact h.withReports _

theorem State.FeedsRuled.setHealth (h : s.FeedsRuled strict off) (r : Fin 12) (p : Path) (x : Health) :
    (s.setHealth r p x).FeedsRuled strict off := by
  unfold State.setHealth
  dsimp only
  split
  · exact h
  · exact (h.withIngest _).hand _

theorem State.FeedsRuled.completeRingWrite (h : s.FeedsRuled strict off) (su : Setup) (ring : RingId) (k : Nat) (x : MemAnswer) :
    (s.completeRingWrite su ring k x).FeedsRuled strict off := by
  unfold State.completeRingWrite
  split
  · exact h
  · next e _ =>
    split
    · dsimp only
      generalize hu : s.setEntry ring k _ = u
      have hset : u.FeedsRuled strict off := hu ▸ h.withIngest _
      generalize hv : (if s.lateSet su ring e.ssn = 0 then u else u.hand _) = v
      have hlate : v.FeedsRuled strict off := by
        rw [← hv]
        split
        · exact hset
        · exact hset.hand _
      cases ring
      · exact hlate
      · exact (hlate.withIngest _).setHealth _ _ _
    · exact h

/-- The read in flight that completes is settled under the setup in force; in STOPPING no feed moves. -/
theorem State.FeedsRuled.settledInForce (h : s.FeedsRuled strict off) (hsu : s.setup = some su) {rd : InFlight}
    (hrd : (s.feed f).inFlight = some rd) : (s.viewReadSettled su f rd).FeedsRuled strict off := by
  rcases State.running_or_stopping hsu with hrun | hrun
  · exact h.viewReadSettled hrun hrd
  · obtain ⟨hunset, hapart⟩ := h.stopped (State.isRunning_of_stopping hrun)
    rw [State.viewReadSettled_of_apart (.inr (.inl (hapart f)))]
    refine State.NoFeeds.ruled ⟨hunset, fun k p => ?_⟩ (State.isRunning_of_stopping (su := su) hrun)
    rw [State.feed_setFeed_eq]
    split
    · next hk => exact hapart f p
    · exact hapart k p

theorem State.FeedsRuled.completeView (h : s.FeedsRuled strict []) (hp : s.externalInProgress = some (l, g, a))
    (hsu : s.setup = some su) (hkind : a.kind = .view f) {rd : InFlight} (hrd : (s.feed f).inFlight = some rd) (x : MemAnswer) :
    (s.completeView su l g a f rd x).FeedsRuled strict [] := by
  have hsame := s.sameBut_answered l a x
  have hanswered := h.answered l a x
  have hlane := s.presents_externalInProgress hp
  have hsettled := State.sameBut_viewReadSettled (s := s.answered l a x) (su := su) (f := f) (rd := rd)
  obtain ⟨hnone, _⟩ := State.feed_viewReadSettled (s := s.answered l a x) (su := su) (f := f) (rd := rd)
  have hread := hanswered.settledInForce (f := f) (rd := rd)
    (by rw [State.setup, show (s.answered l a x).ps = s.ps from hsame .ps (by simp)]; exact hsu)
    (by rw [State.feed_congr (hsame .vr (by simp))]; exact hrd)
  refine State.FeedsRuled.finish (((hread.inHand (l := l) (.inr ⟨a, ?_, fun k hk rd' hrd' => ?_⟩))).examine su) g _ _
  · rw [State.Presents, State.lane_congr ((hsettled .la (by simp)).trans (hsame .la (by simp)))]
    exact hlane
  · obtain rfl : f = k := AccessKind.view.inj (hkind.symm.trans hk)
    rw [hnone] at hrd'
    cases hrd'

/-! ## The report lane (R188 to R194) -/

theorem State.FeedsRuled.presentReport (h : s.FeedsRuled strict off) (o : Nat) (d : List Byte) (k : AccessKind) :
    (s.presentReport o d k).FeedsRuled strict off :=
  h.setReportLane _

theorem State.FeedsRuled.takeReport (h : s.FeedsRuled strict off) : s.takeReport.FeedsRuled strict off := by
  unfold State.takeReport
  split
  · exact h
  · split
    · exact (h.withReports _).presentReport _ _ _
    · split
      · exact h.withReports _
      · exact (h.withReports _).presentReport _ _ _

theorem State.FeedsRuled.dropHand (h : s.FeedsRuled strict off) : s.dropHand.FeedsRuled strict off := h.withReports _

theorem State.FeedsRuled.enteringIf (h : s.FeedsRuled strict off) (c : Bool) :
    (if c = true then s.enterConfig else s).FeedsRuled strict off := by
  split
  · exact s.feedsRuled_enterConfig
  · exact h

theorem State.FeedsRuled.recordAnswered (h : s.FeedsRuled strict off) (su : Setup) (x : MemAnswer) :
    (s.recordAnswered su x).FeedsRuled strict off := by
  cases x
  · exact (h.withReports { s.rw with writeIndex := (s.rw.writeIndex + 1) % su.reportSize }).presentReport _ _ _
  · exact (h.withReports _ : s.loseRecord.FeedsRuled strict off).dropHand.enteringIf _

theorem State.FeedsRuled.indexWordDone (h : s.FeedsRuled strict off) : s.indexWordDone.FeedsRuled strict off :=
  h.dropHand.enteringIf _

theorem State.FeedsRuled.endDrain (h : s.FeedsRuled strict off) (su : Setup) : (s.endDrain su).FeedsRuled strict off := by
  unfold State.endDrain
  have hflag : ({ s with ps := { s.ps with drainFlag := true } } : State).FeedsRuled strict off := h.withPlan rfl
  dsimp only
  split
  · split
    · exact hflag.withReports _
    · exact (State.feedsRuled_enterConfig _).settlePort
  · exact ((hflag.withReports _).presentReport _ _ _).settlePort

/-! ## The Timebase and the expiries -/

theorem State.FeedsRuled.countTimers (h : s.FeedsRuled strict off) {change : HeldWrite → HeldWrite}
    (hchange : ∀ x, (change x).lane = x.lane) (hrun : t.ps.run = s.ps.run) (hvr : t.vr = s.vr)
    (htimelines : ∀ z, (t.zone z).timeline = (s.zone z).timeline) (hlanes : t.la.lanes = s.la.lanes)
    (hrg : t.rg.held = s.rg.held.map change) : t.FeedsRuled strict off :=
  h.kept {
    run := hrun
    vr := hvr
    timelines := htimelines
    presents := fun _ l a _ ha => by
      simp only [State.Presents, State.lane, hlanes] at ha ⊢
      exact ha
    held := fun hs y hy => by
      rw [hrg] at hy
      obtain ⟨x, hx, rfl⟩ := List.mem_map.mp hy
      simp only [State.lane, hlanes, hchange]
      exact hs x hx }

theorem State.FeedsRuled.tickAll (h : s.FeedsRuled strict off) (su : Setup) : (s.tickAll su).FeedsRuled strict off :=
  h.countTimers (change := su.tickHeld) (fun _ => rfl) rfl rfl (fun _ => rfl) rfl rfl

theorem State.FeedsRuled.countExpiry (h : s.FeedsRuled strict off) (l : Fin 8) : (s.countExpiry l).FeedsRuled strict off :=
  h.countTimers (change := fun x => if x.lane = l then { x with timer := 0, expiries := x.expiries + 1 } else x)
    (fun x => by split <;> rfl) rfl rfl (fun _ => rfl) rfl rfl

theorem State.FeedsRuled.refclk (h : s.FeedsRuled strict off) : s.refclk.FeedsRuled strict off := by
  unfold State.refclk
  split
  · exact h
  · split
    · exact h.withTimebase _
    · exact h.tickAll _

theorem State.FeedsRuled.expireLink (h : s.FeedsRuled strict off) (su : Setup) : (s.expireLink su).FeedsRuled strict off := by
  unfold State.expireLink
  split
  · split
    · exact (h.arbitrated (s.arbitrated_setPort .free)).settlePort
    · exact h
  · exact h

theorem State.FeedsRuled.expireSilence (h : s.FeedsRuled strict off) (su : Setup) (r : Fin 12) (p : Path) :
    (s.expireSilence su r p).FeedsRuled strict off := by
  unfold State.expireSilence
  split
  · split
    · exact (h.withIngest _).setHealth _ _ _
    · exact h
  · exact h

theorem State.FeedsRuled.expireHoldOf (h : s.FeedsRuled strict off) (hsu : s.setup = some su) (l : Fin 8) :
    (s.expireHoldOf su l).FeedsRuled strict off := by
  unfold State.expireHoldOf
  split
  · next x _ =>
    have hslipped : (s.slipAll su .holdExpired (s.slippedFeeds su x)).FeedsRuled strict off := by
      unfold State.slippedFeeds
      split
      · next hrun => exact h.slipAll (State.run_of_setup hsu hrun) _ _
      · exact h
    exact (((hslipped.countExpiry x.lane).hand _).examine su).settlePort
  · exact h

theorem State.FeedsRuled.expirePulse (h : s.FeedsRuled strict off) (su : Setup) : (s.expirePulse su).FeedsRuled strict off := by
  unfold State.expirePulse
  split
  · exact h
  · split
    · exact (h.withTimebase _).hand _
    · exact h
  · exact h

theorem State.FeedsRuled.reportPulse (h : s.FeedsRuled strict off) (su : Setup) (b : RefState) :
    (s.reportPulse su b).FeedsRuled strict off := by
  unfold State.reportPulse
  have hreference : (if b = .locked then s else s.handReference b .locked).FeedsRuled strict off := by
    split
    · exact h
    · exact h.hand _
  dsimp only
  split
  · exact hreference.hand _
  · exact hreference

theorem State.ps_slipStall (s : State) (su : Setup) (f : Fin 32) : (s.slipStall su f).ps = s.ps := by
  have hslip := (s.scheduled_slip su .stall f).ps
  have hexamine := (State.acted_examineAfter_list s (s.slip su .stall f) su).ps
  have hport := ((State.examineAfter s (s.slip su .stall f) su).arbitrated_settlePort.acted []).ps
  exact hport.trans (hexamine.trans hslip)

theorem State.FeedsRuled.slipStalls (h : s.FeedsRuled strict off) (hsu : s.setup = some su) (feeds : List (Fin 32)) :
    (feeds.foldl (fun s f => s.slipStall su f) s).FeedsRuled strict off := by
  induction feeds generalizing s with
  | nil => exact h
  | cons f feeds ih =>
    refine ih (((h.slipInForce hsu .stall f).examineAfter s su).settlePort) ?_
    rw [State.setup, s.ps_slipStall]
    exact hsu

theorem State.FeedsRuled.takePulse (h : s.FeedsRuled strict off) (hsu : s.setup = some su) :
    (s.takePulse su).FeedsRuled strict off := by
  have hcounted : (s.countPulse.reportPulse su s.tb.refState).FeedsRuled strict off := (h.withTimebase _).reportPulse su _
  have hps : (s.countPulse.reportPulse su s.tb.refState).ps = s.ps := State.sameBut_reportPulse s.countPulse su _ .ps (by simp)
  unfold State.takePulse State.stallCheck
  dsimp only
  split
  · refine (hcounted.settleStalls _).slipStalls ?_ _
    rw [State.setup, show (State.settleStalls _ _).ps = _ from hps]
    exact hsu
  · exact hcounted.settleStalls _

/-! ## RESET_N and HOLD_REQ -/

theorem State.feedsRuled_resetNAssert (s : State) :
    ({ s.abandonAccess.resetBlocks with resetAsserted := true } : State).FeedsRuled strict off := by
  have hnone : ({ s.abandonAccess.resetBlocks with resetAsserted := true } : State).NoFeeds :=
    State.noFeeds_of_reset rfl fun z => by
      have hzone : ({ s.abandonAccess.resetBlocks with resetAsserted := true } : State).zone z = State.reset.zone z := rfl
      rw [hzone, State.zone_reset]
      rfl
  exact hnone.ruled rfl

theorem State.FeedsRuled.withHoldReq (h : s.FeedsRuled strict off) (level : Bool) :
    (s.withHoldReq level).FeedsRuled strict off :=
  h.kept (State.feedsKept_of_lanes rfl rfl (fun _ => rfl) rfl rfl)

end

end Sys2Proof.Machine
end

section
/-! A step keeps the laws of zones and feeds (R125, R145): the walk over the commands, and the obligation. -/

namespace Sys2Proof.Machine

section
variable {strict : Prop} {s t : State}

theorem State.FeedsRuled.withPending (h : s.FeedsRuled strict []) (q : List Instr) : (s.withPending q).FeedsRuled strict [] :=
  h.kept (State.feedsKept_of_lanes rfl rfl (fun _ => rfl) rfl rfl)

theorem State.FeedsRuled.withStraps (h : s.FeedsRuled strict []) (p : BitVec 4) :
    ({ s with ac := { planSel := p }, resetAsserted := false } : State).FeedsRuled strict [] :=
  h.kept (State.feedsKept_of_lanes rfl rfl (fun _ => rfl) rfl rfl)

theorem State.FeedsRuled.reportAnswered (h : s.FeedsRuled strict []) (a : Access) (x : MemAnswer) :
    (s.reportAnswered a x).FeedsRuled strict [] :=
  (h.settleMemory a.req x).setReportLane .idle

/-- Every command keeps the laws of zones and feeds. -/
theorem State.FeedsRuled.exec {c : Instr} (h : s.FeedsRuled strict []) (hexec : exec c s = .next t) : t.FeedsRuled strict [] := by
  cases c with
  | resetNAssert =>
    cases hexec
    exact s.feedsRuled_resetNAssert
  | resetNRelease p =>
    cases hexec
    split
    · exact h.withStraps p
    · exact h
  | laneRequest l d addr n link data =>
    cases hexec
    split
    · exact h
    · exact h.presentRequest l _
  | plainAccessComplete x =>
    simp only [Machine.exec, execPlainAccessComplete] at hexec
    split at hexec
    · next l g a hp =>
      split at hexec <;> cases hexec
      · next hkind => exact (h.completing hp (by simp [hkind]) x).finish g _ _
      · exact h
    · cases hexec
      exact h
  | planWriteComplete x =>
    cases x <;> cases hexec
    · exact h.planAct _ _ fun _ _ u hu => hu
    · exact h.planFault
  | submit =>
    cases hexec
    exact h.planAct _ _ fun l r u hu => hu.foldl (fun v w hv => hv.submitRecord (ext l) w) _
  | commit =>
    cases hexec
    exact h.planAct _ _ fun _ _ u hu => hu.doCommit
  | stop =>
    cases hexec
    exact h.planAct _ _ fun _ _ u hu => hu.inRunning fun su hrun => State.feedsRuled_doStop hrun
  | cancel =>
    cases hexec
    exact h.planAct _ _ fun _ _ u hu => hu.inRunning fun su _ => hu.doCancel su _
  | hold =>
    cases hexec
    exact h.planAct _ _ fun _ _ u hu => hu.inRunning fun su _ => hu.doHold su _
  | release =>
    cases hexec
    exact h.planAct _ _ fun _ _ u hu => hu.inRunning fun su _ => hu.doRelease su _
  | attach =>
    cases hexec
    exact h.planAct _ _ fun _ _ u hu => hu.inRunning fun su hrun => hu.doAttach hrun _
  | detach =>
    cases hexec
    exact h.planAct _ _ fun _ _ u hu => hu.inRunning fun su hrun => hu.doDetach hrun _
  | badCommand =>
    cases hexec
    exact h.planAct _ _ fun _ _ u hu => hu.handResult _ _
  | readIndexWrite x =>
    simp only [Machine.exec, execReadIndexWrite] at hexec
    split at hexec
    · next l g a hp =>
      split at hexec <;> cases hexec
      · next hkind => exact ((h.completing hp (by simp [hkind]) x).takeReadIndex _ _ x).finish g _ _
      · exact h
    · cases hexec
      exact h
  | ringWriteComplete x =>
    simp only [Machine.exec, execRingWriteComplete] at hexec
    split at hexec
    · next l g a su hp _ =>
      split at hexec <;> cases hexec
      · next hkind => exact ((h.completing hp (by simp [hkind]) x).completeRingWrite su _ _ x).finish g _ _
      · next hkind => exact (h.completing hp (by simp [hkind]) x).finish g _ _
      · exact h
    · cases hexec
      exact h
  | viewReadComplete x =>
    simp only [Machine.exec, execViewReadComplete] at hexec
    split at hexec
    · next l g a su hp hsu =>
      split at hexec
      · next f hkind =>
        split at hexec <;> cases hexec
        · next hrd => exact h.completeView hp hsu hkind hrd x
        · exact h
      · cases hexec
        exact h
    · cases hexec
      exact h
  | tick =>
    cases hexec
    split
    · exact h.tickAll _
    · exact h
  | linkWaitExpiry =>
    cases hexec
    split
    · exact h.expireLink _
    · exact h
  | silenceLimitExpiry r p =>
    cases hexec
    split
    · exact h.expireSilence _ r p
    · exact h
  | holdLimitExpiry l =>
    cases hexec
    split
    · next hsu => exact h.expireHoldOf hsu l
    · exact h
  | pulseTimeoutExpiry =>
    cases hexec
    split
    · exact h.expirePulse _
    · exact h
  | refPulse =>
    cases hexec
    split
    · next hsu => exact h.takePulse hsu
    · exact h
  | holdReqAssert =>
    cases hexec
    split
    · exact h
    · split
      · exact (h.withHoldReq true).kept (State.feedsKept_assertPin _ _)
      · exact h.withHoldReq true
  | holdReqDeassert =>
    cases hexec
    split
    · split
      · exact (h.withHoldReq false).kept (State.feedsKept_deassertPin _ _)
      · exact h.withHoldReq false
    · exact h
  | drainEnd =>
    cases hexec
    split
    · split
      · exact h.endDrain _
      · exact h
    · exact h
  | reportTake =>
    cases hexec
    split
    · exact h.takeReport.settlePort
    · exact h
  | recordWriteComplete x =>
    simp only [Machine.exec, execRecordWriteComplete] at hexec
    split at hexec
    · next g a hp =>
      split at hexec <;> cases hexec
      · exact (h.reportAnswered a x).dropHand.closePort g x
      · exact ((h.reportAnswered a x).recordAnswered _ x).closePort g x
      · exact h
    · cases hexec
      exact h
  | writeIndexWordComplete x =>
    simp only [Machine.exec, execWriteIndexWordComplete] at hexec
    split at hexec
    · next g a hp =>
      split at hexec <;> cases hexec
      · exact (h.reportAnswered a x).indexWordDone.closePort g x
      · exact h
    · cases hexec
      exact h

theorem State.FeedsRuled.step (h : s.FeedsRuled strict []) (hstep : step s = .next t) : t.FeedsRuled strict [] := by
  unfold Machine.step at hstep
  split at hstep
  · cases hstep
    exact h.refclk
  · next c q _ => exact (h.withPending q).exec hstep

end

/-- Settles O58: each act of a step keeps the laws as an invariant, with the lanes it has in hand left out. The laws of SSNs
ask besides that a held write's lane has no view read at the port, which the capacities give. -/
theorem stepKeepsZonesFollowFeeds : Obligations.StepKeepsZonesFollowFeeds := by
  refine ⟨fun s t hzones hstep => ?_, fun s t hzones hwithin hcap hstep => ?_⟩
  · have hruled : s.FeedsRuled False [] := hzones.ruled fun _ _ hstrict => hstrict.elim
    exact (hruled.step hstep).zonesFollowFeeds
  · have hruled : s.FeedsRuled True [] := hzones.ruled fun su hrun _ =>
      hwithin.lawful hrun ((State.zonesFollowFeeds_of_running hrun).mp hzones) hcap.held.apart
    exact (hruled.step hstep).feedsWithinZones

end Sys2Proof.Machine
end
